-- ==== Sys2Proof/Word.lean ====
section
/-! DEFINITION. Words, store addresses and the numbering of outputs, channels, divisions and stops
(00_scope.md, WORDS AND VALUES, STORE ADDRESSES, ORGAN LAYOUT). -/

namespace Sys2Proof

/-- A word of the shared store and of the Console Port: 16 bits, bit 0 the least significant. -/
abbrev Word := BitVec 16

/-- A store address: word addresses 0000h to 7FFFh, so 15 bits. -/
abbrev StoreAddr := BitVec 15

/-- An output: one of 256 magnet drive lines. -/
abbrev OutputId := Fin 256

/-- A microphone channel, 0 to 3. -/
abbrev ChannelId := Fin 4

/-- A division: Great 0, Swell 1, Positive 2, Pedal 3. -/
abbrev Division := Fin 4

/-- A stop, 0 to 63. -/
abbrev StopId := Fin 64

end Sys2Proof
end

