-- ==== Sys2Proof/Syntax.lean ====
section
/-! DEFINITION. The commands: one constructor of `Instr` per row of spec/opcode_table.json, with the
operands that come from outside the part. The rows carry no bits, so a command is not a word. -/

namespace Sys2Proof

/-- Sense state a driver board returns for an output (R164). -/
inductive Sense where
  | none | holdOk | pullOk | over
  deriving DecidableEq, Repr

/-- The registers a console write to which is ignored (R38): Attention and the two Part State words. -/
inductive ReadOnlyReg where
  | attention | partState0 | partState1
  deriving DecidableEq, Repr

/-- The steps of the part (opcode_table.json, 95_what_each_step_holds.md). -/
inductive Instr where
  /-- RESET: assertion of RESETn or power-on (R2). -/
  | reset
  /-- CLEARING_END: the store clearing completes (R2). -/
  | clearingEnd
  /-- STORE_READ: the console reads the store word at `addr` (R38). -/
  | storeRead (addr : StoreAddr)
  /-- STORE_WRITE: the console writes `value` at `addr` (R38). -/
  | storeWrite (addr : StoreAddr) (value : Word)
  /-- ARBITER_SERVE: the arbiter serves the next waiting word access (R39). -/
  | arbiterServe
  /-- TAKE: the console writes B401h to Transfer (R40, R41). -/
  | take
  /-- HALT: the console writes B402h to Transfer (R45). -/
  | halt
  /-- SOFT_RESET: the console writes B403h to Transfer (R46). -/
  | softReset
  /-- BAD_KEY: the console writes `value`, of wrong key or undefined action, to Transfer (R40). -/
  | badKey (value : Word)
  /-- REGISTER_WRITE_IGNORED: a console write to Attention or Part State (R38). -/
  | registerWriteIgnored (reg : ReadOnlyReg) (value : Word)
  /-- ATTENTION_READ (R52). -/
  | attentionRead
  /-- SETUP: the command reaches its owner (R47). -/
  | setup
  /-- SETUP_COPY_COMPLETE: the read of word 329 is served (R50). -/
  | setupCopyComplete
  /-- START (R117). -/
  | start
  /-- STOP (R119). -/
  | stop
  /-- HOLD (R111). -/
  | hold
  /-- RESUME (R111). -/
  | resume
  /-- NUDGE (R95). -/
  | nudge
  /-- POWER (R178). -/
  | power
  /-- TEST (R179). -/
  | test
  /-- CLEAR (R125). -/
  | clear
  /-- UNKNOWN: an undefined command code is read (R41). -/
  | unknown
  /-- CLOSING_COMPLETE: the write of the outcome code is served (R43). -/
  | closingComplete
  /-- SOFT_RESET_SECOND_STAGE (R46). -/
  | softResetSecondStage
  /-- LOOK_TIMER_EXPIRY (R21). -/
  | lookTimerExpiry
  /-- STREAM_PASS: the 1 ms stream timer expires (R28). -/
  | streamPass
  /-- STAMP_EXCHANGE (R23). -/
  | stampExchange
  /-- PASSAGE_END (R102). -/
  | passageEnd
  /-- BEAT_BOUNDARY (R56). -/
  | beatBoundary
  /-- NOW_WRITE_COMPLETE: the close-sequence write is served (R56). -/
  | nowWriteComplete
  /-- AUDIO_SAMPLE: an I2S word of `width` bits arrives on `channel` (R58). -/
  | audioSample (channel : ChannelId) (width : Nat) (word : Nat)
  /-- FRAME_END: the 240th sample of each channel has passed the filter (R58). -/
  | frameEnd
  /-- CUTOFF: the reported cutoff reaches the Player (R71, R109). -/
  | cutoff
  /-- MASK_EXPIRY (R69). -/
  | maskExpiry
  /-- CUE_CLOSE (R82). -/
  | cueClose
  /-- CUE_PASS (R91). -/
  | cuePass
  /-- FERMATA_HOLDING_START (R106). -/
  | fermataHoldingStart
  /-- MAX_HOLD_EXPIRY (R108). -/
  | maxHoldExpiry
  /-- LEAD_EXPIRY (R108). -/
  | leadExpiry
  /-- STARVE_TIMER_EXPIRY (R114). -/
  | starveTimerExpiry
  /-- CLOCK_SATURATION (R124). -/
  | clockSaturation
  /-- SLICE (R133). -/
  | slice
  /-- PULL_IN_END of output `n` (R154). -/
  | pullInEnd (n : OutputId)
  /-- PULSE_END of output `n` (R155). -/
  | pulseEnd (n : OutputId)
  /-- SETTLE_END of output `n` (R157). -/
  | settleEnd (n : OutputId)
  /-- CIPHER_TIMER_EXPIRY of output `n` (R176). -/
  | cipherTimerExpiry (n : OutputId)
  /-- CADENCE_POINT: the supply sense stands at `sample` steps of 50 mV (R161, R168). -/
  | cadencePoint (sample : Nat)
  /-- FRAME_COMPLETE: chain in returned `echo` (none: no valid number) and the sense states,
  output 0 first (R164, R165). -/
  | frameComplete (echo : Option Nat) (senses : List Sense)
  /-- CHAIN_FAULT (R166). -/
  | chainFault
  /-- CHAIN_FAULT_CLEAR (R165). -/
  | chainFaultClear
  /-- SUPPLY_OUT_OF_RANGE (R171). -/
  | supplyOutOfRange
  /-- STUCK of output `n` (R174). -/
  | stuck (n : OutputId)
  /-- OPEN_IN_HOLD of output `n` (R174). -/
  | openInHold (n : OutputId)
  /-- TEST_NEXT_OUTPUT (R179). -/
  | testNextOutput
  /-- FAULT_RECORD_WRITTEN: the write of word 1 of a record is served (R177). -/
  | faultRecordWritten
  deriving DecidableEq, Repr

end Sys2Proof
end

