-- ==== Sys2Proof/Config.lean ====
section
/-! DEFINITION. The constants the manual fixes for the part, and the free values. -/

namespace Sys2Proof.Config

/-- Words of the shared store (R1). -/
def storeWords : Nat := 32768

/-- What a store word reads as that nothing has written since the clearing (R2: "every word from
0000h to 7FFFh is written with 0000h"). The ONE definition of an unlisted address. -/
def unwritten : Word := 0

/-- Last value of the performance clock (R124). -/
def clockMax : Nat := 4294967295

/-- Longest clearing, in microseconds (R2). -/
def clearingMax : Nat := 1000

/-- The slice period in microseconds (R130, R133). -/
def slicePeriod : Nat := 250

/-- The look interval in microseconds (R18: look timer of 20 ms). -/
def lookInterval : Nat := 20000

/-- The stream timer in microseconds (R28). -/
def streamInterval : Nat := 1000

/-- Spacing of cadence points in microseconds (R161). -/
def cadencePeriod : Nat := 1000

/-- Samples in an audio frame (R58). -/
def frameSamples : Nat := 240

/-- The retry cool-off in microseconds (R156). -/
def coolOff : Nat := 200000

/-- A key-on later than this after its keying time is late (R136). -/
def lateLimit : Int := 20000

/-- Capacities: Lookahead Window, Cue List, Step List (R130), Onset Queue (R64), Mask List (R68),
Pull-in Queue (R150). -/
def windowSize : Nat := 48
def cueListSize : Nat := 16
def stepListSize : Nat := 4
def onsetQueueSize : Nat := 16
def maskListSize : Nat := 32
def pullQueueSize : Nat := 64

/-- Bounds of T and Tn (R25, R74). -/
def periodMin : Nat := 250000
def periodMax : Nat := 2500000

/-- FREE VALUE (log 4). Which of the possible happenings comes next in an idle step: the manual
leaves open the order of events that meet, when a waiting access is served, when a command reaches
its owner and when clearing ends. Applied to `Part.fresh`. -/
opaque idleChoice : Nat → Nat

/-- FREE VALUE (log 18). The settle time, in ms, of a cipher release while no setup is in force:
R156 names "the settle time of the setup" and R51 says none is in force. Applied to `Part.fresh`
and kept within the 5-50 of R48 where it is used. -/
opaque settleUnconfigured : Nat → Nat

end Sys2Proof.Config
end

