-- ==== Sys2Proof/Machine/State.lean ====
section
/-! DEFINITION. The state of the part as plain data, the reasons a step can stop, and the state after
reset. Every type cites the rule that names the state it holds. -/

namespace Sys2Proof.Machine

/-! ## The shared store -/

/-- The shared store (R1): (word address, word) pairs, addresses strictly rising, no entry equal to
`Config.unwritten`. -/
abbrev Memory := List (Nat × Word)

/-! ## Console Port, arbiter and Service Unit (Chapter 3) -/

/-- The four requesters of the store arbiter, in cyclic order (R39). -/
inductive Requester where
  | console | planReader | reportWriter | serviceUnit
  deriving DecidableEq, Repr

/-- A console access (R38). `partState second`: a read of Part State word 0, or of word 1. -/
inductive PortAccess where
  | read (addr : StoreAddr)
  | write (addr : StoreAddr) (value : Word)
  | transfer (value : Word)
  | transferRead
  | attention
  | partState (second : Bool)
  | ignored (reg : ReadOnlyReg) (value : Word)
  deriving DecidableEq, Repr

/-- The Console Port (R38): the access held on WAIT first, then the ones the console brought after it, and
the words answered in the last event that answered any, in order (log 11). -/
structure Port where
  waiting : List PortAccess
  answers : List Word
  deriving DecidableEq, Repr

/-- Last transfer result (R40). -/
inductive TransferResult where
  | none | accepted | badKey | busy
  deriving DecidableEq, Repr

/-- Slot phases (R41). -/
inductive SlotPhase where
  | free | reading | applying | copying | testing | closing
  deriving DecidableEq, Repr

/-- The service slot inside the Service Unit: its phase, and the command code and arguments as read. -/
structure Slot where
  phase : SlotPhase
  command : Nat
  args : List Word
  deriving DecidableEq, Repr

/-- Fault kinds of the Magnet Fault Table (R16). -/
inductive FaultKind where
  | none | open | weak | over | stuck | cipher
  deriving DecidableEq, Repr

/-- A Fault Table record as the Output Guard captured it (R177): `passed` marks the record of a
passing TEST (R179), which carries disabled flag 0 and the count as found and latches no FAULT. -/
structure FaultRecord where
  output : OutputId
  kind : FaultKind
  retries : Nat
  clock : Nat
  passed : Bool
  deriving DecidableEq, Repr

/-- An access in the Service Unit's one line (R39). -/
inductive SvcAccess where
  | readCode
  | readArg (i : Nat)
  | readBoards
  | copyWord (k : Nat)
  | writeDetail (value : Word)
  | writeCode (value : Word)
  | faultRead (r : FaultRecord)
  | faultWord0 (r : FaultRecord) (found : Word)
  | faultWord1 (r : FaultRecord)
  | clearRead (n : OutputId)
  | clearWrite (n : OutputId) (found : Word)
  deriving DecidableEq, Repr

/-! ## The loaded setup (R12, R13) -/

/-- A decoded Output Map entry (R13, R49). -/
inductive MapEntry where
  | unused
  | key (division : Division) (key : Nat)
  | stopOn (stop : StopId)
  | stopOff (stop : StopId)
  deriving DecidableEq, Repr

/-- A microphone channel (R13). -/
structure Channel where
  enabled : Bool
  weight : Nat
  delay : Nat
  deriving DecidableEq, Repr

/-- The loaded setup, field by field as R12 lists them, after the clamps of R48. -/
structure Setup where
  boards : Nat
  outputMap : Vector MapEntry 256
  onLead : Vector Nat 32
  releaseLead : Vector Nat 4
  stopLead : Nat
  micDelay : Vector Nat 4
  channels : Vector Channel 4
  ratio : Nat
  emin : Nat
  refractory : Nat
  mergeSpan : Nat
  cutoffRatio : Nat
  cutoffPersistence : Nat
  mpre : Nat
  mpost : Nat
  horizon : Nat
  pmax : Nat
  pullIn : Nat
  settle : Nat
  stopPulse : Nat
  vhold : Nat
  vmin : Nat
  vcut : Nat
  vmax : Nat
  policy : Word
  cipherLimit : Nat
  starveLimit : Nat
  startLead : Nat
  resumeGap : Nat
  attnEnables : Word
  deriving DecidableEq, Repr

/-- No setup: the Output Map all UNUSED (R47, R51). The other values are not in force (log 12). -/
def Setup.unconfigured : Setup where
  boards := 0
  outputMap := Vector.replicate 256 .unused
  onLead := Vector.replicate 32 0
  releaseLead := Vector.replicate 4 0
  stopLead := 0
  micDelay := Vector.replicate 4 0
  channels := Vector.replicate 4 { enabled := false, weight := 0, delay := 0 }
  ratio := 0
  emin := 0
  refractory := 0
  mergeSpan := 0
  cutoffRatio := 0
  cutoffPersistence := 0
  mpre := 0
  mpost := 0
  horizon := 0
  pmax := 0
  pullIn := 0
  settle := 0
  stopPulse := 0
  vhold := 0
  vmin := 0
  vcut := 0
  vmax := 0
  policy := 0
  cipherLimit := 0
  starveLimit := 0
  startLead := 0
  resumeGap := 0
  attnEnables := 0

/-! ## The Plan Reader (Chapter 2) -/

/-- A stop entry of a step or of a base registration (R7, R11): DRAW or RETIRE one stop. -/
structure StopEntry where
  stop : StopId
  draw : Bool
  deriving DecidableEq, Repr

/-- A taken passage: every field of the record after the clamps of R25, the kept base registration
and the Music Block header copy (R18). `follow` is the follow mode, `next` the word as copied. -/
structure Passage where
  ptr : Nat
  next : Word
  sequence : Word
  kind : Nat
  follow : Bool
  block : Nat
  startPos : Nat
  endPos : Nat
  tn : Nat
  band : Nat
  window : Nat
  phaseGain : Nat
  periodGain : Nat
  missLimit : Nat
  entryGap : Nat
  leadAdjust : Int
  holdAtEntry : Bool
  baseCount : Nat
  baseReg : List StopEntry
  blockLength : Nat
  noteCount : Nat
  cueCount : Nat
  stepCount : Nat
  notePtr : Nat
  cuePtr : Nat
  stepPtr : Nat
  deriving DecidableEq, Repr

/-- A read cursor (R18): entry index, entry address, previous position read, finished flag. -/
structure Cursor where
  index : Nat
  addr : Nat
  prev : Option Nat
  finished : Bool
  deriving DecidableEq, Repr

/-- An occupied passage buffer: the passage, its plan index, its three cursors, and whether its base
registration step has been handed (R31). -/
structure Buffer where
  passage : Passage
  planIndex : Nat
  notes : Cursor
  cues : Cursor
  steps : Cursor
  baseDone : Bool
  deriving DecidableEq, Repr

/-- The next buffer (R18, R26). `spentReady`: the finishing passage has completed and its SPENT
write stands ready (R36). -/
inductive NextBuffer where
  | empty
  | following (b : Buffer)
  | finishing (ptr : Nat) (planIndex : Nat) (spentReady : Bool)
  deriving DecidableEq, Repr

/-- Look phases (R18). -/
inductive LookPhase where
  | off | waitingForNeed | seeking | endFound
  deriving DecidableEq, Repr

/-- A take in progress (R22): the passage being taken, whether it is START's head take, and the
words copied so far, each with its place (1-35 in the record, 100-107 in the header). -/
structure Take where
  ptr : Nat
  head : Bool
  got : List (Nat × Word)
  deriving DecidableEq, Repr

/-- An access of the Plan Reader (R39). `spent ptr held`: the SPENT write; `held` when the passage
is a finishing passage still in the next buffer. -/
inductive ReaderAccess where
  | lookNext
  | lookStamp (ptr : Nat)
  | headStamp (ptr : Nat)
  | copy
  | exchange
  | spent (ptr : Nat) (held : Bool)
  | abandon (ptr : Nat)
  deriving DecidableEq, Repr

/-- The three lists of a Music Block (R8). -/
inductive ListKind where
  | notes | cues | steps
  deriving DecidableEq, Repr

/-- A list a stream pass stands at (R28): of the next buffer where `ahead`, else of the current one. -/
structure Stage where
  ahead : Bool
  list : ListKind
  deriving DecidableEq, Repr

/-- A stream pass in progress (R28): its bound, the lists it still has to stream, the one it stands at
first, and the words read so far of the entry at that list's cursor (R1). -/
structure Pass where
  bound : Int
  left : List Stage
  got : List Word
  deriving DecidableEq, Repr

/-- The Plan Reader (R18, R28, R39). `passDue`: a pass fell due while one was in progress. -/
structure Reader where
  current : Option Buffer
  next : NextBuffer
  delta : Int
  planIndex : Nat
  phase : LookPhase
  lookTimer : Option Nat
  streamTimer : Option Nat
  stopAtEnd : Bool
  take : Option Take
  line : List ReaderAccess
  pass : Option Pass
  passDue : Bool
  deriving DecidableEq, Repr

/-! ## The Report Writer (R56, R57) -/

/-- The Report Writer: sequence number, next boundary, pending flag, whether the pending trigger
includes a beat, and the words of the write in progress still to be served. -/
structure Report where
  seq : Word
  boundary : Option Nat
  pending : Bool
  beatPending : Bool
  writing : List (Nat × Word)
  deriving DecidableEq, Repr

/-! ## The Listening Unit (Chapter 4) -/

/-- A channel's high-pass filter and the filter outputs not yet cut into a frame (R58). -/
structure Filter where
  prevIn : Int
  prevOut : Int
  samples : List Int
  deriving DecidableEq, Repr

/-- A channel's floor (R60, R61). -/
structure Floor where
  level : Nat
  resetPending : Bool
  refractoryEnd : Int
  deriving DecidableEq, Repr

/-- An Onset Queue entry (Chapter 4, THE ONSET QUEUE). -/
structure Onset where
  time : Int
  members : List (ChannelId × Nat)
  strength : Nat
  masked : Bool
  deriving DecidableEq, Repr

/-- A Mask List window (R67). -/
structure MaskWindow where
  start : Int
  stop : Int
  deriving DecidableEq, Repr

/-- Hold listening (R70, R71); `cutoff` is the reported cutoff's time, until the Player takes it. -/
structure HoldListening where
  active : Bool
  frames : Nat
  reference : Nat
  below : Nat
  cutoff : Option Int
  deriving DecidableEq, Repr

/-- The Listening Unit. -/
structure Listening where
  filters : Vector Filter 4
  floors : Vector Floor 4
  queue : List Onset
  masks : List MaskWindow
  hold : HoldListening
  deriving DecidableEq, Repr

/-! ## The Tempo Follower (R74) -/

/-- Follow states (R74). -/
inductive FollowState where
  | lead | track | coast | lost
  deriving DecidableEq, Repr

/-- Cue outcomes (R82). -/
inductive CueOutcome where
  | none | matched | miss | masked
  deriving DecidableEq, Repr

/-- The follower context (R74); `watched` is the close of the watched cue. -/
structure Follower where
  period : Nat
  tlo : Nat
  thi : Nat
  aPos : Int
  aTime : Int
  state : FollowState
  missCount : Nat
  pLast : Option Int
  atLimit : Bool
  lastOutcome : CueOutcome
  lastError : Int
  freeze : Option Int
  watched : Option Int
  deriving DecidableEq, Repr

/-! ## The Player (R105, R115) -/

/-- Player states (R115). -/
inductive PlayerState where
  | idle | running | held | starved | draining | locked
  deriving DecidableEq, Repr

/-- Fermata phases (R105). -/
inductive FermataPhase where
  | none | pending | holding | deferred
  deriving DecidableEq, Repr

/-- The fermata record (R105); `follow` is the mode recorded at the start of holding. -/
structure Fermata where
  phase : FermataPhase
  pf : Int
  hf : Nat
  maxHold : Nat
  breath : Nat
  follow : Bool
  deriving DecidableEq, Repr

/-- Plan-end reasons (R126). -/
inductive EndReason where
  | none | complete | stopped | starved | halted
  deriving DecidableEq, Repr

/-- Lock reasons (R122). -/
inductive LockReason where
  | none | badPassage | badBlock | power | clock
  deriving DecidableEq, Repr

/-- The Player (R115). -/
structure Player where
  state : PlayerState
  starting : Bool
  fermata : Fermata
  starveTimer : Option Nat
  endReason : EndReason
  lockReason : LockReason
  lockAddr : Nat
  deriving DecidableEq, Repr

/-! ## The Keying Scheduler (R130) -/

/-- States of a Lookahead Window entry (R131). -/
inductive NoteState where
  | pending | sounding | done
  deriving DecidableEq, Repr

/-- A Lookahead Window entry (R131); `claimed` lists the outputs whose claimed flag is set. -/
structure Note where
  position : Int
  release : Int
  division : Division
  key : Nat
  outputs : List OutputId
  planIndex : Nat
  holdAtEntry : Bool
  keyingLead : Int
  releaseLead : Int
  claimed : List OutputId
  state : NoteState
  deriving DecidableEq, Repr

/-- Cue kinds and classes (R10). -/
inductive CueKind where
  | attack | hold
  deriving DecidableEq, Repr

/-- Cue classes (R10). -/
inductive CueClass where
  | strong | normal | weak
  deriving DecidableEq, Repr

/-- A Cue List entry (R141). -/
structure Cue where
  position : Int
  kind : CueKind
  cls : CueClass
  hf : Nat
  maxHold : Nat
  breath : Nat
  planIndex : Nat
  deriving DecidableEq, Repr

/-- A Step List entry (R142). -/
structure Step where
  position : Int
  entries : List StopEntry
  planIndex : Nat
  holdAtEntry : Bool
  deriving DecidableEq, Repr

/-- The Keying Scheduler (R130); `drawn` true is DRAWN. -/
structure Scheduler where
  window : List Note
  cues : List Cue
  steps : List Step
  drawn : Vector Bool 64
  curIndex : Nat
  nextSlice : Nat
  deriving DecidableEq, Repr

/-! ## The Key Table and the Pull-in Arbiter (R146, R150, R153) -/

/-- Key Table entry states (R146). -/
inductive KeyState where
  | off | waiting | pull | hold | pulse | settle | disabled
  deriving DecidableEq, Repr

/-- The recorded kind of an entry (R146). -/
inductive OutputKind where
  | none | key | stop
  deriving DecidableEq, Repr

/-- A Key Table entry (R146). -/
structure KeyEntry where
  state : KeyState
  count : Nat
  kind : OutputKind
  timer : Option Nat
  coolOff : Bool
  deriving DecidableEq, Repr

/-- An OFF entry (R146). -/
def KeyEntry.idle : KeyEntry :=
  { state := .off, count := 0, kind := .none, timer := none, coolOff := false }

/-- The Key Table, the Pull-in Queue and the slot limit with the value it is lowered to (R153). -/
structure KeyTable where
  entries : Vector KeyEntry 256
  queue : List OutputId
  slotLimit : Nat
  slotTarget : Nat
  deriving DecidableEq, Repr

/-! ## Chain Engine and Supply Monitor (R161, R168) -/

/-- Drive states (R147, R162). -/
inductive Drive where
  | off | pull | hold
  deriving DecidableEq, Repr

/-- The frame in progress (R161, R162). -/
structure ChainFrame where
  seq : Nat
  boards : Nat
  drive : Vector Drive 256
  duty : Vector Nat 8
  deriving DecidableEq, Repr

/-- The Chain Engine (R161). `lastDuty` is the duty sent in the last completed frame (R164);
`faultDue` the CHAIN fault event not yet taken (R166); `clearDue` the clearing of the indication not yet taken
(R165); `nextCadence` the next cadence point. -/
structure Chain where
  length : Option Nat
  seq : Nat
  frame : Option ChainFrame
  lastDrive : Vector Drive 256
  lastDuty : Vector Nat 8
  bad : Nat
  good : Nat
  fault : Bool
  faultDue : Bool
  clearDue : Bool
  holdDuty : Vector Nat 8
  nextCadence : Nat
  deriving DecidableEq, Repr

/-- The Supply Monitor (R168); `outDue` is the out-of-range event not yet taken (R171). -/
structure Supply where
  vs : Nat
  vhold : Nat
  vmin : Nat
  vcut : Nat
  vmax : Nat
  below : Nat
  above : Nat
  undervolt : Bool
  outDue : Bool
  deriving DecidableEq, Repr

/-! ## The Output Guard and the Magnet Power Switch (R172, R178, R179) -/

/-- A pull-in record (R172): none, or the strongest sense state seen. -/
inductive PullRecord where
  | empty | none | holdOk | pullOk
  deriving DecidableEq, Repr

/-- A detector (R172); `stuckDue` is the STUCK event not yet taken (R174). -/
structure Detector where
  pullRecord : PullRecord
  holdCount : Nat
  stuckCount : Nat
  retryCount : Nat
  cipher : Option Nat
  stuckDue : Bool
  deriving DecidableEq, Repr

/-- A detector after reset (R172). -/
def Detector.idle : Detector :=
  { pullRecord := .empty, holdCount := 0, stuckCount := 0, retryCount := 0, cipher := none,
    stuckDue := false }

/-- Where the output under test stands (R179): waited for, test-pulled, or judged. -/
inductive TestStage where
  | waiting | pulled | judged
  deriving DecidableEq, Repr

/-- A TEST in progress (R179): the last output, the output under test, its mark, its stage. -/
structure Test where
  last : OutputId
  output : OutputId
  marked : Bool
  stage : TestStage
  deriving DecidableEq, Repr

/-- The Output Guard. -/
structure Guard where
  detectors : Vector Detector 256
  test : Option Test
  deriving DecidableEq, Repr

/-- Causes of the last OFF (R178). -/
inductive PowerCause where
  | command | chain | stuck | supply | reset | softReset
  deriving DecidableEq, Repr

/-- The Magnet Power Switch (R178). MPWR is driven high while `on`. -/
structure Power where
  on : Bool
  cause : PowerCause
  deriving DecidableEq, Repr

/-! ## The part -/

/-- Every piece of state of the part but the shared store. -/
structure Part where
  clearing : Bool
  clearFor : Nat
  time : Nat
  clock : Nat
  satTaken : Bool
  arb : Requester
  port : Port
  softReset : Bool
  lastTransfer : TransferResult
  lastCommand : Nat
  prevCommand : Nat
  attention : Word
  attnEnables : Word
  slot : Slot
  svcLine : List SvcAccess
  setupLoaded : Bool
  setup : Setup
  reader : Reader
  report : Report
  listen : Listening
  follower : Follower
  player : Player
  sched : Scheduler
  keys : KeyTable
  chain : Chain
  supply : Supply
  guard : Guard
  power : Power
  fresh : Nat
  deriving DecidableEq, Repr

/-- The state of the machine: the queue of waiting commands, the shared store, the part. -/
structure State where
  pending : List Instr
  store : Memory
  part : Part
  deriving DecidableEq, Repr

/-- Reasons a step stops with a fault. The manual names no behaviour at which the part stops. -/
inductive Fault where
  /-- Raised by nobody: no rule of the manual stops the part. Safe. -/
  | unreachable
  deriving DecidableEq, Repr

/-- Reasons a step refuses a command. -/
inductive Refusal where
  /-- Raised by `exec` for a command that has no meaning yet, by its mnemonic. Safe. -/
  | notModelled (mnemonic : String)
  deriving DecidableEq, Repr

/-! ## Reset values, block by block -/

/-- Slot after reset (R41). -/
def Slot.init : Slot := { phase := .free, command := 0, args := [] }

/-- Plan Reader after reset (R18). -/
def Reader.init : Reader where
  current := none
  next := .empty
  delta := 0
  planIndex := 0
  phase := .off
  lookTimer := none
  streamTimer := none
  stopAtEnd := false
  take := none
  line := []
  pass := none
  passDue := false

/-- Report Writer after reset (R57). -/
def Report.init : Report :=
  { seq := 0, boundary := none, pending := false, beatPending := false, writing := [] }

/-- Hold listening, inactive (R70). -/
def HoldListening.inactive : HoldListening :=
  { active := false, frames := 0, reference := 0, below := 0, cutoff := none }

/-- Listening Unit after reset (R58, R60, R61, R64, R69, R70). -/
def Listening.init : Listening where
  filters := Vector.replicate 4 { prevIn := 0, prevOut := 0, samples := [] }
  floors := Vector.replicate 4 { level := 1, resetPending := true, refractoryEnd := 0 }
  queue := []
  masks := []
  hold := HoldListening.inactive

/-- Follower context after reset (R74). -/
def Follower.init : Follower where
  period := 500000
  tlo := 250000
  thi := 2500000
  aPos := 0
  aTime := 0
  state := .lead
  missCount := 0
  pLast := none
  atLimit := false
  lastOutcome := .none
  lastError := 0
  freeze := none
  watched := none

/-- The fermata record with phase NONE and the other elements clear (R105). -/
def Fermata.init : Fermata :=
  { phase := .none, pf := 0, hf := 0, maxHold := 0, breath := 0, follow := false }

/-- Player after reset (R115). -/
def Player.init : Player where
  state := .idle
  starting := false
  fermata := Fermata.init
  starveTimer := none
  endReason := .none
  lockReason := .none
  lockAddr := 0

/-- Keying Scheduler after reset (R130), its next slice `first`. -/
def Scheduler.init (first : Nat) : Scheduler where
  window := []
  cues := []
  steps := []
  drawn := Vector.replicate 64 false
  curIndex := 0
  nextSlice := first

/-- Key Table after reset (R146, R153; the slot limit comes from the first SETUP, log 12). -/
def KeyTable.init : KeyTable where
  entries := Vector.replicate 256 KeyEntry.idle
  queue := []
  slotLimit := 0
  slotTarget := 0

/-- Chain Engine after reset (R161), its next cadence point `next`; before any frame has completed the last
duty is 0 (log 45). -/
def Chain.init (next : Nat) : Chain where
  length := none
  seq := 0
  frame := none
  lastDrive := Vector.replicate 256 .off
  lastDuty := Vector.replicate 8 0
  bad := 0
  good := 0
  fault := false
  faultDue := false
  clearDue := false
  holdDuty := Vector.replicate 8 0
  nextCadence := next

/-- Supply Monitor after reset (R168). -/
def Supply.init : Supply where
  vs := 0
  vhold := 0
  vmin := 0
  vcut := 0
  vmax := 1023
  below := 0
  above := 0
  undervolt := false
  outDue := false

/-- Output Guard after reset (R172). -/
def Guard.init : Guard := { detectors := Vector.replicate 256 Detector.idle, test := none }

/-- The part right after RESETn: CLEARING set until clearing ends (R2, R55), every block in its
reset state. -/
def Part.reset : Part where
  clearing := true
  clearFor := 0
  time := 0
  clock := 0
  satTaken := false
  arb := .serviceUnit
  port := { waiting := [], answers := [] }
  softReset := false
  lastTransfer := .none
  lastCommand := 0
  prevCommand := 0
  attention := 0
  attnEnables := 0
  slot := Slot.init
  svcLine := []
  setupLoaded := false
  setup := Setup.unconfigured
  reader := Reader.init
  report := Report.init
  listen := Listening.init
  follower := Follower.init
  player := Player.init
  sched := Scheduler.init Config.slicePeriod
  keys := KeyTable.init
  chain := Chain.init Config.cadencePeriod
  supply := Supply.init
  guard := Guard.init
  power := { on := false, cause := .reset }
  fresh := 0

/-- The machine right after reset: nothing pending, the store all zero (R2), the part as above. -/
def State.reset : State := { pending := [], store := [], part := Part.reset }

end Sys2Proof.Machine
end

