-- ==== Sys2Proof/Machine/Ops.lean ====
section
/-! DEFINITION. The shared operations: exact arithmetic, the store, tables of fixed length, address
classes, and the outcome of a step. -/

namespace Sys2Proof.Machine

/-! ## Arithmetic (00_scope.md, CONVENTIONS) -/

/-- "Clamped into" a range, on counts. -/
def clampNat (lo hi x : Nat) : Nat := if x < lo then lo else if hi < x then hi else x

/-- "Clamped into" a range, on signed values. -/
def clampInt (lo hi x : Int) : Int := if x < lo then lo else if hi < x then hi else x

/-- A 32-bit value of two words, low word first (R1). -/
def pair (lo hi : Word) : Nat := lo.toNat + 65536 * hi.toNat

/-- A count as a word. -/
def wordOf (n : Nat) : Word := BitVec.ofNat 16 n

/-- Low and high word of a value clamped into 0 to 2^32-1 (R15, SCORE TIME and PERFORMANCE TIME). -/
def lowWord (n : Nat) : Word := BitVec.ofNat 16 (min n 4294967295 % 65536)
def highWord (n : Nat) : Word := BitVec.ofNat 16 (min n 4294967295 / 65536)

/-- A signed value clamped into signed 32 bits, as its 32-bit two's complement count (R15). -/
def signed32 (x : Int) : Nat := (clampInt (-2147483648) 2147483647 x % 4294967296).toNat

/-- The least multiple of 96 at or above a count (R56). -/
def beatAtOrAbove (p : Nat) : Nat := (p + 95) / 96 * 96

/-- The least multiple of 96 above both a boundary and a position (R56). -/
def beatAbove (b : Nat) (pos : Int) : Nat := ((max (b : Int) pos) / 96 * 96 + 96).toNat

/-! ## The shared store (R1) -/

namespace Memory

/-- The word at an address: what the list holds, or `Config.unwritten`. -/
def read : Memory → Nat → Word
  | [], _ => Config.unwritten
  | (a, w) :: rest, x => if a = x then w else read rest x

/-- Put a word at an address, keeping the canonical form. -/
def insert : Memory → Nat → Word → Memory
  | [], x, v => if v = Config.unwritten then [] else [(x, v)]
  | (a, w) :: rest, x, v =>
    if x < a then (if v = Config.unwritten then (a, w) :: rest else (x, v) :: (a, w) :: rest)
    else if x = a then (if v = Config.unwritten then rest else (x, v) :: rest)
    else (a, w) :: insert rest x v

/-- A word write (R1): addresses 0000h to 7FFFh exist, no other word does. -/
def write (m : Memory) (x : Nat) (v : Word) : Memory :=
  if x < Config.storeWords then insert m x v else m

/-- Every address is at least `lo`, addresses strictly rise, stay in the store, and no entry holds
what an unlisted address reads as. -/
def wfFrom (lo : Nat) : Memory → Bool
  | [] => true
  | (a, w) :: rest =>
    decide (lo ≤ a) && decide (a < Config.storeWords) && (w != Config.unwritten) && wfFrom (a + 1) rest

/-- The canonical form of the store. -/
def wf (m : Memory) : Bool := wfFrom 0 m

end Memory

/-- A pointer into console space, 0240h-7FFFh (R4). -/
def inConsoleSpace (p : Nat) : Bool := 0x240 ≤ p && p ≤ 0x7FFF

/-! ## Tables of fixed length -/

/-- The entry of a table. -/
def entry {α : Type} {k : Nat} (v : Vector α k) (i : Fin k) : α := v[i]

/-- A table with one entry replaced. -/
def put {α : Type} {k : Nat} (v : Vector α k) (i : Fin k) (x : α) : Vector α k := v.set i x

/-- The table of a function on its indexes. -/
def tabulate {α : Type} {k : Nat} (f : Fin k → α) : Vector α k :=
  ⟨⟨(List.finRange k).map f⟩, by simp⟩

/-- All outputs in rising output number. -/
def allOutputs : List OutputId := List.finRange 256

/-- All channels in rising channel number. -/
def allChannels : List ChannelId := List.finRange 4

/-! ## Steps -/

/-- The outcome of a step. -/
abbrev Result := Host.Outcome State Fault Refusal

/-- A step that changes the part alone. -/
def State.onPart (s : State) (f : Part → Part) : Result := .next { s with part := f s.part }

/-- A step of the part that reads the store. -/
def State.onPartMem (s : State) (f : Memory → Part → Part) : Result :=
  .next { s with part := f s.store s.part }

/-- An event of the part is taken when its condition holds, and nothing comes about otherwise
(log 6). -/
def whenDue (due : Bool) (f : Part → Part) (p : Part) : Part := if due then f p else p

/-- A timer has reached its end. -/
def expired (now : Nat) (timer : Option Nat) : Bool :=
  match timer with
  | some t => t ≤ now
  | none => false

end Sys2Proof.Machine
end

