-- ==== Sys2Proof/Machine/Operands.lean ====
section
/-! DEFINITION. Decoding of the records of Chapter 1: setup fields and clamps (R12, R13, R48, R49),
passage records and their validation (R6-R8, R24, R25), note, cue and step entries (R9-R11), I2S
words (R58), and the codes of the service slot (R14). -/

namespace Sys2Proof.Machine

/-! ## Organ layout (00_scope.md) -/

/-- Greatest key of a division: 60 on a manual, 31 on the Pedal. -/
def maxKey (d : Division) : Nat := if d = 3 then 31 else 60

/-- Zone of a key: key number divided by 8, remainder dropped. -/
def zoneOf (key : Nat) : Nat := key / 8

/-! ## The setup record -/

/-- An Output Map word before the tests of R49 on boards, key range and couplers (R13). -/
def rawMapEntry (w : Word) : MapEntry :=
  let v := w.toNat
  if v / 4096 = 1 then .key (Fin.ofNat 4 (v / 256)) (v % 64)
  else if v / 4096 = 2 then .stopOn (Fin.ofNat 64 v)
  else if v / 4096 = 3 then .stopOff (Fin.ofNat 64 v)
  else .unused

/-- The outputs whose loaded Output Map entry equals one given, in rising output number. -/
def outputsWith (map : Vector MapEntry 256) (e : MapEntry) : List OutputId :=
  allOutputs.filter fun n => entry map n = e

/-- The outputs that sound a key of a division (R29). -/
def keyOutputs (map : Vector MapEntry 256) (d : Division) (key : Nat) : List OutputId :=
  outputsWith map (.key d key)

/-- An Output Map word as loaded for output `n`, with whether MAPPING is latched (R49). -/
def loadMapEntry (boards : Nat) (map : Vector MapEntry 256) (n : OutputId) (w : Word) :
    MapEntry × Bool :=
  if 32 * boards ≤ n.val then (.unused, false)
  else
    match rawMapEntry w with
    | .key d k =>
      if maxKey d < k then (.unused, true)
      else if 4 ≤ (keyOutputs map d k).length then (.unused, true)
      else (.key d k, false)
    | e => (e, false)

/-- First word of a microphone channel (R13). -/
def loadChannel (w : Word) (c : Channel) : Channel :=
  { c with enabled := 32768 ≤ w.toNat, weight := w.toNat % 32 }

/-- Word `k` (1 to 329) of the setup record as it is copied into the loaded setup, decoded and
clamped (R12, R48, R49), with whether MAPPING is latched. -/
def loadSetupWord (k : Nat) (w : Word) (su : Setup) : Setup × Bool :=
  let v := w.toNat
  if 1 ≤ k ∧ k ≤ 256 then
    let n : OutputId := Fin.ofNat 256 (k - 1)
    let e := loadMapEntry su.boards su.outputMap n w
    ({ su with outputMap := put su.outputMap n e.1 }, e.2)
  else if 257 ≤ k ∧ k ≤ 288 then
    ({ su with onLead := put su.onLead (Fin.ofNat 32 (k - 257)) (min v 1023) }, false)
  else if 289 ≤ k ∧ k ≤ 292 then
    ({ su with releaseLead := put su.releaseLead (Fin.ofNat 4 (k - 289)) (min v 1023) }, false)
  else if k = 293 then ({ su with stopLead := min v 1023 }, false)
  else if 294 ≤ k ∧ k ≤ 297 then
    ({ su with micDelay := put su.micDelay (Fin.ofNat 4 (k - 294)) (min v 255) }, false)
  else if 298 ≤ k ∧ k ≤ 305 then
    let c : ChannelId := Fin.ofNat 4 ((k - 298) / 2)
    let ch := entry su.channels c
    let ch' := if (k - 298) % 2 = 0 then loadChannel w ch else { ch with delay := v }
    ({ su with channels := put su.channels c ch' }, false)
  else if k = 306 then ({ su with ratio := clampNat 24 255 v }, false)
  else if k = 307 then ({ su with emin := v }, false)
  else if k = 308 then ({ su with emin := su.emin % 65536 + 65536 * v }, false)
  else if k = 309 then ({ su with refractory := clampNat 20 200 v }, false)
  else if k = 310 then ({ su with mergeSpan := clampNat 5 30 v }, false)
  else if k = 311 then ({ su with cutoffRatio := clampNat 16 240 v }, false)
  else if k = 312 then ({ su with cutoffPersistence := clampNat 2 20 v }, false)
  else if k = 313 then ({ su with mpre := min v 20 }, false)
  else if k = 314 then ({ su with mpost := min v 60 }, false)
  else if k = 315 then ({ su with horizon := clampNat 96 768 v }, false)
  else if k = 316 then ({ su with pmax := clampNat 1 32 v }, false)
  else if k = 317 then ({ su with pullIn := clampNat 5 60 v }, false)
  else if k = 318 then ({ su with settle := clampNat 5 50 v }, false)
  else if k = 319 then ({ su with stopPulse := clampNat 50 250 v }, false)
  else if k = 320 then ({ su with vhold := min v 1023 }, false)
  else if k = 321 then ({ su with vmin := min v 1023 }, false)
  else if k = 322 then ({ su with vcut := min v 1023 }, false)
  else if k = 323 then ({ su with vmax := min v 1023 }, false)
  else if k = 324 then ({ su with policy := w &&& 0x00FF }, false)
  else if k = 325 then ({ su with cipherLimit := clampNat 5 120 v }, false)
  else if k = 326 then ({ su with starveLimit := clampNat 1 30 v }, false)
  else if k = 327 then ({ su with startLead := clampNat 100 5000 v }, false)
  else if k = 328 then ({ su with resumeGap := min v 384 }, false)
  else if k = 329 then ({ su with attnEnables := w &&& 0x0FFF }, false)
  else (su, false)

/-- On-lead of a division and zone, in 250 us units (R12). -/
def onLeadOf (su : Setup) (d : Division) (key : Nat) : Nat :=
  entry su.onLead (Fin.ofNat 32 (8 * d.val + zoneOf key))

/-- The policy of an output's board is RETRY (R12, R175): bit b of the fault policy. -/
def retryPolicy (su : Setup) (n : OutputId) : Bool := su.policy.getLsbD (n.val / 32)

/-! ## Entries of the Music Block -/

/-- The position in the first two words of a note, cue or step entry (R9-R11). -/
def entryPosition (w0 w1 : Word) : Nat := w0.toNat + 65536 * (w1.toNat % 256)

/-- Division and key of a note entry (R9). -/
def noteDivision (w1 : Word) : Division := Fin.ofNat 4 (w1.toNat / 256)
def noteKey (w1 : Word) : Nat := w1.toNat / 1024

/-- Duration of a note entry, 0 read as 1 (R9). -/
def noteDuration (w2 : Word) : Nat := max w2.toNat 1

/-- Kind of a cue entry (R10). -/
def cueKind (w1 : Word) : CueKind := if w1.toNat / 256 % 2 = 1 then .hold else .attack

/-- Class of a cue entry, 3 read as WEAK (R10). -/
def cueClass (w1 : Word) : CueClass :=
  match w1.toNat / 512 % 4 with
  | 0 => .strong
  | 1 => .normal
  | _ => .weak

/-- Hold length, max hold (0 read as 1) and breath of a hold extension (R10). -/
def holdLength (x0 : Word) : Nat := x0.toNat % 1024
def maxHoldBeats (x0 : Word) : Nat := max (x0.toNat / 1024 % 16) 1
def breathTicks (x1 : Word) : Nat := x1.toNat % 256

/-- Stored count of a step entry (R11). -/
def stepStored (w1 : Word) : Nat := w1.toNat / 256

/-- A stop entry, or none where it is skipped: a stop number of 64 or more, or a high byte that is
neither 0 nor 1 (R7, R11). -/
def stopEntry (w : Word) : Option StopEntry :=
  if w.toNat % 256 < 64 ∧ w.toNat / 256 < 2 then
    some { stop := Fin.ofNat 64 (w.toNat % 256), draw := w.toNat / 256 == 1 }
  else none

/-! ## The passage record -/

/-- The word copied at a place: 1-35 in the record, 100-107 in the header (R22). -/
def Take.word (t : Take) (k : Nat) : Word :=
  match t.got.find? (fun e => e.1 == k) with
  | some e => e.2
  | none => 0

/-- Base registration count after clamping to 16 (R22). -/
def Take.baseCount (t : Take) : Nat := min (t.word 19).toNat 16

/-- Block pointer as copied (R6). -/
def Take.block (t : Take) : Nat := (t.word 4).toNat

/-- The places a take copies with their addresses, in order: words 1 to 19, the base registration
entries, and the header where the block pointer is valid; a read above 7FFFh is not made (R22). -/
def Take.places (t : Take) : List (Nat × Nat) :=
  let record := (List.range 19).map fun i => (i + 1, t.ptr + i + 1)
  let base := (List.range t.baseCount).map fun i => (i + 20, t.ptr + i + 20)
  let header :=
    if inConsoleSpace t.block then (List.range 8).map fun i => (i + 100, t.block + i) else []
  (record ++ base ++ header).filter fun e => e.2 < Config.storeWords

/-- The next place to copy, or none when the copy is complete. -/
def Take.nextPlace (t : Take) : Option (Nat × Nat) := t.places[t.got.length]?

/-- A list of `count` entries of `size` words lies within the store, or is not tested (R4, R24). -/
def listFits (count size ptr : Nat) : Bool :=
  count == 0 || (inConsoleSpace ptr && ptr + size * count - 1 ≤ 0x7FFF)

/-- The structural tests of R24 on a copy. -/
def Take.structural (t : Take) : Bool :=
  let w := t.word
  let blockLen := pair (w 100) (w 101)
  let startPos := pair (w 5) (w 6)
  let endPos := pair (w 7) (w 8)
  t.ptr + 20 + t.baseCount - 1 ≤ 0x7FFF
  && inConsoleSpace t.block
  && t.block + 7 ≤ 0x7FFF
  && (1 ≤ blockLen && blockLen ≤ 16777215)
  && ((w 102).toNat ≤ 2048 && (w 103).toNat ≤ 512 && (w 104).toNat ≤ 64)
  && listFits (w 102).toNat 3 (w 105).toNat
  && listFits (w 103).toNat 2 (w 106).toNat
  && listFits (w 104).toNat 2 (w 107).toNat
  && startPos < endPos
  && endPos ≤ blockLen
  && (w 3).toNat % 256 ≤ 3
  && (w 3).toNat / 256 ≤ 1

/-- The base registration words of a copy, in list order. -/
def Take.baseWords (t : Take) : List Word := (List.range t.baseCount).map fun i => t.word (20 + i)

/-- Some base registration entry of a copy is skipped, so MAPPING is latched (R25). -/
def Take.skipsBase (t : Take) : Bool := t.baseWords.any fun w => (stopEntry w).isNone

/-- The passage of a copy that passed the structural tests, clamped by R25. -/
def Take.passage (t : Take) : Passage :=
  let w := t.word
  { ptr := t.ptr
    next := w 1
    sequence := w 2
    kind := (w 3).toNat % 256
    follow := (w 3).toNat / 256 == 1
    block := t.block
    startPos := pair (w 5) (w 6)
    endPos := pair (w 7) (w 8)
    tn := clampNat Config.periodMin Config.periodMax (pair (w 9) (w 10))
    band := min (w 11).toNat 50
    window := clampNat 1 128 (w 12).toNat
    phaseGain := min (w 13).toNat 256
    periodGain := min (w 14).toNat 256
    missLimit := clampNat 1 15 (w 15).toNat
    entryGap := min (w 16).toNat 768
    leadAdjust := clampInt (-200) 200 (w 17).toInt
    holdAtEntry := (w 18).getLsbD 0
    baseCount := t.baseCount
    baseReg := t.baseWords.filterMap stopEntry
    blockLength := pair (w 100) (w 101)
    noteCount := (w 102).toNat
    cueCount := (w 103).toNat
    stepCount := (w 104).toNat
    notePtr := (w 105).toNat
    cuePtr := (w 106).toNat
    stepPtr := (w 107).toNat }

/-- A fresh cursor at the head of a list of `count` entries (R18); a list of none is finished. -/
def Cursor.fresh (addr count : Nat) : Cursor :=
  { index := 0, addr := addr, prev := none, finished := count == 0 }

/-- The buffer a taken passage is put in (R23). An empty base registration hands no base step (R31). -/
def Passage.buffer (q : Passage) (planIndex : Nat) : Buffer :=
  { passage := q
    planIndex := planIndex
    notes := Cursor.fresh q.notePtr q.noteCount
    cues := Cursor.fresh q.cuePtr q.cueCount
    steps := Cursor.fresh q.stepPtr q.stepCount
    baseDone := q.baseReg.isEmpty }

/-! ## Stamps (R7) -/

def stampReady : Word := 1
def stampTaken : Word := 2
def stampSpent : Word := 3
def stampAbandoned : Word := 4
def stampRefused : Word := 5

/-! ## I2S words (R58) -/

/-- An I2S word of `width` bits as a signed 24-bit sample: more than 24 bits are cut to the upper
24, fewer are aligned at the most significant end. -/
def sampleValue (width word : Nat) : Int :=
  let v := if 24 ≤ width then word / 2 ^ (width - 24) else word * 2 ^ (24 - width)
  (BitVec.ofNat 24 v).toInt

/-! ## Transfer (R17) -/

/-- What a Transfer write asks for: one of the three keyed actions, or nothing the part knows. -/
inductive TransferAction where
  | take | halt | reset | bad
  deriving DecidableEq, Repr

/-- The action of a Transfer write: key B4h in bits 8-15, action in bits 0-7 (R17). -/
def transferKind (w : Word) : TransferAction :=
  if w = 0xB401 then .take else if w = 0xB402 then .halt else if w = 0xB403 then .reset else .bad

/-! ## The service slot (R14) -/

/-- Outcome of a service command. -/
inductive SlotOutcome where
  | ok | badState | badArg | noSetup | powerFault | aborted | unknown
  deriving DecidableEq, Repr

/-- Outcome detail. -/
inductive SlotDetail where
  | none | headNotReady | playerState | pointer | boards | outputRange | chain | supply | halted
  | powerLost | powerOff | argument
  deriving DecidableEq, Repr

/-- Outcome codes. -/
def SlotOutcome.code : SlotOutcome → Word
  | .ok => 1
  | .badState => 2
  | .badArg => 3
  | .noSetup => 4
  | .powerFault => 5
  | .aborted => 6
  | .unknown => 7

/-- Outcome detail codes. -/
def SlotDetail.code : SlotDetail → Word
  | .none => 0
  | .headNotReady => 1
  | .playerState => 2
  | .pointer => 3
  | .boards => 4
  | .outputRange => 5
  | .chain => 6
  | .supply => 7
  | .halted => 8
  | .powerLost => 9
  | .powerOff => 10
  | .argument => 11

/-- Command codes. -/
def cmdSetup : Nat := 1
def cmdStart : Nat := 2
def cmdStop : Nat := 3
def cmdHold : Nat := 4
def cmdResume : Nat := 5
def cmdNudge : Nat := 6
def cmdPower : Nat := 7
def cmdTest : Nat := 8
def cmdClear : Nat := 9

/-- A command code is defined (R14). -/
def definedCommand (code : Nat) : Bool := 1 ≤ code && code ≤ 9

/-- How many argument words a command uses (R14). -/
def argCount (code : Nat) : Nat :=
  if code = cmdTest then 2
  else if code = cmdSetup ∨ code = cmdStart ∨ code = cmdNudge ∨ code = cmdPower then 1
  else 0

/-- Argument `i` (1-based) as read. -/
def Slot.arg (s : Slot) (i : Nat) : Word := s.args.getD (i - 1) 0

/-! ## Player, follow and other codes (R15, R16, R17) -/

def PlayerState.code : PlayerState → Nat
  | .idle => 0
  | .running => 1
  | .held => 2
  | .starved => 3
  | .draining => 4
  | .locked => 5

def FollowState.code : FollowState → Nat
  | .lead => 0
  | .track => 1
  | .coast => 2
  | .lost => 3

def CueOutcome.code : CueOutcome → Nat
  | .none => 0
  | .matched => 1
  | .miss => 2
  | .masked => 3

def LockReason.code : LockReason → Nat
  | .none => 0
  | .badPassage => 1
  | .badBlock => 2
  | .power => 3
  | .clock => 4

def EndReason.code : EndReason → Nat
  | .none => 0
  | .complete => 1
  | .stopped => 2
  | .starved => 3
  | .halted => 4

def TransferResult.code : TransferResult → Nat
  | .none => 0
  | .accepted => 1
  | .badKey => 2
  | .busy => 3

def FaultKind.code : FaultKind → Nat
  | .none => 0
  | .open => 1
  | .weak => 2
  | .over => 3
  | .stuck => 4
  | .cipher => 5

end Sys2Proof.Machine
end

