-- ==== Sys2Proof/Machine/Flags.lean ====
section
/-! DEFINITION. The Attention latches and ATTN (R17, R52-R54), WAIT (R38), the FERMATA sub-state
(R105), MPWR (R178) and the two Part State words (R17, R55). -/

namespace Sys2Proof.Machine

/-- The Attention conditions, in bit order (R17). -/
inductive Condition where
  | done | reject | passage | starved | locked | late | fault | cipher | power | lost | ended | mapping
  deriving DecidableEq, Repr

/-- Attention bit of a condition (R17). -/
def Condition.bit : Condition → Nat
  | .done => 0
  | .reject => 1
  | .passage => 2
  | .starved => 3
  | .locked => 4
  | .late => 5
  | .fault => 6
  | .cipher => 7
  | .power => 8
  | .lost => 9
  | .ended => 10
  | .mapping => 11

/-- The Attention word with one condition's bit alone. -/
def Condition.mask (c : Condition) : Word := BitVec.ofNat 16 (2 ^ c.bit)

/-- Latch a condition: an event whose condition is already latched leaves it latched (R52). -/
def latch (c : Condition) (p : Part) : Part := { p with attention := p.attention ||| c.mask }

/-- Latch a condition if something holds. -/
def latchIf (b : Bool) (c : Condition) (p : Part) : Part := if b then latch c p else p

/-- A condition is latched. -/
def Part.latched (p : Part) (c : Condition) : Bool := p.attention.getLsbD c.bit

/-- ATTN: some latched condition has its enable set (R54). -/
def Part.attn (p : Part) : Bool := p.attention &&& p.attnEnables != 0

/-- WAIT: an access is held (R38); one that waits for nothing never stands on the port. -/
def Part.wait (p : Part) : Bool := !p.port.waiting.isEmpty

/-- MPWR is driven high while magnet power is ON (R178). -/
def Part.mpwr (p : Part) : Bool := p.power.on

/-- The FERMATA sub-state: HOLDING while RUNNING (R105). -/
def Part.fermataHeld (p : Part) : Bool :=
  p.player.state == .running && p.player.fermata.phase == .holding

/-- The Player is playing (R116). -/
def Part.playing (p : Part) : Bool :=
  p.player.state == .running || p.player.state == .held || p.player.state == .starved
    || p.player.state == .draining

/-- slot-busy: slot phase other than FREE (R55). -/
def Part.slotBusy (p : Part) : Bool := p.slot.phase != .free

/-- Part State word 0 (R17, R55). -/
def Part.partState0 (p : Part) : Word :=
  wordOf (p.player.state.code + 8 * p.fermataHeld.toNat + 16 * p.follower.state.code
    + 64 * p.power.on.toNat + 128 * p.slotBusy.toNat + 256 * p.setupLoaded.toNat
    + 512 * p.clearing.toNat + 1024 * p.lastTransfer.code + 4096 * p.chain.fault.toNat
    + 8192 * p.supply.undervolt.toNat)

/-- Part State word 1 (R17, R55). -/
def Part.partState1 (p : Part) : Word :=
  wordOf (p.lastCommand + 16 * p.prevCommand + 256 * p.player.lockReason.code)

/-- A read of Transfer returns 0000h (R17, R38). -/
def Part.transferRead (_p : Part) : Word := 0

end Sys2Proof.Machine
end

