-- ==== Sys2Proof/Machine/Line.lean ====
section
/-! DEFINITION. The Tempo Follower's line and its arithmetic (R75-R80, R85-R93): prediction, predicted
position, re-anchor, band, windows, the choice of an onset and the MATCH update. -/

namespace Sys2Proof.Machine

/-! ## Prediction -/

/-- The time of a distance of `d` ticks at period `T`, rounded half up (R76). -/
def spanTime (period : Nat) (d : Int) : Int := (d * period + 48) / 96

/-- t(p): the predicted time of a position (R76). -/
def Follower.predict (f : Follower) (p : Int) : Int :=
  if f.aPos ≤ p then f.aTime + spanTime f.period (p - f.aPos)
  else f.aTime - spanTime f.period (f.aPos - p)

/-- P(c): the position the line gives at a clock (R77); the division rounds toward minus infinity. -/
def Follower.positionAt (f : Follower) (c : Int) : Int := f.aPos + (c - f.aTime) * 96 / f.period

/-- The performance clock as a time. -/
def Part.now (p : Part) : Int := p.clock

/-- The predicted position: the frozen position while the freeze is set, P(clock) otherwise (R77). -/
def Part.position (p : Part) : Int :=
  match p.follower.freeze with
  | some q => q
  | none => p.follower.positionAt p.now

/-- A re-anchor other than an entry's (R78): the line passes through (q, τ), pinned at the anchor
when that lies ahead of q. -/
def Follower.reAnchor (f : Follower) (q tau : Int) : Follower :=
  if f.aPos ≤ q then { f with aPos := q, aTime := tau }
  else { f with aTime := tau + spanTime f.period (f.aPos - q) }

/-- The time of `ticks` at the period in force, truncated: trunc(ticks × T / 96) (R97, R109, R111). -/
def gapTime (period ticks : Nat) : Int := ticks * period / 96

/-! ## Times of a note (R132) -/

/-- The keying time of a note (R132). -/
def keyingTime (f : Follower) (x : Note) : Int := f.predict x.position - x.keyingLead

/-- The release time of a note (R132): never below the keying time plus one slice. -/
def releaseTime (f : Follower) (x : Note) : Int :=
  max (f.predict x.release - x.releaseLead) (keyingTime f x + Config.slicePeriod)

/-! ## Band and entry -/

/-- Half of the band: Tn × band / 100, truncated (R75). -/
def bandSpread (q : Passage) : Nat := q.tn * q.band / 100

/-- Tlo of a passage (R75). -/
def Passage.tlo (q : Passage) : Nat :=
  clampNat Config.periodMin Config.periodMax (q.tn - bandSpread q)

/-- Thi of a passage (R75). -/
def Passage.thi (q : Passage) : Nat :=
  clampNat Config.periodMin Config.periodMax (q.tn + bandSpread q)

/-- The period a passage is entered with (R93). -/
def entryPeriod (q : Passage) (atStart : Bool) (period : Nat) : Nat :=
  if !q.follow || atStart then q.tn else clampNat q.tlo q.thi period

/-- The Follower enters a passage with the entry anchor (S, τ) (R78, R93). -/
def Follower.enter (f : Follower) (q : Passage) (atStart : Bool) (tau : Int) : Follower :=
  let period := entryPeriod q atStart f.period
  { f with
    period := period
    tlo := q.tlo
    thi := q.thi
    aPos := q.startPos
    aTime := tau
    state := if q.follow then .track else .lead
    missCount := 0
    pLast := none
    atLimit := q.follow && !atStart && period != f.period }

/-! ## Windows -/

/-- w': the passage's w, doubled and held at 256 in LOST (R79). -/
def windowWidth (q : Passage) (st : FollowState) : Nat :=
  if st = .lost then min 256 (2 * q.window) else q.window

/-- W, the window half-width (R79). -/
def Follower.halfWidth (f : Follower) (q : Passage) : Nat := f.period * windowWidth q f.state / 256

/-- The close of a cue's window: t(p_c) + W (R79). -/
def Follower.closeOf (f : Follower) (q : Passage) (c : Cue) : Int :=
  f.predict c.position + f.halfWidth q

/-- The Follower recomputes the watched cue's close (R80): the head of the Cue List in a FOLLOW
passage. A LEAD passage opens no window (R91), and with no passage there is none (R94). -/
def rewatch (p : Part) : Part :=
  let w :=
    match p.reader.current, p.sched.cues with
    | some b, c :: _ => if b.passage.follow then some (p.follower.closeOf b.passage c) else none
    | _, _ => none
  { p with follower.watched := w }

/-- An onset lies in the window of a cue, both bounds included (R79). -/
def inWindow (tp : Int) (w : Nat) (o : Onset) : Bool := tp - w ≤ o.time && o.time ≤ tp + w

/-! ## Resolving (R82) -/

/-- Onset `a`, earlier in queue order, is preferred to `b` as the chosen onset (R82): the nearer to
t(p_c); of two equally near the earlier; of one time the stronger; of equal strength the earlier in
queue order. -/
def preferred (tp : Int) (a b : Onset) : Bool :=
  let da := (a.time - tp).natAbs
  let db := (b.time - tp).natAbs
  if da = db then (if a.time = b.time then b.strength ≤ a.strength else a.time < b.time)
  else da < db

/-- The chosen onset of a list of candidates in queue order (R82). -/
def chooseOnset (tp : Int) : List Onset → Option Onset
  | [] => none
  | o :: rest =>
    match chooseOnset tp rest with
    | none => some o
    | some b => if preferred tp o b then some o else some b

/-- The outcome of a cue on the Onset Queue with the onset chosen (R82). -/
def judgeCue (tp : Int) (w : Nat) (queue : List Onset) : CueOutcome × Option Onset :=
  let inside := queue.filter (inWindow tp w)
  match chooseOnset tp (inside.filter fun o => !o.masked) with
  | some o => (.matched, some o)
  | none => if inside.isEmpty then (.miss, none) else (.masked, none)

/-- The Follower's two removal requests after an outcome (R65, R83): every entry at or before the
chosen one's time, then every entry before the window start. -/
def consumeOnsets (tp : Int) (w : Nat) (chosen : Option Onset) (queue : List Onset) : List Onset :=
  let q1 :=
    match chosen with
    | some o => queue.filter fun (x : Onset) => o.time < x.time
    | none => queue
  q1.filter fun (x : Onset) => tp - w ≤ x.time

/-! ## The MATCH update (R85-R90) -/

/-- Class factor m (R85). -/
def classFactor : CueClass → Nat
  | .strong => 4
  | .normal => 3
  | .weak => 2

/-- The clamped timing error e (R85). -/
def matchError (period : Nat) (tp onset : Int) : Int :=
  clampInt (-((period / 8 : Nat) : Int)) ((period / 8 : Nat) : Int) (onset - tp)

/-- Gφ' (R85), 256 in LOST (R90). -/
def phaseGainOf (q : Passage) (st : FollowState) (c : CueClass) : Nat :=
  if st = .lost then 256 else q.phaseGain * classFactor c / 4

/-- Gτ' (R85). -/
def periodGainOf (q : Passage) (c : CueClass) : Nat := q.periodGain * classFactor c / 4

/-- The distance d (R87): from the last matched cue, 96 with none or in LOST (R90), within 48-768. -/
def matchDistance (f : Follower) (pc : Int) : Int :=
  match f.state, f.pLast with
  | .lost, _ => 96
  | _, none => 96
  | _, some l => clampInt 48 768 (pc - l)

/-- ΔT after the step limit (R87). -/
def periodStep (f : Follower) (q : Passage) (c : Cue) (e : Int) : Int :=
  let dT := (e * periodGainOf q c.cls * 96).tdiv (256 * matchDistance f c.position)
  clampInt (-((f.period / 32 : Nat) : Int)) ((f.period / 32 : Nat) : Int) dT

/-- The MATCH update (R85-R88, R90): anchor, T, at-limit flag, p_last, miss count, last error, state. -/
def Follower.matchUpdate (f : Follower) (q : Passage) (c : Cue) (onset : Int) : Follower :=
  let tp := f.predict c.position
  let e := matchError f.period tp onset
  let corr := (e * phaseGainOf q f.state c.cls).tdiv 256
  let raw := (f.period : Int) + periodStep f q c e
  let period := clampInt f.tlo f.thi raw
  let g := { f with period := period.toNat }.reAnchor c.position (tp + corr)
  { g with
    atLimit := period != raw
    pLast := some c.position
    missCount := 0
    lastError := e
    state := .track }

/-- A MISS (R89): the count raised by 1, held at 15, and the transition. -/
def Follower.missUpdate (f : Follower) (q : Passage) : Follower :=
  let m := min 15 (f.missCount + 1)
  { f with
    missCount := m
    state := if f.state = .lost then .lost else if q.missLimit ≤ m then .lost else .coast }

/-! ## START and NUDGE -/

/-- The reinitialisation of R92. -/
def Follower.reinit (f : Follower) : Follower :=
  { f with
    missCount := 0
    pLast := none
    lastOutcome := .none
    lastError := 0
    atLimit := false
    freeze := none
    watched := none }

/-- The effect of the Player entering IDLE or LOCKED (R94). -/
def Follower.leave (f : Follower) : Follower :=
  { f with state := .lead, watched := none, freeze := none }

/-- NUDGE by a clamped percentage at position `q` and clock `c` (R95, steps 2 and 3). -/
def Follower.nudge (f : Follower) (percent q c : Int) : Follower :=
  let raw := (f.period : Int) + ((f.period : Int) * percent).tdiv 100
  let period := clampInt f.tlo f.thi raw
  { { f with period := period.toNat }.reAnchor q c with atLimit := period != raw }

end Sys2Proof.Machine
end

