-- ==== Sys2Proof/Machine/NowRecord.lean ====
section
/-! DEFINITION. The Now record: capture, the word writes of one write, triggers and the beat boundary
(R15, R56, R57). -/

namespace Sys2Proof.Machine

/-- The body of the Now record as captured at one moment, words 0011h to 0023h in order (R15, R57).
Fields whose owner holds no value are 0: sequence, kind, follow mode and position with no passage. -/
def nowBody (p : Part) : List Word :=
  let pos : Nat := if p.reader.current.isSome then signed32 p.position else 0
  let err : Nat := signed32 p.follower.lastError
  let sequence : Word :=
    match p.reader.current with
    | some b => b.passage.sequence
    | none => 0
  let kindMode : Nat :=
    match p.reader.current with
    | some b => b.passage.kind + 256 * b.passage.follow.toNat
    | none => 0
  [ wordOf (p.player.state.code + 8 * p.fermataHeld.toNat)
  , wordOf p.follower.state.code
  , wordOf p.power.on.toNat
  , sequence
  , wordOf kindMode
  , lowWord pos, highWord pos
  , lowWord p.follower.period, highWord p.follower.period
  , wordOf p.follower.missCount
  , wordOf p.follower.lastOutcome.code
  , lowWord err, highWord err
  , wordOf p.follower.atLimit.toNat
  , wordOf p.player.lockReason.code
  , wordOf p.player.endReason.code
  , lowWord p.clock, highWord p.clock
  , wordOf p.player.lockAddr ]

/-- Number the words of a list by rising address. -/
def addressed : Nat → List Word → List (Nat × Word)
  | _, [] => []
  | a, w :: rest => (a, w) :: addressed (a + 1) rest

/-- The 21 word writes of one write: open sequence, body, close sequence (R15, R57). -/
def nowWrites (seq : Word) (body : List Word) : List (Nat × Word) :=
  (0x10, seq) :: addressed 0x11 body ++ [(0x2F, seq)]

/-- A write begins (R57): the body captured, the sequence number advanced; a beat waiting for its
write moves b past the position captured (R56, log 25). -/
def beginNowWrite (p : Part) : Part :=
  let seq := p.report.seq + 1
  { p with report := { p.report with
      seq := seq
      writing := nowWrites seq (nowBody p)
      boundary :=
        if p.report.beatPending then p.report.boundary.map fun b => beatAbove b p.position
        else p.report.boundary
      pending := false
      beatPending := false } }

/-- A trigger (R56): a write begins, or a write in progress makes it pending. While a soft reset is in
progress no further write begins (R3, R46, log 26). -/
def trigger (p : Part) : Part :=
  if p.report.writing.isEmpty && !p.softReset then beginNowWrite p
  else { p with report.pending := true }

/-- A trigger if something changed. -/
def triggerIf (b : Bool) (p : Part) : Part := if b then trigger p else p

/-- A beat trigger (R56): b is to move past the position captured for its write. -/
def beatTrigger (p : Part) : Part := trigger { p with report.beatPending := true }

/-- The close-sequence write has been served: a pending trigger begins a further write (R56). -/
def nowWriteServed (p : Part) : Part :=
  if p.report.pending && !p.softReset then beginNowWrite p else p

/-- b at START and at each entry: the least multiple of 96 at or above the start position (R56). A beat
that still waits for its write does not move the b newly placed (log 50). -/
def placeBoundary (startPos : Nat) (p : Part) : Part :=
  { p with report.boundary := some (beatAtOrAbove startPos), report.beatPending := false }

/-- A beat boundary is reached (R56): RUNNING, no fermata held, b not above the current passage's end,
and the clock at or past t(b). -/
def beatDue (p : Part) : Bool :=
  match p.report.boundary, p.reader.current with
  | some b, some buf =>
    p.player.state == .running && p.player.fermata.phase != .holding
      && !p.report.beatPending
      && b ≤ buf.passage.endPos && p.follower.predict b ≤ p.now
  | _, _ => false

/-- Set the player state; every change is a state trigger (R56, R116). -/
def enterState (st : PlayerState) (p : Part) : Part :=
  trigger { p with player.state := st }

end Sys2Proof.Machine
end

