-- ==== Sys2Proof/Machine/Listen.lean ====
section
/-! DEFINITION. The Listening Unit: filter, frame energy, floors and onsets, the Onset Queue, the Mask
List and hold listening (R58-R72). -/

namespace Sys2Proof.Machine

/-! ## Filter and energy (R58, R59) -/

/-- One sample passes a channel's high-pass filter (R58). -/
def Filter.sample (f : Filter) (x : Int) : Filter :=
  let y := clampInt (-8388608) 8388607 (x - f.prevIn + f.prevOut - f.prevOut.tdiv 256)
  { prevIn := x, prevOut := y, samples := f.samples ++ [y] }

/-- Frame energy of 240 filter outputs (R59): the upper 16 bits squared, summed, divided by 256. -/
def frameEnergy (samples : List Int) : Nat :=
  (samples.foldl (fun acc (y : Int) => acc + ((y / 256) * (y / 256)).toNat) 0) / 256

/-- The four channels have a whole frame each (R58). -/
def frameReady (l : Listening) : Bool :=
  allChannels.all fun c => Config.frameSamples ≤ (entry l.filters c).samples.length

/-- Energies of the frame that ends, per channel. -/
def frameEnergies (l : Listening) : Vector Nat 4 :=
  tabulate fun c => frameEnergy ((entry l.filters c).samples.take Config.frameSamples)

/-- The frame is cut off the collected outputs. -/
def cutFrame (l : Listening) : Listening :=
  { l with filters := tabulate fun c =>
      let f := entry l.filters c
      { f with samples := f.samples.drop Config.frameSamples } }

/-! ## Floors and onsets (R60, R61) -/

/-- The floor after a frame of energy `e` (R60). -/
def floorAfter (level e : Nat) : Nat :=
  if level < e then level + (e - level) / 64 else max (level - (level - e) / 8) 1

/-- The onset test of a channel at a frame end (R61), against the floor before the update. -/
def onsetTest (su : Setup) (fl : Floor) (e : Nat) (frameEnd : Int) : Bool :=
  !fl.resetPending && decide (fl.refractoryEnd ≤ frameEnd) && decide (su.emin ≤ e)
    && decide (fl.level * su.ratio ≤ e * 16)

/-- Channel strength (R61). -/
def channelStrength (level e : Nat) : Nat := min (e * 16 / level) 255

/-- Onset time: the middle of the frame less the channel's delay compensation (R61). -/
def onsetTime (frameEnd : Int) (delay : Nat) : Int := frameEnd - 2500 - delay

/-- The floor and refractory end of a channel after a processed frame end (R60, R61). -/
def floorStep (su : Setup) (fl : Floor) (e : Nat) (frameEnd : Int) : Floor :=
  if fl.resetPending then { fl with level := max e 1, resetPending := false }
  else
    { level := floorAfter fl.level e
      resetPending := false
      refractoryEnd :=
        if onsetTest su fl e frameEnd then frameEnd + su.refractory * 1000 else fl.refractoryEnd }

/-! ## Mask tests and the Onset Queue (R62-R66) -/

/-- A time lies inside a window, bounds inclusive (R66). -/
def MaskWindow.covers (w : MaskWindow) (t : Int) : Bool := w.start ≤ t && t ≤ w.stop

/-- A time lies inside some window of the Mask List. -/
def masksCover (ws : List MaskWindow) (t : Int) : Bool := ws.any fun w => w.covers t

/-- Strength of an entry (R62): channel strength × weight / 16 summed over the members, at most 255. -/
def entryStrength (su : Setup) (members : List (ChannelId × Nat)) : Nat :=
  min ((members.map fun m => m.2 * (entry su.channels m.1).weight / 16).sum) 255

/-- Place an entry after every entry whose time is at or before its own (R63). -/
def placeOnset (o : Onset) : List Onset → List Onset
  | [] => [o]
  | x :: rest => if x.time ≤ o.time then x :: placeOnset o rest else o :: x :: rest

/-- Whether an onset of channel `c` at `t` joins the newest entry (R63). -/
def joins (su : Setup) (newest : Onset) (c : ChannelId) (t : Int) : Bool :=
  (newest.time - t).natAbs ≤ su.mergeSpan * 1000 && !(newest.members.any fun m => m.1 == c)

/-- The joined entry (R63). Its masked flag is tested afresh where its time changes (R66, log 35). -/
def joinOnset (su : Setup) (masks : List MaskWindow) (o : Onset) (c : ChannelId) (strength : Nat)
    (t : Int) : Onset :=
  let members := o.members ++ [(c, strength)]
  let time := min o.time t
  { time := time
    members := members
    strength := entryStrength su members
    masked := if time = o.time then o.masked else masksCover masks time }

/-- An accepted onset is merged into the queue (R63), the oldest entry removed on overflow (R64). -/
def mergeOnset (su : Setup) (masks : List MaskWindow) (c : ChannelId) (strength : Nat) (t : Int)
    (queue : List Onset) : List Onset :=
  let fresh : Onset :=
    { time := t
      members := [(c, strength)]
      strength := entryStrength su [(c, strength)]
      masked := masksCover masks t }
  let placed := placeOnset fresh queue
  let asNew := if Config.onsetQueueSize < placed.length then placed.drop 1 else placed
  match queue.getLast? with
  | some newest =>
    if joins su newest c t then placeOnset (joinOnset su masks newest c strength t) queue.dropLast
    else asNew
  | none => asNew

/-! ## The Mask List (R67-R69) -/

/-- The window of a grant at clock `g` to a key of a division (R67). -/
def grantWindow (su : Setup) (d : Division) (key : Nat) (g : Int) : MaskWindow :=
  let m : Int := g + onLeadOf su d key * 250 + entry su.micDelay d * 1000
  { start := m - su.mpre * 1000, stop := m + su.mpost * 1000 }

/-- Two windows overlap or touch (R68). -/
def MaskWindow.meets (new newest : MaskWindow) : Bool :=
  new.start ≤ newest.stop && newest.start ≤ new.stop

/-- The Mask List with a window added, or the newest extended, and the window as it now stands
(R68). -/
def addWindow (w : MaskWindow) (ws : List MaskWindow) : List MaskWindow × MaskWindow :=
  let held := if Config.maskListSize ≤ ws.length then ws.drop 1 else ws
  match ws.getLast? with
  | some newest =>
    if w.meets newest then
      let e : MaskWindow := { start := min w.start newest.start, stop := max w.stop newest.stop }
      (ws.dropLast ++ [e], e)
    else (held ++ [w], w)
  | none => (held ++ [w], w)

/-- A KEY grant reaches the Listening Unit (R66-R68). -/
def maskGrant (d : Division) (key : Nat) (p : Part) : Part :=
  let r := addWindow (grantWindow p.setup d key p.now) p.listen.masks
  { p with
    listen.masks := r.1
    listen.queue := p.listen.queue.map fun o => { o with masked := o.masked || r.2.covers o.time } }

/-! ## Hold listening (R70, R71) -/

/-- Combined energy C of a frame (R71). -/
def combinedEnergy (su : Setup) (es : Vector Nat 4) : Nat :=
  ((allChannels.filter fun c => (entry su.channels c).enabled).map fun c =>
    entry es c * (entry su.channels c).weight / 16).sum

/-- Hold listening at a frame end (R71). Once a cutoff is reported it stops testing. -/
def HoldListening.frame (h : HoldListening) (su : Setup) (c : Nat) (frameEnd : Int) : HoldListening :=
  if !h.active || h.cutoff.isSome then h
  else
    let reference := if h.frames < 20 then max h.reference c else h.reference
    let below := if c < reference * su.cutoffRatio / 256 then h.below + 1 else 0
    { active := true
      frames := min (h.frames + 1) 20
      reference := reference
      below := below
      cutoff := if su.cutoffPersistence ≤ below then some frameEnd else none }

/-- Hold listening becomes active at the start of a hold in a FOLLOW passage (R70). -/
def startHoldListening (p : Part) : Part :=
  { p with listen.hold := { HoldListening.inactive with active := true } }

/-- Hold listening becomes inactive (R70). -/
def stopHoldListening (p : Part) : Part := { p with listen.hold := HoldListening.inactive }

/-- The Onset Queue is emptied (R65). -/
def flushOnsets (p : Part) : Part := { p with listen.queue := [] }

/-! ## Frame ends -/

/-- The current passage's follow mode is FOLLOW. -/
def Part.followMode (p : Part) : Bool :=
  match p.reader.current with
  | some b => b.passage.follow
  | none => false

/-- Onsets are accepted (R62). -/
def Part.acceptsOnsets (p : Part) : Bool := p.player.state == .running && p.followMode

/-- One channel's work at a processed frame end (R59-R63): onset, queue, floor. -/
def channelFrame (es : Vector Nat 4) (frameEnd : Int) (c : ChannelId) (p : Part) : Part :=
  if !(entry p.setup.channels c).enabled then p
  else
    let e := entry es c
    let fl := entry p.listen.floors c
    let queue :=
      if onsetTest p.setup fl e frameEnd && p.acceptsOnsets then
        mergeOnset p.setup p.listen.masks c (channelStrength fl.level e)
          (onsetTime frameEnd (entry p.setup.channels c).delay) p.listen.queue
      else p.listen.queue
    { p with
      listen.queue := queue
      listen.floors := put p.listen.floors c (floorStep p.setup fl e frameEnd) }

/-- A frame end (R58-R63, R71): processed while the Player is playing, discarded otherwise. -/
def frameEndStep (p : Part) : Part :=
  let es := frameEnergies p.listen
  let frameEnd := p.now
  let q := { p with listen := cutFrame p.listen }
  if !q.playing then q
  else
    let r := allChannels.foldl (fun acc c => channelFrame es frameEnd c acc) q
    { r with listen.hold :=
        r.listen.hold.frame r.setup (combinedEnergy r.setup es) frameEnd }

/-- Windows whose end the clock has passed are removed (R69, log 33). -/
def expireMasks (p : Part) : Part :=
  { p with listen.masks := p.listen.masks.filter fun w => p.now ≤ w.stop }

/-- Some window has expired (R69). -/
def maskDue (p : Part) : Bool := p.listen.masks.any fun w => w.stop < p.now

/-- START's preparation of the Listening Unit (R117). -/
def prepareListening (l : Listening) : Listening :=
  { l with
    floors := tabulate fun c =>
      { entry l.floors c with resetPending := true, refractoryEnd := 0 }
    queue := []
    masks := [] }

end Sys2Proof.Machine
end

