-- ==== Sys2Proof/Machine/Keys.lean ====
section
/-! DEFINITION. The Key Table and the Pull-in Arbiter: entries and what the Output Guard's detectors
take from their changes, claims, releases, stop pulses, the Pull-in Queue, slots and grants, the
Guard's three requests, the switch-off and the general release (R146-R159, R172, R176). -/

namespace Sys2Proof.Machine

/-! ## Entries -/

/-- The kind of an output by the loaded Output Map (R146). -/
def mappedKind (su : Setup) (n : OutputId) : OutputKind :=
  match entry su.outputMap n with
  | .unused => .none
  | .key _ _ => .key
  | .stopOn _ => .stop
  | .stopOff _ => .stop

/-- A slot is in use for each output in PULL and each in PULSE (R152). -/
def KeyState.usesSlot : KeyState → Bool
  | .pull => true
  | .pulse => true
  | _ => false

/-- The drive state a Key Table state gives (R147). -/
def KeyState.drive : KeyState → Drive
  | .pull => .pull
  | .pulse => .pull
  | .hold => .hold
  | _ => .off

/-- An OFF or a DISABLED entry. -/
def KeyState.atRest : KeyState → Bool
  | .off => true
  | .disabled => true
  | _ => false

/-- Slots in use (R152). -/
def slotsInUse (v : Vector KeyEntry 256) : Nat :=
  (allOutputs.filter fun n => (entry v n).state.usesSlot).length

/-- The detector of an output whose entry goes from one state to another (R172, R174, R176): an
emptied pull-in record on entering PULL or PULSE, hold count 0 on entering HOLD, retry count 0 on
becoming OFF or leaving DISABLED, the cipher timer running through PULL and HOLD alone. -/
def Detector.follows (d : Detector) (old new : KeyState) (cipherEnd : Nat) : Detector :=
  if new = old then d
  else
    { d with
      pullRecord := if new.usesSlot then .empty else d.pullRecord
      holdCount := if new = .hold then 0 else d.holdCount
      retryCount := if new = .off ∨ old = .disabled then 0 else d.retryCount
      cipher :=
        match new with
        | .pull => some cipherEnd
        | .hold => d.cipher
        | _ => none }

/-- Expiry of a cipher timer started now (R176: the cipher limit in seconds). -/
def cipherEnd (p : Part) : Nat := p.time + 1000000 * p.setup.cipherLimit

/-- The slot limit after some slots have been freed (R153): lowered by one for each, until it reaches
the value it is being lowered to. -/
def lowerLimit (limit target freed : Nat) : Nat :=
  if target < limit then max target (limit - freed) else limit

/-- The entry of an output replaced: the queue holds WAITING outputs only (R150), a freed slot lowers
a limit being lowered (R153), the detector follows (R172). -/
def setEntry (n : OutputId) (e : KeyEntry) (p : Part) : Part :=
  let old := (entry p.keys.entries n).state
  let freed := if old.usesSlot && !e.state.usesSlot then 1 else 0
  { p with
    keys := { p.keys with
      entries := put p.keys.entries n e
      queue := if e.state = .waiting then p.keys.queue else p.keys.queue.filter (· != n)
      slotLimit := lowerLimit p.keys.slotLimit p.keys.slotTarget freed }
    guard := { p.guard with
      detectors := put p.guard.detectors n
        ((entry p.guard.detectors n).follows old e.state (cipherEnd p)) } }

/-- Every entry replaced at once by a function that leaves none in WAITING. -/
def setAllEntries (f : KeyEntry → KeyEntry) (p : Part) : Part :=
  let v := p.keys.entries
  let freed := (allOutputs.filter fun n =>
    (entry v n).state.usesSlot && !(f (entry v n)).state.usesSlot).length
  { p with
    keys := { p.keys with
      entries := tabulate fun n => f (entry v n)
      queue := []
      slotLimit := lowerLimit p.keys.slotLimit p.keys.slotTarget freed }
    guard := { p.guard with
      detectors := tabulate fun n =>
        (entry p.guard.detectors n).follows (entry v n).state (f (entry v n)).state (cipherEnd p) } }

/-! ## Settling -/

/-- The settle time in ms: the setup's, or a free value within its range while no setup is in force
(R156, R51, log 18). -/
def settleTime (p : Part) : Nat :=
  if p.setupLoaded then p.setup.settle else clampNat 5 50 (Config.settleUnconfigured p.fresh)

/-- A free value has been used. -/
def spendFresh (used : Bool) (p : Part) : Part := if used then { p with fresh := p.fresh + 1 } else p

/-- An entry that enters SETTLE with count 0 (R149, R156). -/
def settled (settleEnd : Nat) (e : KeyEntry) : KeyEntry :=
  { e with state := .settle, count := 0, timer := some settleEnd, coolOff := false }

/-- The entry of an output enters SETTLE with count 0 and the settle time. -/
def enterSettle (n : OutputId) (p : Part) : Part :=
  spendFresh (!p.setupLoaded)
    (setEntry n (settled (p.time + 1000 * settleTime p) (entry p.keys.entries n)) p)

/-! ## The Pull-in Queue and grants -/

/-- A request joins the tail of the queue, or is refused by a full one (R150, R151). -/
def joinQueue (n : OutputId) (kind : OutputKind) (count : Nat) (p : Part) : Part :=
  if Config.pullQueueSize ≤ p.keys.queue.length then
    latchIf (kind == .key) .late (setEntry n KeyEntry.idle p)
  else
    let q := setEntry n
      { state := .waiting, count := count, kind := kind, timer := none, coolOff := false } p
    { q with keys := { q.keys with queue := q.keys.queue ++ [n] } }

/-- The grant of one output (R152): a STOP pulses; a KEY pulls in and makes its mask window (none
where a setup has since taken the key from the map, log 34). The recorded kind decides: a request
recorded as STOP makes no window although a later setup maps its output as KEY (log 55). -/
def grantOne (n : OutputId) (p : Part) : Part :=
  let e := entry p.keys.entries n
  if e.kind = .stop then
    setEntry n { e with state := .pulse, timer := some (p.time + 1000 * p.setup.stopPulse) } p
  else
    let q := setEntry n { e with state := .pull, timer := some (p.time + 1000 * p.setup.pullIn) } p
    match entry p.setup.outputMap n with
    | .key d k => maskGrant d k q
    | _ => q

/-- Grants follow one another in queue order until a condition fails (R152). -/
def grantLoop : List OutputId → Part → Part
  | [], p => p
  | n :: rest, p =>
    if p.setupLoaded && decide (slotsInUse p.keys.entries < p.keys.slotLimit) then
      grantLoop rest (grantOne n p)
    else p

/-- The grants of an event (R152). -/
def grants (p : Part) : Part := grantLoop p.keys.queue p

/-- The slot limit takes a new value, at once or as slots are freed (R153). -/
def setSlotLimit (target : Nat) (p : Part) : Part :=
  grants { p with keys := { p.keys with
    slotTarget := target
    slotLimit := max target (slotsInUse p.keys.entries) } }

/-! ## Claims, releases and stop pulses -/

/-- One more claim on an entry, not counted at 7 (R148). -/
def raiseCount (n : OutputId) (p : Part) : Part × Bool :=
  let e := entry p.keys.entries n
  if 7 ≤ e.count then (p, false) else (setEntry n { e with count := e.count + 1 } p, true)

/-- A claim on a KEY output and its answer, true for counted (R148). -/
def claim (n : OutputId) (p : Part) : Part × Bool :=
  let e := entry p.keys.entries n
  match e.state, e.kind with
  | .off, _ => if p.power.on then (grants (joinQueue n .key 1 p), true) else (p, true)
  | .pull, _ => raiseCount n p
  | .hold, _ => raiseCount n p
  | .waiting, .key => raiseCount n p
  | .settle, .key => raiseCount n p
  | _, _ => (p, false)

/-- A release (R149). -/
def release (n : OutputId) (p : Part) : Part :=
  let e := entry p.keys.entries n
  if e.count = 0 then p
  else if 2 ≤ e.count then setEntry n { e with count := e.count - 1 } p
  else
    match e.state with
    | .waiting => latch .late (setEntry n KeyEntry.idle p)
    | .pull => grants (enterSettle n p)
    | .hold => enterSettle n p
    | _ => setEntry n { e with count := 0 } p

/-- A stop pulse request (R155). -/
def stopPulse (n : OutputId) (p : Part) : Part :=
  if (entry p.keys.entries n).state = .off ∧ p.power.on then grants (joinQueue n .stop 0 p) else p

/-! ## The Output Guard's requests (R156) -/

/-- Disable: taken in any state but DISABLED. -/
def disableOutput (n : OutputId) (p : Part) : Part :=
  if (entry p.keys.entries n).state = .disabled then p
  else grants (setEntry n { KeyEntry.idle with state := .disabled } p)

/-- Retry: taken in PULL, HOLD and PULSE. -/
def retryOutput (n : OutputId) (p : Part) : Part :=
  let e := entry p.keys.entries n
  if e.state = .pull ∨ e.state = .hold ∨ e.state = .pulse then
    grants (setEntry n
      { e with state := .settle, timer := some (p.time + Config.coolOff), coolOff := true } p)
  else p

/-- Cipher release: taken in PULL and HOLD. -/
def cipherRelease (n : OutputId) (p : Part) : Part :=
  let st := (entry p.keys.entries n).state
  if st = .pull ∨ st = .hold then grants (enterSettle n p) else p

/-- Test release (R179): PULL, HOLD or PULSE to SETTLE with count 0. -/
def testRelease (n : OutputId) (p : Part) : Part :=
  let st := (entry p.keys.entries n).state
  if st = .pull ∨ st = .hold ∨ st = .pulse then grants (enterSettle n p) else p

/-! ## The end of SETTLE (R157) -/

/-- The course of an output whose settle timer expires (R157). -/
def settleCourse (n : OutputId) (p : Part) : Part :=
  let e := entry p.keys.entries n
  let rejoins := match e.kind with
    | .key => e.count != 0
    | .stop => e.coolOff
    | .none => false
  if rejoins then grants (joinQueue n e.kind e.count p) else setEntry n KeyEntry.idle p

/-! ## Switch-off and general release -/

/-- An entry at a switch-off (R158). -/
def offAtPower (e : KeyEntry) : KeyEntry := if e.state = .disabled then e else KeyEntry.idle

/-- The switch-off as the Key Table takes it (R158). -/
def keyPowerOff (p : Part) : Part := setAllEntries offAtPower p

/-- An entry at the general release (R159). -/
def releasedEntry (settleEnd : Nat) (e : KeyEntry) : KeyEntry :=
  match e.state with
  | .off => e
  | .disabled => e
  | .waiting => KeyEntry.idle
  | .pulse => KeyEntry.idle
  | .pull => settled settleEnd e
  | .hold => settled settleEnd e
  | .settle => { e with count := 0 }

/-- The general release as the Key Table takes it (R120, R159). -/
def keyGeneralRelease (p : Part) : Part :=
  spendFresh (!p.setupLoaded)
    (setAllEntries (releasedEntry (p.time + 1000 * settleTime p)) p)

/-- Every DISABLED output becomes OFF (R125). -/
def enableAll (p : Part) : Part :=
  (allOutputs.filter fun n => (entry p.keys.entries n).state = .disabled).foldl
    (fun acc n => setEntry n KeyEntry.idle acc) p

end Sys2Proof.Machine
end

