-- ==== Sys2Proof/Machine/Guard.lean ====
section
/-! DEFINITION. The Output Guard: the end of a command at the slot, Fault Table records, policy, the
verdict at the end of a pull-in or pulse, the judgement of a good frame, and the TEST walk
(R43, R172-R177, R179, R180). -/

namespace Sys2Proof.Machine

/-! ## The slot and the Service Unit's line -/

/-- A command ends: the slot goes to CLOSING and the two outcome writes are requested, detail first
(R42, R43). -/
def closeSlot (o : SlotOutcome) (d : SlotDetail) (p : Part) : Part :=
  { p with
    slot := { p.slot with phase := .closing }
    svcLine := p.svcLine ++ [.writeDetail d.code, .writeCode o.code] }

/-- The clock in ms as a Fault Table entry holds it (R16). -/
def faultClock (clock : Nat) : Nat := min (clock / 1000) 65535

/-- A detection makes one record (R177), requested in the Service Unit's line. -/
def recordFault (n : OutputId) (kind : FaultKind) (p : Part) : Part :=
  { p with svcLine := p.svcLine ++ [.faultRead
      { output := n
        kind := kind
        retries := (entry p.guard.detectors n).retryCount
        clock := faultClock p.clock
        passed := false }] }

/-- The record of a passing TEST (R179 step 4). -/
def recordPass (n : OutputId) (p : Part) : Part :=
  { p with svcLine := p.svcLine ++ [.faultRead
      { output := n, kind := .none, retries := 0, clock := faultClock p.clock, passed := true }] }

/-! ## Policy (R175) -/

/-- Put a detector. -/
def putDetector (n : OutputId) (d : Detector) (p : Part) : Part :=
  { p with guard := { p.guard with detectors := put p.guard.detectors n d } }

/-- The policy of an output's board is RETRY; SHUTDOWN while no setup is in force (R172). -/
def policyRetries (p : Part) (n : OutputId) : Bool := p.setupLoaded && retryPolicy p.setup n

/-- The policy of a board meets OPEN or OVER (R175). -/
def policy (n : OutputId) (p : Part) : Part :=
  let d := entry p.guard.detectors n
  if policyRetries p n && decide (d.retryCount < 3) then
    retryOutput n (putDetector n { d with retryCount := d.retryCount + 1 } p)
  else disableOutput n p

/-! ## TEST (R179) -/

/-- The test under way is at an output that has been test-pulled. -/
def Guard.tests (g : Guard) (n : OutputId) : Bool :=
  match g.test with
  | some t => t.output == n && t.stage != .waiting
  | none => false

/-- The output under test was found DISABLED (R179 step 1). -/
def Guard.marks (g : Guard) : Bool :=
  match g.test with
  | some t => t.marked
  | none => false

/-- Where the output under test stands. -/
def setTestStage (stage : TestStage) (p : Part) : Part :=
  { p with guard := { p.guard with test := p.guard.test.map fun t => { t with stage := stage } } }

/-- A failure of the output under test (R179 step 5): no policy acts. -/
def testFailure (n : OutputId) (kind : FaultKind) (p : Part) : Part :=
  let q := setTestStage .judged (recordFault n kind p)
  if p.guard.marks then disableOutput n q else testRelease n q

/-- A pass of the output under test (R179 step 4). -/
def testPass (n : OutputId) (p : Part) : Part :=
  testRelease n (setTestStage .judged (recordPass n p))

/-- No good frame was seen of the output under test (R173, log 23): no record; a marked output is
disabled again, any other stays as R173 leaves it. -/
def testNoVerdict (n : OutputId) (p : Part) : Part :=
  let q := setTestStage .judged p
  if p.guard.marks then disableOutput n q else q

/-- An OPEN or OVER fault (R175; R179 step 5 for the output under test, also where it stands in HOLD after
a pull with no verdict, log 49). -/
def outputFault (n : OutputId) (kind : FaultKind) (p : Part) : Part :=
  if p.guard.tests n then testFailure n kind p
  else recordFault n kind (policy n p)

/-! ## Pull-in and pulse ends (R154, R155, R173) -/

/-- Verdicts of a pull-in or pulse. -/
inductive Verdict where
  | pass | weak | open | noVerdict
  deriving DecidableEq, Repr

/-- The verdict of a record on a KEY output (R173). -/
def keyVerdict : PullRecord → Verdict
  | .pullOk => .pass
  | .holdOk => .weak
  | .none => .open
  | .empty => .noVerdict

/-- The verdict of a record on a STOP output (R173). -/
def stopVerdict : PullRecord → Verdict
  | .pullOk => .pass
  | .holdOk => .pass
  | .none => .open
  | .empty => .noVerdict

/-- A verdict acts on an output in service (R173). -/
def serviceVerdict (n : OutputId) (v : Verdict) (p : Part) : Part :=
  match v with
  | .pass => p
  | .weak => recordFault n .weak p
  | .open => outputFault n .open p
  | .noVerdict => p

/-- A verdict acts on the output under test (R179). -/
def testVerdict (n : OutputId) (v : Verdict) (p : Part) : Part :=
  match v with
  | .pass => testPass n p
  | .weak => testFailure n .weak p
  | .open => testFailure n .open p
  | .noVerdict => testNoVerdict n p

/-- A pull-in ends (R154, R173): HOLD, the judgement, and the freed slot granted onward. -/
def pullInCourse (n : OutputId) (p : Part) : Part :=
  let v := keyVerdict (entry p.guard.detectors n).pullRecord
  let e := entry p.keys.entries n
  let q := setEntry n { e with state := .hold, timer := none } p
  grants (if p.guard.tests n then testVerdict n v q else serviceVerdict n v q)

/-- A pulse that the verdict has left in PULSE ends in OFF (R155). -/
def endPulse (n : OutputId) (p : Part) : Part :=
  if (entry p.keys.entries n).state = .pulse then setEntry n KeyEntry.idle p else p

/-- A stop pulse ends (R155, R173): judged before it leaves PULSE. -/
def pulseCourse (n : OutputId) (p : Part) : Part :=
  let v := stopVerdict (entry p.guard.detectors n).pullRecord
  grants (endPulse n (if p.guard.tests n then testVerdict n v p else serviceVerdict n v p))

/-! ## The walk of a TEST -/

/-- The test pull (R179 step 1): in OFF or DISABLED the output joins the queue, a KEY with count 1.
A full queue refuses it (R151): the entry is OFF with count 0, and the output is untested (log 23). -/
def testPull (n : OutputId) (p : Part) : Part :=
  let marked := (entry p.keys.entries n).state == .disabled
  let kind := mappedKind p.setup n
  let q := { p with guard := { p.guard with
    test := p.guard.test.map fun t => { t with marked := marked, stage := .pulled } } }
  let r := joinQueue n kind (if kind = .key then 1 else 0) q
  if Config.pullQueueSize ≤ p.keys.queue.length then setTestStage .judged r else grants r

/-- The next mapped output of the range (R179). -/
def nextMapped (su : Setup) (from_ : Nat) (last : OutputId) : Option OutputId :=
  allOutputs.find? fun n => decide (from_ ≤ n.val) && decide (n.val ≤ last.val)
    && entry su.outputMap n != .unused

/-- The TEST takes up an output (R179 step 1): pulled at once if it is at rest, else waited for. -/
def takeUpOutput (n : OutputId) (last : OutputId) (p : Part) : Part :=
  let q := { p with guard := { p.guard with
    test := some { last := last, output := n, marked := false, stage := .waiting } } }
  if (entry p.keys.entries n).state.atRest then testPull n q else q

/-- A TEST is over: the slot limit returns to Pmax (R153, R179). -/
def finishTest (o : SlotOutcome) (d : SlotDetail) (p : Part) : Part :=
  setSlotLimit p.setup.pmax
    (closeSlot o d { p with guard := { p.guard with test := none } })

/-- The walk goes on (R179): the output under test is at rest. -/
def testAdvance (t : Test) (p : Part) : Part :=
  match t.stage with
  | .waiting => testPull t.output p
  | _ =>
    match nextMapped p.setup (t.output.val + 1) t.last with
    | some n => takeUpOutput n t.last p
    | none => finishTest .ok .none p

/-- The next output of a TEST can begin (R179 step 6). -/
def testAdvanceDue (p : Part) : Bool :=
  match p.guard.test with
  | some t =>
    (entry p.keys.entries t.output).state.atRest
  | none => false

/-- HALT ends a TEST (R180): an output being test-pulled is met by its state. Before its test pull
an output runs its own course (log 23), and one left in HOLD by a pull with no verdict stays there
(log 46). -/
def haltTest (p : Part) : Part :=
  match p.guard.test with
  | none => p
  | some t =>
    let n := t.output
    let met :=
      if t.stage = .pulled then
        match (entry p.keys.entries n).state with
        | .waiting =>
          if t.marked then disableOutput n p else setEntry n KeyEntry.idle p
        | .pull => if t.marked then disableOutput n p else testRelease n p
        | .pulse => if t.marked then disableOutput n p else testRelease n p
        | _ => p
      else p
    finishTest .aborted .halted met

/-- Loss of magnet power ends a TEST (R180), after the Key Table's switch-off. -/
def powerLostTest (p : Part) : Part :=
  match p.guard.test with
  | none => p
  | some t =>
    finishTest .powerFault .powerLost
      (if t.stage = .pulled && t.marked then disableOutput t.output p else p)

/-! ## Good frames (R172, R174) -/

/-- A pull-in record raised by a sense state (R172). -/
def PullRecord.raise (r : PullRecord) (s : Sense) : PullRecord :=
  match s, r with
  | .pullOk, _ => .pullOk
  | .holdOk, .pullOk => .pullOk
  | .holdOk, _ => .holdOk
  | .none, .empty => .none
  | _, _ => r

/-- The hold count after a good frame with the entry in HOLD (R174). A count of 3 stands until its
OPEN is taken (log 10). -/
def holdCountAfter (count : Nat) (s : Sense) (drive : Drive) (duty : Nat) : Nat :=
  if count = 3 ∨ drive ≠ .hold ∨ duty = 0 then count
  else if s = .none then count + 1
  else 0

/-- A current in an output (R174 STUCK). -/
def senseFlows : Sense → Bool
  | .holdOk => true
  | .pullOk => true
  | _ => false

/-- The stuck count after a good frame (R174). -/
def stuckCountAfter (count : Nat) (s : Sense) (drive : Drive) (st : KeyState) : Nat :=
  if drive ≠ .off then 0
  else if !senseFlows s then 0
  else if st.drive = .off then min 3 (count + 1)
  else count

/-- A detector after a good frame, on the entry as it stands at the hand-over (R172, R174). -/
def Detector.judge (d : Detector) (st : KeyState) (s : Sense) (drive : Drive) (duty : Nat) :
    Detector :=
  let stuck := stuckCountAfter d.stuckCount s drive st
  { d with
    pullRecord := if st.usesSlot && drive = .pull then d.pullRecord.raise s else d.pullRecord
    holdCount := if st = .hold then holdCountAfter d.holdCount s drive duty else d.holdCount
    stuckCount := stuck
    stuckDue := d.stuckDue || (stuck == 3 && d.stuckCount == 2) }

/-- OVER on a driven output (R174). -/
def overFound (st : KeyState) (s : Sense) (drive : Drive) : Bool :=
  s == .over && drive != .off && st.drive != .off

/-- A good frame handed to the Guard (R164, R172, R174): every detector on the boards of the frame
judges the entry as it stands at the hand-over, then each OVER is met in rising output number. R174 takes
each OVER at that frame and gives no order among them: the order is the model's (DESIGN CHOICE, log
58). -/
def judgeFrame (boards : Nat) (senses : List Sense) (p : Part) : Part :=
  let present (n : OutputId) : Bool := decide (n.val < 32 * boards)
  let sense (n : OutputId) : Sense := senses.getD n.val .none
  let drive (n : OutputId) : Drive := entry p.chain.lastDrive n
  let duty (n : OutputId) : Nat := entry p.chain.lastDuty (Fin.ofNat 8 (n.val / 32))
  let state (n : OutputId) : KeyState := (entry p.keys.entries n).state
  let tripped := allOutputs.filter fun n => present n && overFound (state n) (sense n) (drive n)
  let judged := { p with guard := { p.guard with
    detectors := tabulate fun n =>
      let d := entry p.guard.detectors n
      if present n then d.judge (state n) (sense n) (drive n) (duty n) else d } }
  tripped.foldl (fun acc n => outputFault n .over acc) judged

end Sys2Proof.Machine
end

