-- ==== Sys2Proof/Machine/Reader.lean ====
section
/-! DEFINITION. The Plan Reader's own state: the two buffers, its line of accesses, what cuts a take,
and ABANDONED (R18, R22, R26, R35-R37, R39, R182). -/

namespace Sys2Proof.Machine

/-! ## Buffers -/

/-- The pointer of the passage in the next buffer (R26). -/
def NextBuffer.ptr : NextBuffer → Option Nat
  | .empty => none
  | .following b => some b.passage.ptr
  | .finishing q _ _ => some q

/-- The next buffer is empty. -/
def NextBuffer.isEmpty : NextBuffer → Bool
  | .empty => true
  | _ => false

/-- The next buffer holds a following passage. -/
def NextBuffer.isFollowing : NextBuffer → Bool
  | .following _ => true
  | _ => false

/-- The next buffer holds a finishing passage. -/
def NextBuffer.isFinishing : NextBuffer → Bool
  | .finishing _ _ _ => true
  | _ => false

/-- The next buffer holds a finishing passage that has not completed (R103). -/
def NextBuffer.awaited : NextBuffer → Bool
  | .finishing _ _ ready => !ready
  | _ => false

/-- The pointer in the current buffer. -/
def Reader.currentPtr (r : Reader) : Option Nat := r.current.map fun b => b.passage.ptr

/-- The course of the current passage is settled (R101); in DRAINING it is (R134). -/
def Part.courseSettled (p : Part) : Bool :=
  p.reader.next.isFollowing || p.reader.phase == .endFound || p.reader.stopAtEnd
    || p.player.state == .draining

/-! ## The line of accesses (R39) -/

/-- An access of a look or of a take. -/
def ReaderAccess.looks : ReaderAccess → Bool
  | .lookNext => true
  | .lookStamp _ => true
  | .headStamp _ => true
  | .copy => true
  | .exchange => true
  | .spent _ _ => false
  | .abandon _ => false

/-- A SPENT write of a finishing passage still held. -/
def ReaderAccess.spentHeld : ReaderAccess → Bool
  | .spent _ held => held
  | _ => false

/-- A SPENT write stands on its own: the passage is no longer held. -/
def ReaderAccess.unheld : ReaderAccess → ReaderAccess
  | .spent q _ => .spent q false
  | a => a

/-- A look or a take is under way, so no other look is made (R19). -/
def Reader.looking (r : Reader) : Bool := r.take.isSome || r.line.any ReaderAccess.looks

/-- A take in progress, or the look before it, is cut (R22). -/
def cutTake (p : Part) : Part :=
  { p with reader := { p.reader with
    take := none
    line := p.reader.line.filter fun a => !a.looks } }

/-- An access joins the Plan Reader's line. -/
def askReader (a : ReaderAccess) (p : Part) : Part :=
  { p with reader := { p.reader with line := p.reader.line ++ [a] } }

/-- The next access of a take: a further word of the copy, or the stamp exchange (R22, R23). -/
def Take.access (t : Take) : ReaderAccess :=
  match t.nextPlace with
  | some _ => .copy
  | none => .exchange

/-- A take is begun (R22): its accesses stand at the head of the reader's line. -/
def beginTake (ptr : Nat) (head : Bool) (p : Part) : Part :=
  let t : Take := { ptr := ptr, head := head, got := [] }
  { p with reader := { p.reader with take := some t, line := t.access :: p.reader.line } }

/-! ## ABANDONED (R36, R182) -/

/-- The stamps to be written ABANDONED: the current buffer's, then the next buffer's, once where both
hold one pointer (R36, R182). -/
def Reader.heldPtrs (r : Reader) : List Nat :=
  match r.currentPtr, r.next.ptr with
  | some c, some n => if c = n then [c] else [c, n]
  | some c, none => [c]
  | none, some n => [n]
  | none, none => []

/-- HALT, lock or soft reset reaches the Plan Reader (R36): a take and a pass are cut, a SPENT write
standing ready for a finishing passage is not made (one that stands ready for the last passage of a
plan, no longer held, is: log 42), ABANDONED is requested, everything held is let go. -/
def abandonHeld (p : Part) : Part :=
  let r := p.reader
  { p with reader := { r with
    current := none
    next := .empty
    delta := 0
    phase := .off
    lookTimer := none
    streamTimer := none
    stopAtEnd := false
    take := none
    line := (r.line.filter fun a => !a.looks && !a.spentHeld) ++ r.heldPtrs.map .abandon
    pass := none
    passDue := false } }

/-! ## The arbiter's view (R39) -/

/-- The Console Port has a store access waiting. During clearing it waits on (R2). -/
def Part.consoleWaits (p : Part) : Bool :=
  !p.clearing &&
    match p.port.waiting with
    | .read _ :: _ => true
    | .write _ _ :: _ => true
    | _ => false

/-- A requester has an access waiting; a pass in progress has an entry word to read (R28, R39). -/
def Part.waits (p : Part) : Requester → Bool
  | .console => p.consoleWaits
  | .planReader => !p.reader.line.isEmpty || p.reader.pass.isSome
  | .reportWriter => !p.report.writing.isEmpty
  | .serviceUnit => !p.svcLine.isEmpty

/-- No requester has an access waiting. -/
def Part.storeFree (p : Part) : Bool :=
  !p.waits .console && !p.waits .planReader && !p.waits .reportWriter && !p.waits .serviceUnit

/-- An access is served for the requester that makes it, and the pointer names it (R39). -/
def served (r : Requester) (p : Part) : Part := { p with arb := r }

end Sys2Proof.Machine
end

