-- ==== Sys2Proof/Machine/Player.lean ====
section
/-! DEFINITION. The Player's shared operations: key-offs of window notes and the completion test they
make, the end of a plan, the general release, HALT, locking, DRAINING, the release of a following
passage at STOP, and the fermata bar (R33, R35, R101-R105, R120-R123, R126, R127, R137-R140). -/

namespace Sys2Proof.Machine

/-- The Player changes state (R116); leaving RUNNING empties the Onset Queue (R65). -/
def moveTo (st : PlayerState) (p : Part) : Part :=
  enterState st (if st = .running then p else flushOnsets p)

/-- The follow state becomes LEAD, with no watched cue and no freeze (R94). -/
def leaveFollower (p : Part) : Part := { p with follower := p.follower.leave }

/-- The fermata record returns to NONE and the starve timer stops. -/
def clearFermata (p : Part) : Part :=
  { p with player := { p.player with fermata := Fermata.init, starveTimer := none } }

/-! ## Completion and the end of a plan -/

/-- Go on only while the Player is playing (R127, R133): a plan may end inside an event (log 17). -/
def whilePlaying (f : Part → Part) (p : Part) : Part := if p.playing then f p else p

/-- The clock has saturated in a DRAINING (R124): every key-off is due, and no later time is reached. -/
def Part.drainsSaturated (p : Part) : Bool :=
  p.player.state == .draining && p.satTaken && decide (Config.clockMax ≤ p.clock)

/-- A PENDING note that is never keyed (log 28): its keying time lies ahead of the saturated clock. -/
def Part.neverKeyed (p : Part) (x : Note) : Bool :=
  p.drainsSaturated && x.state == .pending && decide (p.now < keyingTime p.follower x)

/-- Some note of a plan index is still awaited in the Lookahead Window (R103, R137). -/
def Part.noteLeft (p : Part) (idx : Nat) : Bool :=
  p.sched.window.any fun x => x.planIndex == idx && !p.neverKeyed x

/-- The finishing passage completes when none of its notes is left (R103): its SPENT write stands
ready (R33, log 13), or, where the current buffer holds the same pointer, it is let go with no write
(R182), and in STARVED no look is made for it at once (log 47). -/
def completeFinishing (p : Part) : Part :=
  match p.reader.next with
  | .finishing q idx false =>
    if p.noteLeft idx then p
    else if p.reader.currentPtr = some q then
      { p with reader := { p.reader with next := .empty } }
    else
      askReader (.spent q true)
        { p with reader := { p.reader with next := .finishing q idx true } }
  | _ => p

/-- In DRAINING the current passage completes when none of its notes is left (R103, R104): it is no longer
held, and its SPENT write stands whatever ends the plan (log 42). SPENT is not written while the next
buffer holds an instance of one pointer with it (R33, R182). -/
def completeCurrent (p : Part) : Part :=
  match p.player.state, p.reader.current with
  | .draining, some b =>
    if p.noteLeft b.planIndex then p
    else
      let q := { p with reader := { p.reader with current := none, streamTimer := none } }
      if p.reader.next.ptr = some b.passage.ptr then q else askReader (.spent b.passage.ptr false) q
  | _, _ => p

/-- The plan has ended: in DRAINING every passage held has completed (R104, R127, R181). Passages let go
by the first stage of a soft reset have not completed, and no plan ends between its stages (R129,
log 41). -/
def planOver (p : Part) : Bool :=
  p.player.state == .draining && p.reader.current.isNone && !p.reader.next.awaited && !p.softReset

/-- The end of a plan (R127): the three lists are empty, the notes never keyed (log 28) among them. -/
def endPlan (p : Part) : Part :=
  let r := { p with
    reader := { p.reader with
      next := .empty
      phase := .off
      lookTimer := none
      streamTimer := none
      line := p.reader.line.map ReaderAccess.unheld
      pass := none
      passDue := false }
    sched := { p.sched with window := [], cues := [], steps := [] } }
  moveTo .idle (latch .ended (leaveFollower (stopHoldListening (clearFermata r))))

/-- The completion test (R103), made at the end event and at each key-off. -/
def completion (p : Part) : Part :=
  let q := completeCurrent (completeFinishing p)
  if planOver q then endPlan q else q

/-! ## Key-offs (R137, R138) -/

/-- The key-off of a note (R137): a release for each claimed output, in rising output number. -/
def keyOff (x : Note) (p : Part) : Part := x.claimed.foldl (fun acc n => release n acc) p

/-- The Lookahead Window replaced. -/
def putWindow (w : List Note) (p : Part) : Part := { p with sched := { p.sched with window := w } }

/-- Walk the window: each SOUNDING note selected is keyed off and removed, and the completion test
made (R137), until one ends the plan (log 17); `kept` is the part already walked. -/
def keyOffLoop (sel : Note → Bool) : List Note → List Note → Part → Part
  | _, [], p => p
  | kept, x :: rest, p =>
    if x.state = .sounding ∧ sel x then
      whilePlaying (keyOffLoop sel kept rest) (completion (putWindow (kept ++ rest) (keyOff x p)))
    else keyOffLoop sel (kept ++ [x]) rest p

/-- Key-offs of the SOUNDING notes selected, in window order: R133 gives that order for a slice, R138 for
clock saturation; for the other requests of R138 it is the model's (DESIGN CHOICE, log 59). -/
def keyOffs (sel : Note → Bool) (p : Part) : Part := keyOffLoop sel [] p.sched.window p

/-- A note is an end note of the current passage (R101). -/
def endNote (p : Part) (x : Note) : Bool :=
  match p.reader.current with
  | some b => x.planIndex == b.planIndex && x.release == b.passage.endPos
  | none => false

/-- The key-offs of the SOUNDING end notes of the current passage (R138). -/
def keyOffEndNotes (p : Part) : Part := keyOffs (endNote p) p

/-- The key-offs of the SOUNDING notes with a given release position (R109, R111). -/
def keyOffAt (pos : Int) (p : Part) : Part := keyOffs (fun x => x.release == pos) p

/-! ## The general release, HALT and locking -/

/-- The three lists emptied (R120). -/
def emptyLists (p : Part) : Part :=
  { p with sched := { p.sched with window := [], cues := [], steps := [] } }

/-- The general release (R120). -/
def generalRelease (p : Part) : Part :=
  clearFermata (stopHoldListening (flushOnsets (leaveFollower (keyGeneralRelease
    (emptyLists (abandonHeld p))))))

/-- HALT at the Player (R121). -/
def haltPlayer (p : Part) : Part :=
  if p.playing then
    let q := generalRelease p
    moveTo .idle (latch .ended { q with player := { q.player with endReason := .halted } })
  else p

/-- A lock is taken (R123). -/
def lockPlayer (why : LockReason) (addr : Nat) (p : Part) : Part :=
  let q := generalRelease p
  moveTo .locked (latch .locked { q with player := { q.player with
    lockReason := why, lockAddr := addr, endReason := .none } })

/-- The states in which a lock request is taken, but for the head exchange (R122). -/
def lockTaken (why : LockReason) (st : PlayerState) : Bool :=
  match st with
  | .running => true
  | .held => true
  | .starved => true
  | .draining => why != .clock
  | .idle => false
  | .locked => false

/-- A lock request, ignored in any other state (R122, R128). -/
def lockRequest (why : LockReason) (addr : Nat) (p : Part) : Part :=
  if lockTaken why p.player.state then lockPlayer why addr p else p

/-! ## DRAINING (R104, R114) -/

/-- The Player enters DRAINING with a reason, and the completion test is made (R103, R104). The
Player leaves RUNNING, HELD, STARVED: SEEKING ends and a take is cut (R21, R22). -/
def enterDraining (why : EndReason) (p : Part) : Part :=
  let r := cutTake p
  let q := { r with
    reader := { r.reader with
      phase := if r.reader.phase = .endFound then .endFound else .off
      lookTimer := none }
    player := { r.player with endReason := why, starveTimer := none } }
  completion (moveTo .draining q)

/-- STARVED ends without a following passage (R114): the end notes' key-offs, then DRAINING. -/
def drainStarved (why : EndReason) (p : Part) : Part := enterDraining why (keyOffEndNotes p)

/-! ## STOP and the following passage (R35, R140, R182) -/

/-- The Scheduler discards what a plan index handed (R140): sounding notes are keyed off. -/
def discardIndex (idx : Nat) (p : Part) : Part :=
  let q := keyOffs (fun x => x.planIndex == idx) p
  rewatch { q with sched := { q.sched with
    window := q.sched.window.filter fun x => x.planIndex != idx
    cues := q.sched.cues.filter fun x => x.planIndex != idx
    steps := q.sched.steps.filter fun x => x.planIndex != idx } }

/-- A following passage not yet entered is released (R35, R182). -/
def releaseFollowing (p : Part) : Part :=
  match p.reader.next with
  | .following b =>
    let q := { p with reader := { p.reader with next := .empty, delta := 0 } }
    let r := if p.reader.currentPtr = some b.passage.ptr then q
      else askReader (.abandon b.passage.ptr) q
    discardIndex b.planIndex r
  | _ => p

/-- Stop-at-end is set (R35). -/
def setStopAtEnd (p : Part) : Part :=
  let q := cutTake p
  releaseFollowing { q with reader := { q.reader with
    stopAtEnd := true, phase := .off, lookTimer := none } }

/-! ## The fermata bar (R105) -/

/-- The holding point of a fermata record or cue. -/
def Fermata.holdingPoint (f : Fermata) : Int := f.pf + f.hf

/-- The holding points that count toward the bar: the HOLD cues listed and the record (R105). -/
def holdingPoints (p : Part) : List Int :=
  ((p.sched.cues.filter fun c => c.kind == .hold).map fun c => c.position + (c.hf : Int))
    ++ (if p.player.fermata.phase = .none then [] else [p.player.fermata.holdingPoint])

/-- The least of a list of positions. -/
def least : List Int → Option Int
  | [] => none
  | x :: rest =>
    match least rest with
    | none => some x
    | some y => some (min x y)

/-- The fermata bar (R105). -/
def Part.bar (p : Part) : Option Int := least (holdingPoints p)

/-- A position is at or after the bar. -/
def barred (bar : Option Int) (pos : Int) : Bool :=
  match bar with
  | some b => decide (b ≤ pos)
  | none => false

end Sys2Proof.Machine
end

