-- ==== Sys2Proof/Machine/Cues.lean ====
section
/-! DEFINITION. Cues: closes taken one by one, the run of closes already past, cues passed in a LEAD
passage, and the HOLD cue handed to the Player (R79-R84, R89, R91, R106). -/

namespace Sys2Proof.Machine

/-- The Player takes a HOLD cue (R106): stored if no fermata is on, else discarded. -/
def takeHold (c : Cue) (p : Part) : Part :=
  if c.kind = .hold ∧ p.player.fermata.phase = .none then
    { p with player := { p.player with fermata :=
      { phase := .pending
        pf := c.position
        hf := c.hf
        maxHold := c.maxHold
        breath := c.breath
        follow := false } } }
  else p

/-- Closes are taken, and cues passed: RUNNING with no fermata held (R81, R91). -/
def Part.takesCues (p : Part) : Bool :=
  p.player.state == .running && p.player.fermata.phase != .holding

/-! ## Closes (R79-R84, R89) -/

/-- The clock has reached the close of the watched cue (R81, R82). -/
def cueCloseDue (p : Part) : Bool :=
  p.takesCues && p.followMode && !p.sched.cues.isEmpty &&
    match p.follower.watched with
    | some w => decide (w ≤ p.now)
    | none => false

/-- The head of the Cue List is removed (R84, R141). -/
def dropHeadCue (p : Part) : Part :=
  { p with sched := { p.sched with cues := p.sched.cues.tail } }

/-- The effect of an outcome on the context (R82, R84, R88, R89). -/
def Follower.resolve (f : Follower) (q : Passage) (c : Cue) (r : CueOutcome × Option Onset) :
    Follower :=
  let g :=
    match r with
    | (.matched, some o) => f.matchUpdate q c o.time
    | (.miss, _) => f.missUpdate q
    | _ => f
  { g with lastOutcome := r.1 }

/-- A cue resolves (R82-R89): outcome, queue removals, context, the HOLD cue handed to the Player, the
next cue watched; LOST latched on entering it; a change of follow state is a trigger. -/
def resolveCue (q : Passage) (c : Cue) (p : Part) : Part :=
  let f := p.follower
  let tp := f.predict c.position
  let w := f.halfWidth q
  let r := judgeCue tp w p.listen.queue
  let g := f.resolve q c r
  let s := { p with
    follower := g
    listen := { p.listen with queue := consumeOnsets tp w r.2 p.listen.queue } }
  let t := rewatch (takeHold c (dropHeadCue s))
  triggerIf (g.state != f.state) (latchIf (g.state == .lost && f.state != .lost) .lost t)

/-- The close of the head of the Cue List is taken, with the window, gains and miss limit of the current
passage, also where the head is a cue of the following one (log 53). -/
def closeHead (p : Part) : Part :=
  match p.reader.current, p.sched.cues with
  | some b, c :: _ => resolveCue b.passage c p
  | _, _ => p

/-- Closes already past resolve cue by cue, each on the context and the queue the one before it left,
until the head's close lies ahead or the list is empty (R80). The first argument bounds the run by the
cues listed. A HOLD cue of the run begins to hold after it (log 48). -/
def runCloses : Nat → Part → Part
  | 0, p => p
  | k + 1, p => if cueCloseDue p then runCloses k (closeHead p) else p

/-- The closes that are past resolve at once (R80). -/
def takeCloses (p : Part) : Part := runCloses p.sched.cues.length p

/-- The watched close is recomputed, and where it is past and closes are taken the cue resolves at once,
with those after it (R80, R81). -/
def settleCloses (p : Part) : Part := takeCloses (rewatch p)

/-! ## Cues of a LEAD passage (R91) -/

/-- In a LEAD passage the clock has reached t(p_c) of the head cue (R91). A cue of the following passage
at the head is passed like any other, with no test of its plan index (log 43). -/
def cuePassDue (p : Part) : Bool :=
  match p.reader.current, p.sched.cues with
  | some b, c :: _ =>
    p.takesCues && !b.passage.follow && decide (p.follower.predict c.position ≤ p.now)
  | _, _ => false

/-- A cue of a LEAD passage is passed (R91): removed, a HOLD cue handed to the Player. -/
def cuePassStep (p : Part) : Part :=
  match p.sched.cues with
  | c :: _ => rewatch (takeHold c (dropHeadCue p))
  | [] => p

end Sys2Proof.Machine
end

