-- ==== Sys2Proof/Machine/Looking.lean ====
section
/-! DEFINITION. Looks, the need test, and the entry into a passage with its entry hold (R19-R21, R27,
R78, R93, R97-R100, R139, R181). -/

namespace Sys2Proof.Machine

/-! ## Looks (R19, R20) -/

/-- A look finds FFFFh (R19): END_FOUND; in STARVED the plan drains with COMPLETE (R114). -/
def endFound (p : Part) : Part :=
  let q := { p with reader := { p.reader with phase := .endFound, lookTimer := none } }
  if p.player.state = .starved then drainStarved .complete q else q

/-- The stamp read of a look (R19): READY begins a take, any other value ends the look. -/
def lookStampRead (q : Nat) (stamp : Word) (p : Part) : Part :=
  if stamp = stampReady then beginTake q false p else p

/-- What a look found in the next field (R19). -/
inductive NextField where
  | notLinked | endOfPlan | invalid | passage (ptr : Nat)
  deriving DecidableEq, Repr

/-- The class of a next field (R4, R19). -/
def nextField (w : Word) : NextField :=
  if w.toNat = 0 then .notLinked
  else if w.toNat = 0xFFFF then .endOfPlan
  else if inConsoleSpace w.toNat then .passage w.toNat
  else .invalid

/-- The next field of the current passage has been read as `w` (R19); `stamp` goes on to the stamp
read of a linked passage. -/
def lookNextRead (w : Word) (stamp : Nat → Part → Part) (p : Part) : Part :=
  match nextField w with
  | .notLinked => p
  | .endOfPlan => endFound p
  | .invalid => lockRequest .badPassage (p.reader.currentPtr.getD 0) p
  | .passage q => stamp q p

/-- The address of the next field a look reads: word 1 of the current passage's record (R19). -/
def Reader.nextFieldAddr (r : Reader) : Nat := r.currentPtr.getD 0 + 1

/-- Both reads of a look made at once (log 8). -/
def directLook (mem : Memory) (p : Part) : Part :=
  lookNextRead (mem.read p.reader.nextFieldAddr)
    (fun q acc => lookStampRead q (mem.read q) (served .planReader acc)) (served .planReader p)

/-- A look may be made: a passage is current, no look or take is under way (R19), and not in STARVED
with a finishing passage still held (R181). -/
def Part.mayLook (p : Part) : Bool :=
  p.reader.current.isSome && !p.reader.looking
    && !(p.player.state == .starved && p.reader.next.isFinishing)

/-- A look of the look timer (R19): its reads are made at once when the store is free, and wait their
turn in the reader's line otherwise (log 8). -/
def look (mem : Memory) (p : Part) : Part :=
  if !p.mayLook then p
  else if p.storeFree then directLook mem p
  else askReader .lookNext p

/-- A look begun inside another event (R21, R181): its reads wait their turn (log 8). -/
def askLook (p : Part) : Part := if p.mayLook then askReader .lookNext p else p

/-- The look timer starts (R21). -/
def startLookTimer (p : Part) : Part :=
  { p with reader := { p.reader with lookTimer := some (p.time + Config.lookInterval) } }

/-! ## Need (R21) -/

/-- The Plan Reader looks only while the Player is RUNNING, HELD or STARVED (R21). -/
def Part.seekState (p : Part) : Bool :=
  p.player.state == .running || p.player.state == .held || p.player.state == .starved

/-- The position stands frozen in HELD or in a held fermata (R21): no need can arise there. -/
def Part.needFrozen (p : Part) : Bool := p.player.state == .held || p.fermataHeld

/-- A following passage is needed (R21). -/
def Part.needed (p : Part) : Bool :=
  match p.reader.current with
  | some b =>
    let q := b.passage
    let needAt : Int := (q.endPos : Int) - p.setup.horizon
    p.reader.phase == .waitingForNeed && p.reader.next.isEmpty && p.seekState && !p.needFrozen
      && (decide (needAt ≤ p.position) || decide (needAt ≤ q.startPos))
  | none => false

/-- SEEKING begins with a look and the look timer (R21). -/
def beginSeeking (p : Part) : Part :=
  askLook (startLookTimer { p with reader := { p.reader with phase := .seeking } })

/-- The need test (R21). -/
def needTest (p : Part) : Part := if p.needed then beginSeeking p else p

/-! ## Entry into a passage (R27, R93, R98, R139) -/

/-- A list entry restated by subtracting Δ (R139). -/
def Note.restate (d : Int) (x : Note) : Note :=
  { x with position := x.position - d, release := x.release - d }

/-- The Scheduler at an entry (R139). -/
def Scheduler.enter (s : Scheduler) (d : Int) (idx : Nat) : Scheduler :=
  { s with
    window := s.window.map (Note.restate d)
    cues := s.cues.map fun c => { c with position := c.position - d }
    steps := s.steps.map fun x => { x with position := x.position - d }
    curIndex := idx }

/-- A pass in progress at an entry (R26, R27, R28, log 39): it goes on over the lists of the passage
entered, at their block positions; an entry begun in them is read on. -/
def Pass.enter (x : Pass) (d : Int) : Pass :=
  { bound := x.bound - d
    left := (x.left.filter Stage.ahead).map fun st => { st with ahead := false }
    got := if (x.left.head?.map Stage.ahead).getD false then x.got else [] }

/-- A passage is entered with the entry anchor time `tau` (R93, R97, R98): it becomes current, a
pass in progress and the Scheduler restate, the Follower takes its band, state, T and anchor, the next beat boundary is
placed, and a LEAD passage empties the Onset Queue (R65). -/
def enterPassage (b : Buffer) (atStart : Bool) (tau : Int) (p : Part) : Part :=
  let f := p.follower.enter b.passage atStart tau
  let q := { p with
    reader := { p.reader with
      current := some b
      delta := 0
      pass := p.reader.pass.map fun x => x.enter p.reader.delta }
    sched := p.sched.enter p.reader.delta b.planIndex
    follower := f }
  placeBoundary b.passage.startPos (if b.passage.follow then q else flushOnsets q)

/-- The passage left becomes the finishing passage (R26). -/
def passageLeft (p : Part) : NextBuffer :=
  match p.reader.current with
  | some b => .finishing b.passage.ptr b.planIndex false
  | none => .empty

/-- The following passage moves to the current buffer and is entered (R26, R98). -/
def enterFollowing (b : Buffer) (tau : Int) (p : Part) : Part :=
  enterPassage b false tau { p with reader := { p.reader with next := passageLeft p } }

/-- The entry hold (R100): HELD, frozen at the start position. -/
def entryHold (q : Passage) (p : Part) : Part :=
  if q.holdAtEntry then
    moveTo .held { p with follower := { p.follower with freeze := some (q.startPos : Int) } }
  else p

end Sys2Proof.Machine
end

