-- ==== Sys2Proof/Machine/Streaming.lean ====
section
/-! DEFINITION. Streaming the Music Block into the Scheduler's three lists: a pass goes over the lists of
the two buffers, each entry read word by word as an access of the Plan Reader, and hands, passes over or
leaves what it has read (R1, R28-R32, R34, R39, R131, R141, R142). -/

namespace Sys2Proof.Machine

/-! ## Buffers and cursors -/

/-- The buffer being streamed: the current one, or the next one where it holds a following passage
(R28). -/
def Reader.bufferAt (r : Reader) (ahead : Bool) : Option Buffer :=
  if ahead then
    match r.next with
    | .following b => some b
    | _ => none
  else r.current

/-- The frame offset of a buffer's entries (R27): Δ for the next buffer, 0 for the current one. -/
def Reader.offset (r : Reader) (ahead : Bool) : Int := if ahead then r.delta else 0

/-- A buffer replaced. -/
def putBuffer (ahead : Bool) (b : Buffer) (p : Part) : Part :=
  if ahead then { p with reader := { p.reader with next := .following b } }
  else { p with reader := { p.reader with current := some b } }

/-- A cursor moves past an entry of `words` words and `entries` list places at position `pos`; the
list is finished when the index reaches its count (R29). -/
def Cursor.past (c : Cursor) (words entries pos count : Nat) : Cursor :=
  { index := c.index + entries
    addr := c.addr + words
    prev := some pos
    finished := decide (count ≤ c.index + entries) }

/-- A list is finished at an entry (R29, R31). -/
def Cursor.finish (c : Cursor) (pos : Nat) : Cursor := { c with prev := some pos, finished := true }

/-- An entry's position is lower than the previous one's (R34). -/
def Cursor.outOfOrder (c : Cursor) (pos : Nat) : Bool :=
  match c.prev with
  | some q => decide (pos < q)
  | none => false

/-- A list of a buffer is streamed to its end; the steps list with its base step (R28, R31). -/
def Buffer.listDone (b : Buffer) : ListKind → Bool
  | .notes => b.notes.finished
  | .cues => b.cues.finished
  | .steps => b.baseDone && b.steps.finished

/-- The cursor of a list (R18). -/
def Buffer.cursor (b : Buffer) : ListKind → Cursor
  | .notes => b.notes
  | .cues => b.cues
  | .steps => b.steps

/-- The Scheduler's list for a kind of entry is full (R32). -/
def Part.listFull (p : Part) : ListKind → Bool
  | .notes => decide (Config.windowSize ≤ p.sched.window.length)
  | .cues => decide (Config.cueListSize ≤ p.sched.cues.length)
  | .steps => decide (Config.stepListSize ≤ p.sched.steps.length)

/-- A list may be streamed: of the current buffer, or of the next one where the same list of the current
one is streamed to its end (R28). -/
def Reader.mayStream (r : Reader) (st : Stage) : Bool :=
  !st.ahead ||
    match r.current with
    | some b => b.listDone st.list
    | none => false

/-- The buffer whose list a pass reads on at a stage: there is one, the list is not at its end, the
Scheduler has room, and of the steps the base step has gone before (R28, R31, R32): until it has, no entry
of its list is read, none before the start position either (log 52). -/
def stageBuffer (st : Stage) (p : Part) : Option Buffer :=
  match p.reader.bufferAt st.ahead with
  | some b =>
    if !p.reader.mayStream st || (b.cursor st.list).finished || p.listFull st.list
        || (st.list == .steps && !b.baseDone) then none
    else some b
  | none => none

/-! ## The course of a pass (R28) -/

/-- The pass in progress replaced. -/
def putPass (x : Option Pass) (p : Part) : Part := { p with reader := { p.reader with pass := x } }

/-- The base registration step of a passage (R31). -/
def baseStep (b : Buffer) (d : Int) : Step :=
  { position := b.passage.startPos + d
    entries := b.passage.baseReg
    planIndex := b.planIndex
    holdAtEntry := b.passage.holdAtEntry }

/-- A step is handed (R31). -/
def handStep (x : Step) (p : Part) : Part :=
  { p with sched := { p.sched with steps := p.sched.steps ++ [x] } }

/-- The base registration step is handed in the first pass in which it lies within the bound and the
Step List has room (R31). -/
def streamBase (bound : Int) (ahead : Bool) (p : Part) : Part :=
  match p.reader.bufferAt ahead with
  | none => p
  | some b =>
    let d := p.reader.offset ahead
    if b.baseDone || decide (bound < (b.passage.startPos : Int) + d)
        || decide (Config.stepListSize ≤ p.sched.steps.length) then p
    else handStep (baseStep b d) (putBuffer ahead { b with baseDone := true } p)

/-- The pass comes to a stage: at the steps, the base step first (R31). -/
def atStage (bound : Int) (st : Stage) (p : Part) : Part :=
  if st.list = .steps ∧ p.reader.mayStream st then streamBase bound st.ahead p else p

/-- The pass goes on to the first of its stages with an entry to read, and ends where there is none
(R28). -/
def seekEntry (bound : Int) : List Stage → Part → Part
  | [], p => putPass none p
  | st :: rest, p =>
    let q := atStage bound st p
    match stageBuffer st q with
    | some _ => putPass (some { bound := bound, left := st :: rest, got := [] }) q
    | none => seekEntry bound rest q

/-- The stages of a pass in order: the current buffer's lists, then the next buffer's (R28). -/
def passStages : List Stage :=
  [ { ahead := false, list := .notes }, { ahead := false, list := .cues }
  , { ahead := false, list := .steps }, { ahead := true, list := .notes }
  , { ahead := true, list := .cues }, { ahead := true, list := .steps } ]

/-- A pass begins (R28): its bound is taken, and the need test is made (R21). -/
def startPass (p : Part) : Part :=
  seekEntry (p.position + p.setup.horizon) passStages (needTest p)

/-- A pass is due (R28): it begins at once, or when the one in progress ends. -/
def requestPass (p : Part) : Part :=
  if p.reader.pass.isSome then { p with reader := { p.reader with passDue := true } }
  else startPass p

/-- A pass that has ended is followed at once by one that fell due meanwhile (R28). -/
def nextPass (p : Part) : Part :=
  if p.reader.pass.isNone && p.reader.passDue then
    startPass { p with reader := { p.reader with passDue := false } }
  else p

/-- The pass goes on over the stages left. -/
def goOn (bound : Int) (left : List Stage) (p : Part) : Part := nextPass (seekEntry bound left p)

/-! ## What an entry read comes to (R29-R31, R34) -/

/-- Whether an entry lies before the span that is handed, beyond its end, beyond the bound, or is to be
handed; or is out of position order (R29-R31, R34). -/
inductive EntryFate where
  | bad | before | beyond | later | handed
  deriving DecidableEq, Repr

/-- The fate of an entry at a position (R29-R31, R34): the span handed is [S, N), and [S, N] of the
steps. -/
def entryFate (b : Buffer) (kind : ListKind) (bad : Bool) (pos : Nat) (d bound : Int) : EntryFate :=
  let q := b.passage
  if (b.cursor kind).outOfOrder pos || bad then .bad
  else if pos < q.startPos then .before
  else if q.endPos ≤ pos ∧ (kind ≠ .steps ∨ q.endPos < pos) then .beyond
  else if bound < (pos : Int) + d then .later
  else .handed

/-- An entry is out of order (R34): nothing is handed, the pass ends, and a lock is requested. -/
def badEntry (addr : Nat) (p : Part) : Part := lockRequest .badBlock addr (putPass none p)

/-- A buffer whose cursor of a list is replaced. -/
def Buffer.withCursor (b : Buffer) (kind : ListKind) (c : Cursor) : Buffer :=
  match kind with
  | .notes => { b with notes := c }
  | .cues => { b with cues := c }
  | .steps => { b with steps := c }

/-- What the words read so far of an entry come to, at the first of the stages left (R28-R31, R34):
`words` is how many words its course needs, `past` the cursor after it, `hand` its handing. -/
def entryCourse (b : Buffer) (st : Stage) (rest : List Stage) (x : Pass) (fate : EntryFate) (pos : Nat)
    (words : Nat) (past : Cursor) (hand : Part → Part) (p : Part) : Part :=
  let c := b.cursor st.list
  let put_ (c' : Cursor) (p : Part) : Part := putBuffer st.ahead (b.withCursor st.list c') p
  match fate with
  | .bad => badEntry c.addr p
  | .beyond => goOn x.bound rest (put_ (c.finish pos) p)
  | .later => goOn x.bound rest p
  | .before =>
    if x.got.length < words then putPass (some x) p
    else goOn x.bound (st :: rest) (put_ past p)
  | .handed =>
    if x.got.length < words then putPass (some x) p
    else goOn x.bound (st :: rest) (hand (put_ past p))

/-! ## Notes (R29, R131) -/

/-- The Lookahead Window entry of a note (R29, R131). -/
def makeNote (su : Setup) (b : Buffer) (d : Int) (pos : Nat) (w1 w2 : Word) : Note :=
  let dv := noteDivision w1
  let k := noteKey w1
  { position := pos + d
    release := (min (pos + noteDuration w2) b.passage.endPos : Nat) + d
    division := dv
    key := k
    outputs := keyOutputs su.outputMap dv k
    planIndex := b.planIndex
    holdAtEntry := b.passage.holdAtEntry
    keyingLead := ((onLeadOf su dv k : Nat) : Int) * 250 + b.passage.leadAdjust * 250
    releaseLead := ((entry su.releaseLead dv : Nat) : Int) * 250
    claimed := []
    state := .pending }

/-- A note that names no output, or whose key lies above its division's range, is skipped (R29). -/
def noteUnmapped (x : Note) : Bool := decide (maxKey x.division < x.key) || x.outputs.isEmpty

/-- A note that has been read is handed or skipped (R29). -/
def handNote (x : Note) (p : Part) : Part :=
  if noteUnmapped x then latch .mapping p
  else { p with sched := { p.sched with window := p.sched.window ++ [x] } }

/-- The words of a note entry read so far (R29): its third word is read where it is handed. -/
def noteRead (b : Buffer) (st : Stage) (rest : List Stage) (x : Pass) (w0 w1 : Word) (more : List Word)
    (p : Part) : Part :=
  let pos := entryPosition w0 w1
  let d := p.reader.offset st.ahead
  let fate := entryFate b .notes false pos d x.bound
  entryCourse b st rest x fate pos (if fate = .handed then 3 else 2)
    (b.notes.past 3 1 pos b.passage.noteCount)
    (handNote (makeNote p.setup b d pos w1 (more.getD 0 0))) p

/-! ## Cues (R30, R141) -/

/-- The Cue List entry of a cue (R30). -/
def makeCue (b : Buffer) (d : Int) (pos : Nat) (w1 x0 x1 : Word) : Cue :=
  let hold := cueKind w1 == .hold
  { position := pos + d
    kind := cueKind w1
    cls := cueClass w1
    hf := if hold then holdLength x0 else 0
    maxHold := if hold then maxHoldBeats x0 else 0
    breath := if hold then breathTicks x1 else 0
    planIndex := b.planIndex }

/-- A cue is handed (R30): where it becomes the head of the Cue List, or its close is past, R80 acts. -/
def handCue (x : Cue) (p : Part) : Part :=
  settleCloses { p with sched := { p.sched with cues := p.sched.cues ++ [x] } }

/-- A HOLD cue whose index is the last of the cue count (R30, log 22). -/
def holdUnextended (b : Buffer) (w1 : Word) : Bool :=
  cueKind w1 == .hold && decide (b.passage.cueCount ≤ b.cues.index + 1)

/-- The words of a cue entry read so far (R30): of a HOLD cue the two words of the extension too, where
it is handed or passed over. -/
def cueRead (b : Buffer) (st : Stage) (rest : List Stage) (x : Pass) (w0 w1 : Word) (more : List Word)
    (p : Part) : Part :=
  let pos := entryPosition w0 w1
  let d := p.reader.offset st.ahead
  let hold := cueKind w1 == .hold
  entryCourse b st rest x (entryFate b .cues (holdUnextended b w1) pos d x.bound) pos
    (if hold then 4 else 2)
    (if hold then b.cues.past 4 2 pos b.passage.cueCount else b.cues.past 2 1 pos b.passage.cueCount)
    (handCue (makeCue b d pos w1 (more.getD 0 0) (more.getD 1 0))) p

/-! ## Steps (R31, R142) -/

/-- MAPPING is latched for a step: more than 16 stop entries, or one dropped (R31). -/
def stepMaps (stored : Nat) (ws : List Word) : Bool :=
  decide (16 < stored) || ws.any fun w => (stopEntry w).isNone

/-- A step whose words would pass 7FFFh (R31, R34, log 21). -/
def stepOverruns (addr stored : Nat) : Bool := decide (0x7FFF < addr + 1 + stored)

/-- A step read is handed with its kept stop entries; one with none is passed over (R31). -/
def handRead (b : Buffer) (d : Int) (pos stored : Nat) (ws : List Word) (p : Part) : Part :=
  let kept := ws.filterMap stopEntry
  let m := latchIf (stepMaps stored ws) .mapping p
  if kept.isEmpty then m
  else handStep
    { position := pos + d
      entries := kept
      planIndex := b.planIndex
      holdAtEntry := b.passage.holdAtEntry } m

/-- The words of a step entry read so far (R31): its stop entries, the first 16 at most, are read where it
is handed. A step passed over before the start position latches no MAPPING (log 40). -/
def stepRead (b : Buffer) (st : Stage) (rest : List Stage) (x : Pass) (w0 w1 : Word) (more : List Word)
    (p : Part) : Part :=
  let pos := entryPosition w0 w1
  let d := p.reader.offset st.ahead
  let stored := stepStored w1
  let fate := entryFate b .steps (stepOverruns b.steps.addr stored) pos d x.bound
  entryCourse b st rest x fate pos (if fate = .handed then 2 + min stored 16 else 2)
    (b.steps.past (2 + stored) 1 pos b.passage.stepCount)
    (handRead b d pos stored more) p

/-! ## The read of an entry word (R1, R28, R39) -/

/-- A word of the entry at the cursor has been read: with its position words in hand the entry is
judged. -/
def entryRead (b : Buffer) (st : Stage) (rest : List Stage) (x : Pass) (p : Part) : Part :=
  match x.got, st.list with
  | w0 :: w1 :: more, .notes => noteRead b st rest x w0 w1 more p
  | w0 :: w1 :: more, .cues => cueRead b st rest x w0 w1 more p
  | w0 :: w1 :: more, .steps => stepRead b st rest x w0 w1 more p
  | _, _ => putPass (some x) p

/-- The next entry word of the pass in progress is read (R1, R28). Where its list is streamed no further
since it was asked for, the word is dropped and the pass goes on (log 39). -/
def entryServed (mem : Memory) (p : Part) : Part :=
  match p.reader.pass with
  | none => p
  | some x =>
    match x.left with
    | [] => goOn x.bound [] p
    | st :: rest =>
      match stageBuffer st p with
      | none => goOn x.bound (st :: rest) p
      | some b =>
        let w := mem.read ((b.cursor st.list).addr + x.got.length)
        entryRead b st rest { x with got := x.got ++ [w] } p

/-! ## The stream timer (R28) -/

/-- The stream timer expires (R28): it runs on, and a pass is due. -/
def streamTick (p : Part) : Part :=
  requestPass { p with reader := { p.reader with
    streamTimer := some (p.time + Config.streamInterval) } }

/-- The stream timer has expired while the Player is playing and a passage is current (R28). -/
def streamDue (p : Part) : Bool :=
  p.playing && p.reader.current.isSome && expired p.time p.reader.streamTimer

end Sys2Proof.Machine
end

