-- ==== Sys2Proof/Machine/Taking.lean ====
section
/-! DEFINITION. The stamp exchange and what a take ends in: the head passage entered, a following
passage taken, a late take, a refusal, a withdrawal (R20, R23-R25, R27, R97, R113, R118). -/

namespace Sys2Proof.Machine

/-- START ends with its head not ready (R20, R117, R118): start in progress cleared. -/
def headNotReady (p : Part) : Part :=
  closeSlot .badState .headNotReady { p with player := { p.player with starting := false } }

/-- No take is in progress. -/
def takeOver (p : Part) : Part := { p with reader := { p.reader with take := none } }

/-- The head take has ended in TAKEN or REFUSED (R118): start in progress clear, reason NONE. -/
def startTaken (p : Part) : Part :=
  { p with player := { p.player with starting := false, endReason := .none } }

/-- A passage has just been entered: the need test (R21), made before an entry hold freezes the position
(log 51), the entry hold (R100), the close of the watched cue (R80), the pass at once after an entry
(R28). -/
def afterEntry (q : Passage) (p : Part) : Part :=
  requestPass (settleCloses (entryHold q (needTest p)))

/-- The time of the head's entry anchor (R97). -/
def headAnchor (su : Setup) (q : Passage) : Int :=
  (su.startLead : Int) * 1000 + gapTime q.tn q.entryGap

/-- The head exchange ends in TAKEN (R97, R118): RUNNING, the head entered with plan index 0; if
magnet power has gone OFF meanwhile, a lock with POWER, taken after RUNNING and the entry (log 54). START
ends with OK. -/
def headTaken (q : Passage) (p : Part) : Part :=
  let b := q.buffer 0
  let s := startTaken { p with
    reader := { p.reader with
      planIndex := 0
      delta := 0
      phase := .waitingForNeed
      streamTimer := some (p.time + Config.streamInterval) }
    player := { p.player with state := .running } }
  let e := trigger (enterPassage b true (headAnchor p.setup q) s)
  closeSlot .ok .none
    (if p.power.on then afterEntry q e else lockRequest .power 0 e)

/-- The head exchange ends in REFUSED (R118): a lock from IDLE, and START ends with OK. -/
def headRefused (ptr : Nat) (p : Part) : Part :=
  closeSlot .ok .none (lockPlayer .badPassage ptr (startTaken p))

/-- A passage is taken into the next buffer (R23, R27). -/
def holdFollowing (cur : Buffer) (q : Passage) (p : Part) : Part :=
  let idx := (cur.planIndex + 1) % 65536
  { p with reader := { p.reader with
    next := .following (q.buffer idx)
    delta := (cur.passage.endPos : Int) + q.entryGap - q.startPos
    planIndex := idx
    phase := .waitingForNeed
    lookTimer := none } }

/-- A take in STARVED reaches TAKEN (R113): end notes released, the passage entered at the exchange's
clock plus its gap, RUNNING, an entry hold if flagged, and the passage left completes. -/
def lateTake (b : Buffer) (p : Part) : Part :=
  let k := keyOffEndNotes p
  let tau : Int := k.now + gapTime k.follower.period b.passage.entryGap
  let e := enterFollowing b tau { k with
    follower := { k.follower with freeze := none }
    player := { k.player with starveTimer := none, state := .running } }
  afterEntry b.passage (completion (trigger e))

/-- A following passage has been taken (R23): a late take in STARVED, a pass at once otherwise. -/
def followingTaken (q : Passage) (p : Part) : Part :=
  match p.reader.current with
  | none => p
  | some cur =>
    let r := holdFollowing cur q p
    if r.player.state = .starved then lateTake (q.buffer ((cur.planIndex + 1) % 65536)) r
    else requestPass r

/-- The course of a take whose stamp was replaced by TAKEN (R23). -/
def takenCourse (t : Take) (p : Part) : Part :=
  if t.head then headTaken t.passage p else followingTaken t.passage p

/-- The course of a take whose stamp was replaced by REFUSED (R23). -/
def refusedCourse (t : Take) (p : Part) : Part :=
  let q := latch .passage p
  if t.head then headRefused t.ptr q else lockRequest .badPassage t.ptr q

/-- The stamp exchange as one access, and what it brings (R23). -/
def exchange (t : Take) (mem : Memory) (p : Part) : Memory × Part :=
  let q := takeOver (latchIf (t.structural && t.skipsBase) .mapping p)
  if mem.read t.ptr = stampReady then
    if t.structural then
      (mem.write t.ptr stampTaken, takenCourse t q)
    else (mem.write t.ptr stampRefused, refusedCourse t q)
  else (mem, if t.head then headNotReady q else q)

end Sys2Proof.Machine
end

