-- ==== Sys2Proof/Machine/Boundary.lean ====
section
/-! DEFINITION. Magnet power going OFF, the end of a passage, starvation, fermatas, HOLD and RESUME,
NUDGE, and clock saturation (R81, R95, R100-R114, R124, R178). -/

namespace Sys2Proof.Machine

/-! ## Magnet power OFF (R178) -/

/-- A request for OFF: at a switch-off MPWR falls, the cause is recorded, the Key Table is forced OFF
(R158); but for a soft reset, a TEST ends (R180) and a playing Player locks (R122); POWER is latched
but for the command. A request that finds power OFF changes nothing. -/
def powerOff (cause : PowerCause) (p : Part) : Part :=
  if !p.power.on then p
  else
    let q := keyPowerOff { p with power := { on := false, cause := cause } }
    let r := if cause = .softReset then q else lockRequest .power 0 (powerLostTest q)
    latchIf (cause != .command) .power r

/-! ## The end of a passage (R102) -/

/-- The end of the current passage is reached (R102, log 15). A PENDING fermata whose holding point lies
beyond the end does not hold the end back, also where `holdingDue` holds at the same moment: which of the
two is taken first is left open (DESIGN CHOICE, log 57). -/
def passageEndDue (p : Part) : Bool :=
  match p.reader.current with
  | some b =>
    p.player.state == .running && p.follower.freeze.isNone
      && decide ((b.passage.endPos : Int) ≤ p.position)
      && !(p.player.fermata.phase == .pending
            && decide (p.player.fermata.holdingPoint ≤ b.passage.endPos))
  | none => false

/-- The cues of a plan index leave the Cue List without outcome (R81, R102). -/
def dropCues (idx : Nat) (p : Part) : Part :=
  { p with sched := { p.sched with cues := p.sched.cues.filter fun c => c.planIndex != idx } }

/-- A PENDING fermata is discarded at the end (R102). -/
def discardPending (p : Part) : Part :=
  if p.player.fermata.phase = .pending then
    { p with player := { p.player with fermata := Fermata.init } }
  else p

/-- The lists of a passage whose end is reached are not read further (R26, R33, log 14). -/
def Buffer.closed (b : Buffer) : Buffer :=
  { b with
    notes := { b.notes with finished := true }
    cues := { b.cues with finished := true }
    steps := { b.steps with finished := true }
    baseDone := true }

/-- The passage that follows is entered at the end of the current one (R98). -/
def endFollowing (cur b : Buffer) (p : Part) : Part :=
  let tau : Int := p.follower.predict cur.passage.endPos
    + gapTime p.follower.period b.passage.entryGap
  let e := enterFollowing b tau p
  afterEntry b.passage
    (completion (triggerIf (e.follower.state != p.follower.state) e))

/-- The Player starves (R112); the reader looks on as in SEEKING (R37, log 16). -/
def starve (cur : Buffer) (p : Part) : Part :=
  let q := latch .starved { p with
    follower := { p.follower with freeze := some (cur.passage.endPos : Int) }
    player := { p.player with starveTimer := some (p.time + 1000000 * p.setup.starveLimit) } }
  let r := completion (moveTo .starved q)
  if r.reader.phase = .waitingForNeed then beginSeeking r else r

/-- The end event (R102, R37): the passage's cues removed, a PENDING fermata discarded, and the course
the reader's report gives. -/
def passageEndCourse (cur : Buffer) (p : Part) : Part :=
  let closed := { p with reader := { p.reader with current := some cur.closed } }
  let q := rewatch (discardPending (dropCues cur.planIndex closed))
  match q.reader.next with
  | .following b => endFollowing cur b q
  | _ =>
    if q.reader.phase = .endFound then enterDraining .complete q
    else if q.reader.stopAtEnd then enterDraining .stopped q
    else starve cur q

/-- The end event for the passage that is current. -/
def passageEndStep (p : Part) : Part :=
  match p.reader.current with
  | some b => passageEndCourse b p
  | none => p

/-- The starve timer has expired in STARVED (R114). -/
def starveDue (p : Part) : Bool := p.player.state == .starved && expired p.time p.player.starveTimer

/-! ## Fermatas (R105-R110) -/

/-- Holding begins (R106): PENDING, RUNNING, the position at or past the holding point. There is no test
of the holding point against the end N. Where one event carries the position past both N and a holding
point beyond N, R102 and R106 give no order of the end and the start of holding, and both are due here:
the one taken first decides, and holding taken first freezes the position beyond N (DESIGN CHOICE, log
57). -/
def holdingDue (p : Part) : Bool :=
  p.player.state == .running && p.player.fermata.phase == .pending
    && decide (p.player.fermata.holdingPoint ≤ p.position)

/-- The start of holding (R106, R70). -/
def startHolding (p : Part) : Part :=
  let f := p.player.fermata
  let q := { p with
    player := { p.player with fermata := { f with phase := .holding, follow := p.followMode } }
    follower := { p.follower with freeze := some f.holdingPoint } }
  trigger (if p.followMode then startHoldListening q else q)

/-- X, the max-hold expiry (R108). -/
def Part.maxHoldTime (p : Part) : Int :=
  p.follower.predict p.player.fermata.pf
    + ((p.player.fermata.maxHold * p.follower.period : Nat) : Int)

/-- L, the lead expiry (R108). -/
def Part.leadTime (p : Part) : Int :=
  p.follower.predict p.player.fermata.pf + gapTime p.follower.period p.player.fermata.hf
    + 2 * (p.follower.period : Int)

/-- The fermata ends by max-hold expiry (R108). -/
def maxHoldDue (p : Part) : Bool := p.fermataHeld && decide (p.maxHoldTime ≤ p.now)

/-- The fermata ends by lead expiry (R108): in a LEAD passage alone. -/
def leadDue (p : Part) : Bool :=
  p.fermataHeld && !p.player.fermata.follow && decide (p.leadTime ≤ p.now)

/-- A re-anchor that ends a hold (R77, R78): the freeze released, the watched close recomputed. -/
def releaseFreeze (q tau : Int) (p : Part) : Part :=
  rewatch { p with follower := { p.follower.reAnchor q tau with freeze := none } }

/-- The fermata ends by cutoff or expiry at `te` (R109): a close already past resolves at once (R80). -/
def endFermata (te : Int) (p : Part) : Part :=
  let f := p.player.fermata
  let k := keyOffAt f.holdingPoint p
  let tau := te + gapTime k.follower.period f.breath
  takeCloses (trigger (releaseFreeze f.holdingPoint tau
    (stopHoldListening { k with player := { k.player with fermata := Fermata.init } })))

/-- A cutoff has been reported and the fermata is HOLDING (R71, R109, R128). -/
def cutoffDue (p : Part) : Bool := p.fermataHeld && p.listen.hold.cutoff.isSome

/-- The fermata ends by the cutoff (R108: the end time is the frame end that reported it). -/
def cutoffStep (p : Part) : Part :=
  match p.listen.hold.cutoff with
  | some te => endFermata te p
  | none => p

/-! ## HOLD and RESUME (R110, R111) -/

/-- HOLD in RUNNING (R111): the freeze at the present position; a holding fermata is DEFERRED. -/
def holdPlayer (p : Part) : Part :=
  let f := p.player.fermata
  let phase := if f.phase = .holding then .deferred else f.phase
  moveTo .held (stopHoldListening { p with
    follower := { p.follower with freeze := some p.position }
    player := { p.player with fermata := { f with phase := phase } } })

/-- RESUME in HELD (R111): a deferred fermata is finished, the line re-anchored after the resume gap,
the freeze released, RUNNING; a close already past resolves at once (R80, R81). -/
def resumePlayer (p : Part) : Part :=
  let f := p.player.fermata
  let k := if f.phase = .deferred then
      keyOffAt f.holdingPoint { p with player := { p.player with fermata := Fermata.init } }
    else p
  let tau := k.now + gapTime k.follower.period k.setup.resumeGap
  takeCloses (moveTo .running (releaseFreeze k.position tau k))

/-! ## NUDGE (R95) -/

/-- The percent of a NUDGE: its argument, signed, clamped into -10 to +10. -/
def nudgePercent (w : Word) : Int := clampInt (-10) 10 w.toInt

/-- NUDGE at the present position and clock (R95): a close already past resolves at once. -/
def nudgePlayer (percent : Int) (p : Part) : Part :=
  settleCloses { p with follower := p.follower.nudge percent p.position p.now }

/-! ## Clock saturation (R124) -/

/-- The clock has reached its last value, not yet taken since its last zeroing (R124). -/
def saturationDue (p : Part) : Bool := decide (Config.clockMax ≤ p.clock) && !p.satTaken

/-- Clock saturation by player state (R124, R138): a lock, or in DRAINING every key-off outstanding and
the completion test (log 28). -/
def saturate (p : Part) : Part :=
  let q := { p with satTaken := true }
  if q.player.state = .draining then whilePlaying completion (keyOffs (fun _ => true) q)
  else lockRequest .clock 0 q

end Sys2Proof.Machine
end

