-- ==== Sys2Proof/Machine/Scheduling.lean ====
section
/-! DEFINITION. The slice: the time of a step, what withholds, key-offs, registration steps and
key-ons (R132-R137, R142, R143). -/

namespace Sys2Proof.Machine

/-! ## Times (R142) -/

/-- The time of a step (R142). -/
def stepTime (su : Setup) (f : Follower) (x : Step) : Int :=
  f.predict x.position - (su.stopLead : Int) * 250

/-! ## Withholding (R134) -/

/-- The plan index one below the current one, modulo 65,536: the finishing passage's (R134). -/
def Scheduler.finishingIndex (s : Scheduler) : Nat := (s.curIndex + 65535) % 65536

/-- A key-off is withheld (R134). -/
def offWithheld (p : Part) (x : Note) : Bool :=
  (p.player.state == .held && x.planIndex != p.sched.finishingIndex)
    || barred p.bar x.release
    || (!p.courseSettled && endNote p x)

/-- A key-on, or a step, of a passage's plan index and HOLD_AT_ENTRY flag at a position is withheld
(R134): in DRAINING by a bar alone. -/
def onWithheld (p : Part) (pos : Int) (idx : Nat) (holdAtEntry : Bool) : Bool :=
  p.player.state == .held || barred p.bar pos
    || (p.player.state != .draining && idx != p.sched.curIndex && holdAtEntry)

/-- A key-off is due at the slice (R134, R137); the walk takes SOUNDING entries alone. In a DRAINING
whose clock has saturated every key-off is due (R124, log 28). -/
def offDue (p : Part) (x : Note) : Bool :=
  (p.drainsSaturated || decide (releaseTime p.follower x ≤ p.now)) && !offWithheld p x

/-- A key-on is due at the slice (R134, R135). -/
def onDue (p : Part) (x : Note) : Bool :=
  x.state == .pending && decide (keyingTime p.follower x ≤ p.now)
    && !onWithheld p x.position x.planIndex x.holdAtEntry

/-- A step is due at the slice (R134, R142). -/
def stepDue (p : Part) (x : Step) : Bool :=
  decide (stepTime p.setup p.follower x ≤ p.now)
    && !onWithheld p x.position x.planIndex x.holdAtEntry

/-! ## Steps (R143) -/

/-- The Output Map entry that moves a stop into a wanted state. -/
def coilEntry (e : StopEntry) : MapEntry := if e.draw then .stopOn e.stop else .stopOff e.stop

/-- One stop entry of a step is issued (R143). -/
def issueStop (p : Part) (e : StopEntry) : Part :=
  let coils := outputsWith p.setup.outputMap (coilEntry e)
  if entry p.sched.drawn e.stop = e.draw then p
  else if coils.isEmpty then latch .mapping p
  else
    coils.foldl (fun acc n => stopPulse n acc)
      { p with sched := { p.sched with drawn := put p.sched.drawn e.stop e.draw } }

/-- A step is issued whole and removed (R142, R143). -/
def issueStep (x : Step) (p : Part) : Part := x.entries.foldl issueStop p

/-- The due steps are issued in list order (R133); the Step List keeps the others. -/
def issueSteps (due : Step → Bool) (p : Part) : Part :=
  (p.sched.steps.filter due).foldl (fun acc x => issueStep x acc)
    { p with sched := { p.sched with steps := p.sched.steps.filter fun x => !due x } }

/-! ## Key-ons (R135, R136) -/

/-- The claims of a note on its outputs, in rising output number, with those counted (R135). -/
def claimAll : List OutputId → Part → Part × List OutputId
  | [], p => (p, [])
  | n :: rest, p =>
    let c := claim n p
    let r := claimAll rest c.1
    (r.1, if c.2 then n :: r.2 else r.2)

/-- A due note is dropped (R136): its release time is at or before the clock. -/
def dropsNote (p : Part) (x : Note) : Bool := decide (releaseTime p.follower x ≤ p.now)

/-- A due note is late (R136): more than 20,000 us after its keying time. -/
def lateNote (p : Part) (x : Note) : Bool :=
  decide (Config.lateLimit < p.now - keyingTime p.follower x)

/-- Walk the window: each due note is dropped, or claims its outputs and sounds (R135, R136), until a
drop ends the plan (log 17). `kept` is the part already walked. -/
def keyOnLoop (due : Note → Bool) : List Note → List Note → Part → Part
  | _, [], p => p
  | kept, x :: rest, p =>
    if due x then
      if dropsNote p x then
        whilePlaying (keyOnLoop due kept rest)
          (completion (putWindow (kept ++ rest) (latch .late p)))
      else
        let r := claimAll x.outputs (latchIf (lateNote p x) .late p)
        let y := { x with claimed := r.2, state := .sounding }
        keyOnLoop due (kept ++ [y]) rest (putWindow (kept ++ y :: rest) r.1)
    else keyOnLoop due (kept ++ [x]) rest p

/-- The due key-ons, in window order (R133). -/
def keyOns (due : Note → Bool) (p : Part) : Part := keyOnLoop due [] p.sched.window p

/-! ## The slice (R133) -/

/-- An evaluation (R133): key-offs, then steps, then key-ons, each judged on the line and the
withholding conditions the slice began with (R145). -/
def evaluate (p : Part) : Part :=
  whilePlaying (keyOns (onDue p)) (whilePlaying (issueSteps (stepDue p)) (keyOffs (offDue p) p))

/-- The slice cadence goes on (R130). -/
def nextSliceSet (p : Part) : Part :=
  { p with sched := { p.sched with nextSlice := p.sched.nextSlice + Config.slicePeriod } }

/-- A slice (R133). -/
def sliceStep (p : Part) : Part := whilePlaying evaluate (nextSliceSet p)

/-- The next slice has come; the cadence begins when clearing ends (R2, R130). -/
def sliceDue (p : Part) : Bool := !p.clearing && decide (p.sched.nextSlice ≤ p.time)

end Sys2Proof.Machine
end

