-- ==== Sys2Proof/Machine/Port.lean ====
section
/-! DEFINITION. The Console Port and Transfer: accesses presented, held on WAIT and answered; TAKE, HALT
and the first stage of a soft reset; Attention (R38, R40, R41, R45, R46, R52). -/

namespace Sys2Proof.Machine

/-! ## Transfer (R40) -/

/-- The result of a Transfer write is recorded (R40). -/
def recordTransfer (r : TransferResult) (p : Part) : Part := { p with lastTransfer := r }

/-- An ignored Transfer write (R40). -/
def rejectTransfer (r : TransferResult) (p : Part) : Part := latch .reject (recordTransfer r p)

/-- TAKE (R40, R41): BUSY, or the service request begins with the read of the command code. -/
def takeAction (p : Part) : Part :=
  if p.slotBusy then rejectTransfer .busy p
  else
    recordTransfer .accepted { p with
      slot := { phase := .reading, command := 0, args := [] }
      svcLine := p.svcLine ++ [.readCode] }

/-- A read of the command in flight: the slot's words or the setup record. -/
def SvcAccess.ofCommand : SvcAccess → Bool
  | .readCode => true
  | .readArg _ => true
  | .readBoards => true
  | .copyWord _ => true
  | _ => false

/-- The reads of the command in flight are no longer made (R45, R46, R50). -/
def stopCommandReads (p : Part) : Part :=
  { p with svcLine := p.svcLine.filter fun a => !a.ofCommand }

/-- A SETUP copy is stopped at the word it has reached (R50): the part stays unconfigured as R47 left it,
its Output Map all UNUSED. -/
def stopCopy (p : Part) : Part :=
  stopCommandReads { p with setup := { Setup.unconfigured with boards := p.setup.boards } }

/-- HALT at the slot (R45): a SETUP copy or a TEST ends with ABORTED and HALTED. -/
def haltSlot (p : Part) : Part :=
  match p.slot.phase with
  | .copying => closeSlot .aborted .halted (stopCopy p)
  | .testing => haltTest p
  | _ => p

/-- HALT (R45, R121). -/
def haltAction (p : Part) : Part := haltPlayer (haltSlot (recordTransfer .accepted p))

/-- A soft reset at the slot (R46): the command in flight is stopped and ends with ABORTED and NONE;
in CLOSING the outcome already given is written. -/
def softResetSlot (p : Part) : Part :=
  match p.slot.phase with
  | .free => p
  | .closing => p
  | .copying => closeSlot .aborted .none (stopCopy p)
  | _ => closeSlot .aborted .none (stopCommandReads p)

/-- A TEST ended by a soft reset leaves the slot limit at Pmax (R153, R180). -/
def limitAfterTest (ended : Bool) (p : Part) : Part :=
  if ended then setSlotLimit p.setup.pmax p else p

/-- The first stage of a soft reset (R46): ABANDONED is requested for the passages held, the command in
flight, a TEST among them, is stopped, magnet power goes OFF with cause SOFT_RESET. The Player, the
Scheduler and the timers go on until the second stage (log 41). -/
def softResetAction (p : Part) : Part :=
  let q := recordTransfer .accepted
    { p with softReset := true, guard := { p.guard with test := none } }
  limitAfterTest p.guard.test.isSome (powerOff .softReset (softResetSlot (abandonHeld q)))

/-- A Transfer write judged as it is taken (R40). -/
def transferWrite (w : Word) (p : Part) : Part :=
  match transferKind w with
  | .take => takeAction p
  | .halt => haltAction p
  | .reset => softResetAction p
  | .bad => rejectTransfer .badKey p

/-! ## Answers (R38, R52, R55) -/

/-- The word an access answers to the console when it begins: Attention and Part State as they stand, 0
for Transfer. A store read answers at its service, and a write answers none. -/
def PortAccess.answer (p : Part) : PortAccess → List Word
  | .attention => [p.attention]
  | .partState second => [if second then p.partState1 else p.partState0]
  | .transferRead => [p.transferRead]
  | _ => []

/-- A read of Attention (R52): each condition it returns is cleared. -/
def attentionStep (p : Part) : Part := { p with attention := 0 }

/-! ## The port (R38) -/

/-- Transfer writes are held on WAIT while the store is cleared and through a soft reset (R2, R46). -/
def Part.holdsTransfer (p : Part) : Bool := p.clearing || p.softReset

/-- An access begins (R38): what it does at once, or none where it is held on WAIT. -/
def beginAccess (a : PortAccess) (p : Part) : Option Part :=
  match a with
  | .read _ => none
  | .write _ _ => none
  | .transfer w => if p.holdsTransfer then none else some (transferWrite w p)
  | .transferRead => some p
  | .attention => some (attentionStep p)
  | .partState _ => some p
  | .ignored _ _ => some p

/-- The port after an event: what still stands on it, and the words the event has answered, or with none
those answered before (log 11). -/
def putPort (answered : List Word) (l : List PortAccess) (p : Part) : Part :=
  { p with port :=
    { waiting := l
      answers := if answered.isEmpty then p.port.answers else answered } }

/-- Accesses begin one after another until one is held on WAIT (R38), so an access that waits for nothing
never stands on the port. `answered`: the words the event has answered so far. -/
def drainPort (answered : List Word) : List PortAccess → Part → Part
  | [], p => putPort answered [] p
  | a :: rest, p =>
    match beginAccess a p with
    | some q => drainPort (answered ++ a.answer p) rest q
    | none => putPort answered (a :: rest) p

/-- The console presents an access (R38): it begins at once, or after those that stand (log 11). -/
def present (a : PortAccess) (p : Part) : Part :=
  if p.port.waiting.isEmpty then drainPort [] [a] p else putPort [] (p.port.waiting ++ [a]) p

/-- The accesses standing on the port begin (R38, log 11). -/
def portGoesOn (p : Part) : Part := drainPort [] p.port.waiting p

end Sys2Proof.Machine
end

