-- ==== Sys2Proof/Machine/Arbiter.lean ====
section
/-! DEFINITION. The store arbiter and what each access does when it is served: console reads and
writes, looks, takes, stamps, Now-record writes, slot reads, the setup copy, outcome writes and Fault
Table accesses (R1, R16, R19-R23, R33, R36, R39, R41, R43, R48-R50, R57, R125, R177). -/

namespace Sys2Proof.Machine

/-! ## The Plan Reader's accesses -/

/-- An access goes to the head of the Plan Reader's line: the same look or take goes on. -/
def resumeReader (a : ReaderAccess) (p : Part) : Part :=
  { p with reader := { p.reader with line := a :: p.reader.line } }

/-- A stamp read of START's head look (R20). -/
def headStampRead (q : Nat) (stamp : Word) (p : Part) : Part :=
  if stamp = stampReady then beginTake q true p else headNotReady p

/-- A word of a take is copied (R22). -/
def copyWordServed (mem : Memory) (t : Take) (p : Part) : Part :=
  match t.nextPlace with
  | some (k, addr) =>
    let u := { t with got := t.got ++ [(k, mem.read addr)] }
    resumeReader u.access { p with reader := { p.reader with take := some u } }
  | none => resumeReader .exchange p

/-- The finishing passage has had its SPENT written (R33, R21, R181): the next buffer is empty; in
STARVED a look is made at once and the look timer restarts, otherwise the need test is made. -/
def spentFinishing (p : Part) : Part :=
  let q := { p with reader := { p.reader with next := .empty } }
  if q.player.state = .starved ∧ q.reader.phase = .seeking then askLook (startLookTimer q)
  else needTest q

/-- An access of the Plan Reader, taken off its line, is served. -/
def serveReader (a : ReaderAccess) (mem : Memory) (p : Part) : Memory × Part :=
  match a with
  | .lookNext =>
    (mem, lookNextRead (mem.read p.reader.nextFieldAddr) (fun q => resumeReader (.lookStamp q)) p)
  | .lookStamp q => (mem, lookStampRead q (mem.read q) p)
  | .headStamp q => (mem, headStampRead q (mem.read q) p)
  | .copy =>
    match p.reader.take with
    | some t => (mem, copyWordServed mem t p)
    | none => (mem, p)
  | .exchange =>
    match p.reader.take with
    | some t => exchange t mem p
    | none => (mem, p)
  | .spent q held =>
    let m := mem.write q stampSpent
    let r := latch .passage p
    (m, if held then spentFinishing r else r)
  | .abandon q => (mem.write q stampAbandoned, latch .passage p)

/-! ## The Report Writer's accesses (R57) -/

/-- A Now-record write is served; after the close sequence a pending trigger begins another (R56). -/
def serveReport (a : Nat) (w : Word) (rest : List (Nat × Word)) (mem : Memory) (p : Part) :
    Memory × Part :=
  let q := { p with report := { p.report with writing := rest } }
  (mem.write a w, if rest.isEmpty then nowWriteServed q else q)

/-! ## The Service Unit's accesses -/

/-- An access joins the Service Unit's line. -/
def askService (a : SvcAccess) (p : Part) : Part := { p with svcLine := p.svcLine ++ [a] }

/-- The next access of a record already begun stands at the head of the line. -/
def resumeService (a : SvcAccess) (p : Part) : Part := { p with svcLine := a :: p.svcLine }

/-- The slot goes to a phase. -/
def slotPhase (ph : SlotPhase) (p : Part) : Part := { p with slot := { p.slot with phase := ph } }

/-- The command code has been read (R41). -/
def codeRead (w : Word) (p : Part) : Part :=
  let code := w.toNat
  let q := { p with
    prevCommand := p.lastCommand
    lastCommand := if definedCommand code then code else 15
    slot := { p.slot with command := code, args := [] } }
  if !definedCommand code then closeSlot .unknown .none q
  else if argCount code = 0 then slotPhase .applying q
  else askService (.readArg 1) q

/-- Argument `i` has been read (R41). -/
def argRead (i : Nat) (w : Word) (p : Part) : Part :=
  let q := { p with slot := { p.slot with args := p.slot.args ++ [w] } }
  if i < argCount p.slot.command then askService (.readArg (i + 1)) q else slotPhase .applying q

/-- An output newly on a present board at a change of chain length (R161). -/
def newlyPresent (old : Option Nat) (len : Nat) (n : OutputId) : Bool :=
  decide (32 * old.getD 0 ≤ n.val) && decide (n.val < 32 * len)

/-- A SETUP entering COPYING sets the chain length (R161): on a change the counts return to 0 and the
last drive of newly present outputs is OFF. -/
def Chain.setLength (c : Chain) (len : Nat) : Chain :=
  if c.length = some len then c
  else
    { c with
      length := some len
      bad := 0
      good := 0
      lastDrive := tabulate fun n =>
        if newlyPresent c.length len n then .off else entry c.lastDrive n }

/-- Boards present, held at most 8 (R47). -/
def boardsHeld (w : Word) : Nat := min w.toNat 8

/-- The slot enters COPYING (R47): the loaded setup discarded, the chain length set (R161), the first
word of the copy asked for. -/
def beginCopy (boards : Nat) (p : Part) : Part :=
  askService (.copyWord 1) { p with
    slot := { p.slot with phase := .copying }
    setupLoaded := false
    setup := { Setup.unconfigured with boards := boards }
    attnEnables := 0
    chain := p.chain.setLength boards }

/-- The boards word has been read (R47): 0 ends SETUP with BAD_ARG and BOARDS, else the copy begins. -/
def boardsRead (w : Word) (p : Part) : Part :=
  if w.toNat = 0 then closeSlot .badArg .boards p else beginCopy (boardsHeld w) p

/-- The copy is complete (R50): the setup is in force, with its enables and thresholds (R54, R168) and
its Pmax as slot limit (R153). -/
def setupInForce (p : Part) : Part :=
  let su := p.setup
  closeSlot .ok .none (setSlotLimit su.pmax { p with
    setupLoaded := true
    attnEnables := su.attnEnables
    supply := { p.supply with
      vhold := su.vhold
      vmin := su.vmin
      vcut := su.vcut
      vmax := su.vmax } })

/-- Word `k` of the setup record has been read (R48-R50). -/
def setupWordRead (k : Nat) (w : Word) (p : Part) : Part :=
  let r := loadSetupWord k w p.setup
  let q := latchIf r.2 .mapping { p with setup := r.1 }
  if k < 329 then askService (.copyWord (k + 1)) q else setupInForce q

/-- The address of word 0 of a Fault Table entry (R16). -/
def faultAddr (n : OutputId) : Nat := 0x40 + 2 * n.val

/-- The disabled flag of an output as the Key Table holds it (R16). -/
def disabledFlag (p : Part) (n : OutputId) : Nat :=
  if (entry p.keys.entries n).state = .disabled then 8 else 0

/-- Word 0 of a Fault Table record (R16, R177; R179 step 4 for a pass). -/
def faultWord (p : Part) (r : FaultRecord) (found : Word) : Word :=
  let count := found.toNat / 256
  if r.passed then wordOf (256 * count)
  else wordOf (r.kind.code + disabledFlag p r.output + 16 * r.retries + 256 * min 255 (count + 1))

/-- Word 0 of an entry rewritten at a CLEAR (R16, R125): the disabled flag 0, the rest as found. -/
def clearedWord (found : Word) : Word := found &&& 0xFFF7

/-- An access of the Service Unit, taken off its line, is served. -/
def serveService (a : SvcAccess) (mem : Memory) (p : Part) : Memory × Part :=
  match a with
  | .readCode => (mem, codeRead (mem.read 0) p)
  | .readArg i => (mem, argRead i (mem.read i) p)
  | .readBoards => (mem, boardsRead (mem.read (p.slot.arg 1).toNat) p)
  | .copyWord k => (mem, setupWordRead k (mem.read ((p.slot.arg 1).toNat + k)) p)
  | .writeDetail v => (mem.write 6 v, p)
  | .writeCode v => (mem.write 5 v, latch .done (slotPhase .free p))
  | .faultRead r => (mem, resumeService (.faultWord0 r (mem.read (faultAddr r.output))) p)
  | .faultWord0 r found =>
    (mem.write (faultAddr r.output) (faultWord p r found), resumeService (.faultWord1 r) p)
  | .faultWord1 r =>
    (mem.write (faultAddr r.output + 1) (wordOf r.clock), latchIf (!r.passed) .fault p)
  | .clearRead n => (mem, resumeService (.clearWrite n (mem.read (faultAddr n))) p)
  | .clearWrite n found => (mem.write (faultAddr n) (clearedWord found), p)

/-! ## The console's accesses (R38) -/

/-- The console access held on WAIT is served and the accesses behind it begin (R38, log 11). -/
def serveConsole (a : PortAccess) (rest : List PortAccess) (mem : Memory) (p : Part) :
    Memory × Part :=
  match a with
  | .read x => (mem, drainPort [mem.read x.toNat] rest p)
  | .write x v => (mem.write x.toNat v, drainPort [] rest p)
  | _ => (mem, p)

/-! ## The arbiter (R39) -/

/-- The requesters in the cyclic order that follows one. -/
def Requester.following : Requester → List Requester
  | .console => [.planReader, .reportWriter, .serviceUnit, .console]
  | .planReader => [.reportWriter, .serviceUnit, .console, .planReader]
  | .reportWriter => [.serviceUnit, .console, .planReader, .reportWriter]
  | .serviceUnit => [.console, .planReader, .reportWriter, .serviceUnit]

/-- The requester the arbiter serves next (R39). -/
def nextRequester (p : Part) : Option Requester := p.arb.following.find? p.waits

/-- One access of a requester is served, the pointer set to it (R39). The Plan Reader presents its looks,
its take and its stamp writes before the entry words of a pass (log 39). -/
def serveRequester (r : Requester) (mem : Memory) (p : Part) : Memory × Part :=
  let q := served r p
  match r with
  | .console =>
    match q.port.waiting with
    | a :: rest => serveConsole a rest mem q
    | [] => (mem, q)
  | .planReader =>
    match q.reader.line with
    | a :: rest => serveReader a mem { q with reader := { q.reader with line := rest } }
    | [] => (mem, entryServed mem q)
  | .reportWriter =>
    match q.report.writing with
    | (a, w) :: rest => serveReport a w rest mem q
    | [] => (mem, q)
  | .serviceUnit =>
    match q.svcLine with
    | a :: rest => serveService a mem { q with svcLine := rest }
    | [] => (mem, q)

/-- The arbiter serves the next waiting access; with none waiting nothing comes about (R39). -/
def arbiterStep (mem : Memory) (p : Part) : Memory × Part :=
  match nextRequester p with
  | some r => serveRequester r mem p
  | none => (mem, p)

/-- The arbiter serves the next access where that is the one awaited (log 9). -/
def arbiterStepIf (awaited : Bool) (mem : Memory) (p : Part) : Memory × Part :=
  if awaited then arbiterStep mem p else (mem, p)

/-- The next access is the Plan Reader's stamp exchange. -/
def nextIsExchange (p : Part) : Bool :=
  nextRequester p == some .planReader && p.reader.line.head? == some .exchange

/-- The next access is the close-sequence write of the Now record. -/
def nextIsNowClose (p : Part) : Bool :=
  nextRequester p == some .reportWriter && p.report.writing.length == 1

/-- The next access is the Service Unit's, and of the kind wanted. -/
def nextIsService (p : Part) (kind : SvcAccess → Bool) : Bool :=
  nextRequester p == some .serviceUnit &&
    match p.svcLine with
    | a :: _ => kind a
    | [] => false

/-- The read of word 329 of the setup record. -/
def SvcAccess.lastCopy : SvcAccess → Bool
  | .copyWord k => k == 329
  | _ => false

/-- The write of the outcome code. -/
def SvcAccess.outcomeCode : SvcAccess → Bool
  | .writeCode _ => true
  | _ => false

/-- The write of word 1 of a Fault Table record. -/
def SvcAccess.recordEnd : SvcAccess → Bool
  | .faultWord1 _ => true
  | _ => false

/-- The read of a command code that the store holds undefined. -/
def unknownCode (mem : Memory) : SvcAccess → Bool
  | .readCode => !definedCommand (mem.read 0).toNat
  | _ => false

end Sys2Proof.Machine
end

