-- ==== Sys2Proof/Machine/ChainSupply.lean ====
section
/-! DEFINITION. The Magnet Chain Engine and the Supply Monitor: cadence points, frames, the echo check
and the supply sample (R161-R171). -/

namespace Sys2Proof.Machine

/-! ## Supply (R168-R171) -/

/-- A supply sense of some 50 mV steps as sampled (R168). -/
def supplySample (sense : Nat) : Nat := min sense 1023

/-- The hold duty computed from a sample (R169). -/
def holdDuty (vhold vs : Nat) : Nat :=
  if vs = 0 then (if vhold = 0 then 0 else 1023)
  else min ((vhold * 1023 + vs / 2) / vs) 1023

/-- A count of consecutive samples out of range, held at 10 (R171). -/
def outCount (outside : Bool) (count : Nat) : Nat := if outside then min 10 (count + 1) else 0

/-- A count reaches 10 from 9 (R171). -/
def reachesTen (before after : Nat) : Bool := after == 10 && before == 9

/-- The Supply Monitor takes a sample (R168, R170, R171); a request stands until it is taken (log 10). -/
def Supply.take (m : Supply) (vs : Nat) : Supply :=
  let below := outCount (decide (vs < m.vcut)) m.below
  let above := outCount (decide (m.vmax < vs)) m.above
  { m with
    vs := vs
    below := below
    above := above
    undervolt := decide (vs < m.vmin)
    outDue := m.outDue || reachesTen m.below below || reachesTen m.above above }

/-- The latest sample lies within the working range (R42). -/
def Supply.inRange (m : Supply) : Bool := decide (m.vcut ≤ m.vs) && decide (m.vs ≤ m.vmax)

/-! ## Frames (R161, R162, R164, R165) -/

/-- The drive state sent for an output (R162): OFF with power OFF or no board, else its entry's. -/
def driveSent (p : Part) (len : Nat) (n : OutputId) : Drive :=
  if p.power.on && decide (n.val < 32 * len) then (entry p.keys.entries n).state.drive else .off

/-- A frame begins where a chain length is held (R161, R162). -/
def beginFrame (p : Part) : Part :=
  match p.chain.length with
  | none => p
  | some len =>
    { p with chain := { p.chain with
      frame := some
        { seq := p.chain.seq
          boards := len
          drive := tabulate fun n => driveSent p len n
          duty := p.chain.holdDuty }
      seq := (p.chain.seq + 1) % 16 } }

/-- A cadence point (R161, R168, R169): the frame that begins here carries the duty of the sample
before; then the sample is taken and the next duty held. -/
def cadenceCourse (sense : Nat) (p : Part) : Part :=
  let vs := supplySample sense
  let q := beginFrame p
  { q with
    supply := q.supply.take vs
    chain := { q.chain with
      holdDuty := Vector.replicate 8 (holdDuty q.supply.vhold vs)
      nextCadence := q.chain.nextCadence + Config.cadencePeriod } }

/-- The next cadence point has come; one frame is in progress at a time (R161, log 36). -/
def cadenceDue (p : Part) : Bool :=
  !p.clearing && p.chain.frame.isNone && decide (p.chain.nextCadence ≤ p.time)

/-- The last drive and duty take a completed frame's (R164). -/
def Chain.completed (c : Chain) (f : ChainFrame) : Chain :=
  { c with frame := none, lastDrive := f.drive, lastDuty := f.duty }

/-- A good frame's counts (R165). -/
def Chain.goodFrame (c : Chain) : Chain :=
  let good := min 16 (c.good + 1)
  { c with bad := 0, good := good, clearDue := c.clearDue || (c.fault && good == 16) }

/-- A bad frame's counts (R165); the CHAIN fault is found when the bad count reaches 2 from 1. -/
def Chain.badFrame (c : Chain) : Chain :=
  { c with bad := min 2 (c.bad + 1), good := 0, faultDue := c.faultDue || c.bad == 1 }

/-- The frame in progress completes (R164, R165): a good one is judged by the Output Guard on the
drive of the frame before it, then its own drive is recorded; of a bad one the senses are dropped. -/
def frameCourse (f : ChainFrame) (echo : Option Nat) (senses : List Sense) (p : Part) : Part :=
  if echo = some f.seq then
    let q := judgeFrame f.boards senses p
    { q with chain := (q.chain.completed f).goodFrame }
  else { p with chain := (p.chain.completed f).badFrame }

/-- A frame completes; with none in progress nothing comes about. -/
def frameCompleteStep (echo : Option Nat) (senses : List Sense) (p : Part) : Part :=
  match p.chain.frame with
  | some f => frameCourse f echo senses p
  | none => p

/-- The CHAIN fault (R166): the indication set, magnet power OFF with cause CHAIN. -/
def chainFaultStep (p : Part) : Part :=
  powerOff .chain { p with chain := { p.chain with
    fault := true, faultDue := false, clearDue := false } }

/-- The indication is cleared (R165). -/
def chainClearStep (p : Part) : Part :=
  { p with chain := { p.chain with fault := false, clearDue := false } }

/-- The Supply Monitor's request (R171). -/
def supplyOutStep (p : Part) : Part :=
  powerOff .supply { p with supply := { p.supply with outDue := false } }

end Sys2Proof.Machine
end

