-- ==== Sys2Proof/Machine/SlotCommands.lean ====
section
/-! DEFINITION. The service commands at their owners: SETUP, START, STOP, HOLD, RESUME, NUDGE, POWER,
TEST, CLEAR, and UNKNOWN and the end of CLOSING (R41-R44, R47, R50, R95, R111, R117, R119, R125, R178,
R179). -/

namespace Sys2Proof.Machine

/-! ## A command at its owner -/

/-- A command of a code has reached its owner (R41, R44). START stays with the Player while its head
take is under way (R117). -/
def commandDue (code : Nat) (p : Part) : Bool :=
  p.slot.phase == .applying && p.slot.command == code && !p.player.starting

/-- A refusal because of the player state (R14, R42). -/
def refuseState (p : Part) : Part := closeSlot .badState .playerState p

/-- A command ends with OK (R42). -/
def commandOk (p : Part) : Part := closeSlot .ok .none p

/-! ## SETUP (R47) -/

/-- The setup pointer lies in 0240h-7EB6h (R47). -/
def setupPointerOk (ptr : Nat) : Bool := decide (0x240 ≤ ptr) && decide (ptr ≤ 0x7EB6)

/-- The read of the boards word waits in the Service Unit's line (R39). -/
def Part.boardsAsked (p : Part) : Bool := p.svcLine.any (· == .readBoards)

/-- SETUP (R47): its checks in order. The boards word is read at once when no access waits, and takes its
turn in the Service Unit's line otherwise (log 7). -/
def setupCommand (mem : Memory) (p : Part) : Part :=
  let ptr := (p.slot.arg 1).toNat
  if p.player.state ≠ .idle then refuseState p
  else if !setupPointerOk ptr then closeSlot .badArg .pointer p
  else if p.storeFree then boardsRead (mem.read ptr) (served .serviceUnit p)
  else if p.boardsAsked then p
  else askService .readBoards p

/-! ## START (R117) -/

/-- START's preparation (R117, R124, R130): everything but the head look. -/
def prepareStart (p : Part) : Part :=
  { p with
    clock := 0
    satTaken := false
    follower := p.follower.reinit
    listen := prepareListening p.listen
    sched := { p.sched with curIndex := 0, nextSlice := p.time + Config.slicePeriod }
    player := { p.player with starting := true, fermata := Fermata.init, starveTimer := none }
    reader := { p.reader with stopAtEnd := false, planIndex := 0, delta := 0 } }

/-- The head look (R20): its read made at once when the store is free (log 8). -/
def headLook (ptr : Nat) (mem : Memory) (p : Part) : Part :=
  if p.storeFree then headStampRead ptr (mem.read ptr) (served .planReader p)
  else askReader (.headStamp ptr) p

/-- START (R42, R117). -/
def startCommand (mem : Memory) (p : Part) : Part :=
  let ptr := (p.slot.arg 1).toNat
  if !p.setupLoaded then closeSlot .noSetup .none p
  else if p.player.state ≠ .idle then refuseState p
  else if !p.power.on then closeSlot .powerFault .powerOff p
  else if !inConsoleSpace ptr then closeSlot .badArg .pointer p
  else headLook ptr mem (prepareStart p)

/-! ## STOP, HOLD, RESUME, NUDGE -/

/-- STOP (R119, R114). -/
def stopCommand (p : Part) : Part :=
  match p.player.state with
  | .running => commandOk (setStopAtEnd p)
  | .held => commandOk (setStopAtEnd p)
  | .starved => commandOk (drainStarved .stopped (setStopAtEnd p))
  | _ => refuseState p

/-- HOLD (R111). -/
def holdCommand (p : Part) : Part :=
  match p.player.state with
  | .running => commandOk (holdPlayer p)
  | .held => commandOk p
  | _ => refuseState p

/-- RESUME (R111). -/
def resumeCommand (p : Part) : Part :=
  match p.player.state with
  | .held => commandOk (resumePlayer p)
  | _ => refuseState p

/-- NUDGE (R95). -/
def nudgeCommand (p : Part) : Part :=
  match p.player.state with
  | .running => commandOk (nudgePlayer (nudgePercent (p.slot.arg 1)) p)
  | .held => commandOk (nudgePlayer (nudgePercent (p.slot.arg 1)) p)
  | _ => refuseState p

/-! ## POWER (R178) -/

/-- Magnet power goes ON (R178): every stuck count returns to 0 (R174). -/
def powerOn (p : Part) : Part :=
  if p.power.on then p
  else
    { p with
      power := { p.power with on := true }
      guard := { p.guard with detectors := tabulate fun n =>
        { entry p.guard.detectors n with stuckCount := 0 } } }

/-- POWER ON with its checks (R42, log 38). -/
def powerOnCommand (p : Part) : Part :=
  if !p.setupLoaded then closeSlot .noSetup .none p
  else if p.chain.fault then closeSlot .powerFault .chain p
  else if !p.supply.inRange then closeSlot .powerFault .supply p
  else commandOk (powerOn p)

/-- POWER (R42, R178). -/
def powerCommand (p : Part) : Part :=
  match (p.slot.arg 1).toNat with
  | 1 => powerOnCommand p
  | 0 => commandOk (powerOff .command p)
  | _ => closeSlot .badArg .argument p

/-! ## TEST (R179) -/

/-- An output argument of TEST, clamped to 255 (R42). -/
def testOutput (w : Word) : OutputId := Fin.ofNat 256 (min w.toNat 255)

/-- TEST accepted (R153, R179): the slot limit becomes 1 and the first mapped output is taken up, or
the command closes with OK where the range has none. -/
def beginTest (first last : OutputId) (p : Part) : Part :=
  match nextMapped p.setup first.val last with
  | none => commandOk p
  | some n =>
    setSlotLimit 1 (slotPhase .testing { p with guard := { p.guard with
      test := some { last := last, output := n, marked := false, stage := .waiting } } })

/-- TEST (R42, R179). -/
def testCommand (p : Part) : Part :=
  let first := testOutput (p.slot.arg 1)
  let last := testOutput (p.slot.arg 2)
  if !p.setupLoaded then closeSlot .noSetup .none p
  else if p.player.state ≠ .idle then refuseState p
  else if !p.power.on then closeSlot .powerFault .powerOff p
  else if last < first then closeSlot .badArg .outputRange p
  else beginTest first last p

/-! ## CLEAR (R125) -/

/-- The outputs a CLEAR re-enables, in rising output number, the order in which their Fault Table rewrites
join the line (log 44). -/
def disabledOutputs (p : Part) : List OutputId :=
  allOutputs.filter fun n => (entry p.keys.entries n).state = .disabled

/-- CLEAR (R125): DISABLED outputs go OFF and their disabled flags are rewritten; LOCKED to IDLE. -/
def clearCommand (p : Part) : Part :=
  let q := enableAll { p with svcLine := p.svcLine ++ (disabledOutputs p).map .clearRead }
  commandOk (if q.player.state = .locked then moveTo .idle q else q)

/-! ## The meanings -/

/-- SETUP. -/
def execSetup (s : State) : Result :=
  s.onPartMem fun mem p => whenDue (commandDue cmdSetup p) (setupCommand mem) p

/-- START. -/
def execStart (s : State) : Result :=
  s.onPartMem fun mem p => whenDue (commandDue cmdStart p) (startCommand mem) p

/-- STOP. -/
def execStop (s : State) : Result :=
  s.onPart fun p => whenDue (commandDue cmdStop p) stopCommand p

/-- HOLD. -/
def execHold (s : State) : Result :=
  s.onPart fun p => whenDue (commandDue cmdHold p) holdCommand p

/-- RESUME. -/
def execResume (s : State) : Result :=
  s.onPart fun p => whenDue (commandDue cmdResume p) resumeCommand p

/-- NUDGE. -/
def execNudge (s : State) : Result :=
  s.onPart fun p => whenDue (commandDue cmdNudge p) nudgeCommand p

/-- POWER. -/
def execPower (s : State) : Result :=
  s.onPart fun p => whenDue (commandDue cmdPower p) powerCommand p

/-- TEST. -/
def execTest (s : State) : Result :=
  s.onPart fun p => whenDue (commandDue cmdTest p) testCommand p

/-- CLEAR. -/
def execClear (s : State) : Result :=
  s.onPart fun p => whenDue (commandDue cmdClear p) clearCommand p

end Sys2Proof.Machine
end

