-- ==== Sys2Proof/Machine/PortCommands.lean ====
section
/-! DEFINITION. Reset, the end of clearing, soft reset, the console's accesses, and the arbiter's rows
(R2, R3, R38-R43, R46, R50-R52, R56, R129, R177). -/

namespace Sys2Proof.Machine

/-! ## Steps that reach the store -/

/-- The state whose store and part are those given. -/
def State.withResult (s : State) (r : Memory × Part) : State :=
  { s with store := r.1, part := r.2 }

/-- A step of store and part. -/
def State.onStore (s : State) (f : Memory → Part → Memory × Part) : Result :=
  .next (s.withResult (f s.store s.part))

/-! ## Reset (R2) -/

/-- The part right after RESETn (R2): every block in its reset state, CLEARING set. The console side of
the port is outside the part, so its held accesses stand (log 11), and free values go on. -/
def resetPart (p : Part) : Part := { Part.reset with port := p.port, fresh := p.fresh }

/-- RESET: the store is cleared (R2, log 2) and clearing begins. -/
def execReset (s : State) : Result :=
  .next { s with store := [], part := resetPart s.part }

/-- Console accesses held on WAIT are served when clearing ends (R2): the one at the head, then those
that begin after it. -/
def serveHeld (mem : Memory) (p : Part) : Memory × Part :=
  match p.port.waiting with
  | .read x :: rest => serveConsole (.read x) rest mem (served .console p)
  | .write x v :: rest => serveConsole (.write x v) rest mem (served .console p)
  | l => (mem, drainPort [] l p)

/-- The end of clearing (R2): CLEARING clear, the clock and the cadences begin from here. -/
def clearingOver (p : Part) : Part :=
  { p with
    clearing := false
    time := 0
    clock := 0
    satTaken := false
    sched := { p.sched with nextSlice := Config.slicePeriod }
    chain := { p.chain with nextCadence := Config.cadencePeriod } }

/-- Clearing ends while it is in progress. -/
def clearingEndStep (mem : Memory) (p : Part) : Memory × Part :=
  if p.clearing then serveHeld mem (clearingOver p) else (mem, p)

/-- CLEARING_END. -/
def execClearingEnd (s : State) : Result := s.onStore clearingEndStep

/-! ## Console accesses (R38) -/

/-- STORE_READ. -/
def execStoreRead (addr : StoreAddr) (s : State) : Result := s.onPart (present (.read addr))

/-- STORE_WRITE. -/
def execStoreWrite (addr : StoreAddr) (value : Word) (s : State) : Result :=
  s.onPart (present (.write addr value))

/-- TAKE. -/
def execTake (s : State) : Result := s.onPart (present (.transfer 0xB401))

/-- HALT. -/
def execHalt (s : State) : Result := s.onPart (present (.transfer 0xB402))

/-- SOFT_RESET. -/
def execSoftReset (s : State) : Result := s.onPart (present (.transfer 0xB403))

/-- BAD_KEY: a Transfer write of `value` (log 37). -/
def execBadKey (value : Word) (s : State) : Result := s.onPart (present (.transfer value))

/-- REGISTER_WRITE_IGNORED. -/
def execRegisterWriteIgnored (reg : ReadOnlyReg) (value : Word) (s : State) : Result :=
  s.onPart (present (.ignored reg value))

/-- ATTENTION_READ. -/
def execAttentionRead (s : State) : Result := s.onPart (present .attention)

/-! ## The arbiter's rows (R39) -/

/-- ARBITER_SERVE. -/
def execArbiterServe (s : State) : Result := s.onStore arbiterStep

/-- SETUP_COPY_COMPLETE: the read of word 329 is served (R50). -/
def execSetupCopyComplete (s : State) : Result :=
  s.onStore (arbiterStepIf (nextIsService s.part SvcAccess.lastCopy))

/-- UNKNOWN: the read of an undefined command code is served (R41). -/
def execUnknown (s : State) : Result :=
  s.onStore (arbiterStepIf (nextIsService s.part (unknownCode s.store)))

/-- CLOSING_COMPLETE: the write of the outcome code is served (R43). -/
def execClosingComplete (s : State) : Result :=
  s.onStore (arbiterStepIf (nextIsService s.part SvcAccess.outcomeCode))

/-- STAMP_EXCHANGE: the exchange that ends a take is served (R23). -/
def execStampExchange (s : State) : Result :=
  s.onStore (arbiterStepIf (nextIsExchange s.part))

/-- NOW_WRITE_COMPLETE: the close-sequence write is served (R56). -/
def execNowWriteComplete (s : State) : Result :=
  s.onStore (arbiterStepIf (nextIsNowClose s.part))

/-- FAULT_RECORD_WRITTEN: the write of word 1 of a record is served (R177). -/
def execFaultRecordWritten (s : State) : Result :=
  s.onStore (arbiterStepIf (nextIsService s.part SvcAccess.recordEnd))

/-! ## The second stage of a soft reset (R46) -/

/-- Every owed write of the first stage has been served (R46, log 26). -/
def softResetReady (p : Part) : Bool :=
  p.softReset && p.reader.line.isEmpty && p.report.writing.isEmpty && p.svcLine.isEmpty

/-- A filter after soft reset (R58): its two stored values zero; the frame cadence is not moved, so the
samples of the frame being collected stand. -/
def Filter.softReset (f : Filter) : Filter := { f with prevIn := 0, prevOut := 0 }

/-- Every block in its reset state (R46), with what no soft reset moves: the time base and the cadences
of frames and chain (R58, R161), the port, the Now-record sequence number (R57), free values. -/
def softResetPart (p : Part) : Part :=
  { Part.reset with
    clearing := false
    clearFor := p.clearFor
    time := p.time
    port := p.port
    lastTransfer := .accepted
    report := { Report.init with seq := p.report.seq }
    listen := { Listening.init with
      filters := tabulate fun c => (entry p.listen.filters c).softReset }
    sched := Scheduler.init (p.time + Config.slicePeriod)
    chain := Chain.init p.chain.nextCadence
    power := { on := false, cause := .softReset }
    fresh := p.fresh }

/-- The second stage, and the Transfer writes held through the soft reset (R38, R46). -/
def softResetCourse (p : Part) : Part :=
  let q := softResetPart p
  portGoesOn q

/-- SOFT_RESET_SECOND_STAGE. -/
def execSoftResetSecondStage (s : State) : Result :=
  s.onPart fun p => whenDue (softResetReady p) softResetCourse p

end Sys2Proof.Machine
end

