-- ==== Sys2Proof/Machine/PlanEvents.lean ====
section
/-! DEFINITION. The events of the Plan Reader, the Player, the Tempo Follower, the Report Writer, the
Listening Unit and the Keying Scheduler: each is taken when its condition holds (log 6). -/

namespace Sys2Proof.Machine

/-! ## Plan Reader -/

/-- The look timer has expired in SEEKING (R21). -/
def lookTimerDue (p : Part) : Bool :=
  p.reader.phase == .seeking && expired p.time p.reader.lookTimer

/-- A further look, the timer restarted (R21). -/
def lookTimerStep (mem : Memory) (p : Part) : Part := look mem (startLookTimer p)

/-- LOOK_TIMER_EXPIRY. -/
def execLookTimerExpiry (s : State) : Result :=
  s.onPartMem fun mem p => whenDue (lookTimerDue p) (lookTimerStep mem) p

/-- STREAM_PASS. -/
def execStreamPass (s : State) : Result :=
  s.onPart fun p => whenDue (streamDue p) streamTick p

/-! ## Player -/

/-- PASSAGE_END. -/
def execPassageEnd (s : State) : Result :=
  s.onPart fun p => whenDue (passageEndDue p) passageEndStep p

/-- FERMATA_HOLDING_START. -/
def execFermataHoldingStart (s : State) : Result :=
  s.onPart fun p => whenDue (holdingDue p) startHolding p

/-- A fermata ends at the present clock (R108, R109). -/
def endFermataNow (p : Part) : Part := endFermata p.now p

/-- MAX_HOLD_EXPIRY. -/
def execMaxHoldExpiry (s : State) : Result :=
  s.onPart fun p => whenDue (maxHoldDue p) endFermataNow p

/-- LEAD_EXPIRY. -/
def execLeadExpiry (s : State) : Result :=
  s.onPart fun p => whenDue (leadDue p) endFermataNow p

/-- CUTOFF. -/
def execCutoff (s : State) : Result :=
  s.onPart fun p => whenDue (cutoffDue p) cutoffStep p

/-- STARVE_TIMER_EXPIRY. -/
def execStarveTimerExpiry (s : State) : Result :=
  s.onPart fun p => whenDue (starveDue p) (drainStarved .starved) p

/-- CLOCK_SATURATION. -/
def execClockSaturation (s : State) : Result :=
  s.onPart fun p => whenDue (saturationDue p) saturate p

/-! ## Report Writer -/

/-- BEAT_BOUNDARY. -/
def execBeatBoundary (s : State) : Result :=
  s.onPart fun p => whenDue (beatDue p) beatTrigger p

/-! ## Listening Unit -/

/-- An I2S word passes its channel's filter (R58). -/
def audioStep (c : ChannelId) (width word : Nat) (p : Part) : Part :=
  { p with listen := { p.listen with
    filters := put p.listen.filters c
      ((entry p.listen.filters c).sample (sampleValue width word)) } }

/-- AUDIO_SAMPLE: the filter runs from the end of reset onward (R58). -/
def execAudioSample (c : ChannelId) (width word : Nat) (s : State) : Result :=
  s.onPart fun p => whenDue (!p.clearing) (audioStep c width word) p

/-- FRAME_END. -/
def execFrameEnd (s : State) : Result :=
  s.onPart fun p => whenDue (frameReady p.listen) frameEndStep p

/-- MASK_EXPIRY. -/
def execMaskExpiry (s : State) : Result :=
  s.onPart fun p => whenDue (maskDue p) expireMasks p

/-! ## Tempo Follower -/

/-- CUE_CLOSE. -/
def execCueClose (s : State) : Result :=
  s.onPart fun p => whenDue (cueCloseDue p) takeCloses p

/-- CUE_PASS. -/
def execCuePass (s : State) : Result :=
  s.onPart fun p => whenDue (cuePassDue p) cuePassStep p

/-! ## Keying Scheduler -/

/-- SLICE. -/
def execSlice (s : State) : Result :=
  s.onPart fun p => whenDue (sliceDue p) sliceStep p

end Sys2Proof.Machine
end

