-- ==== Sys2Proof/Machine/OutputEvents.lean ====
section
/-! DEFINITION. The events of the Key Table, the Output Guard, the Chain Engine and the Supply Monitor:
each is taken when its condition holds (log 6). -/

namespace Sys2Proof.Machine

/-! ## Key Table -/

/-- The timer of an output has expired in a state. -/
def timerDue (st : KeyState) (n : OutputId) (p : Part) : Bool :=
  (entry p.keys.entries n).state == st && expired p.time (entry p.keys.entries n).timer

/-- PULL_IN_END. -/
def execPullInEnd (n : OutputId) (s : State) : Result :=
  s.onPart fun p => whenDue (timerDue .pull n p) (pullInCourse n) p

/-- PULSE_END. -/
def execPulseEnd (n : OutputId) (s : State) : Result :=
  s.onPart fun p => whenDue (timerDue .pulse n p) (pulseCourse n) p

/-- SETTLE_END. -/
def execSettleEnd (n : OutputId) (s : State) : Result :=
  s.onPart fun p => whenDue (timerDue .settle n p) (settleCourse n) p

/-! ## Output Guard -/

/-- The cipher timer of an output has expired (R176). -/
def cipherDue (n : OutputId) (p : Part) : Bool :=
  expired p.time (entry p.guard.detectors n).cipher

/-- The cipher guard acts (R176, R177). -/
def cipherStep (n : OutputId) (p : Part) : Part :=
  latch .cipher (recordFault n .cipher (cipherRelease n p))

/-- CIPHER_TIMER_EXPIRY. -/
def execCipherTimerExpiry (n : OutputId) (s : State) : Result :=
  s.onPart fun p => whenDue (cipherDue n p) (cipherStep n) p

/-- STUCK has been found on an output and not yet taken (R174). -/
def stuckDue (n : OutputId) (p : Part) : Bool := (entry p.guard.detectors n).stuckDue

/-- STUCK is taken (R174): the fault is recorded and magnet power goes OFF with cause STUCK. The record
is requested before the switch-off, so that it stands in the Service Unit's line ahead of the outcome
writes of a TEST the switch-off ends; R174 fixes no order (log 56). -/
def stuckStep (n : OutputId) (p : Part) : Part :=
  powerOff .stuck (recordFault n .stuck
    (putDetector n { entry p.guard.detectors n with stuckDue := false } p))

/-- STUCK. -/
def execStuck (n : OutputId) (s : State) : Result :=
  s.onPart fun p => whenDue (stuckDue n p) (stuckStep n) p

/-- The hold count of an output has reached 3 (R174). -/
def openDue (n : OutputId) (p : Part) : Bool := (entry p.guard.detectors n).holdCount == 3

/-- OPEN in hold is taken (R174): the count returns to 0 and the policy acts (R175). -/
def openStep (n : OutputId) (p : Part) : Part :=
  outputFault n .open (putDetector n { entry p.guard.detectors n with holdCount := 0 } p)

/-- OPEN_IN_HOLD. -/
def execOpenInHold (n : OutputId) (s : State) : Result :=
  s.onPart fun p => whenDue (openDue n p) (openStep n) p

/-- The TEST goes on to its next output, or ends (R179). -/
def testNextStep (p : Part) : Part :=
  match p.guard.test with
  | some t => testAdvance t p
  | none => p

/-- TEST_NEXT_OUTPUT. -/
def execTestNextOutput (s : State) : Result :=
  s.onPart fun p => whenDue (testAdvanceDue p) testNextStep p

/-! ## Chain Engine and Supply Monitor -/

/-- CADENCE_POINT. -/
def execCadencePoint (sense : Nat) (s : State) : Result :=
  s.onPart fun p => whenDue (cadenceDue p) (cadenceCourse sense) p

/-- FRAME_COMPLETE. -/
def execFrameComplete (echo : Option Nat) (senses : List Sense) (s : State) : Result :=
  s.onPart (frameCompleteStep echo senses)

/-- CHAIN_FAULT. -/
def execChainFault (s : State) : Result :=
  s.onPart fun p => whenDue p.chain.faultDue chainFaultStep p

/-- CHAIN_FAULT_CLEAR. -/
def execChainFaultClear (s : State) : Result :=
  s.onPart fun p => whenDue p.chain.clearDue chainClearStep p

/-- SUPPLY_OUT_OF_RANGE. -/
def execSupplyOutOfRange (s : State) : Result :=
  s.onPart fun p => whenDue p.supply.outDue supplyOutStep p

end Sys2Proof.Machine
end

