-- ==== Sys2Proof/Machine/Dispatch.lean ====
section
/-! DEFINITION. Dispatch: one arm per command, each one direct call of its meaning. -/

namespace Sys2Proof.Machine

/-- The effect of a command on everything but the queue. -/
def exec (i : Instr) (s : State) : Host.Outcome State Fault Refusal :=
  match i with
  | .reset => Sys2Proof.Machine.execReset s
  | .clearingEnd => Sys2Proof.Machine.execClearingEnd s
  | .storeRead addr => Sys2Proof.Machine.execStoreRead addr s
  | .storeWrite addr value => Sys2Proof.Machine.execStoreWrite addr value s
  | .arbiterServe => Sys2Proof.Machine.execArbiterServe s
  | .take => Sys2Proof.Machine.execTake s
  | .halt => Sys2Proof.Machine.execHalt s
  | .softReset => Sys2Proof.Machine.execSoftReset s
  | .badKey value => Sys2Proof.Machine.execBadKey value s
  | .registerWriteIgnored reg value => Sys2Proof.Machine.execRegisterWriteIgnored reg value s
  | .attentionRead => Sys2Proof.Machine.execAttentionRead s
  | .setup => Sys2Proof.Machine.execSetup s
  | .setupCopyComplete => Sys2Proof.Machine.execSetupCopyComplete s
  | .start => Sys2Proof.Machine.execStart s
  | .stop => Sys2Proof.Machine.execStop s
  | .hold => Sys2Proof.Machine.execHold s
  | .resume => Sys2Proof.Machine.execResume s
  | .nudge => Sys2Proof.Machine.execNudge s
  | .power => Sys2Proof.Machine.execPower s
  | .test => Sys2Proof.Machine.execTest s
  | .clear => Sys2Proof.Machine.execClear s
  | .unknown => Sys2Proof.Machine.execUnknown s
  | .closingComplete => Sys2Proof.Machine.execClosingComplete s
  | .softResetSecondStage => Sys2Proof.Machine.execSoftResetSecondStage s
  | .lookTimerExpiry => Sys2Proof.Machine.execLookTimerExpiry s
  | .streamPass => Sys2Proof.Machine.execStreamPass s
  | .stampExchange => Sys2Proof.Machine.execStampExchange s
  | .passageEnd => Sys2Proof.Machine.execPassageEnd s
  | .beatBoundary => Sys2Proof.Machine.execBeatBoundary s
  | .nowWriteComplete => Sys2Proof.Machine.execNowWriteComplete s
  | .audioSample channel width word => Sys2Proof.Machine.execAudioSample channel width word s
  | .frameEnd => Sys2Proof.Machine.execFrameEnd s
  | .cutoff => Sys2Proof.Machine.execCutoff s
  | .maskExpiry => Sys2Proof.Machine.execMaskExpiry s
  | .cueClose => Sys2Proof.Machine.execCueClose s
  | .cuePass => Sys2Proof.Machine.execCuePass s
  | .fermataHoldingStart => Sys2Proof.Machine.execFermataHoldingStart s
  | .maxHoldExpiry => Sys2Proof.Machine.execMaxHoldExpiry s
  | .leadExpiry => Sys2Proof.Machine.execLeadExpiry s
  | .starveTimerExpiry => Sys2Proof.Machine.execStarveTimerExpiry s
  | .clockSaturation => Sys2Proof.Machine.execClockSaturation s
  | .slice => Sys2Proof.Machine.execSlice s
  | .pullInEnd n => Sys2Proof.Machine.execPullInEnd n s
  | .pulseEnd n => Sys2Proof.Machine.execPulseEnd n s
  | .settleEnd n => Sys2Proof.Machine.execSettleEnd n s
  | .cipherTimerExpiry n => Sys2Proof.Machine.execCipherTimerExpiry n s
  | .cadencePoint sample => Sys2Proof.Machine.execCadencePoint sample s
  | .frameComplete echo senses => Sys2Proof.Machine.execFrameComplete echo senses s
  | .chainFault => Sys2Proof.Machine.execChainFault s
  | .chainFaultClear => Sys2Proof.Machine.execChainFaultClear s
  | .supplyOutOfRange => Sys2Proof.Machine.execSupplyOutOfRange s
  | .stuck n => Sys2Proof.Machine.execStuck n s
  | .openInHold n => Sys2Proof.Machine.execOpenInHold n s
  | .testNextOutput => Sys2Proof.Machine.execTestNextOutput s
  | .faultRecordWritten => Sys2Proof.Machine.execFaultRecordWritten s

end Sys2Proof.Machine
end

