-- ==== Sys2Proof/Machine/Idle.lean ====
section
/-! DEFINITION. What the part does by itself when no command waits: a due event of its own is queued,
an access is served, a command reaches its owner, or a microsecond passes (log 3, log 4). -/

namespace Sys2Proof.Machine

/-- One event if it is due. -/
def one (due : Bool) (i : Instr) : List Instr := if due then [i] else []

/-- An event for each output for which it is due. -/
def each (due : OutputId → Bool) (i : OutputId → Instr) : List Instr :=
  (allOutputs.filter due).map i

/-- The part's own events whose condition holds now. Cadence points, frame completions and samples
carry what the world outside returns, so they are not among them. -/
def dueEvents (p : Part) : List Instr :=
  one (softResetReady p) .softResetSecondStage
    ++ one (lookTimerDue p) .lookTimerExpiry
    ++ one (streamDue p) .streamPass
    ++ one (passageEndDue p) .passageEnd
    ++ one (beatDue p) .beatBoundary
    ++ one (frameReady p.listen) .frameEnd
    ++ one (cutoffDue p) .cutoff
    ++ one (maskDue p) .maskExpiry
    ++ one (cueCloseDue p) .cueClose
    ++ one (cuePassDue p) .cuePass
    ++ one (holdingDue p) .fermataHoldingStart
    ++ one (maxHoldDue p) .maxHoldExpiry
    ++ one (leadDue p) .leadExpiry
    ++ one (starveDue p) .starveTimerExpiry
    ++ one (saturationDue p) .clockSaturation
    ++ one (sliceDue p) .slice
    ++ each (fun n => timerDue .pull n p) .pullInEnd
    ++ each (fun n => timerDue .pulse n p) .pulseEnd
    ++ each (fun n => timerDue .settle n p) .settleEnd
    ++ each (fun n => cipherDue n p) .cipherTimerExpiry
    ++ one p.chain.faultDue .chainFault
    ++ one p.chain.clearDue .chainFaultClear
    ++ one p.supply.outDue .supplyOutOfRange
    ++ each (fun n => stuckDue n p) .stuck
    ++ each (fun n => openDue n p) .openInHold
    ++ one (testAdvanceDue p) .testNextOutput

/-- The command that stands with its owner (R41, R44). -/
def slotCommands (p : Part) : List Instr :=
  one (commandDue cmdSetup p && !p.boardsAsked) .setup
    ++ one (commandDue cmdStart p) .start
    ++ one (commandDue cmdStop p) .stop
    ++ one (commandDue cmdHold p) .hold
    ++ one (commandDue cmdResume p) .resume
    ++ one (commandDue cmdNudge p) .nudge
    ++ one (commandDue cmdPower p) .power
    ++ one (commandDue cmdTest p) .test
    ++ one (commandDue cmdClear p) .clear

/-- What may come about now and may also wait: the arbiter's next service (R39), the arrival of a
command at its owner (R44), and, while the store is cleared, the end of clearing (R2). -/
def openEvents (p : Part) : List Instr :=
  one p.clearing .clearingEnd ++ one (nextRequester p).isSome .arbiterServe ++ slotCommands p

/-- A microsecond passes (R124): the clock counts up and stays at its last value; while clearing it
stands (R2). -/
def tick (p : Part) : Part :=
  if p.clearing then { p with clearFor := p.clearFor + 1 }
  else { p with time := p.time + 1, clock := min Config.clockMax (p.clock + 1) }

/-- Clearing has lasted its longest (R2), so time may not pass before it ends. -/
def mayTick (p : Part) : Bool := !(p.clearing && decide (Config.clearingMax ≤ p.clearFor))

/-- The free value read, and the counter advanced (log 4). -/
def spend (p : Part) : Part := { p with fresh := p.fresh + 1 }

/-- An idle step (log 3): with events of its own due one of them is queued; with none due, an event that
may wait is queued or, if time may pass, a microsecond passes. A free value decides where more than one
course is open. -/
def idle (s : State) : State :=
  let p := s.part
  let choice := Config.idleChoice p.fresh
  match dueEvents p with
  | [e] => { s with pending := [e] }
  | e :: more =>
    { s with
      pending := [(e :: more).getD (choice % (more.length + 1)) e]
      part := spend p }
  | [] =>
    match openEvents p with
    | [] => { s with part := tick p }
    | e :: more =>
      let courses := more.length + 1 + (if mayTick p then 1 else 0)
      match (e :: more)[choice % courses]? with
      | some i => { s with pending := [i], part := spend p }
      | none => { s with part := spend (tick p) }

end Sys2Proof.Machine
end

