-- ==== Sys2Proof/Safety.lean ====
section
/-! DEFINITION. What is meant by safe: the invariants every step keeps, and the groups of state that
the frames of the statements name. -/

namespace Sys2Proof.Machine

/-! ## Invariants -/

/-- The store stands in its canonical form. -/
abbrev StoreOk (s : State) : Prop := s.store.wf = true

/-- R150: an output is in the Pull-in Queue if and only if its entry is WAITING; it appears there at
most once; the queue holds at most 64. -/
def QueueExact (k : KeyTable) : Prop :=
  (∀ n : OutputId, n ∈ k.queue ↔ (entry k.entries n).state = .waiting)
    ∧ k.queue.Nodup ∧ k.queue.length ≤ 64

/-- R158, R178, R180: while magnet power is OFF no TEST is in progress, the queue is empty and every
entry is OFF or DISABLED. -/
def DeadWithoutPower (p : Part) : Prop :=
  p.power.on = false →
    p.guard.test = none ∧ p.keys.queue = []
      ∧ ∀ n : OutputId, (entry p.keys.entries n).state.atRest = true

/-- The lists stay within their capacities: Lookahead Window 48, Cue List 16, Step List 4 (R130),
Onset Queue 16 (R64), Mask List 32 (R68). -/
def ListsFit (p : Part) : Prop :=
  p.sched.window.length ≤ 48 ∧ p.sched.cues.length ≤ 16 ∧ p.sched.steps.length ≤ 4
    ∧ p.listen.queue.length ≤ 16 ∧ p.listen.masks.length ≤ 32

/-- R17: Attention bits 12 to 15 read as 0. -/
def AttentionOk (p : Part) : Prop := p.attention &&& 0xF000 = 0

/-- The invariant of the part. -/
structure PartInv (p : Part) : Prop where
  queue : QueueExact p.keys
  dead : DeadWithoutPower p
  lists : ListsFit p
  attention : AttentionOk p

/-! ## How a command completes -/

/-- A command answers a next state that leaves the queue and the store as they are, and whose part is
as `Q` says. -/
def Completes (c : Instr) (s : State) (Q : Part → Prop) : Prop :=
  ∃ t : State, exec c s = .next t ∧ t.pending = s.pending ∧ t.store = s.store ∧ Q t.part

/-- A command answers a next state that leaves the queue, and whose store and part are as `Q` says. -/
def CompletesStoring (c : Instr) (s : State) (Q : Memory → Part → Prop) : Prop :=
  ∃ t : State, exec c s = .next t ∧ t.pending = s.pending ∧ Q t.store t.part

/-- One word of the store is written with a value: it reads so, and every other word as before. -/
def WordWritten (before after : Memory) (a : Nat) (v : Word) : Prop :=
  after.read a = v ∧ ∀ b, b ≠ a → after.read b = before.read b

/-! ## Situations the statements speak of -/

/-- The Console Port takes a Transfer write at once: no access held, no clearing, no soft reset in
progress (R38). -/
abbrev Part.portOpen (p : Part) : Prop :=
  p.port.waiting = [] ∧ p.clearing = false ∧ p.softReset = false

/-- A command of a code stands with its owner (R41). -/
abbrev Part.atOwner (p : Part) (code : Nat) : Prop :=
  p.slot.phase = .applying ∧ p.slot.command = code ∧ p.player.starting = false

/-- The next access the arbiter serves is the Service Unit's `a`, with `rest` behind it (R39). -/
abbrev Part.serviceNext (p : Part) (a : SvcAccess) (rest : List SvcAccess) : Prop :=
  nextRequester p = some .serviceUnit ∧ p.svcLine = a :: rest

/-- The next access the arbiter serves is the Plan Reader's `a`, with `rest` behind it (R39). -/
abbrev Part.readerNext (p : Part) (a : ReaderAccess) (rest : List ReaderAccess) : Prop :=
  nextRequester p = some .planReader ∧ p.reader.line = a :: rest

/-- The part with the command in flight ended with an outcome and a detail: the slot in CLOSING, the two
writes asked for, the detail first (R42, R43). -/
def Part.ended (p : Part) (outcome detail : Word) : Part :=
  { p with
    slot := { p.slot with phase := .closing }
    svcLine := p.svcLine ++ [.writeDetail detail, .writeCode outcome] }

/-- The Follower watches the head of the Cue List of a FOLLOW passage, its close read off the line as it
stands (R80). -/
def WatchesHead (p : Part) : Prop :=
  match p.reader.current, p.sched.cues with
  | some b, c :: _ =>
    p.follower.watched = if b.passage.follow then some (p.follower.closeOf b.passage c) else none
  | _, _ => p.follower.watched = none

/-- The closes that are past at `mid` are taken from there on, cue by cue, and leave `q` (R80, R81): what
CUE_CLOSE answers at `mid`. -/
def ClosesTaken (mid q : Part) : Prop :=
  ∀ s : State, exec .cueClose { s with part := mid } = .next { s with part := q }

/-- A following passage is needed (R21): in RUNNING with no fermata held, or in STARVED, with the next buffer
empty; while the position is frozen, in HELD or in a held fermata, the need cannot arise. -/
def Part.needs (p : Part) : Prop :=
  p.reader.phase = .waitingForNeed ∧ p.reader.next = .empty
    ∧ (p.player.state = .running ∧ p.player.fermata.phase ≠ .holding ∨ p.player.state = .starved)
    ∧ ∃ b, p.reader.current = some b
      ∧ ((b.passage.endPos : Int) - p.setup.horizon ≤ p.position
        ∨ (b.passage.endPos : Int) - p.setup.horizon ≤ b.passage.startPos)

/-- The need test has been made (R21): a need found begins SEEKING with a look, which joins the Plan
Reader's line (log 8), and the look timer. -/
structure NeedTested (p q : Part) : Prop where
  found : p.needs → q = { p with reader := { p.reader with
    phase := .seeking
    lookTimer := some (p.time + 20000)
    line := if p.reader.looking then p.reader.line else p.reader.line ++ [.lookNext] } }
  none : ¬p.needs → q = p

/-- A pass reads the list of a stage on, at the buffer `b` (R28, R31, R32): the current passage's, or the
following one's where the same list of the current one is streamed to its end; it is not at its end, the
Scheduler has room, and of the steps the base step has gone before (log 52). -/
def Part.streams (p : Part) (st : Stage) (b : Buffer) : Prop :=
  (st.ahead = false → p.reader.current = some b)
    ∧ (st.ahead = true → p.reader.next = .following b ∧ ∃ c, p.reader.current = some c
      ∧ match st.list with
        | .notes => c.notes.finished = true
        | .cues => c.cues.finished = true
        | .steps => c.baseDone = true ∧ c.steps.finished = true)
    ∧ match st.list with
      | .notes => b.notes.finished = false ∧ p.sched.window.length < 48
      | .cues => b.cues.finished = false ∧ p.sched.cues.length < 16
      | .steps => b.steps.finished = false ∧ b.baseDone = true ∧ p.sched.steps.length < 4

/-- One buffer is another, but that its base step may have been handed. -/
def SameLists (b c : Buffer) : Prop :=
  c = { b with baseDone := c.baseDone } ∧ (b.baseDone = true → c.baseDone = true)

/-- The base registration step of a buffer, at a frame offset (R27, R31). -/
def Buffer.base (b : Buffer) (d : Int) : Step :=
  { position := b.passage.startPos + d
    entries := b.passage.baseReg
    planIndex := b.planIndex
    holdAtEntry := b.passage.holdAtEntry }

/-- The base steps of some held passages have been handed (R31), each within the bound, and nothing else
has come about but for the pass itself. -/
structure BasesHanded (bound : Int) (p q : Part) : Prop where
  steps : ∃ new, q.sched.steps = p.sched.steps ++ new ∧ (∀ x ∈ new, x.position ≤ bound)
    ∧ ∀ x, x ∈ new ↔ ∃ (ahead : Bool) (b c : Buffer), p.reader.bufferAt ahead = some b
      ∧ q.reader.bufferAt ahead = some c ∧ b.baseDone = false ∧ c.baseDone = true
      ∧ x = b.base (if ahead then p.reader.delta else 0)
  current : (p.reader.current = none ∧ q.reader.current = none)
    ∨ ∃ b c, p.reader.current = some b ∧ q.reader.current = some c ∧ SameLists b c
  next : (p.reader.next.isFollowing = false ∧ q.reader.next = p.reader.next)
    ∨ ∃ b c, p.reader.next = .following b ∧ q.reader.next = .following c ∧ SameLists b c
  same : q = { p with
    reader := { p.reader with
      current := q.reader.current, next := q.reader.next, pass := q.reader.pass }
    sched := { p.sched with steps := q.sched.steps } }

/-- A pass has gone over the stages `left` (R28, R31): it stands at the first whose list it reads on, or
has ended where there is none. On its way it has handed each base step within the bound for which the
Step List has room. -/
structure PassStands (bound : Int) (left : List Stage) (p q : Part) : Prop where
  handed : BasesHanded bound p q
  stands : ∃ passed more, left = passed ++ more
    ∧ (∀ st ∈ passed, st ≠ ⟨true, .steps⟩ → ∀ b, ¬q.streams st b)
    ∧ (∀ st, more = [] → passed.getLast? = some st → ∀ b, ¬q.streams st b)
    ∧ (∀ st, more.head? = some st → ∃ b, q.streams st b)
    ∧ q.reader.pass = (if more = [] then none else some { bound := bound, left := more, got := [] })
    ∧ (⟨false, .steps⟩ ∈ passed ∨ more.head? = some ⟨false, .steps⟩ →
      ∀ b, q.reader.current = some b →
        b.baseDone = true ∨ bound < b.passage.startPos ∨ 4 ≤ q.sched.steps.length)
    ∧ (more = [] → passed.getLast? = some ⟨true, .steps⟩ →
      ∀ b c, q.reader.current = some b → b.baseDone = true → b.steps.finished = true →
        q.reader.next = .following c →
        c.baseDone = true ∨ bound < c.passage.startPos + p.reader.delta
          ∨ 4 ≤ q.sched.steps.length)

/-- The lists of a pass in order (R28): the current passage's, then the following one's. -/
def passOrder : List Stage :=
  [ ⟨false, .notes⟩, ⟨false, .cues⟩, ⟨false, .steps⟩, ⟨true, .notes⟩, ⟨true, .cues⟩, ⟨true, .steps⟩ ]

/-- A pass has begun (R21, R28): the need test, then the lists from the first on, within the position now
plus the horizon. -/
def PassBegun (p q : Part) : Prop :=
  ∃ m, NeedTested p m ∧ PassStands (p.position + p.setup.horizon) passOrder m q

/-- The entry hold of a passage has been made (R100): HELD, frozen at the start position, the Onset Queue
empty (R65); with no entry hold nothing has come about but that the watched cue is the head of the Cue
List. -/
structure EntryHeld (n : Passage) (p q : Part) : Prop where
  held : n.holdAtEntry = true → q = { p with
    player := { p.player with state := .held }
    follower := { p.follower with freeze := some (n.startPos : Int), watched := q.follower.watched }
    listen := { p.listen with queue := [] }
    report := q.report }
  boundary : p.report.beatPending = false → q.report.boundary = p.report.boundary
  free : n.holdAtEntry = false → q = { p with
    follower := { p.follower with watched := q.follower.watched } }
  watches : WatchesHead q

/-- A pass has been asked for (R28): it begins at once, or when the one in progress ends. -/
structure PassAsked (p q : Part) : Prop where
  begun : p.reader.pass = none → PassBegun p q
  waits : p.reader.pass ≠ none → q = { p with reader := { p.reader with passDue := true } }

/-- What follows the entry into a passage: the need test (R21; before the hold, log 51), the entry hold, the
closes past (R80) and a pass (R28), in this order (log 24). -/
def EntryGoesOn (n : Passage) (mid q : Part) : Prop :=
  ∃ tested held closed, NeedTested mid tested ∧ EntryHeld n tested held ∧ ClosesTaken held closed
    ∧ PassAsked closed q

/-- The pass in progress has gone on over the stages `left`; where it has ended, one that fell due
meanwhile has begun (R28). -/
def PassGoesOn (bound : Int) (left : List Stage) (p q : Part) : Prop :=
  ∃ m, PassStands bound left p m
    ∧ (m.reader.pass ≠ none ∨ p.reader.passDue = false → q = m)
    ∧ (m.reader.pass = none → p.reader.passDue = true →
      PassBegun { m with reader := { m.reader with passDue := false } } q)

/-- A plan has ended by itself (R94, R104, R126, R127): its last passage has completed, the line holds the
writes that stand, and what a plan holds is let go. -/
structure PlanEnded (why : EndReason) (line : List ReaderAccess) (p q : Part) : Prop where
  player : q.player = { p.player with
    state := .idle, endReason := why, fermata := Fermata.init, starveTimer := none }
  reader : q.reader = { p.reader with
    current := none, next := .empty, phase := .off, lookTimer := none, streamTimer := none
    take := q.reader.take, line := line, pass := none, passDue := false }
  lists : q.sched.window = [] ∧ q.sched.cues = [] ∧ q.sched.steps = []
  follower : q.follower = { p.follower with state := .lead, watched := none, freeze := none }
  listen : q.listen.queue = [] ∧ q.listen.hold = HoldListening.inactive
  latched : q.latched .ended = true

/-- A Now-record trigger has come about (R56): a write has begun, or stands pending behind the one in
progress. -/
structure Triggered (p q : Part) : Prop where
  begun : p.report.writing = [] → p.softReset = false →
    q.report.seq = p.report.seq + 1 ∧ q.report.writing ≠ []
  pending : p.report.writing ≠ [] → q.report.pending = true ∧ q.report.writing = p.report.writing

/-- A plan that a forced stop or a lock has ended (R120, R36, R65, R70, R94): nothing is held, ABANDONED is
asked for what was, a SPENT write of the completed passage of a DRAINING standing (log 42), the lists
are empty, the follower has left, no fermata and no timer runs. -/
structure PlanLetGo (p q : Part) : Prop where
  current : q.reader.current = none
  next : q.reader.next = .empty
  take : q.reader.take = none
  phase : q.reader.phase = .off
  line : q.reader.line = (p.reader.line.filter fun a => !a.looks && !a.spentHeld)
    ++ p.reader.heldPtrs.map .abandon
  lists : q.sched = { p.sched with window := [], cues := [], steps := [] }
  follower : q.follower = { p.follower with state := .lead, watched := none, freeze := none }
  listen : q.listen.queue = [] ∧ q.listen.hold = HoldListening.inactive
  fermata : q.player.fermata.phase = .none ∧ q.player.starveTimer = none

/-- The Player has locked (R122, R123). -/
structure Locked (why : LockReason) (addr : Nat) (p q : Part) : Prop where
  letGo : PlanLetGo p q
  state : q.player.state = .locked
  reason : q.player.lockReason = why ∧ q.player.lockAddr = addr ∧ q.player.endReason = .none
  latched : q.latched .locked = true

/-- Magnet power has gone OFF with a cause (R158, R178, R180, R122): every entry is OFF but the DISABLED
ones; a TEST ends with POWER_FAULT and POWER_LOST; a playing Player locks; POWER is latched but for
the command. -/
structure SwitchedOff (cause : PowerCause) (p q : Part) : Prop where
  power : q.power = { on := false, cause := cause }
  queue : q.keys.queue = []
  entries : p.guard.test = none → ∀ n, entry q.keys.entries n =
    if (entry p.keys.entries n).state = .disabled then entry p.keys.entries n else KeyEntry.idle
  test : q.guard.test = none
  slot : (p.guard.test = none → q.slot = p.slot)
    ∧ (p.guard.test ≠ none → q.slot.phase = .closing)
  locks : p.playing = true → Locked .power 0 p q
  stands : p.playing = false → q.player = p.player ∧ q.reader = p.reader ∧ q.sched = p.sched
    ∧ q.follower = p.follower ∧ q.listen.queue = p.listen.queue
  latched : cause ≠ .command → q.latched .power = true

/-- The slot ends a command with an outcome and a detail: CLOSING, and the two writes asked for, the
detail first (R42, R43). -/
def EndsWith (outcome detail : Word) (p q : Part) : Prop :=
  q.slot = { p.slot with phase := .closing }
    ∧ q.svcLine = p.svcLine ++ [.writeDetail detail, .writeCode outcome]

/-- The entry of a WAITING output as a grant leaves it (R152): a STOP in PULSE, any other in PULL, the timer
running. -/
def KeyEntry.granted (su : Setup) (now : Nat) (e : KeyEntry) : KeyEntry :=
  { e with
    state := if e.kind = .stop then .pulse else .pull
    timer := some (now + 1000 * if e.kind = .stop then su.stopPulse else su.pullIn) }

/-! ## Groups of state for frames -/

/-- Key Table, Output Guard, Chain Engine, Supply Monitor and Magnet Power Switch unchanged. -/
def SameMagnets (p q : Part) : Prop :=
  q.keys = p.keys ∧ q.guard = p.guard ∧ q.chain = p.chain ∧ q.supply = p.supply ∧ q.power = p.power

/-- Plan Reader, Tempo Follower, Player and Keying Scheduler unchanged. -/
def SamePlan (p q : Part) : Prop :=
  q.reader = p.reader ∧ q.follower = p.follower ∧ q.player = p.player ∧ q.sched = p.sched

/-- The Listening Unit unchanged. -/
def SameListening (p q : Part) : Prop := q.listen = p.listen

/-- Transfer result, recorded commands, ATTN enables, the port and the soft-reset mark unchanged. -/
def SameConsole (p q : Part) : Prop :=
  q.lastTransfer = p.lastTransfer ∧ q.lastCommand = p.lastCommand ∧ q.prevCommand = p.prevCommand
    ∧ q.attnEnables = p.attnEnables ∧ q.port = p.port ∧ q.softReset = p.softReset

/-- Service slot, the Service Unit's line and the loaded setup unchanged. -/
def SameService (p q : Part) : Prop :=
  q.slot = p.slot ∧ q.svcLine = p.svcLine ∧ q.setupLoaded = p.setupLoaded ∧ q.setup = p.setup

/-- Clearing, time base, performance clock and free-value counter unchanged. -/
def SameTime (p q : Part) : Prop :=
  q.clearing = p.clearing ∧ q.clearFor = p.clearFor ∧ q.time = p.time ∧ q.clock = p.clock
    ∧ q.satTaken = p.satTaken ∧ q.fresh = p.fresh

end Sys2Proof.Machine
end

