-- ==== Sys2Proof/WellFormed.lean ====
section
/-! DEFINITION. The checks on a command's operands: what the outside world can present at the pins. -/

namespace Sys2Proof

/-- The key byte of a Transfer write (R17: bits 8-15). -/
def transferKey (w : Word) : Nat := w.toNat / 256

/-- The action byte of a Transfer write (R17: bits 0-7). -/
def transferAction (w : Word) : Nat := w.toNat % 256

/-- A Transfer write that R40 ignores as BAD_KEY: key not B4h, or action not 01h, 02h or 03h. -/
def isBadTransfer (w : Word) : Bool :=
  transferKey w != 0xB4 || !(transferAction w == 1 || transferAction w == 2 || transferAction w == 3)

/-- An I2S word carries at least one bit and fits its width (R58). -/
def sampleFits (width word : Nat) : Bool := 1 ≤ width && word < 2 ^ width

/-- An echo, where chain in carries a number, is a sequence number 0-15 (R162). -/
def echoFits (echo : Option Nat) : Bool :=
  match echo with
  | some e => e < 16
  | none => true

/-- Sense states come in whole boards of 32 outputs, at most 8 boards (R164). -/
def sensesFit (senses : List Sense) : Bool := senses.length % 32 == 0 && senses.length ≤ 256

/-- The operands the pins and the port can carry. Every other command has no check: its operand
types hold only possible values. -/
def wellFormed : Instr → Bool
  | .badKey w => isBadTransfer w
  | .audioSample _ width word => sampleFits width word
  | .frameComplete echo senses => echoFits echo && sensesFit senses
  | .reset | .clearingEnd | .storeRead _ | .storeWrite _ _ | .arbiterServe | .take | .halt
  | .softReset | .registerWriteIgnored _ _ | .attentionRead | .setup | .setupCopyComplete
  | .start | .stop | .hold | .resume | .nudge | .power | .test | .clear | .unknown
  | .closingComplete | .softResetSecondStage | .lookTimerExpiry | .streamPass | .stampExchange
  | .passageEnd | .beatBoundary | .nowWriteComplete | .frameEnd | .cutoff | .maskExpiry
  | .cueClose | .cuePass | .fermataHoldingStart | .maxHoldExpiry | .leadExpiry
  | .starveTimerExpiry | .clockSaturation | .slice | .pullInEnd _ | .pulseEnd _ | .settleEnd _
  | .cipherTimerExpiry _ | .cadencePoint _ | .chainFault | .chainFaultClear
  | .supplyOutOfRange | .stuck _ | .openInHold _ | .testNextOutput | .faultRecordWritten => true

end Sys2Proof
end

