-- ==== Sys2Proof/Certificates/Slice0/Obligations.lean ====
section
/-! DEFINITION. The statements for the provers, in the order of OBLIGATIONS.json. -/

open Sys2Proof Sys2Proof.Machine

/-! ## Steps, the queue and the invariants -/

/-- A step takes the command at the front of the queue and runs it on the queue's rest. -/
def Obligations.StepRunsTheFrontCommand : Prop :=
  ∀ (c : Instr) (s : State), step { s with pending := c :: s.pending } = exec c s

/-- The model's choice (log 3), on an empty queue: exactly one command is queued with time standing, one of
the events due or, with none due, one of those that may come about; or, with none due, the queue stays
empty and one microsecond passes: the clock counts up and stays at 4,294,967,295 (R124), and while the store is cleared (R2) the
clearing alone counts, to 1,000 at most. The counter of free values alone may advance beside it
(log 4). -/
def Obligations.IdleStepMovesTimeAlone : Prop :=
  ∀ s : State, s.pending = [] →
    let p := s.part
    let ticked : Part :=
      if p.clearing then { p with clearFor := p.clearFor + 1 }
      else { p with time := p.time + 1, clock := min 4294967295 (p.clock + 1) }
    ∃ t : State, step s = .next t ∧ t.store = s.store
    ∧ (t.part.fresh = p.fresh ∨ t.part.fresh = p.fresh + 1)
    ∧ (dueEvents p ≠ [] → ∃ e ∈ dueEvents p, t.pending = [e]
      ∧ t.part = { p with fresh := t.part.fresh })
    ∧ (dueEvents p = [] →
      (∃ e ∈ openEvents p, t.pending = [e] ∧ t.part = { p with fresh := t.part.fresh })
      ∨ (p.clearing = true → p.clearFor < 1000)
        ∧ t.pending = [] ∧ t.part = { ticked with fresh := t.part.fresh })

/-- No command faults, is refused, or touches the queue of the commands that wait. -/
def Obligations.EveryCommandAnswersNext : Prop :=
  ∀ (c : Instr) (s : State), ∃ t : State, exec c s = .next t ∧ t.pending = s.pending

/-- The store keeps its canonical form (log 1) through every step. -/
def Obligations.StoreStaysCanonical : Prop :=
  ∀ s t : State, StoreOk s → step s = .next t → StoreOk t

/-- Every step keeps the invariant of the part: the Pull-in Queue holds exactly the WAITING outputs,
each once, at most 64 (R150); with magnet power OFF every entry is OFF or DISABLED and no TEST runs
(R158, R180); the five lists stay within their capacities (R64, R68, R130); Attention bits 12 to 15
stay 0 (R17). -/
def Obligations.PartInvariantKept : Prop :=
  ∀ s t : State, PartInv s.part → step s = .next t → PartInv t.part

/-- The state after reset has the canonical store and the invariant of the part. -/
def Obligations.ResetStateMeetsTheInvariants : Prop :=
  StoreOk State.reset ∧ PartInv State.reset.part

/-! ## Reset and clearing -/

/-- RESET clears the store, so that every word reads 0, and puts every block in its reset state with
CLEARING set (R2, R55, R74, R115, R130, R146, R161, R168, R172, R178). The store is cleared whole in this
one step (log 2: behind CLEARING no access can tell), and what the console holds on the port stands
(log 11). -/
def Obligations.ResetPutsEveryBlockInItsResetState : Prop :=
  ∀ s : State,
    exec .reset s = .next { s with
      store := [], part := { Part.reset with port := s.part.port, fresh := s.part.fresh } }
    ∧ (∀ a, Memory.read [] a = 0)
    ∧ Part.reset.clearing = true ∧ Part.reset.clock = 0 ∧ Part.reset.arb = .serviceUnit
    ∧ Part.reset.attention = 0 ∧ Part.reset.attnEnables = 0 ∧ Part.reset.lastTransfer = .none
    ∧ Part.reset.slot.phase = .free ∧ Part.reset.setupLoaded = false
    ∧ (∀ n, entry Part.reset.setup.outputMap n = .unused)
    ∧ Part.reset.player.state = .idle ∧ Part.reset.player.fermata.phase = .none
    ∧ Part.reset.player.endReason = .none ∧ Part.reset.player.lockReason = .none
    ∧ Part.reset.player.lockAddr = 0
    ∧ Part.reset.follower.period = 500000 ∧ Part.reset.follower.state = .lead
    ∧ (∀ n, entry Part.reset.keys.entries n = KeyEntry.idle) ∧ Part.reset.keys.queue = []
    ∧ (∀ i, entry Part.reset.sched.drawn i = false)
    ∧ Part.reset.chain.length = none ∧ Part.reset.supply.vmax = 1023
    ∧ (∀ n, entry Part.reset.guard.detectors n = Detector.idle)
    ∧ Part.reset.power = { on := false, cause := .reset }

/-- When clearing ends the clock stands at 0 and the slice and chain cadences begin there; an access
held on WAIT completes: a read returns the word as it stands, a write lands on the cleared store and
stands, a TAKE is taken (R2, R130, R161; the first cadence point is log 19's). -/
def Obligations.ClearingEndReleasesTheHeldAccess : Prop :=
  ∀ s : State, s.part.clearing = true →
    (s.part.port.waiting = [] →
      exec .clearingEnd s = .next { s with part := { s.part with
        clearing := false, time := 0, clock := 0, satTaken := false
        sched := { s.part.sched with nextSlice := 250 }
        chain := { s.part.chain with nextCadence := 1000 } } })
    ∧ (∀ x, s.part.port.waiting = [.read x] →
      Completes .clearingEnd s fun q =>
        q.clearing = false ∧ q.clock = 0 ∧ q.arb = .console
          ∧ q.port = { waiting := [], answers := [s.store.read x.toNat] })
    ∧ (∀ x v, s.part.port.waiting = [.write x v] → StoreOk s →
      CompletesStoring .clearingEnd s fun m q =>
        WordWritten s.store m x.toNat v ∧ q.clearing = false ∧ q.clock = 0
          ∧ q.port = { s.part.port with waiting := [] })
    ∧ (s.part.port.waiting = [.transfer 0xB401] → s.part.slot.phase = .free →
        s.part.softReset = false →
      Completes .clearingEnd s fun q =>
        q.clearing = false ∧ q.port.waiting = [] ∧ q.lastTransfer = .accepted
          ∧ q.slot.phase = .reading ∧ q.svcLine = s.part.svcLine ++ [.readCode])

/-! ## The console's accesses -/

/-- A store access of the console stands on WAIT until the arbiter serves it (R38); nothing else
moves. -/
def Obligations.StoreAccessWaitsForTheArbiter : Prop :=
  ∀ (s : State) (x : StoreAddr) (v : Word),
    exec (.storeRead x) s = .next { s with part := { s.part with port := { s.part.port with
      waiting := s.part.port.waiting ++ [.read x] } } }
    ∧ exec (.storeWrite x v) s = .next { s with part := { s.part with port := { s.part.port with
      waiting := s.part.port.waiting ++ [.write x v] } } }
    ∧ Completes (.storeRead x) s fun q => q.wait = true

/-- A console read or write that the arbiter serves completes at that service: the read returns the word
as it stands, the write stands from it on, and no other word changes (R1, R38). The accesses behind it
then begin, each read of Attention or Part State answered at once with its own word, until one that is
held on WAIT (R38, R52; the words the event answers stand in order, log 11). -/
def Obligations.ConsoleAccessIsServed : Prop :=
  ∀ (s : State) (x : StoreAddr) (v : Word), nextRequester s.part = some .console →
    let p := s.part
    let w := s.store.read x.toNat;
    (p.port.waiting = [.read x] →
      exec .arbiterServe s = .next { s with part := { p with
        arb := .console, port := { waiting := [], answers := [w] } } })
    ∧ (p.port.waiting = [.write x v] → StoreOk s →
      CompletesStoring .arbiterServe s fun m q =>
        WordWritten s.store m x.toNat v
          ∧ q = { p with arb := .console, port := { p.port with waiting := [] } })
    ∧ (∀ b, p.port.waiting = [.read x, .attention, .partState b] →
      exec .arbiterServe s = .next { s with part := { p with
        arb := .console, attention := 0
        port :=
          { waiting := []
            answers := [w, p.attention, if b then p.partState1 else p.partState0] } } })
    ∧ (∀ y rest, p.port.waiting = .read x :: .attention :: .read y :: rest →
      exec .arbiterServe s = .next { s with part := { p with
        arb := .console, attention := 0
        port := { waiting := .read y :: rest, answers := [w, p.attention] } } })

/-- The arbiter serves the first waiting requester in the cyclic order Console Port, Plan Reader, Report
Writer, Service Unit, from the one after its pointer, and sets the pointer to it (R39). The console
waits with a store access at the head of its port, but not while the store is cleared (R2); the Plan
Reader with an access in its line or a pass in progress (R28); the others with an access in theirs. With
none waiting the row changes nothing (log 6). -/
def Obligations.ArbiterServesInCyclicOrder : Prop :=
  ∀ s : State,
    let p := s.part
    let order : List Requester := match p.arb with
      | .console => [.planReader, .reportWriter, .serviceUnit, .console]
      | .planReader => [.reportWriter, .serviceUnit, .console, .planReader]
      | .reportWriter => [.serviceUnit, .console, .planReader, .reportWriter]
      | .serviceUnit => [.console, .planReader, .reportWriter, .serviceUnit];
    (p.waits .console = true ↔ p.clearing = false
      ∧ ∃ rest, (∃ x, p.port.waiting = .read x :: rest) ∨ ∃ x v, p.port.waiting = .write x v :: rest)
    ∧ (p.waits .planReader = true ↔ p.reader.line ≠ [] ∨ p.reader.pass ≠ none)
    ∧ (p.waits .reportWriter = true ↔ p.report.writing ≠ [])
    ∧ (p.waits .serviceUnit = true ↔ p.svcLine ≠ [])
    ∧ (∀ before r after, order = before ++ r :: after → p.waits r = true →
      (∀ x ∈ before, p.waits x = false) →
        nextRequester p = some r ∧ CompletesStoring .arbiterServe s fun _ q => q.arb = r)
    ∧ ((∀ r, p.waits r = false) → nextRequester p = none ∧ exec .arbiterServe s = .next s)

/-- TAKE with the slot free is ACCEPTED and begins the service request; with the slot busy it is BUSY,
REJECT is latched and all else stays; during clearing or a soft reset it is held on WAIT (R40, R41,
R2, R46). -/
def Obligations.TakeIsJudgedBySlotBusy : Prop :=
  ∀ s : State,
    (s.part.portOpen → s.part.slot.phase = .free →
      exec .take s = .next { s with part := { s.part with
        lastTransfer := .accepted
        slot := { phase := .reading, command := 0, args := [] }
        svcLine := s.part.svcLine ++ [.readCode] } })
    ∧ (s.part.portOpen → s.part.slot.phase ≠ .free →
      exec .take s = .next { s with part := { s.part with
        lastTransfer := .busy, attention := s.part.attention ||| 2 } })
    ∧ (s.part.port.waiting = [] → (s.part.clearing = true ∨ s.part.softReset = true) →
      exec .take s = .next { s with part := { s.part with
        port := { s.part.port with waiting := [.transfer 0xB401] } } })

/-- A Transfer write of a wrong key or an undefined action sets the last transfer result to BAD_KEY,
latches REJECT and leaves all other state as it was (R40). -/
def Obligations.BadTransferIsIgnoredWithReject : Prop :=
  ∀ (s : State) (w : Word), isBadTransfer w = true →
    (s.part.portOpen →
      exec (.badKey w) s = .next { s with part := { s.part with
        lastTransfer := .badKey, attention := s.part.attention ||| 2 } })
    ∧ (s.part.port.waiting = [] → (s.part.clearing = true ∨ s.part.softReset = true) →
      exec (.badKey w) s = .next { s with part := { s.part with
        port := { s.part.port with waiting := [.transfer w] } } })

/-- A read of Attention returns the latched set and clears every condition it returned (R52); a write to
Attention or Part State changes nothing (R38). Both are answered at once, during clearing too; behind
an access held on WAIT they are not begun until it completes. -/
def Obligations.RegisterAccessesAreAnsweredAtOnce : Prop :=
  ∀ (s : State) (reg : ReadOnlyReg) (v : Word),
    (s.part.port.waiting = [] →
      exec .attentionRead s = .next { s with part := { s.part with
        port := { waiting := [], answers := [s.part.attention] }, attention := 0 } }
      ∧ exec (.registerWriteIgnored reg v) s = .next s)
    ∧ (s.part.port.waiting ≠ [] →
      exec .attentionRead s = .next { s with part := { s.part with port := { s.part.port with
        waiting := s.part.port.waiting ++ [.attention] } } }
      ∧ exec (.registerWriteIgnored reg v) s = .next { s with part := { s.part with port :=
        { s.part.port with waiting := s.part.port.waiting ++ [.ignored reg v] } } })

/-- The fields of the two Part State words stand in the bits of R17, as they stand at the read (R55). A read
of Part State answers the word and changes nothing, and one of Transfer answers 0 (R38). ATTN is
asserted while some latched condition has its enable set (R54). -/
def Obligations.PartStateShowsItsFields : Prop :=
  ∀ p : Part, p.lastCommand < 16 → p.prevCommand < 16 →
    p.partState0.toNat % 8 = p.player.state.code
    ∧ p.partState0.getLsbD 3 = p.fermataHeld
    ∧ p.partState0.toNat / 16 % 4 = p.follower.state.code
    ∧ p.partState0.getLsbD 6 = p.power.on
    ∧ p.partState0.getLsbD 7 = p.slotBusy
    ∧ p.partState0.getLsbD 8 = p.setupLoaded
    ∧ p.partState0.getLsbD 9 = p.clearing
    ∧ p.partState0.toNat / 1024 % 4 = p.lastTransfer.code
    ∧ p.partState0.getLsbD 12 = p.chain.fault
    ∧ p.partState0.getLsbD 13 = p.supply.undervolt
    ∧ p.partState0.toNat < 16384
    ∧ p.partState1.toNat % 16 = p.lastCommand
    ∧ p.partState1.toNat / 16 % 16 = p.prevCommand
    ∧ p.partState1.toNat / 256 = p.player.lockReason.code
    ∧ (p.port.waiting = [] →
      present (.partState false) p = { p with port := { waiting := [], answers := [p.partState0] } }
      ∧ present (.partState true) p = { p with port := { waiting := [], answers := [p.partState1] } }
      ∧ present .transferRead p = { p with port := { waiting := [], answers := [0] } })
    ∧ (p.attn = true ↔ ∃ i, p.attention.getLsbD i = true ∧ p.attnEnables.getLsbD i = true)

/-! ## HALT and soft reset -/

/-- HALT while playing ends the plan (R45, R120, R121): IDLE with reason HALTED and END latched; the
passages held are asked to be ABANDONED, current first, and let go, a SPENT write standing ready for a
finishing one going from the line and one for the completed passage of a DRAINING standing (log 42);
the lists are emptied; WAITING and PULSE outputs go OFF, PULL and HOLD outputs settle with count 0, SETTLE ones stay with count 0,
DISABLED ones stand; the follower leaves its state, freeze and watched cue; magnet power, the lock
reason, the drawn states, the masks, the setup and the slot stand. -/
def Obligations.HaltEndsThePlan : Prop :=
  ∀ s : State, s.part.portOpen → s.part.playing = true →
    (s.part.slot.phase = .free ∨ s.part.slot.phase = .reading ∨ s.part.slot.phase = .applying
      ∨ s.part.slot.phase = .closing) →
    Completes .halt s fun q =>
      q.lastTransfer = .accepted
      ∧ q.player.state = .idle ∧ q.player.endReason = .halted
      ∧ q.player.lockReason = s.part.player.lockReason ∧ q.player.fermata.phase = .none
      ∧ q.player.starveTimer = none
      ∧ q.attention = s.part.attention ||| 0x400
      ∧ q.reader.current = none ∧ q.reader.next = .empty ∧ q.reader.stopAtEnd = false
      ∧ q.reader.phase = .off ∧ q.reader.take = none
      ∧ q.reader.line = (s.part.reader.line.filter fun a => !a.looks && !a.spentHeld)
          ++ s.part.reader.heldPtrs.map .abandon
      ∧ q.sched = { s.part.sched with window := [], cues := [], steps := [] }
      ∧ q.keys.queue = []
      ∧ (∀ n, match (entry s.part.keys.entries n).state with
          | .off => entry q.keys.entries n = entry s.part.keys.entries n
          | .disabled => entry q.keys.entries n = entry s.part.keys.entries n
          | .waiting => entry q.keys.entries n = KeyEntry.idle
          | .pulse => entry q.keys.entries n = KeyEntry.idle
          | .pull => (entry q.keys.entries n).state = .settle ∧ (entry q.keys.entries n).count = 0
          | .hold => (entry q.keys.entries n).state = .settle ∧ (entry q.keys.entries n).count = 0
          | .settle => entry q.keys.entries n
              = { entry s.part.keys.entries n with count := 0 })
      ∧ q.follower = { s.part.follower with state := .lead, watched := none, freeze := none }
      ∧ q.listen = { s.part.listen with queue := [], hold := HoldListening.inactive }
      ∧ q.power = s.part.power ∧ q.chain = s.part.chain ∧ q.supply = s.part.supply
      ∧ q.slot = s.part.slot ∧ q.svcLine = s.part.svcLine ∧ q.setup = s.part.setup
      ∧ q.clock = s.part.clock

/-- HALT in IDLE or LOCKED does nothing at the Player (R121); at the slot it ends a SETUP copy with
ABORTED and HALTED and leaves the Output Map all UNUSED (R45, R50), ends a TEST with ABORTED and
HALTED (R180), and does nothing in any other phase. Of a TEST the output being test-pulled is met by its
state: WAITING leaves the queue and goes OFF, PULL and PULSE settle with count 0, but one marked
DISABLED is disabled again; in SETTLE, or left in HOLD (log 46), it stays, and so does one not yet
pulled (log 23). The slot limit returns to Pmax, and the requests that wait are granted in queue order
up to it (R152, R153); every other entry stands, with its detector, and so does the rest of the part. -/
def Obligations.HaltOutsideAPlanActsOnTheSlot : Prop :=
  ∀ s : State, s.part.portOpen →
    (s.part.player.state = .idle ∨ s.part.player.state = .locked) →
    ((s.part.slot.phase = .free ∨ s.part.slot.phase = .reading ∨ s.part.slot.phase = .applying
        ∨ s.part.slot.phase = .closing) →
      exec .halt s = .next { s with part := { s.part with lastTransfer := .accepted } })
    ∧ (s.part.slot.phase = .copying →
      exec .halt s = .next { s with part := { s.part with
        lastTransfer := .accepted
        slot := { s.part.slot with phase := .closing }
        setup := { Setup.unconfigured with boards := s.part.setup.boards }
        svcLine := (s.part.svcLine.filter fun a => !a.ofCommand)
          ++ [.writeDetail 8, .writeCode 6] } })
    ∧ (∀ t, s.part.slot.phase = .testing → s.part.guard.test = some t →
      let p := s.part
      let n := t.output
      let e := entry p.keys.entries n
      let met : Prop :=
        t.stage = .pulled ∧ (e.state = .waiting ∨ e.state = .pull ∨ e.state = .pulse);
      Completes .halt s fun q =>
        q.player = p.player ∧ q.guard.test = none ∧ EndsWith 6 8 p q
          ∧ q.keys.slotTarget = p.setup.pmax ∧ q.power = p.power
          ∧ SamePlan p q
          ∧ (QueueExact p.keys → p.setupLoaded = true →
            let after := entry q.keys.entries n;
            q = { p with
              lastTransfer := .accepted, slot := q.slot, svcLine := q.svcLine
              keys := q.keys, guard := q.guard, listen := q.listen }
            ∧ (met →
              (t.marked = true → after = { KeyEntry.idle with state := .disabled })
              ∧ (t.marked = false → e.state = .waiting → after = KeyEntry.idle)
              ∧ (t.marked = false → e.state ≠ .waiting → after = { e with
                  state := .settle, count := 0, coolOff := false
                  timer := some (p.time + 1000 * p.setup.settle) }))
            ∧ (e.state = .settle ∨ e.state = .hold → after = e)
            ∧ (∀ m, m ≠ n ∨ ¬met → (entry p.keys.entries m).state ≠ .waiting →
              entry q.keys.entries m = entry p.keys.entries m
              ∧ entry q.guard.detectors m = entry p.guard.detectors m)
            ∧ (¬met → ∀ before m behind, p.keys.queue = before ++ m :: behind →
              entry q.keys.entries m =
                if slotsInUse p.keys.entries + before.length < p.setup.pmax then
                  (entry p.keys.entries m).granted p.setup p.time
                else entry p.keys.entries m)
            ∧ (met → p.keys.slotTarget = 1 → p.keys.slotLimit = max 1 (slotsInUse p.keys.entries) →
              1 ≤ p.setup.pmax →
              ∀ before m behind, p.keys.queue.filter (· != n) = before ++ m :: behind →
                let inUse := slotsInUse p.keys.entries - if e.state = .waiting then 0 else 1;
                entry q.keys.entries m =
                  if inUse + before.length < p.setup.pmax then
                    (entry p.keys.entries m).granted p.setup p.time
                  else entry p.keys.entries m)))

/-- The first stage of a soft reset (R46, R178): ABANDONED asked for every passage held, a SPENT write
standing ready for a finishing one going from the line and one for the completed passage of a DRAINING
standing (log 42); the command in flight stopped with ABORTED and NONE, magnet power OFF with cause SOFT_RESET, the Key Table forced OFF,
no lock; the store and the Player's state stand. -/
def Obligations.SoftResetFirstStage : Prop :=
  ∀ s : State, s.part.portOpen →
    Completes .softReset s fun q =>
      q.softReset = true ∧ q.lastTransfer = .accepted
      ∧ q.reader.current = none ∧ q.reader.next = .empty ∧ q.reader.take = none
      ∧ q.reader.line = (s.part.reader.line.filter fun a => !a.looks && !a.spentHeld)
          ++ s.part.reader.heldPtrs.map .abandon
      ∧ q.player = s.part.player ∧ q.report = s.part.report ∧ q.guard.test = none
      ∧ q.power = (if s.part.power.on then { on := false, cause := .softReset }
          else s.part.power)
      ∧ (s.part.power.on = true → q.keys.queue = []
          ∧ ∀ n, (entry q.keys.entries n).state.atRest = true)
      ∧ (s.part.slot.phase = .free ∨ s.part.slot.phase = .closing →
          q.slot = s.part.slot ∧ q.svcLine = s.part.svcLine)
      ∧ (s.part.slot.phase ≠ .free → s.part.slot.phase ≠ .closing →
          q.slot.phase = .closing
            ∧ q.svcLine = (s.part.svcLine.filter fun a => !a.ofCommand)
                ++ [.writeDetail 0, .writeCode 6])

/-- The second stage of a soft reset (R46): once every owed write has been served, every block takes its
reset state; the store, the Now-record sequence number and the cadences of frames and chain go on, the
samples of the frame being collected standing (log 20); the last transfer result is ACCEPTED and the
cause of the OFF is SOFT_RESET (R3, R40, R57, R58, R161, R178). The next slice comes 250 us on (R130).
A store access on WAIT stands; a Transfer write held on WAIT through the soft reset is then taken (R38)
and judged on the reset state (R40): TAKE begins its request (R41), HALT finds nothing to stop, RESET
begins the next soft reset, and a bad one is ignored with REJECT. -/
def Obligations.SoftResetSecondStage : Prop :=
  ∀ s : State, softResetReady s.part = true →
    let p := s.part
    let storeFirst (l : List PortAccess) : Prop :=
      l = [] ∨ (∃ x rest, l = .read x :: rest) ∨ ∃ x v rest, l = .write x v :: rest
    let blocks (q : Part) : Prop :=
      q.clearing = false ∧ q.power = { on := false, cause := .softReset }
      ∧ q.report = { Report.init with seq := p.report.seq }
      ∧ q.attnEnables = 0 ∧ q.setupLoaded = false ∧ q.setup = Setup.unconfigured
      ∧ q.lastCommand = 0 ∧ q.prevCommand = 0 ∧ q.arb = .serviceUnit ∧ q.clock = 0
      ∧ q.reader = Reader.init ∧ q.follower = Follower.init ∧ q.player = Player.init
      ∧ q.keys = KeyTable.init ∧ q.guard = Guard.init ∧ q.supply = Supply.init
      ∧ q.sched.window = [] ∧ q.sched.cues = [] ∧ q.sched.steps = []
      ∧ (∀ i, entry q.sched.drawn i = false)
      ∧ q.sched.curIndex = 0 ∧ q.sched.nextSlice = p.time + 250
      ∧ q.listen.queue = [] ∧ q.listen.masks = [] ∧ q.listen.floors = Listening.init.floors
      ∧ q.listen.hold = HoldListening.inactive
      ∧ (∀ c, entry q.listen.filters c =
        { prevIn := 0, prevOut := 0, samples := (entry p.listen.filters c).samples })
      ∧ q.chain = Chain.init p.chain.nextCadence
      ∧ q.time = p.time
    let slotFree (q : Part) : Prop := q.slot = Slot.init ∧ q.svcLine = [];
    (storeFirst p.port.waiting → Completes .softResetSecondStage s fun q =>
      blocks q ∧ slotFree q ∧ q.attention = 0 ∧ q.softReset = false
      ∧ q.lastTransfer = .accepted ∧ q.port = p.port)
    ∧ (∀ w rest, p.port.waiting = .transfer w :: rest → storeFirst rest →
      Completes .softResetSecondStage s fun q =>
        blocks q ∧ q.port = { p.port with waiting := rest }
        ∧ (w = 0xB401 → q.slot = { phase := .reading, command := 0, args := [] }
          ∧ q.svcLine = [.readCode] ∧ q.attention = 0 ∧ q.softReset = false
          ∧ q.lastTransfer = .accepted)
        ∧ (w = 0xB402 → slotFree q ∧ q.attention = 0 ∧ q.softReset = false
          ∧ q.lastTransfer = .accepted)
        ∧ (w = 0xB403 → slotFree q ∧ q.attention = 0 ∧ q.softReset = true
          ∧ q.lastTransfer = .accepted)
        ∧ (isBadTransfer w = true → slotFree q ∧ q.attention = 2 ∧ q.softReset = false
          ∧ q.lastTransfer = .badKey))

/-! ## The service slot -/

/-- The Service Unit reads the command code: an undefined one is recorded as 15 and ends with UNKNOWN
and NONE; a defined one is recorded, and goes on to its arguments or to its owner. Arguments are read in
order; after the last the command stands with its owner (R14, R41, R42). -/
def Obligations.CommandCodeAndArgumentsAreRead : Prop :=
  ∀ (s : State) (rest : List SvcAccess),
    (s.part.serviceNext .readCode rest →
      let code := (s.store.read 0).toNat
      let q : Part := { s.part with arb := .serviceUnit, prevCommand := s.part.lastCommand };
      (code = 0 ∨ 9 < code → ∀ c ∈ [Instr.unknown, .arbiterServe],
        exec c s = .next { s with part := { q with
          lastCommand := 15
          slot := { phase := .closing, command := code, args := [] }
          svcLine := rest ++ [.writeDetail 0, .writeCode 7] } })
      ∧ (code = 3 ∨ code = 4 ∨ code = 5 ∨ code = 9 →
        exec .arbiterServe s = .next { s with part := { q with
          lastCommand := code
          slot := { phase := .applying, command := code, args := [] }
          svcLine := rest } })
      ∧ (code = 1 ∨ code = 2 ∨ code = 6 ∨ code = 7 ∨ code = 8 →
        exec .arbiterServe s = .next { s with part := { q with
          lastCommand := code
          slot := { s.part.slot with command := code, args := [] }
          svcLine := rest ++ [.readArg 1] } }))
    ∧ (∀ i, s.part.serviceNext (.readArg i) rest →
      let more := i < argCount s.part.slot.command
      exec .arbiterServe s = .next { s with part := { s.part with
        arb := .serviceUnit
        slot := { s.part.slot with
          phase := if more then s.part.slot.phase else .applying
          args := s.part.slot.args ++ [s.store.read i] }
        svcLine := if more then rest ++ [.readArg (i + 1)] else rest } })

/-- In CLOSING the detail is written at 0006h, then the code at 0005h; when the code has been served the
slot is FREE and DONE is latched (R42, R43). -/
def Obligations.ClosingWritesDetailThenCode : Prop :=
  ∀ (s : State) (v : Word) (rest : List SvcAccess), StoreOk s →
    (s.part.serviceNext (.writeDetail v) rest →
      CompletesStoring .arbiterServe s fun m q =>
        WordWritten s.store m 6 v
          ∧ q = { s.part with arb := .serviceUnit, svcLine := rest })
    ∧ (s.part.serviceNext (.writeCode v) rest → ∀ c ∈ [Instr.closingComplete, .arbiterServe],
      CompletesStoring c s fun m q =>
        WordWritten s.store m 5 v
          ∧ q = { s.part with
              arb := .serviceUnit, svcLine := rest
              slot := { s.part.slot with phase := .free }
              attention := s.part.attention ||| 1 })

/-- A command that fails a check ends with the outcome and detail of the first check it fails, in the
order of R42, and nothing else of the part changes (R42, R47, R95, R111, R117, R119, R178, R179), but that
SETUP's read of the boards word, made at once where no access waits, moves the arbiter's pointer
(log 7). POWER ON makes its checks first also where power is ON already (log 38). -/
def Obligations.FailedChecksEndTheCommandAlone : Prop :=
  ∀ s : State,
    let p := s.part
    let ends (c : Instr) (outcome detail : Word) : Prop :=
      exec c s = .next { s with part := p.ended outcome detail }
    let a1 := (p.slot.arg 1).toNat;
    (p.atOwner 1 →
      (p.player.state ≠ .idle → ends .setup 2 2)
      ∧ (p.player.state = .idle → a1 < 0x240 ∨ 0x7EB6 < a1 → ends .setup 3 3)
      ∧ (p.player.state = .idle → 0x240 ≤ a1 → a1 ≤ 0x7EB6 → s.store.read a1 = 0 →
        p.storeFree = true → exec .setup s = .next { s with
          part := { p with arb := .serviceUnit }.ended 3 4 }))
    ∧ (p.atOwner 2 →
      (p.setupLoaded = false → ends .start 4 0)
      ∧ (p.setupLoaded = true → p.player.state ≠ .idle → ends .start 2 2)
      ∧ (p.setupLoaded = true → p.player.state = .idle → p.power.on = false → ends .start 5 10)
      ∧ (p.setupLoaded = true → p.player.state = .idle → p.power.on = true →
          a1 < 0x240 ∨ 0x7FFF < a1 → ends .start 3 3))
    ∧ (p.atOwner 3 → p.player.state = .idle ∨ p.player.state = .draining ∨ p.player.state = .locked →
        ends .stop 2 2)
    ∧ (p.atOwner 4 → p.player.state ≠ .running → p.player.state ≠ .held → ends .hold 2 2)
    ∧ (p.atOwner 5 → p.player.state ≠ .held → ends .resume 2 2)
    ∧ (p.atOwner 6 → p.player.state ≠ .running → p.player.state ≠ .held → ends .nudge 2 2)
    ∧ (p.atOwner 7 →
      (1 < a1 → ends .power 3 11)
      ∧ (a1 = 1 → p.setupLoaded = false → ends .power 4 0)
      ∧ (a1 = 1 → p.setupLoaded = true → p.chain.fault = true → ends .power 5 6)
      ∧ (a1 = 1 → p.setupLoaded = true → p.chain.fault = false →
          p.supply.vs < p.supply.vcut ∨ p.supply.vmax < p.supply.vs → ends .power 5 7))
    ∧ (p.atOwner 8 →
      (p.setupLoaded = false → ends .test 4 0)
      ∧ (p.setupLoaded = true → p.player.state ≠ .idle → ends .test 2 2)
      ∧ (p.setupLoaded = true → p.player.state = .idle → p.power.on = false → ends .test 5 10)
      ∧ (p.setupLoaded = true → p.player.state = .idle → p.power.on = true →
          min (p.slot.arg 2).toNat 255 < min a1 255 → ends .test 3 5))

/-- A SETUP that passes its checks discards the loaded setup, clears the ATTN enables, sets the chain
length, and asks for the first word of the copy (R47, R161). Its read of the boards word is made at once
where no access waits; else it joins the Service Unit's line, once, and the checks and the copy go on
when it is served (R39; log 7). -/
def Obligations.SetupBeginsTheCopy : Prop :=
  ∀ s : State,
    let p := s.part
    let a1 := (p.slot.arg 1).toNat
    let w := s.store.read a1
    let len := min w.toNat 8
    let begins (c : Instr) (line : List SvcAccess) : Prop := Completes c s fun q =>
      q = { p with
        arb := .serviceUnit
        slot := { p.slot with phase := .copying }
        svcLine := line ++ [.copyWord 1]
        setupLoaded := false
        setup := { Setup.unconfigured with boards := len }
        attnEnables := 0
        chain := q.chain }
      ∧ (∀ n, entry q.setup.outputMap n = .unused)
      ∧ (p.chain.length = some len → q.chain = p.chain)
      ∧ (p.chain.length ≠ some len →
        q.chain = { p.chain with
          length := some len, bad := 0, good := 0, lastDrive := q.chain.lastDrive }
        ∧ ∀ n : OutputId, entry q.chain.lastDrive n =
            if 32 * p.chain.length.getD 0 ≤ n.val ∧ n.val < 32 * len then .off
            else entry p.chain.lastDrive n);
    (p.atOwner 1 → p.player.state = .idle → 0x240 ≤ a1 → a1 ≤ 0x7EB6 →
      (p.storeFree = true → w ≠ 0 → begins .setup p.svcLine)
      ∧ (p.storeFree = false → .readBoards ∉ p.svcLine →
        exec .setup s = .next { s with part := { p with svcLine := p.svcLine ++ [.readBoards] } })
      ∧ (p.storeFree = false → .readBoards ∈ p.svcLine → exec .setup s = .next s))
    ∧ (∀ rest, p.serviceNext .readBoards rest →
      (w ≠ 0 → begins .arbiterServe rest)
      ∧ (w = 0 → exec .arbiterServe s = .next { s with
          part := { p with arb := .serviceUnit, svcLine := rest }.ended 3 4 }))

/-- The single words of the setup record that are clamped into a range, with their fields (R12, R48). -/
def setupClamps : List (Nat × Nat × Nat × (Setup → Nat → Setup)) :=
  [ (293, 0, 1023, fun u v => { u with stopLead := v })
  , (306, 24, 255, fun u v => { u with ratio := v })
  , (309, 20, 200, fun u v => { u with refractory := v })
  , (310, 5, 30, fun u v => { u with mergeSpan := v })
  , (311, 16, 240, fun u v => { u with cutoffRatio := v })
  , (312, 2, 20, fun u v => { u with cutoffPersistence := v })
  , (313, 0, 20, fun u v => { u with mpre := v })
  , (314, 0, 60, fun u v => { u with mpost := v })
  , (315, 96, 768, fun u v => { u with horizon := v })
  , (316, 1, 32, fun u v => { u with pmax := v })
  , (317, 5, 60, fun u v => { u with pullIn := v })
  , (318, 5, 50, fun u v => { u with settle := v })
  , (319, 50, 250, fun u v => { u with stopPulse := v })
  , (320, 0, 1023, fun u v => { u with vhold := v })
  , (321, 0, 1023, fun u v => { u with vmin := v })
  , (322, 0, 1023, fun u v => { u with vcut := v })
  , (323, 0, 1023, fun u v => { u with vmax := v })
  , (325, 5, 120, fun u v => { u with cipherLimit := v })
  , (326, 1, 30, fun u v => { u with starveLimit := v })
  , (327, 100, 5000, fun u v => { u with startLead := v })
  , (328, 0, 384, fun u v => { u with resumeGap := v }) ]

/-- Each word of the setup record read is loaded into its own field, clamped (R12, R13, R48): on-leads and
release leads to at most 1,023, organ-to-microphone delays to 255, the two words of a channel, the two
of Emin, bits 0 to 7 of the policy, the rest into their ranges; an Output Map word as R49 says: UNUSED
above the boards present; a KEY above its division's range or a fifth output of one key UNUSED with
MAPPING latched. Every other field of the setup stands, and the next word is asked for (R50). -/
def Obligations.SetupWordsAreLoadedClamped : Prop :=
  ∀ (s : State) (k : Nat) (rest : List SvcAccess),
    s.part.serviceNext (.copyWord k) rest → 1 ≤ k → k < 329 →
    let w := s.store.read ((s.part.slot.arg 1).toNat + k)
    let v := w.toNat
    let su := s.part.setup
    let map := su.outputMap
    Completes .arbiterServe s fun q =>
      q = { s.part with
        arb := .serviceUnit, svcLine := rest ++ [.copyWord (k + 1)]
        setup := q.setup, attention := q.attention }
      ∧ (k ≤ 256 → q.setup = { su with outputMap := q.setup.outputMap })
      ∧ (257 ≤ k → q.attention = s.part.attention)
      ∧ (∀ e ∈ setupClamps, k = e.1 → q.setup = e.2.2.2 su (max e.2.1 (min v e.2.2.1)))
      ∧ (257 ≤ k → k ≤ 288 → q.setup = { su with onLead := q.setup.onLead }
        ∧ ∀ i : Fin 32, entry q.setup.onLead i =
            if k = 257 + i.val then min v 1023 else entry su.onLead i)
      ∧ (289 ≤ k → k ≤ 292 → q.setup = { su with releaseLead := q.setup.releaseLead }
        ∧ ∀ i : Division, entry q.setup.releaseLead i =
            if k = 289 + i.val then min v 1023 else entry su.releaseLead i)
      ∧ (294 ≤ k → k ≤ 297 → q.setup = { su with micDelay := q.setup.micDelay }
        ∧ ∀ i : Division, entry q.setup.micDelay i =
            if k = 294 + i.val then min v 255 else entry su.micDelay i)
      ∧ (298 ≤ k → k ≤ 305 → q.setup = { su with channels := q.setup.channels }
        ∧ ∀ c : ChannelId, entry q.setup.channels c =
            if k = 298 + 2 * c.val then
              { entry su.channels c with enabled := w.getLsbD 15, weight := v % 32 }
            else if k = 299 + 2 * c.val then { entry su.channels c with delay := v }
            else entry su.channels c)
      ∧ (k = 307 → q.setup = { su with emin := v })
      ∧ (k = 308 → q.setup = { su with emin := su.emin % 65536 + 65536 * v })
      ∧ (k = 324 → q.setup = { su with policy := w &&& 0x00FF })
      ∧ (∀ n : OutputId, k = n.val + 1 →
        (∀ x, x ≠ n → entry q.setup.outputMap x = entry map x)
        ∧ (32 * su.boards ≤ n.val →
          entry q.setup.outputMap n = .unused ∧ q.attention = s.part.attention)
        ∧ (n.val < 32 * su.boards → ∀ d key, rawMapEntry w = .key d key →
          (maxKey d < key ∨ 4 ≤ (keyOutputs map d key).length →
            entry q.setup.outputMap n = .unused ∧ q.attention = s.part.attention ||| 0x800)
          ∧ (key ≤ maxKey d → (keyOutputs map d key).length < 4 →
            entry q.setup.outputMap n = .key d key ∧ q.attention = s.part.attention))
        ∧ (n.val < 32 * su.boards → (∀ d key, rawMapEntry w ≠ .key d key) →
          entry q.setup.outputMap n = rawMapEntry w ∧ q.attention = s.part.attention))

/-- When the read of word 329 has been served the setup is in force: setup-loaded, the ATTN enables, the
supply thresholds and the slot limit; SETUP ends with OK and NONE (R50, R153, R168). -/
def Obligations.SetupCopyCompletes : Prop :=
  ∀ (s : State) (rest : List SvcAccess), s.part.serviceNext (.copyWord 329) rest →
    let su := s.part.setup
    let enables := s.store.read ((s.part.slot.arg 1).toNat + 329) &&& 0x0FFF
    ∀ c ∈ [Instr.setupCopyComplete, .arbiterServe], Completes c s fun q =>
      q = { s.part with
        arb := .serviceUnit
        setupLoaded := true
        setup := { su with attnEnables := enables }
        attnEnables := enables
        supply := { s.part.supply with
          vhold := su.vhold, vmin := su.vmin, vcut := su.vcut, vmax := su.vmax }
        slot := { s.part.slot with phase := .closing }
        svcLine := rest ++ [.writeDetail 0, .writeCode 1]
        keys := q.keys, guard := q.guard, listen := q.listen }
      ∧ q.keys.slotTarget = su.pmax
      ∧ (s.part.keys.queue = [] → q.guard = s.part.guard ∧ q.listen = s.part.listen
        ∧ q.keys = { s.part.keys with
            slotTarget := su.pmax
            slotLimit := max su.pmax (slotsInUse s.part.keys.entries) })

/-- START that passes its checks zeroes the clock and the slice cadence, reinitialises the Follower and
the Listening Unit, and looks at its head: READY begins the head take, any other stamp ends START with
BAD_STATE and HEAD_NOT_READY; with the store busy the look waits its turn (R20, R92, R117, R124; log 8). -/
def Obligations.StartPreparesAndLooksAtTheHead : Prop :=
  ∀ s : State, s.part.atOwner 2 → s.part.setupLoaded = true → s.part.player.state = .idle →
    s.part.power.on = true →
    let p := s.part
    let ptr := (p.slot.arg 1).toNat
    0x240 ≤ ptr → ptr ≤ 0x7FFF →
    Completes .start s fun q =>
      q = { p with
        clock := 0, satTaken := false
        follower := { p.follower with
          missCount := 0, pLast := none, lastOutcome := .none, lastError := 0
          atLimit := false, freeze := none, watched := none }
        listen := { p.listen with floors := q.listen.floors, queue := [], masks := [] }
        sched := { p.sched with curIndex := 0, nextSlice := p.time + 250 }
        player := { p.player with
          starting := q.player.starting, fermata := Fermata.init, starveTimer := none }
        reader := { p.reader with
          stopAtEnd := false, planIndex := 0, delta := 0
          take := q.reader.take, line := q.reader.line }
        arb := q.arb, slot := q.slot, svcLine := q.svcLine }
      ∧ (∀ c, entry q.listen.floors c = { entry p.listen.floors c with
          resetPending := true, refractoryEnd := 0 })
      ∧ (p.storeFree = false →
        q.player.starting = true ∧ q.arb = p.arb ∧ q.slot = p.slot ∧ q.svcLine = p.svcLine
          ∧ q.reader.take = p.reader.take ∧ q.reader.line = p.reader.line ++ [.headStamp ptr])
      ∧ (p.storeFree = true → q.arb = .planReader)
      ∧ (p.storeFree = true → s.store.read ptr = 1 →
        q.player.starting = true ∧ q.slot = p.slot ∧ q.svcLine = p.svcLine
          ∧ q.reader.take = some { ptr := ptr, head := true, got := [] }
          ∧ (ptr < 0x7FFF → q.reader.line = .copy :: p.reader.line))
      ∧ (p.storeFree = true → s.store.read ptr ≠ 1 →
        q.player.starting = false ∧ EndsWith 2 1 p q
          ∧ q.reader.take = p.reader.take ∧ q.reader.line = p.reader.line)

/-- STOP in RUNNING or HELD sets stop-at-end, ends looking and cuts a take; a following passage not yet
entered is released with ABANDONED (not where the current passage has its pointer) and the entries of
its plan index are discarded. In STARVED the plan drains with STOPPED (R35, R114, R119, R140, R182). -/
def Obligations.StopSetsStopAtEnd : Prop :=
  ∀ s : State, s.part.atOwner 3 →
    let p := s.part
    let kept := p.reader.line.filter fun a => !a.looks;
    (p.player.state = .running ∨ p.player.state = .held → p.reader.next.isFollowing = false →
      exec .stop s = .next { s with part := ({ p with
        reader := { p.reader with
          stopAtEnd := true, phase := .off, lookTimer := none, take := none
          line := kept } }.ended 1 0) })
    ∧ (∀ b, p.player.state = .running ∨ p.player.state = .held → p.reader.next = .following b →
      Completes .stop s fun q =>
        q = { p with
          reader := { p.reader with
            stopAtEnd := true, phase := .off, lookTimer := none, take := none
            next := .empty, delta := 0
            line := if p.reader.currentPtr = some b.passage.ptr then kept
              else kept ++ [.abandon b.passage.ptr] }
          sched := { p.sched with
            window := p.sched.window.filter fun x => x.planIndex != b.planIndex
            cues := p.sched.cues.filter fun x => x.planIndex != b.planIndex
            steps := p.sched.steps.filter fun x => x.planIndex != b.planIndex }
          follower := { p.follower with watched := q.follower.watched }
          slot := { p.slot with phase := .closing }
          svcLine := p.svcLine ++ [.writeDetail 0, .writeCode 1]
          attention := q.attention, keys := q.keys, guard := q.guard, listen := q.listen
          fresh := q.fresh }
        ∧ WatchesHead q)
    ∧ (p.player.state = .starved → Completes .stop s fun q =>
        (q.player.state = .draining ∨ q.player.state = .idle)
          ∧ q.player.endReason = .stopped ∧ q.player.starveTimer = none
          ∧ q.reader.take = none ∧ q.reader.lookTimer = none
          ∧ EndsWith 1 0 p q ∧ q.power = p.power ∧ q.chain = p.chain)

/-- HOLD in RUNNING freezes the position where it stands, defers a fermata that is holding and empties
the Onset Queue; in HELD it changes nothing. It ends with OK (R65, R77, R110, R111). -/
def Obligations.HoldFreezesThePosition : Prop :=
  ∀ s : State, s.part.atOwner 4 →
    let p := s.part;
    (p.player.state = .running → Completes .hold s fun q =>
      q = { p with
        player := { p.player with
          state := .held
          fermata := { p.player.fermata with
            phase := if p.player.fermata.phase = .holding then .deferred
              else p.player.fermata.phase } }
        follower := { p.follower with freeze := some p.position }
        listen := { p.listen with queue := [], hold := HoldListening.inactive }
        report := q.report
        slot := { p.slot with phase := .closing }
        svcLine := p.svcLine ++ [.writeDetail 0, .writeCode 1] }
      ∧ q.position = p.position)
    ∧ (p.player.state = .held → exec .hold s = .next { s with part := p.ended 1 0 })

/-- RESUME in HELD re-anchors the frozen position at the clock plus the resume gap at the period in
force, releases the freeze and returns to RUNNING; a DEFERRED fermata is finished with the key-offs at
its holding point (R77, R78, R80, R111). The closes already past then resolve at once, in the event
(R80, R81; what CUE_CLOSE does there). -/
def Obligations.ResumeReanchorsTheFrozenPosition : Prop :=
  ∀ s : State, s.part.atOwner 5 → s.part.player.state = .held →
    let p := s.part
    let f := p.follower
    let x := p.position
    let tau : Int := p.clock + (p.setup.resumeGap * f.period / 96 : Nat)
    Completes .resume s fun q => ∃ mid closed : Part,
      ClosesTaken mid closed ∧ q = closed.ended 1 0
      ∧ mid.player.state = .running
      ∧ mid.follower = { f with
          aPos := max f.aPos x
          aTime := if f.aPos ≤ x then tau else tau + spanTime f.period (f.aPos - x)
          freeze := none, watched := mid.follower.watched }
      ∧ WatchesHead mid
      ∧ (p.player.fermata.phase ≠ .deferred →
        mid = { p with
          player := { p.player with state := .running }
          follower := mid.follower, report := mid.report })
      ∧ (p.player.fermata.phase = .deferred →
        mid.player.fermata = Fermata.init
        ∧ mid.sched = { p.sched with window := p.sched.window.filter fun x =>
            !(x.state == .sounding && x.release == p.player.fermata.holdingPoint) })

/-- NUDGE in RUNNING or HELD changes T by its percentage, clamped into the band with the at-limit flag
telling whether the clamp moved it, and re-anchors the present position at the present clock (R78,
R95). The watched close is recomputed, and the closes then past resolve in the same action (R80; in HELD
none is taken, R81). -/
def Obligations.NudgeChangesThePeriod : Prop :=
  ∀ s : State, s.part.atOwner 6 → s.part.player.state = .running ∨ s.part.player.state = .held →
    let p := s.part
    let f := p.follower
    let percent := clampInt (-10) 10 (p.slot.arg 1).toInt
    let raw : Int := f.period + ((f.period : Int) * percent).tdiv 100
    let period := clampInt f.tlo f.thi raw
    let x := p.position
    Completes .nudge s fun q => ∃ mid closed : Part,
      ClosesTaken mid closed ∧ q = closed.ended 1 0
      ∧ mid = { p with
        follower := { f with
          period := period.toNat
          atLimit := period != raw
          aPos := max f.aPos x
          aTime := if f.aPos ≤ x then (p.clock : Int)
            else p.clock + spanTime period.toNat (f.aPos - x)
          watched := mid.follower.watched } }
      ∧ WatchesHead mid
      ∧ (p.player.state = .held → closed = mid)

/-- POWER ON that passes its checks sets the state ON and returns every stuck count to 0, changing
nothing where power is ON already; POWER OFF switches off with cause COMMAND, or changes nothing where
power is OFF already, the cause kept. Both end with OK (R174, R178; log 38). -/
def Obligations.PowerCommandSwitches : Prop :=
  ∀ s : State, s.part.atOwner 7 →
    let p := s.part;
    (p.slot.arg 1 = 1 → p.setupLoaded = true → p.chain.fault = false →
        p.supply.vcut ≤ p.supply.vs → p.supply.vs ≤ p.supply.vmax →
      (p.power.on = true → exec .power s = .next { s with part := p.ended 1 0 })
      ∧ (p.power.on = false → Completes .power s fun q =>
        q = { p with
          power := { p.power with on := true }
          guard := { p.guard with detectors := q.guard.detectors } }.ended 1 0
        ∧ ∀ n, entry q.guard.detectors n = { entry p.guard.detectors n with stuckCount := 0 }))
    ∧ (p.slot.arg 1 = 0 →
      (p.power.on = false → exec .power s = .next { s with part := p.ended 1 0 })
      ∧ (p.power.on = true → p.guard.test = none →
        ∃ mid : Part, SwitchedOff .command p mid
          ∧ exec .power s = .next { s with part := mid.ended 1 0 }))

/-- TEST accepted lowers the slot limit toward 1 and takes up the first mapped output of its range, or
ends with OK where the range has none (R153, R179). -/
def Obligations.TestTakesUpTheFirstMappedOutput : Prop :=
  ∀ s : State, s.part.atOwner 8 → s.part.setupLoaded = true → s.part.player.state = .idle →
    s.part.power.on = true →
    let p := s.part
    let first := min (p.slot.arg 1).toNat 255
    let last := min (p.slot.arg 2).toNat 255
    first ≤ last →
    ((∀ n : OutputId, first ≤ n.val → n.val ≤ last → entry p.setup.outputMap n = .unused) →
      exec .test s = .next { s with part := p.ended 1 0 })
    ∧ (∀ n l : OutputId, first ≤ n.val → n.val ≤ last → l.val = last →
        entry p.setup.outputMap n ≠ .unused →
        (∀ x : OutputId, first ≤ x.val → x < n → entry p.setup.outputMap x = .unused) →
      Completes .test s fun q =>
        q = { p with
          slot := { p.slot with phase := .testing }
          guard := { q.guard with
            test := some { last := l, output := n, marked := false, stage := .waiting } }
          keys := q.keys, listen := q.listen }
        ∧ q.keys.slotTarget = 1
        ∧ (p.keys.queue = [] → q.listen = p.listen ∧ q.guard.detectors = p.guard.detectors
          ∧ q.keys = { p.keys with
              slotTarget := 1, slotLimit := max 1 (slotsInUse p.keys.entries) }))

/-- CLEAR puts every DISABLED output OFF, asks for the disabled flags to be rewritten (in rising output
number, before the two outcome writes: log 44), returns LOCKED to IDLE and ends with OK (R125). -/
def Obligations.ClearReenablesAndUnlocks : Prop :=
  ∀ s : State, s.part.atOwner 9 → QueueExact s.part.keys →
    let p := s.part
    Completes .clear s fun q =>
      q = { p with
        keys := { p.keys with entries := q.keys.entries }
        guard := { p.guard with detectors := q.guard.detectors }
        player := { p.player with state := q.player.state }
        listen := q.listen, report := q.report
        slot := { p.slot with phase := .closing }
        svcLine := p.svcLine ++ (disabledOutputs p).map .clearRead
          ++ [.writeDetail 0, .writeCode 1] }
      ∧ (∀ n, entry q.keys.entries n =
          if (entry p.keys.entries n).state = .disabled then KeyEntry.idle
          else entry p.keys.entries n)
      ∧ (p.player.state = .locked →
        q.player.state = .idle ∧ q.listen = { p.listen with queue := [] })
      ∧ (p.player.state ≠ .locked →
        q.player.state = p.player.state ∧ q.listen = p.listen ∧ q.report = p.report)

/-! ## The Plan Reader -/

/-- A look reads the current passage's next field (R19, R21): 0 waits, FFFFh is the end of the plan (in
STARVED it drains with COMPLETE), a pointer outside the console space locks with BAD_PASSAGE, a pointer
whose stamp is READY begins a take. The look timer restarts; with the store busy the look waits its
turn (R39; that one at a free store is made inside the expiry, log 8); with a look or take under way, or in
STARVED with a finishing passage held, none is made (R181). -/
def Obligations.LookActsOnTheNextField : Prop :=
  ∀ (s : State) (b : Buffer) (e : Nat), s.part.reader.current = some b →
    s.part.reader.phase = .seeking → s.part.reader.lookTimer = some e → e ≤ s.part.time →
    let p := s.part
    let later : Part := { p with reader := { p.reader with lookTimer := some (p.time + 20000) } }
    let looked : Part := { later with arb := .planReader }
    let w := s.store.read (b.passage.ptr + 1)
    let may := p.reader.looking = false
      ∧ ¬(p.player.state = .starved ∧ p.reader.next.isFinishing = true);
    (¬may → exec .lookTimerExpiry s = .next { s with part := later })
    ∧ (may → p.storeFree = false → exec .lookTimerExpiry s = .next { s with part :=
        { later with reader := { later.reader with line := p.reader.line ++ [.lookNext] } } })
    ∧ (may → p.storeFree = true →
      (w = 0 → exec .lookTimerExpiry s = .next { s with part := looked })
      ∧ (w = 0xFFFF → p.player.state ≠ .starved →
        exec .lookTimerExpiry s = .next { s with part :=
          { looked with reader := { looked.reader with
            phase := .endFound, lookTimer := none } } })
      ∧ (w = 0xFFFF → p.player.state = .starved → Completes .lookTimerExpiry s fun q =>
        (q.player.state = .draining ∨ q.player.state = .idle) ∧ q.player.endReason = .complete)
      ∧ (w ≠ 0 → w ≠ 0xFFFF → w.toNat < 0x240 ∨ 0x7FFF < w.toNat → p.seekState = true →
        Completes .lookTimerExpiry s fun q => Locked .badPassage b.passage.ptr p q)
      ∧ (0x240 ≤ w.toNat → w.toNat ≤ 0x7FFF →
        (s.store.read w.toNat ≠ 1 → exec .lookTimerExpiry s = .next { s with part := looked })
        ∧ (s.store.read w.toNat = 1 → ∃ a, (w.toNat < 0x7FFF → a = .copy) ∧
          exec .lookTimerExpiry s = .next { s with part :=
            { looked with reader := { looked.reader with
              take := some { ptr := w.toNat, head := false, got := [] }
              line := a :: p.reader.line } } })))

/-- A look whose turn comes reads the next field, then the stamp; a take copies the record word by word,
each its own access, and its last access is the stamp exchange (R19, R22, R39). Its places are words 1 to
19 of the record, the base registration entries, at most 16, and the 8 header words where the block
pointer is valid, in rising order, but none above 7FFFh. -/
def Obligations.TakeCopiesWordByWord : Prop :=
  (∀ t : Take,
    let n := min (t.word 19).toNat 16
    let block := (t.word 4).toNat
    (t.places.map Prod.fst).Pairwise (· < ·)
    ∧ (∀ k a, (k, a) ∈ t.places ↔ a < 0x8000
      ∧ (1 ≤ k ∧ k ≤ 19 ∧ a = t.ptr + k ∨ 20 ≤ k ∧ k < 20 + n ∧ a = t.ptr + k
        ∨ 0x240 ≤ block ∧ block ≤ 0x7FFF ∧ 100 ≤ k ∧ k < 108 ∧ a + 100 = block + k))
    ∧ t.nextPlace = t.places[t.got.length]?)
  ∧ ∀ (s : State) (rest : List ReaderAccess),
    let p := s.part
    let base (line : List ReaderAccess) : Part :=
      { p with arb := .planReader, reader := { p.reader with line := line } };
    (∀ b, s.part.readerNext .lookNext rest → p.reader.current = some b →
      let w := s.store.read (b.passage.ptr + 1);
      (w = 0 → exec .arbiterServe s = .next { s with part := base rest })
      ∧ (0x240 ≤ w.toNat → w.toNat ≤ 0x7FFF →
        exec .arbiterServe s = .next { s with part := base (.lookStamp w.toNat :: rest) }))
    ∧ (∀ x, s.part.readerNext (.lookStamp x) rest → s.store.read x ≠ 1 →
      exec .arbiterServe s = .next { s with part := base rest })
    ∧ (∀ x, s.part.readerNext (.headStamp x) rest → s.store.read x ≠ 1 →
      exec .arbiterServe s = .next { s with part :=
        { base rest with player := { p.player with starting := false } }.ended 2 1 })
    ∧ (∀ x head, s.part.readerNext (if head then .headStamp x else .lookStamp x) rest →
      s.store.read x = 1 → x < 0x7FFF →
      exec .arbiterServe s = .next { s with part :=
        { base (.copy :: rest) with reader := { p.reader with
          line := .copy :: rest, take := some { ptr := x, head := head, got := [] } } } })
    ∧ (∀ t k a, s.part.readerNext .copy rest → p.reader.take = some t →
      t.nextPlace = some (k, a) →
      let u : Take := { t with got := t.got ++ [(k, s.store.read a)] }
      exec .arbiterServe s = .next { s with part :=
        { p with arb := .planReader, reader := { p.reader with
          take := some u
          line := (if u.nextPlace.isSome then .copy else .exchange) :: rest } } })

/-- The stamp exchange (R23): READY is replaced by TAKEN or REFUSED in one access with its read; any other
stamp stands, and the take ends with nothing taken. REFUSED follows a structural fault (R24), locks with
BAD_PASSAGE and latches PASSAGE. What a passage taken holds is clamped by R25. The head is entered at
once (R97, R118), or with power OFF the Player locks (after RUNNING and the entry, log 54); a following
passage is held at its frame offset (R27) and a pass asked for (R28); a late take in STARVED enters it at
the clock (R113). Each entry drops the beat mark of a beat trigger that still waits (log 50), tests need (R21; before its
entry hold, log 51), makes the entry hold (R100), takes the closes past and asks for a pass (log 24). -/
def Obligations.StampExchangeReplacesReadyAlone : Prop :=
  (∀ t : Take,
    let w (k : Nat) : Nat := (t.word k).toNat
    let n := min (w 19) 16
    let low (k : Nat) : Nat := w k + 65536 * w (k + 1)
    let fits (count size ptr : Nat) : Prop :=
      0 < count → 0x240 ≤ ptr ∧ ptr ≤ 0x7FFF ∧ ptr + size * count ≤ 0x8000
    let base := (List.range n).map fun i => t.word (20 + i)
    (t.structural = true ↔ t.ptr + 20 + n ≤ 0x8000 ∧ 0x240 ≤ w 4 ∧ w 4 + 7 ≤ 0x7FFF
      ∧ 1 ≤ low 100 ∧ low 100 ≤ 16777215 ∧ w 102 ≤ 2048 ∧ w 103 ≤ 512 ∧ w 104 ≤ 64
      ∧ fits (w 102) 3 (w 105) ∧ fits (w 103) 2 (w 106) ∧ fits (w 104) 2 (w 107)
      ∧ low 5 < low 7 ∧ low 7 ≤ low 100 ∧ w 3 % 256 ≤ 3 ∧ w 3 / 256 ≤ 1)
    ∧ (t.skipsBase = true ↔ ∃ x ∈ base, 64 ≤ x.toNat % 256 ∨ 2 ≤ x.toNat / 256)
    ∧ t.passage =
      { ptr := t.ptr, next := t.word 1, sequence := t.word 2, kind := w 3 % 256
        follow := w 3 / 256 == 1, block := w 4, startPos := low 5, endPos := low 7
        tn := max 250000 (min (low 9) 2500000), band := min (w 11) 50
        window := max 1 (min (w 12) 128), phaseGain := min (w 13) 256
        periodGain := min (w 14) 256, missLimit := max 1 (min (w 15) 15)
        entryGap := min (w 16) 768, leadAdjust := max (-200) (min (t.word 17).toInt 200)
        holdAtEntry := (t.word 18).getLsbD 0, baseCount := n
        baseReg := base.filterMap fun x =>
          if x.toNat % 256 < 64 ∧ x.toNat / 256 < 2 then
            some { stop := Fin.ofNat 64 (x.toNat % 256), draw := x.toNat / 256 == 1 }
          else none
        blockLength := low 100, noteCount := w 102, cueCount := w 103, stepCount := w 104
        notePtr := w 105, cuePtr := w 106, stepPtr := w 107 })
  ∧ ∀ (s : State) (rest : List ReaderAccess) (t : Take), s.part.readerNext .exchange rest →
    s.part.reader.take = some t → ∀ c ∈ [Instr.stampExchange, .arbiterServe],
    let p := s.part
    let base : Part := { p with
      arb := .planReader
      reader := { p.reader with line := rest, take := none }
      attention := if t.structural && t.skipsBase then p.attention ||| 0x800 else p.attention }
    let q := t.passage
    let stamp := s.store.read t.ptr
    let fresh (i : Nat) : Buffer :=
      { passage := q, planIndex := i
        notes := ⟨0, q.notePtr, none, q.noteCount == 0⟩
        cues := ⟨0, q.cuePtr, none, q.cueCount == 0⟩
        steps := ⟨0, q.stepPtr, none, q.stepCount == 0⟩
        baseDone := q.baseReg.isEmpty };
    (stamp ≠ 1 →
      (t.head = false → exec c s = .next { s with part := base })
      ∧ (t.head = true → exec c s = .next { s with part :=
          { base with player := { p.player with starting := false } }.ended 2 1 }))
    ∧ (stamp = 1 → t.structural = false → StoreOk s → t.ptr < 0x8000 →
      CompletesStoring c s fun m r => WordWritten s.store m t.ptr 5 ∧ r.latched .passage = true
        ∧ (t.head = true → Locked .badPassage t.ptr base r ∧ EndsWith 1 0 p r
          ∧ r.player.starting = false)
        ∧ (t.head = false → p.playing = true → Locked .badPassage t.ptr base r)
        ∧ (t.head = false → p.playing = false →
          r = { base with attention := base.attention ||| 4 }))
    ∧ (stamp = 1 → t.structural = true → StoreOk s → t.ptr < 0x8000 →
      CompletesStoring c s fun m r => WordWritten s.store m t.ptr 2
        ∧ (t.head = true → p.power.on = false → r.player.starting = false ∧ EndsWith 1 0 p r
          ∧ r.player.state = .locked ∧ r.player.lockReason = .power ∧ r.player.lockAddr = 0
          ∧ r.reader.current = none ∧ .abandon t.ptr ∈ r.reader.line)
        ∧ (t.head = true → p.power.on = true → ∃ mid end_, r = end_.ended 1 0
          ∧ EntryGoesOn q mid end_
          ∧ mid = { base with
              reader := { base.reader with
                current := some (fresh 0), planIndex := 0, delta := 0
                phase := .waitingForNeed, streamTimer := some (p.time + 1000)
                pass := p.reader.pass.map fun x => x.enter 0 }
              player := { p.player with
                starting := false, endReason := .none, state := .running }
              follower := { p.follower with
                period := q.tn, tlo := q.tlo, thi := q.thi, aPos := q.startPos
                aTime := p.setup.startLead * 1000 + (q.entryGap * q.tn / 96 : Nat)
                state := if q.follow then .track else .lead
                missCount := 0, pLast := none, atLimit := false
                watched := mid.follower.watched }
              sched := { p.sched with curIndex := 0 }
              listen := { p.listen with queue := if q.follow then p.listen.queue else [] }
              report := mid.report }
          ∧ mid.report.boundary = some ((q.startPos + 95) / 96 * 96)
          ∧ mid.report.beatPending = false)
        ∧ (∀ b, t.head = false → p.reader.current = some b → p.player.state ≠ .starved →
          PassAsked { base with reader := { base.reader with
            next := .following (fresh ((b.planIndex + 1) % 65536))
            planIndex := (b.planIndex + 1) % 65536
            delta := b.passage.endPos + q.entryGap - q.startPos
            phase := .waitingForNeed, lookTimer := none } } r)
        ∧ (∀ b, t.head = false → p.reader.current = some b → p.player.state = .starved →
          ∃ mid, EntryGoesOn q mid r
            ∧ mid.reader.current = some (fresh ((b.planIndex + 1) % 65536))
            ∧ (mid.reader.next = .empty ∧ t.ptr = b.passage.ptr
              ∨ ∃ ready, mid.reader.next = .finishing b.passage.ptr b.planIndex ready)
            ∧ mid.reader.phase = .waitingForNeed ∧ mid.reader.delta = 0
            ∧ mid.player = { p.player with state := .running, starveTimer := none }
            ∧ mid.follower.period
              = (if q.follow then clampNat q.tlo q.thi p.follower.period else q.tn)
            ∧ mid.follower.aPos = q.startPos
            ∧ mid.follower.aTime = p.clock + (q.entryGap * p.follower.period / 96 : Nat)
            ∧ mid.follower.freeze = none
            ∧ mid.report.boundary = some ((q.startPos + 95) / 96 * 96)
            ∧ mid.report.beatPending = false
            ∧ mid.sched.curIndex = (b.planIndex + 1) % 65536))

/-- SPENT and ABANDONED are single word writes to the stamp, made without reading it; each latches PASSAGE
and no other word changes (R33, R36). -/
def Obligations.PassagesAreReturnedToTheConsole : Prop :=
  ∀ (s : State) (x : Nat) (rest : List ReaderAccess), StoreOk s → x < 0x8000 →
    let p := s.part
    let after : Part := { p with
      arb := .planReader, reader := { p.reader with line := rest }
      attention := p.attention ||| 4 };
    (s.part.readerNext (.abandon x) rest → CompletesStoring .arbiterServe s fun m q =>
      WordWritten s.store m x 4 ∧ q = after)
    ∧ (s.part.readerNext (.spent x false) rest → CompletesStoring .arbiterServe s fun m q =>
      WordWritten s.store m x 3 ∧ q = after)
    ∧ (s.part.readerNext (.spent x true) rest → CompletesStoring .arbiterServe s fun m q =>
      WordWritten s.store m x 3 ∧ q.latched .passage = true ∧ q.reader.next = .empty
        ∧ (p.reader.phase ≠ .waitingForNeed → p.player.state ≠ .starved →
          q = { after with reader := { after.reader with next := .empty } }))

/-- The stream timer (R28) restarts, and a pass is asked for (R21, R31): it begins, or waits for the one in
progress. A pass reads entry words one access at a time (log 7). With its position words in hand an entry
out of order (R34), a HOLD cue with no entry left for its extension (log 22) and a step past 7FFFh
(log 21) lock with BAD_BLOCK and the entry's address; one before the span is passed over, one past it
finishes its list, one beyond the bound leaves its list for this pass; any other is handed when its words
are read: a note as R29 and R131 say, or skipped with MAPPING; a cue (R30), and the closes past are taken
(R80); a step (R31) with its kept stop entries, the first 16 at most, MAPPING latched for the rest, one
passed over latching none (log 40), and none read before the base step is handed (log 52). Then the pass goes on. The bound is the one it began with (log 32);
looks and stamps go before its words (log 39). -/
def Obligations.StreamPassHandsWithinTheBound : Prop :=
  (∀ (s : State) (b : Buffer) (e : Nat), s.part.reader.current = some b →
    s.part.reader.streamTimer = some e → e ≤ s.part.time → s.part.playing = true →
    Completes .streamPass s fun q => PassAsked { s.part with reader := { s.part.reader with
      streamTimer := some (s.part.time + 1000) } } q)
  ∧ ∀ (s : State) (x : Pass) (st : Stage) (rest : List Stage) (b : Buffer),
    nextRequester s.part = some .planReader → s.part.reader.line = [] →
    s.part.reader.pass = some x → x.left = st :: rest → s.part.streams st b →
    s.part.playing = true →
    let p := s.part
    let cur : Cursor := match st.list with
      | .notes => b.notes
      | .cues => b.cues
      | .steps => b.steps
    let got := x.got ++ [s.store.read (cur.addr + x.got.length)]
    let served : Part := { p with arb := .planReader }
    let waits : Part := { served with reader := { p.reader with pass := some { x with got := got } } }
    let at_ (i : Nat) : Word := got.getD i 0
    let pos := (at_ 0).toNat + 65536 * ((at_ 1).toNat % 256)
    let hold : Prop := st.list = .cues ∧ (at_ 1).toNat / 256 % 2 = 1
    let stored := (at_ 1).toNat / 256
    let d : Int := if st.ahead then p.reader.delta else 0
    let S := b.passage.startPos
    let N := b.passage.endPos
    let count : Nat := match st.list with
      | .notes => b.passage.noteCount
      | .cues => b.passage.cueCount
      | .steps => b.passage.stepCount
    let bad : Prop := (∃ m, cur.prev = some m ∧ pos < m)
      ∨ hold ∧ count ≤ cur.index + 1
      ∨ st.list = .steps ∧ 0x7FFF < cur.addr + 1 + stored
    let beyond : Prop := N < pos ∨ N = pos ∧ st.list ≠ .steps
    let handed : Prop := ¬bad ∧ S ≤ pos ∧ ¬beyond ∧ (pos : Int) + d ≤ x.bound
    let moved (c : Cursor) : Part := putBuffer st.ahead
      (match st.list with
        | .notes => { b with notes := c }
        | .cues => { b with cues := c }
        | .steps => { b with steps := c }) served
    let past (words places : Nat) : Part := moved
      { index := cur.index + places, addr := cur.addr + words, prev := some pos
        finished := decide (count ≤ cur.index + places) };
    (got.length < 2 → exec .arbiterServe s = .next { s with part := waits })
    ∧ (2 ≤ got.length →
      (bad → Completes .arbiterServe s fun q => Locked .badBlock cur.addr p q)
      ∧ (¬bad → S ≤ pos → beyond → Completes .arbiterServe s fun q =>
        PassGoesOn x.bound rest (moved { cur with prev := some pos, finished := true }) q)
      ∧ (¬bad → S ≤ pos → ¬beyond → x.bound < (pos : Int) + d →
        Completes .arbiterServe s fun q => PassGoesOn x.bound rest served q)
      ∧ (¬bad → pos < S →
        (hold → got.length < 4 → exec .arbiterServe s = .next { s with part := waits })
        ∧ (¬hold ∨ 4 ≤ got.length → Completes .arbiterServe s fun q =>
          PassGoesOn x.bound (st :: rest)
            (past (match st.list with
              | .notes => 3
              | .cues => if (at_ 1).toNat / 256 % 2 = 1 then 4 else 2
              | .steps => 2 + stored)
              (if st.list = .cues ∧ (at_ 1).toNat / 256 % 2 = 1 then 2 else 1)) q))
      ∧ (handed → st.list = .notes →
        (got.length < 3 → exec .arbiterServe s = .next { s with part := waits })
        ∧ (3 ≤ got.length →
          let v : Division := Fin.ofNat 4 ((at_ 1).toNat / 256)
          let k := (at_ 1).toNat / 1024
          let outs := allOutputs.filter fun n => entry p.setup.outputMap n = .key v k
          let note : Note :=
            { position := pos + d
              release := (min (pos + max (at_ 2).toNat 1) N : Nat) + d
              division := v, key := k, outputs := outs
              planIndex := b.planIndex, holdAtEntry := b.passage.holdAtEntry
              keyingLead := (entry p.setup.onLead (Fin.ofNat 32 (8 * v.val + k / 8)) : Nat) * 250
                + b.passage.leadAdjust * 250
              releaseLead := (entry p.setup.releaseLead v : Nat) * 250
              claimed := [], state := .pending }
          let on := past 3 1
          Completes .arbiterServe s fun q => PassGoesOn x.bound (st :: rest)
            (if (if v = 3 then 31 else 60) < k ∨ outs = [] then
              { on with attention := on.attention ||| 0x800 }
            else { on with sched := { on.sched with window := p.sched.window ++ [note] } }) q))
      ∧ (handed → st.list = .cues →
        (hold → got.length < 4 → exec .arbiterServe s = .next { s with part := waits })
        ∧ (¬hold ∨ 4 ≤ got.length →
          let long := (at_ 1).toNat / 256 % 2 = 1
          let cue : Cue :=
            { position := pos + d
              kind := if long then .hold else .attack
              cls := if (at_ 1).toNat / 512 % 4 = 0 then .strong
                else if (at_ 1).toNat / 512 % 4 = 1 then .normal else .weak
              hf := if long then (at_ 2).toNat % 1024 else 0
              maxHold := if long then max ((at_ 2).toNat / 1024 % 16) 1 else 0
              breath := if long then (at_ 3).toNat % 256 else 0
              planIndex := b.planIndex }
          let on := past (if long then 4 else 2) (if long then 2 else 1)
          Completes .arbiterServe s fun q => ∃ mid closed,
            mid = { on with
              sched := { on.sched with cues := p.sched.cues ++ [cue] }
              follower := { p.follower with watched := mid.follower.watched } }
            ∧ WatchesHead mid ∧ ClosesTaken mid closed
            ∧ PassGoesOn x.bound (st :: rest) closed q))
      ∧ (handed → st.list = .steps →
        (got.length < 2 + min stored 16 → exec .arbiterServe s = .next { s with part := waits })
        ∧ (2 + min stored 16 ≤ got.length →
          let good (w : Word) : Bool := decide (w.toNat % 256 < 64) && decide (w.toNat / 256 < 2)
          let stops := got.drop 2
          let kept := (stops.filter good).map fun w =>
            ({ stop := Fin.ofNat 64 (w.toNat % 256), draw := w.toNat / 256 == 1 } : StopEntry)
          let on := past (2 + stored) 1
          let latched : Part := if 16 < stored ∨ ∃ w ∈ stops, good w = false then
              { on with attention := on.attention ||| 0x800 } else on
          Completes .arbiterServe s fun q => PassGoesOn x.bound (st :: rest)
            (if kept = [] then latched
            else { latched with sched := { latched.sched with steps := p.sched.steps ++
              [{ position := pos + d, entries := kept, planIndex := b.planIndex
                 holdAtEntry := b.passage.holdAtEntry }] } }) q)))

/-! ## The boundary of passages -/

/-- The end of the current passage with no following passage (R37, R102, R103, R104, R112). END drains with
COMPLETE, stop-at-end with STOPPED: DRAINING while a note of the passage is left, else the plan has
ended and SPENT is asked for. In any other case the Player starves with the position frozen at N, the
starve timer running and STARVED latched; a look phase that waits for need begins SEEKING with a look
(log 16). The passage's cues are removed and a PENDING fermata discarded, also one with a holding point
beyond N that the position has passed, where the end is taken first (the model's choice, log 57); all
else stands. -/
def Obligations.PassageEndWithNoneFollowing : Prop :=
  ∀ (s : State) (b : Buffer), s.part.reader.current = some b →
    s.part.player.state = .running → s.part.follower.freeze = none →
    (b.passage.endPos : Int) ≤ s.part.position →
    ¬(s.part.player.fermata.phase = .pending
      ∧ s.part.player.fermata.holdingPoint ≤ b.passage.endPos) →
    s.part.reader.next.isFollowing = false → s.part.satTaken = false →
    let p := s.part
    let why : EndReason := if p.reader.phase = .endFound then .complete else .stopped
    let unlooked := p.reader.line.filter fun a => !a.looks
    let left (idx : Nat) : Prop := ∃ x ∈ p.sched.window, x.planIndex = idx
    let fermata := if p.player.fermata.phase = .pending then Fermata.init else p.player.fermata
    let cues := p.sched.cues.filter fun c => c.planIndex != b.planIndex
    let keeps (q : Part) : Prop :=
      q.sched = { p.sched with cues := cues }
      ∧ q.listen = { p.listen with queue := [] }
      ∧ (q.reader.current.map fun x => (x.passage, x.planIndex)) = some (b.passage, b.planIndex)
      ∧ WatchesHead q
    let stands (q : Part) : Prop :=
      SameMagnets p q ∧ SameConsole p q ∧ SameService p q ∧ SameTime p q;
    (p.reader.phase = .endFound ∨ p.reader.stopAtEnd = true →
      (left b.planIndex → Completes .passageEnd s fun q => keeps q ∧ stands q
        ∧ q.player = { p.player with
            state := .draining, endReason := why, starveTimer := none, fermata := fermata }
        ∧ q.follower = { p.follower with watched := q.follower.watched }
        ∧ q.attention = p.attention
        ∧ q.reader = { p.reader with
            current := q.reader.current, next := q.reader.next, line := q.reader.line
            phase := if p.reader.phase = .endFound then .endFound else .off
            lookTimer := none, take := none }
        ∧ (p.reader.next = .empty → q.reader.next = .empty ∧ q.reader.line = unlooked))
      ∧ (¬left b.planIndex → p.reader.next = .empty → p.softReset = false →
        Completes .passageEnd s fun q =>
        PlanEnded why (unlooked.map ReaderAccess.unheld ++ [.spent b.passage.ptr false]) p q
          ∧ q.reader.take = none ∧ stands q ∧ q.attention = p.attention ||| 0x400))
    ∧ (p.reader.phase ≠ .endFound → p.reader.stopAtEnd = false →
      Completes .passageEnd s fun q => keeps q ∧ stands q
        ∧ q.player = { p.player with
            state := .starved
            starveTimer := some (p.time + 1000000 * p.setup.starveLimit)
            fermata := fermata }
        ∧ q.follower = { p.follower with
            freeze := some (b.passage.endPos : Int), watched := q.follower.watched }
        ∧ q.attention = p.attention ||| 8
        ∧ (p.reader.phase ≠ .waitingForNeed → q.reader.phase = p.reader.phase
          ∧ q.reader.lookTimer = p.reader.lookTimer)
        ∧ (p.reader.phase = .waitingForNeed → q.reader.phase = .seeking
          ∧ q.reader.lookTimer = some (p.time + 20000))
        ∧ (p.reader.next = .empty → q.reader.next = .empty
          ∧ q.reader.line = if p.reader.phase = .waitingForNeed ∧ p.reader.looking = false
              then p.reader.line ++ [.lookNext] else p.reader.line))

/-- The end of the current passage with a following one (R26, R75, R78, R93, R98, R100, R102, R139): its cues
and a PENDING fermata go, the following one is entered with the anchor (S, t(N) + gap) and its own band,
the three lists and a pass in progress (log 39) restated by the frame offset, and the Player is RUNNING,
or HELD at the start position where HOLD_AT_ENTRY is set. The passage left is held as finishing, or has
completed, SPENT asked for but where the one entered has its pointer (R103, R182). A beat trigger that
still waits at the entry loses its beat mark (the model's choice, log 50). A PENDING fermata goes also where
the position has passed its holding point beyond N, where the end is taken first (the model's choice,
log 57). After the entry need is tested, the entry hold made, the closes past taken and a pass asked for
(R21, R28, R80; in this order, logs 24, 51). -/
def Obligations.PassageEndEntersTheFollowing : Prop :=
  ∀ (s : State) (b f : Buffer), s.part.reader.current = some b →
    s.part.player.state = .running → s.part.follower.freeze = none →
    (b.passage.endPos : Int) ≤ s.part.position →
    ¬(s.part.player.fermata.phase = .pending
      ∧ s.part.player.fermata.holdingPoint ≤ b.passage.endPos) →
    s.part.reader.next = .following f →
    let p := s.part
    let n := f.passage
    let d := p.reader.delta
    let period := if n.follow then clampNat n.tlo n.thi p.follower.period else n.tn
    let left : Prop := ∃ x ∈ p.sched.window, x.planIndex = b.planIndex
    let same : Prop := n.ptr = b.passage.ptr
    Completes .passageEnd s fun q => ∃ mid, EntryGoesOn n mid q
      ∧ mid = { p with
        reader := { p.reader with
          current := some f, delta := 0, next := mid.reader.next, line := mid.reader.line
          pass := p.reader.pass.map fun x => x.enter d }
        player := { p.player with
          state := .running
          fermata := if p.player.fermata.phase = .pending then Fermata.init
            else p.player.fermata }
        follower := { p.follower with
          period := period, tlo := n.tlo, thi := n.thi
          aPos := n.startPos
          aTime := p.follower.predict b.passage.endPos
            + (n.entryGap * p.follower.period / 96 : Nat)
          state := if n.follow then .track else .lead
          missCount := 0, pLast := none
          atLimit := n.follow && period != p.follower.period
          freeze := none
          watched := mid.follower.watched }
        sched := { p.sched with
          window := p.sched.window.map fun x =>
            { x with position := x.position - d, release := x.release - d }
          cues := (p.sched.cues.filter fun c => c.planIndex != b.planIndex).map fun c =>
            { c with position := c.position - d }
          steps := p.sched.steps.map fun x => { x with position := x.position - d }
          curIndex := f.planIndex }
        listen := { p.listen with queue := if n.follow then p.listen.queue else [] }
        report := mid.report }
      ∧ mid.report.boundary = some ((n.startPos + 95) / 96 * 96)
      ∧ mid.report.beatPending = false
      ∧ (left → mid.reader.next = .finishing b.passage.ptr b.planIndex false
        ∧ mid.reader.line = p.reader.line)
      ∧ (¬left → ¬same → mid.reader.next = .finishing b.passage.ptr b.planIndex true
        ∧ mid.reader.line = p.reader.line ++ [.spent b.passage.ptr true])
      ∧ (¬left → same → mid.reader.next = .empty ∧ mid.reader.line = p.reader.line)

/-! ## The Now record -/

/-- A beat boundary reached in RUNNING begins a write at once, and the boundary moves to the least multiple
of 96 above itself and the position captured; with a write in progress it makes one pending. A write
is the open sequence, the 19 body words in rising order, and the close sequence equal to the open one;
each is its own access, and a pending trigger begins the next write after the last (R15, R56, R57; a beat
that waits, log 25; in a soft reset none begins, log 26). The body words are the values as they stand
when the write begins. A change of the Player's state, of its FERMATA sub-state or of the follow state
is a trigger: HOLD, the start of holding (also beyond the end position, the model's choice, log 57), a
MISS that leaves TRACK. -/
def Obligations.NowRecordIsWrittenWhole : Prop :=
  ∀ s : State,
    let p := s.part
    let r := p.report
    let opens (seq : Word) (l : List (Nat × Word)) : Prop :=
      l.map Prod.fst = 0x10 :: ((List.range 19).map fun i => 0x11 + i) ++ [0x2F]
        ∧ l.head? = some (0x10, seq) ∧ l.getLast? = some (0x2F, seq)
    let low (n : Nat) : Word := BitVec.ofNat 16 (min n 4294967295 % 65536)
    let high (n : Nat) : Word := BitVec.ofNat 16 (min n 4294967295 / 65536)
    let signed (x : Int) : Nat :=
      ((max (-2147483648) (min x 2147483647)) % 4294967296).toNat
    let body (b : Option Buffer) : List Word :=
      let pos : Nat := match b with
        | some _ => signed p.position
        | none => 0
      let err := signed p.follower.lastError
      [ BitVec.ofNat 16 (p.player.state.code + if p.fermataHeld then 8 else 0)
      , BitVec.ofNat 16 p.follower.state.code
      , BitVec.ofNat 16 (if p.power.on then 1 else 0)
      , match b with
        | some x => x.passage.sequence
        | none => 0
      , match b with
        | some x => BitVec.ofNat 16 (x.passage.kind + if x.passage.follow then 256 else 0)
        | none => 0
      , low pos, high pos, low p.follower.period, high p.follower.period
      , BitVec.ofNat 16 p.follower.missCount, BitVec.ofNat 16 p.follower.lastOutcome.code
      , low err, high err, BitVec.ofNat 16 (if p.follower.atLimit then 1 else 0)
      , BitVec.ofNat 16 p.player.lockReason.code, BitVec.ofNat 16 p.player.endReason.code
      , low p.clock, high p.clock, BitVec.ofNat 16 p.player.lockAddr ];
    (∀ (b : Nat) (buf : Buffer), r.boundary = some b → p.reader.current = some buf →
      p.player.state = .running → p.player.fermata.phase ≠ .holding → r.beatPending = false →
      b ≤ buf.passage.endPos → p.follower.predict b ≤ p.clock →
      (r.writing = [] → p.softReset = false → Completes .beatBoundary s fun q =>
        q = { p with report := q.report } ∧ q.report.seq = r.seq + 1
        ∧ opens (r.seq + 1) q.report.writing ∧ q.report.pending = false
        ∧ ((q.report.writing.drop 1).take 19).map Prod.snd = body (some buf)
        ∧ q.report.beatPending = false
        ∧ ∃ c : Nat, q.report.boundary = some c ∧ c % 96 = 0 ∧ b < c ∧ p.position < c
          ∧ (c ≤ b + 96 ∨ (c : Int) ≤ p.position + 96))
      ∧ (r.writing ≠ [] → exec .beatBoundary s = .next { s with part :=
          { p with report := { r with pending := true, beatPending := true } } }))
    ∧ (∀ (a : Nat) (w : Word) (rest : List (Nat × Word)),
      nextRequester p = some .reportWriter → r.writing = (a, w) :: rest → a < 0x8000 →
      StoreOk s →
      (rest ≠ [] → CompletesStoring .arbiterServe s fun m q =>
        WordWritten s.store m a w
          ∧ q = { p with arb := .reportWriter, report := { r with writing := rest } })
      ∧ (rest = [] → ∀ c ∈ [Instr.nowWriteComplete, .arbiterServe],
        CompletesStoring c s fun m q => WordWritten s.store m a w
          ∧ q = { p with arb := .reportWriter, report := q.report }
          ∧ (r.pending = false ∨ p.softReset = true → q.report = { r with writing := [] })
          ∧ (r.pending = true → p.softReset = false →
            q.report.seq = r.seq + 1 ∧ opens (r.seq + 1) q.report.writing
              ∧ ((q.report.writing.drop 1).take 19).map Prod.snd = body p.reader.current
              ∧ q.report.pending = false)))
    ∧ (p.atOwner 4 → p.player.state = .running → Completes .hold s fun q => Triggered p q)
    ∧ (p.player.state = .running → p.player.fermata.phase = .pending →
      p.player.fermata.holdingPoint ≤ p.position →
        Completes .fermataHoldingStart s fun q => Triggered p q)
    ∧ (∀ (b : Buffer) (c : Cue) (close : Int), p.reader.current = some b →
      b.passage.follow = true → p.sched.cues = [c] → p.player.state = .running →
      p.player.fermata.phase ≠ .holding → p.follower.watched = some close → close ≤ p.clock →
      p.listen.queue = [] → p.follower.state = .track →
        Completes .cueClose s fun q => q.follower.state ≠ .track ∧ Triggered p q)

/-! ## Listening -/

/-- A sample passes its channel's high-pass filter (R58): taken as a signed 24-bit value, cut to its upper
24 bits or aligned at the most significant end; the other channels stand. While the store is cleared no
filter runs. -/
def Obligations.SamplePassesItsFilter : Prop :=
  ∀ (s : State) (c : ChannelId) (width word : Nat), 1 ≤ width → word < 2 ^ width →
    let p := s.part
    let f := entry p.listen.filters c
    let signed := (BitVec.ofNat width word).toInt
    let x : Int := if width ≤ 24 then signed * 2 ^ (24 - width) else signed / 2 ^ (width - 24)
    let y := clampInt (-8388608) 8388607 (x - f.prevIn + f.prevOut - f.prevOut.tdiv 256);
    (p.clearing = false → Completes (.audioSample c width word) s fun q =>
      q = { p with listen := { p.listen with filters := q.listen.filters } }
      ∧ entry q.listen.filters c = { prevIn := x, prevOut := y, samples := f.samples ++ [y] }
      ∧ ∀ d, d ≠ c → entry q.listen.filters d = entry p.listen.filters d)
    ∧ (p.clearing = true → exec (.audioSample c width word) s = .next s)

/-- A frame end, all four channels together (R58): discarded when no plan plays; else the energy of each
enabled channel moves its floor, up by 1/64 or down by 1/8, or sets it where the mark is set (R59, R60),
a disabled channel keeps its own, onsets are queued in RUNNING in a FOLLOW passage alone (R62). With one
channel enabled: it reports an onset where its mark was clear, it is out of refractory, and the energy
is at the gate and at the ratio over the floor; the refractory then runs (R61). An accepted onset joins
the newest entry within the merge span that lacks its channel, or forms an entry of its own in time
order, masked where a mask window covers its time, the first of 17 going; a join that leaves the
entry's time as it was leaves its masked flag (log 35) (R62, R63, R64, R66). Hold
listening takes the reference over its first 20 frames and reports the cutoff when enough frames in a
row lie below it (R71). -/
def Obligations.FrameEndMovesTheFloors : Prop :=
  ∀ s : State, (∀ c, 240 ≤ (entry s.part.listen.filters c).samples.length) →
    let p := s.part
    let cut (q : Part) : Prop := ∀ c, entry q.listen.filters c =
      { entry p.listen.filters c with samples := (entry p.listen.filters c).samples.drop 240 }
    let energy (c : ChannelId) : Nat :=
      (((entry p.listen.filters c).samples.take 240).map
        fun y : Int => (y / 256).natAbs * (y / 256).natAbs).sum / 256
    (p.playing = false → Completes .frameEnd s fun q =>
      q = { p with listen := { p.listen with filters := q.listen.filters } } ∧ cut q)
    ∧ (p.playing = true → Completes .frameEnd s fun q =>
      q = { p with listen := q.listen } ∧ cut q ∧ q.listen.masks = p.listen.masks
      ∧ (∀ c, let fl := entry p.listen.floors c
        let e := energy c
        let fl' := entry q.listen.floors c;
        ((entry p.setup.channels c).enabled = false → fl' = fl)
        ∧ ((entry p.setup.channels c).enabled = true → fl.resetPending = true →
          fl' = { fl with level := max e 1, resetPending := false })
        ∧ ((entry p.setup.channels c).enabled = true → fl.resetPending = false →
          fl'.resetPending = false
          ∧ fl'.level = (if fl.level < e then fl.level + (e - fl.level) / 64
              else max (fl.level - (fl.level - e) / 8) 1)))
      ∧ (p.player.state ≠ .running ∨ p.followMode = false → q.listen.queue = p.listen.queue)
      ∧ (p.listen.hold.active = false → q.listen.hold = p.listen.hold)
      ∧ (p.listen.hold.active = true → p.listen.hold.cutoff = none →
        let h := p.listen.hold
        let combined := ((allChannels.filter fun c => (entry p.setup.channels c).enabled).map
          fun c => energy c * (entry p.setup.channels c).weight / 16).sum
        let reference := if h.frames < 20 then max h.reference combined else h.reference
        let below := if combined < reference * p.setup.cutoffRatio / 256 then h.below + 1 else 0
        q.listen.hold =
          { active := true, frames := min (h.frames + 1) 20, reference := reference
            below := below
            cutoff := if p.setup.cutoffPersistence ≤ below then some (p.clock : Int) else none })
      ∧ (∀ c, (entry p.setup.channels c).enabled = true →
        (∀ x, x ≠ c → (entry p.setup.channels x).enabled = false) →
        let fl := entry p.listen.floors c
        let e := energy c
        let onset : Prop := fl.resetPending = false ∧ fl.refractoryEnd ≤ p.clock
          ∧ p.setup.emin ≤ e ∧ fl.level * p.setup.ratio ≤ e * 16
        let strength := min (e * 16 / fl.level) 255
        let time : Int := p.clock - 2500 - (entry p.setup.channels c).delay
        let weighed (l : List (ChannelId × Nat)) : Nat :=
          min ((l.map fun x => x.2 * (entry p.setup.channels x.1).weight / 16).sum) 255
        let covered (x : Int) : Bool :=
          p.listen.masks.any fun w => decide (w.start ≤ x) && decide (x ≤ w.stop)
        let alone : Onset :=
          { time := time, members := [(c, strength)], strength := weighed [(c, strength)]
            masked := covered time }
        let joins (o : Onset) : Prop := (o.time - time).natAbs ≤ p.setup.mergeSpan * 1000
          ∧ ∀ x ∈ o.members, x.1 ≠ c
        let placed (o : Onset) (rest queue : List Onset) : Prop := ∃ before after,
          rest = before ++ after ∧ queue = before ++ o :: after
            ∧ (∀ x ∈ before, x.time ≤ o.time) ∧ ∀ x, after.head? = some x → o.time < x.time;
        (¬onset → q.listen.queue = p.listen.queue
          ∧ (entry q.listen.floors c).refractoryEnd = fl.refractoryEnd)
        ∧ (onset → (entry q.listen.floors c).refractoryEnd
          = p.clock + p.setup.refractory * 1000)
        ∧ (onset → p.player.state = .running → p.followMode = true →
          (∀ older newest, p.listen.queue = older ++ [newest] → joins newest →
            let members := newest.members ++ [(c, strength)]
            placed { time := min newest.time time, members := members
                     strength := weighed members
                     masked := if newest.time ≤ time then newest.masked else covered time }
              older q.listen.queue)
          ∧ ((∀ newest, p.listen.queue.getLast? = some newest → ¬joins newest) →
            ∃ queue, placed alone p.listen.queue queue
              ∧ q.listen.queue = if 16 < queue.length then queue.drop 1 else queue))))

/-- A grant to a KEY output makes its mask window (R67): from the expected arrival less Mpre to it plus
Mpost. One that overlaps or touches the newest window extends it; any other is added after it, the
oldest of 32 removed first (R68); and every queue entry inside the window as it then stands is masked,
flags set before staying (R66). A claim granted at once makes it (R152). MASK_EXPIRY removes every window
whose end the clock has passed (R69; all of them in the one event, log 33), and changes nothing else. -/
def Obligations.MaskWindowsExpire : Prop :=
  (∀ s : State,
    let kept := s.part.listen.masks.filter fun w => decide ((s.part.clock : Int) ≤ w.stop)
    exec .maskExpiry s = .next { s with part := { s.part with listen := { s.part.listen with
      masks := kept } } })
  ∧ ∀ (p : Part) (d : Division) (key : Nat),
    let l := p.listen
    let m : Int := p.clock + entry p.setup.onLead (Fin.ofNat 32 (8 * d.val + key / 8)) * 250
      + entry p.setup.micDelay d * 1000
    let new : MaskWindow := { start := m - p.setup.mpre * 1000, stop := m + p.setup.mpost * 1000 }
    let marked (w : MaskWindow) : List Onset := l.queue.map fun o =>
      { o with masked := o.masked || (decide (w.start ≤ o.time) && decide (o.time ≤ w.stop)) }
    let after (masks : List MaskWindow) (w : MaskWindow) : Prop :=
      maskGrant d key p = { p with listen := { l with masks := masks, queue := marked w } };
    (l.masks = [] → after [new] new)
    ∧ (∀ older newest, l.masks = older ++ [newest] →
      (new.start ≤ newest.stop ∧ newest.start ≤ new.stop →
        let wide : MaskWindow :=
          { start := min new.start newest.start, stop := max new.stop newest.stop }
        after (older ++ [wide]) wide)
      ∧ (¬(new.start ≤ newest.stop ∧ newest.start ≤ new.stop) →
        (l.masks.length < 32 → after (l.masks ++ [new]) new)
        ∧ (32 ≤ l.masks.length → after (l.masks.drop 1 ++ [new]) new)))
    ∧ (∀ n : OutputId, entry p.setup.outputMap n = .key d key → p.setupLoaded = true →
      p.power.on = true → (entry p.keys.entries n).state = .off → p.keys.queue = [] →
      slotsInUse p.keys.entries < p.keys.slotLimit →
        (claim n p).1.listen = (maskGrant d key p).listen)

/-! ## Fermatas -/

/-- A PENDING fermata whose holding point the position has reached in RUNNING begins to hold, the position
frozen there (R106), also beyond the end of the passage where the position has passed that too and this
event is taken before the end (the model's choice, log 57); in a FOLLOW passage hold listening begins
(R70). It ends by cutoff, by max-hold
expiry or, begun in a LEAD passage, by lead expiry: the notes held to the holding point are keyed off
and the line is re-anchored there after the breath (R71, R77, R78, R80, R108, R109). The closes already past
then resolve at once, in the event (R80, R81; what CUE_CLOSE does there). -/
def Obligations.FermataHoldsAndEnds : Prop :=
  ∀ s : State, s.part.player.state = .running →
    let p := s.part
    let f := p.follower
    let fm := p.player.fermata
    let hp : Int := fm.pf + fm.hf
    let ends (c : Instr) (te : Int) : Prop := Completes c s fun closed => ∃ q : Part,
      let tau : Int := te + (fm.breath * f.period / 96 : Nat)
      ClosesTaken q closed
      ∧ q.player = { p.player with fermata := Fermata.init }
      ∧ q.follower = { f with
          aPos := max f.aPos hp
          aTime := if f.aPos ≤ hp then tau else tau + spanTime f.period (f.aPos - hp)
          freeze := none, watched := q.follower.watched }
      ∧ WatchesHead q ∧ q.listen.hold = HoldListening.inactive
      ∧ q.sched = { p.sched with window := p.sched.window.filter fun x =>
          !(x.state == .sounding && x.release == hp) }
      ∧ SameConsole p q ∧ SameService p q ∧ q.power = p.power;
    (fm.phase = .pending → hp ≤ p.position → Completes .fermataHoldingStart s fun q =>
      q = { p with
        player := { p.player with
          fermata := { fm with phase := .holding, follow := p.followMode } }
        follower := { f with freeze := some hp }
        listen := { p.listen with hold := if p.followMode
          then { HoldListening.inactive with active := true } else p.listen.hold }
        report := q.report }
      ∧ q.fermataHeld = true)
    ∧ (fm.phase = .holding →
      (∀ te, p.listen.hold.cutoff = some te → ends .cutoff te)
      ∧ (f.predict fm.pf + (fm.maxHold * f.period : Nat) ≤ p.clock → ends .maxHoldExpiry p.clock)
      ∧ (fm.follow = false →
        f.predict fm.pf + (fm.hf * f.period / 96 : Nat) + 2 * f.period ≤ p.clock →
        ends .leadExpiry p.clock))

/-! ## Cues -/

/-- At its close a cue of a FOLLOW passage resolves on the Onset Queue (R82): MISS with no entry in its
window, MASKED with masked ones alone, else MATCH on the unmasked entry nearest t(p_c), of equally near
ones the earlier, of one time the stronger. A MISS raises the miss count and moves the state to COAST or
LOST, latching LOST (R89); a MASKED changes the record alone; a MATCH makes the update (R85 to R88, R90).
The cue leaves its list, the queue loses what is consumed (R83), a HOLD cue goes to the Player (R106). Where
the close of the next cue is past too, the run of closes goes on at once, each on what the one before
it left (R80), before a HOLD cue of the run begins to hold (log 48). The window, gains and miss limit are
the current passage's, also for a cue handed from the following one (log 53). -/
def Obligations.CueResolvesAtItsClose : Prop :=
  ∀ (s : State) (b : Buffer) (c : Cue) (rest : List Cue) (close : Int),
    s.part.reader.current = some b → b.passage.follow = true → s.part.sched.cues = c :: rest →
    s.part.player.state = .running → s.part.player.fermata.phase ≠ .holding →
    s.part.follower.watched = some close → close ≤ s.part.clock →
    let p := s.part
    let f := p.follower
    let tp := f.predict c.position
    let w : Nat := f.period * (if f.state = .lost then min 256 (2 * b.passage.window)
      else b.passage.window) / 256
    let inside (o : Onset) : Prop := tp - w ≤ o.time ∧ o.time ≤ tp + w
    let open_ (o : Onset) : Prop := o ∈ p.listen.queue ∧ inside o ∧ o.masked = false
    Completes .cueClose s fun closed => ∃ q : Part, ClosesTaken q closed
      ∧ q = { p with
        follower := q.follower
        listen := { p.listen with queue := q.listen.queue }
        sched := { p.sched with cues := rest }
        player := { p.player with fermata :=
          if c.kind = .hold ∧ p.player.fermata.phase = .none then
            { phase := .pending, pf := c.position, hf := c.hf, maxHold := c.maxHold
              breath := c.breath, follow := false }
          else p.player.fermata }
        attention := q.attention, report := q.report }
      ∧ WatchesHead q
      ∧ ((∀ o ∈ p.listen.queue, ¬inside o) →
        let m := min 15 (f.missCount + 1)
        let st := if f.state = .lost ∨ b.passage.missLimit ≤ m then .lost else .coast
        q.follower = { f with
          missCount := m, state := st, lastOutcome := .miss, watched := q.follower.watched }
        ∧ q.attention = (if st = .lost ∧ f.state ≠ .lost then p.attention ||| 0x200
            else p.attention)
        ∧ q.listen.queue = p.listen.queue.filter fun x => decide (tp - w ≤ x.time))
      ∧ ((∃ o ∈ p.listen.queue, inside o) → (¬∃ o, open_ o) →
        q.follower = { f with lastOutcome := .masked, watched := q.follower.watched }
        ∧ q.attention = p.attention
        ∧ q.listen.queue = p.listen.queue.filter fun x => decide (tp - w ≤ x.time))
      ∧ ((∃ o, open_ o) → ∃ o, open_ o
        ∧ (∀ x, open_ x → (o.time - tp).natAbs < (x.time - tp).natAbs
          ∨ (o.time - tp).natAbs = (x.time - tp).natAbs
            ∧ (o.time < x.time ∨ o.time = x.time ∧ x.strength ≤ o.strength))
        ∧ (let e := clampInt (-((f.period / 8 : Nat) : Int)) ((f.period / 8 : Nat) : Int)
              (o.time - tp)
          let m := classFactor c.cls
          let gp := if f.state = .lost then 256 else b.passage.phaseGain * m / 4
          let gt := b.passage.periodGain * m / 4
          let d : Int := if f.state = .lost then 96 else match f.pLast with
            | none => 96
            | some l => clampInt 48 768 (c.position - l)
          let step := clampInt (-((f.period / 32 : Nat) : Int)) ((f.period / 32 : Nat) : Int)
            ((e * gt * 96).tdiv (256 * d))
          let period := (clampInt f.tlo f.thi (f.period + step)).toNat
          let tau := tp + (e * gp).tdiv 256
          q.follower = { f with
            period := period
            atLimit := clampInt f.tlo f.thi (f.period + step) != f.period + step
            aPos := max f.aPos c.position
            aTime := if f.aPos ≤ c.position then tau
              else tau + spanTime period (f.aPos - c.position)
            pLast := some c.position, missCount := 0, lastError := e, state := .track
            lastOutcome := .matched, watched := q.follower.watched })
        ∧ q.attention = p.attention
        ∧ q.listen.queue = p.listen.queue.filter fun x =>
            decide (o.time < x.time) && decide (tp - w ≤ x.time))

/-- In a LEAD passage a cue is passed when the clock reaches its predicted time (R91): it leaves its list, a
HOLD cue goes to the Player, and the context and the Onset Queue stand. So is a cue handed from the
following passage where it heads the list (log 43). -/
def Obligations.CueIsPassedInLead : Prop :=
  ∀ (s : State) (b : Buffer) (c : Cue) (rest : List Cue),
    s.part.reader.current = some b → b.passage.follow = false → s.part.sched.cues = c :: rest →
    s.part.player.state = .running → s.part.player.fermata.phase ≠ .holding →
    s.part.follower.predict c.position ≤ s.part.clock →
    let p := s.part
    exec .cuePass s = .next { s with part := { p with
      follower := { p.follower with watched := none }
      sched := { p.sched with cues := rest }
      player := { p.player with fermata :=
        if c.kind = .hold ∧ p.player.fermata.phase = .none then
          { phase := .pending, pf := c.position, hf := c.hf, maxHold := c.maxHold
            breath := c.breath, follow := false }
        else p.player.fermata } } }

/-! ## Timers of the Player and the clock -/

/-- The starve timer ends STARVED: the end notes are keyed off, then DRAINING with reason STARVED while a
note of the passage is left, else the plan has ended (R103, R104, R114, R127). At the clock's last value
a playing Player locks with CLOCK (R124); in DRAINING every SOUNDING note is keyed off (R138): the
PENDING notes whose keying time has come stay and are awaited, and where every note left has its keying
time ahead of the clock the plan ends (log 28). -/
def Obligations.StarvingAndSaturationEndThePlan : Prop :=
  ∀ s : State,
    let p := s.part
    let ended (why : EndReason) (ptr : Nat) (line : List ReaderAccess) (q : Part) : Prop :=
      PlanEnded why (line.map ReaderAccess.unheld ++ [.spent ptr false]) p q
        ∧ SameConsole p q ∧ SameService p q ∧ q.power = p.power ∧ q.chain = p.chain;
    (∀ (b : Buffer) (e : Nat), p.player.state = .starved → p.player.starveTimer = some e →
      e ≤ p.time → p.reader.current = some b → p.reader.next = .empty → p.satTaken = false →
      p.softReset = false →
      let kept := p.sched.window.filter fun x =>
        !(x.state == .sounding && (x.planIndex == b.planIndex && x.release == (b.passage.endPos : Int)))
      let unlooked := p.reader.line.filter fun a => !a.looks;
      ((∃ x ∈ kept, x.planIndex = b.planIndex) → Completes .starveTimerExpiry s fun q =>
        q.player = { p.player with state := .draining, endReason := .starved, starveTimer := none }
          ∧ q.sched = { p.sched with window := kept }
          ∧ q.reader = { p.reader with
              phase := if p.reader.phase = .endFound then .endFound else .off
              lookTimer := none, take := none, line := unlooked }
          ∧ q.follower = p.follower ∧ q.listen.queue = [] ∧ SameConsole p q ∧ SameService p q
          ∧ q.power = p.power ∧ q.chain = p.chain)
      ∧ ((∀ x ∈ kept, x.planIndex ≠ b.planIndex) → Completes .starveTimerExpiry s fun q =>
        ended .starved b.passage.ptr unlooked q ∧ q.reader.take = none))
    ∧ (4294967295 ≤ p.clock → p.satTaken = false →
      (p.player.state = .running ∨ p.player.state = .held ∨ p.player.state = .starved →
        Completes .clockSaturation s fun q => Locked .clock 0 p q ∧ q.satTaken = true)
      ∧ (∀ b, p.player.state = .draining → p.reader.current = some b → p.reader.next = .empty →
        p.softReset = false → (∀ x ∈ p.sched.window, x.planIndex = b.planIndex) →
        let awaited (x : Note) : Prop := x.state ≠ .sounding
          ∧ ¬(x.state = .pending
            ∧ p.clock < p.follower.predict x.position - x.keyingLead);
        ((∃ x ∈ p.sched.window, awaited x) → Completes .clockSaturation s fun q =>
          q.satTaken = true ∧ q.player = p.player ∧ q.reader = p.reader ∧ q.follower = p.follower
            ∧ q.sched = { p.sched with
                window := p.sched.window.filter fun x => x.state != .sounding }
            ∧ SameConsole p q ∧ SameService p q ∧ q.power = p.power)
        ∧ ((∀ x ∈ p.sched.window, ¬awaited x) → Completes .clockSaturation s fun q =>
          q.satTaken = true ∧ ended p.player.endReason b.passage.ptr p.reader.line q))
      ∧ (p.player.state = .idle ∨ p.player.state = .locked →
        exec .clockSaturation s = .next { s with part := { p with satTaken := true } }))

/-! ## The slice -/

/-- At a slice (R130, R132 to R137, R142) every SOUNDING note whose release time has come, not withheld,
leaves the Lookahead Window; every due step leaves the Step List; every PENDING note whose keying time
has come, not withheld, becomes SOUNDING, or leaves the window where its release time has come too; a
dropped or late note latches LATE. All are judged on the line and the conditions the slice begins with,
and the window's other notes stand; in DRAINING so while a note of the current passage is left. Where in
DRAINING every note is keyed off the plan has ended with SPENT asked for (R103, R104, R127). A note
keyed on claims each of its outputs in order and marks those counted (R135, R148); one keyed off
releases each output marked (R137, R149); a step's entry that wants another drawn state changes it and
asks a pulse of each coil, MAPPING where there is none (R143, R155). When no plan plays only the cadence
goes on. In DRAINING nothing is withheld but by a bar (R134): the last note of a finishing passage,
dropped there, ends the plan, its HOLD_AT_ENTRY flag and the clock's saturation notwithstanding (R124,
R136). -/
def Obligations.SliceJudgesEveryNote : Prop :=
  ∀ s : State, s.part.clearing = false → s.part.sched.nextSlice ≤ s.part.time →
    let p := s.part
    let t (x : Int) : Int := p.follower.predict x
    let keyed (x : Note) : Int := t x.position - x.keyingLead
    let released (x : Note) : Int := max (t x.release - x.releaseLead) (keyed x + 250)
    let atBar (x : Int) : Prop := ∃ b, p.bar = some b ∧ b ≤ x
    let off (x : Note) : Prop := x.state = .sounding ∧ released x ≤ p.clock
      ∧ ¬(p.player.state = .held ∧ x.planIndex ≠ (p.sched.curIndex + 65535) % 65536)
      ∧ ¬atBar x.release
      ∧ ¬(p.courseSettled = false ∧ ∃ b, p.reader.current = some b
          ∧ x.planIndex = b.planIndex ∧ x.release = b.passage.endPos)
    let free (pos : Int) (idx : Nat) (hold : Bool) : Prop := p.player.state ≠ .held ∧ ¬atBar pos
      ∧ ¬(p.player.state ≠ .draining ∧ idx ≠ p.sched.curIndex ∧ hold = true)
    let on (x : Note) : Prop := x.state = .pending ∧ keyed x ≤ p.clock
      ∧ free x.position x.planIndex x.holdAtEntry
    let stepOn (x : Step) : Prop := t x.position - p.setup.stopLead * 250 ≤ p.clock
      ∧ free x.position x.planIndex x.holdAtEntry
    let current (x : Note) : Prop := ∃ b, p.reader.current = some b ∧ x.planIndex = b.planIndex
    let base : Part := { p with sched := { p.sched with nextSlice := p.sched.nextSlice + 250 } };
    (p.playing = false → exec .slice s = .next { s with part := base })
    ∧ (p.playing = true → (p.player.state = .draining → p.satTaken = false
        ∧ ∃ x ∈ p.sched.window, ¬off x ∧ ¬on x ∧ current x) → Completes .slice s fun q =>
      ∃ (offs ons : Note → Bool) (steps : Step → Bool),
        (∀ x, offs x = true ↔ off x) ∧ (∀ x, ons x = true ↔ on x)
        ∧ (∀ x, steps x = true ↔ stepOn x)
        ∧ (q.sched.window.map fun x => { x with claimed := [] })
          = (p.sched.window.filter fun x =>
              !offs x && !(ons x && decide (released x ≤ p.clock))).map (fun x =>
                { x with claimed := [], state := if ons x then .sounding else x.state })
        ∧ q.sched.steps = (p.sched.steps.filter fun x => !steps x)
        ∧ ((∃ x ∈ p.sched.window, on x ∧ (released x ≤ p.clock ∨ 20000 < p.clock - keyed x)) →
          q.latched .late = true)
        ∧ q.sched.cues = p.sched.cues ∧ q.sched.nextSlice = p.sched.nextSlice + 250
        ∧ q.follower = p.follower ∧ q.player = p.player ∧ q.report = p.report
        ∧ SameConsole p q ∧ SameService p q ∧ q.power = p.power ∧ q.chain = p.chain)
    ∧ (∀ b, p.player.state = .draining → p.reader.current = some b → p.reader.next = .empty →
      p.satTaken = false → p.softReset = false → p.sched.window ≠ [] →
      (∀ x ∈ p.sched.window, off x ∧ x.planIndex = b.planIndex) → Completes .slice s fun q =>
        PlanEnded p.player.endReason
          (p.reader.line.map ReaderAccess.unheld ++ [.spent b.passage.ptr false]) p q
        ∧ SameConsole p q ∧ SameService p q ∧ q.power = p.power ∧ q.chain = p.chain)
    ∧ (∀ (x : Note) (ptr : Nat), p.player.state = .draining → p.reader.current = none →
      p.reader.next = .finishing ptr x.planIndex false → p.softReset = false →
      p.sched.window = [x] → on x → released x ≤ p.clock → Completes .slice s fun q =>
        PlanEnded p.player.endReason
          (p.reader.line.map ReaderAccess.unheld ++ [.spent ptr false]) p q
        ∧ q.latched .late = true ∧ SameConsole p q ∧ SameService p q ∧ q.power = p.power)
    ∧ (∀ x : Note, p.playing = true → p.sched.window = [x] → p.sched.steps = [] → on x →
      p.clock < released x →
      let start : Part :=
        if 20000 < p.clock - keyed x then { base with attention := p.attention ||| 0x20 } else base
      let claims := x.outputs.foldl (fun (acc : Part × List OutputId) n =>
        ((claim n acc.1).1, if (claim n acc.1).2 then acc.2 ++ [n] else acc.2)) (start, [])
      exec .slice s = .next { s with part := { claims.1 with sched := { base.sched with
        window := [{ x with state := .sounding, claimed := claims.2 }] } } })
    ∧ (∀ x : Note, p.playing = true → p.player.state ≠ .draining → p.reader.next.awaited = false →
      p.sched.window = [x] → p.sched.steps = [] → off x →
      exec .slice s = .next { s with part :=
        { (x.claimed.foldl (fun acc n => release n acc) base) with sched := { base.sched with
          window := [] } } })
    ∧ (∀ (y : Step) (e : StopEntry), p.playing = true → p.sched.window = [] →
      p.sched.steps = [y] → stepOn y → y.entries = [e] →
      let issued : Part := { base with sched := { base.sched with steps := [] } }
      let coils := allOutputs.filter fun n =>
        entry p.setup.outputMap n = if e.draw then .stopOn e.stop else .stopOff e.stop;
      (entry p.sched.drawn e.stop = e.draw →
        exec .slice s = .next { s with part := issued })
      ∧ (entry p.sched.drawn e.stop ≠ e.draw → coils = [] →
        exec .slice s = .next { s with part :=
          { issued with attention := p.attention ||| 0x800 } })
      ∧ (entry p.sched.drawn e.stop ≠ e.draw → coils ≠ [] → ∃ moved : Part,
        moved = { issued with sched := { issued.sched with drawn := moved.sched.drawn } }
        ∧ (∀ i, entry moved.sched.drawn i
          = if i = e.stop then e.draw else entry p.sched.drawn i)
        ∧ exec .slice s = .next { s with part :=
          (coils.foldl (fun acc n => stopPulse n acc) moved) }))
    ∧ (∀ n : OutputId, (p.power.on = true → (entry p.keys.entries n).state ≠ .off) →
      stopPulse n p = p)
    ∧ (∀ n : OutputId, QueueExact p.keys → p.power.on = true →
      (entry p.keys.entries n).state = .off → p.keys.queue.length < 64 →
      p.setupLoaded = false ∨ p.keys.slotLimit ≤ slotsInUse p.keys.entries →
        entry (stopPulse n p).keys.entries n =
          { state := .waiting, count := 0, kind := .stop, timer := none, coolOff := false }
        ∧ (stopPulse n p).keys.queue = p.keys.queue ++ [n])

/-! ## The Key Table -/

/-- The tables of claims, releases and stop pulse requests (R148, R149, R155): what the count and the state
of an entry become, and whether the claim is counted. A claim or pulse on an OFF output waits at the
tail of the queue (R150), or is refused by a full one, LATE latched for the claim alone (R151), or with
a slot free and the queue empty is granted at once (R152). The grant empties the pull-in record (R172)
and starts the cipher timer of a KEY at the cipher limit; a pulse has none (R176). Every other entry
stands, but where the release of a PULL frees a slot for another, and claims and pulses touch the Key
Table, the detectors, the Mask List with the masked flags, and LATE alone. A pulse makes no mask window,
whatever the map says of its output (the model's choice where a later setup maps it as KEY, log 55). A
pulse request in any other state, or with power OFF, is ignored. -/
def Obligations.ClaimsAndReleasesFollowTheirTables : Prop :=
  ∀ (n : OutputId) (p : Part), QueueExact p.keys →
    let e := entry p.keys.entries n
    let d := entry p.guard.detectors n
    let full := p.setupLoaded = false ∨ p.keys.slotLimit ≤ slotsInUse p.keys.entries
    let sets (q : Part) (x : KeyEntry) (queue : List OutputId) : Prop :=
      entry q.keys.entries n = x ∧ q.keys.queue = queue
        ∧ ∀ m, m ≠ n → entry q.keys.entries m = entry p.keys.entries m
    let detects (q : Part) (x : Detector) : Prop :=
      entry q.guard.detectors n = x
        ∧ ∀ m, m ≠ n → entry q.guard.detectors m = entry p.guard.detectors m
    let frame (q : Part) : Prop :=
      q = { p with
        keys := q.keys, attention := q.attention
        guard := { p.guard with detectors := q.guard.detectors }
        listen := { p.listen with masks := q.listen.masks, queue := q.listen.queue } }
      ∧ (q.attention = p.attention ∨ q.attention = p.attention ||| 0x20)
    let others := p.keys.queue.filter (· != n);
    frame (claim n p).1 ∧ frame (stopPulse n p)
    ∧ (e.state ≠ .off ∨ p.power.on = false → stopPulse n p = p)
    ∧ (e.state = .off → p.power.on = false → claim n p = (p, true))
    ∧ (e.state = .off → p.power.on = true → p.keys.queue.length < 64 → full →
      ((claim n p).2 = true ∧ sets (claim n p).1
        { state := .waiting, count := 1, kind := .key, timer := none, coolOff := false }
        (p.keys.queue ++ [n]))
      ∧ sets (stopPulse n p)
        { state := .waiting, count := 0, kind := .stop, timer := none, coolOff := false }
        (p.keys.queue ++ [n]))
    ∧ (e.state = .off → p.power.on = true → 64 ≤ p.keys.queue.length → full →
      ((claim n p).2 = true ∧ sets (claim n p).1 KeyEntry.idle p.keys.queue
        ∧ (claim n p).1.attention = p.attention ||| 0x20)
      ∧ sets (stopPulse n p) KeyEntry.idle p.keys.queue
      ∧ (stopPulse n p).attention = p.attention)
    ∧ (e.state = .off → p.power.on = true → p.keys.queue = [] → ¬full →
      ((claim n p).2 = true
        ∧ sets (claim n p).1
          { state := .pull, count := 1, kind := .key, coolOff := false
            timer := some (p.time + 1000 * p.setup.pullIn) } []
        ∧ detects (claim n p).1 { d with
          pullRecord := .empty, cipher := some (p.time + 1000000 * p.setup.cipherLimit) }
        ∧ ∀ v k, entry p.setup.outputMap n = .key v k →
          (claim n p).1.listen = (maskGrant v k p).listen)
      ∧ sets (stopPulse n p)
        { state := .pulse, count := 0, kind := .stop, coolOff := false
          timer := some (p.time + 1000 * p.setup.stopPulse) } []
      ∧ detects (stopPulse n p) { d with pullRecord := .empty, cipher := none }
      ∧ (stopPulse n p).listen = p.listen)
    ∧ (e.state = .pull ∨ e.state = .hold ∨ (e.state = .waiting ∨ e.state = .settle) ∧ e.kind = .key →
      (e.count < 7 → (claim n p).2 = true
        ∧ sets (claim n p).1 { e with count := e.count + 1 } p.keys.queue)
      ∧ (7 ≤ e.count → claim n p = (p, false)))
    ∧ (e.state = .pulse ∨ e.state = .disabled
        ∨ (e.state = .waiting ∨ e.state = .settle) ∧ e.kind ≠ .key → claim n p = (p, false))
    ∧ (e.count = 0 → release n p = p)
    ∧ (2 ≤ e.count → sets (release n p) { e with count := e.count - 1 } p.keys.queue)
    ∧ (e.count = 1 → e.state = .waiting → sets (release n p) KeyEntry.idle others
        ∧ (release n p).latched .late = true)
    ∧ (e.count = 1 → e.state = .hold → p.setupLoaded = true → sets (release n p)
        { e with
          state := .settle, count := 0, coolOff := false
          timer := some (p.time + 1000 * p.setup.settle) } p.keys.queue)
    ∧ (e.count = 1 → e.state = .pull → p.setupLoaded = true →
        entry (release n p).keys.entries n = { e with
          state := .settle, count := 0, coolOff := false
          timer := some (p.time + 1000 * p.setup.settle) })
    ∧ (e.count = 1 → e.state = .settle → sets (release n p) { e with count := 0 } p.keys.queue)

/-- When the timer of an output in SETTLE expires (R157): a KEY with count 0 and a STOP without cool-off go
OFF, kind none; a KEY with claims and a STOP in cool-off wait at the tail of the queue, or are refused
by a full one (R151), or are granted at once where a slot is free (R152). -/
def Obligations.SettleEndsByCountAndKind : Prop :=
  ∀ (s : State) (n : OutputId) (t : Nat), (entry s.part.keys.entries n).state = .settle →
    (entry s.part.keys.entries n).timer = some t → t ≤ s.part.time → QueueExact s.part.keys →
    let p := s.part
    let e := entry p.keys.entries n
    let rejoins := e.kind = .key ∧ 1 ≤ e.count ∨ e.kind = .stop ∧ e.coolOff = true
    let free := p.setupLoaded = true ∧ slotsInUse p.keys.entries < p.keys.slotLimit
    let ends (x : KeyEntry) (queue : List OutputId) (attention : Word) : Prop :=
      Completes (.settleEnd n) s fun q =>
        entry q.keys.entries n = x ∧ q.keys.queue = queue
        ∧ (∀ m, m ≠ n → entry q.keys.entries m = entry p.keys.entries m)
        ∧ q = { p with
            keys := q.keys, guard := q.guard, listen := q.listen, attention := attention };
    (¬rejoins → ends KeyEntry.idle p.keys.queue p.attention)
    ∧ (rejoins → p.keys.queue.length < 64 → ¬free →
      ends { state := .waiting, count := e.count, kind := e.kind, timer := none, coolOff := false }
        (p.keys.queue ++ [n]) p.attention)
    ∧ (rejoins → p.keys.queue.length = 64 → ¬free → ends KeyEntry.idle p.keys.queue
        (if e.kind = .key then p.attention ||| 0x20 else p.attention))
    ∧ (rejoins → p.keys.queue = [] → free →
      ends
        { count := e.count, kind := e.kind, coolOff := false
          state := if e.kind = .stop then .pulse else .pull
          timer := some (p.time
            + 1000 * if e.kind = .stop then p.setup.stopPulse else p.setup.pullIn) }
        [] p.attention)

/-- The end of a pull-in or of a pulse in service is judged by its record (R154, R155, R173): a pass keeps
the KEY in HOLD and ends the pulse in OFF; HOLD_OK records WEAK of a KEY; NONE records OPEN and the
policy acts (R175): a retry with a cool-off of 200 ms while retries are left, else the output is
DISABLED; with no good frame seen there is no verdict. -/
def Obligations.PullInsAndPulsesAreJudged : Prop :=
  ∀ (s : State) (n : OutputId) (t : Nat), QueueExact s.part.keys →
    (entry s.part.keys.entries n).timer = some t → t ≤ s.part.time →
    s.part.guard.tests n = false →
    let p := s.part
    let e := entry p.keys.entries n
    let d := entry p.guard.detectors n
    let retries := p.setupLoaded = true ∧ p.setup.policy.getLsbD (n.val / 32) = true
      ∧ d.retryCount < 3
    let frame (q : Part) : Prop := q = { p with
      keys := q.keys, guard := q.guard, listen := q.listen, svcLine := q.svcLine }
    let records (q : Part) (kind : FaultKind) : Prop := ∃ r : FaultRecord,
      r.output = n ∧ r.kind = kind ∧ r.passed = false ∧ r.clock = min (p.clock / 1000) 65535
        ∧ q.svcLine = p.svcLine ++ [.faultRead r]
    let acts (q : Part) : Prop :=
      (retries → entry q.keys.entries n =
          { e with state := .settle, timer := some (p.time + 200000), coolOff := true }
        ∧ (entry q.guard.detectors n).retryCount = d.retryCount + 1)
      ∧ (¬retries → entry q.keys.entries n = { KeyEntry.idle with state := .disabled });
    (e.state = .pull → Completes (.pullInEnd n) s fun q => frame q
      ∧ (d.pullRecord ≠ .none → entry q.keys.entries n = { e with state := .hold, timer := none })
      ∧ (d.pullRecord = .pullOk ∨ d.pullRecord = .empty → q.svcLine = p.svcLine)
      ∧ (d.pullRecord = .holdOk → records q .weak)
      ∧ (d.pullRecord = .none → records q .open ∧ acts q))
    ∧ (e.state = .pulse → Completes (.pulseEnd n) s fun q => frame q
      ∧ (d.pullRecord ≠ .none → entry q.keys.entries n = KeyEntry.idle
        ∧ q.svcLine = p.svcLine)
      ∧ (d.pullRecord = .none → records q .open ∧ acts q))

/-! ## The Output Guard -/

/-- The cipher guard puts an output held too long in SETTLE with count 0, records CIPHER and latches it
(R156, R176, R177); a hold count of 3 records OPEN, returns to 0, and the policy acts (R174, R175). -/
def Obligations.CipherAndOpenAreMet : Prop :=
  ∀ (s : State) (n : OutputId), QueueExact s.part.keys →
    let p := s.part
    let e := entry p.keys.entries n
    let d := entry p.guard.detectors n
    let records (q : Part) (kind : FaultKind) : Prop := ∃ r : FaultRecord,
      r.output = n ∧ r.kind = kind ∧ r.passed = false
        ∧ q.svcLine = p.svcLine ++ [.faultRead r];
    (∀ t, d.cipher = some t → t ≤ p.time → e.state = .pull ∨ e.state = .hold →
      p.setupLoaded = true → Completes (.cipherTimerExpiry n) s fun q =>
        entry q.keys.entries n = { e with
          state := .settle, count := 0, coolOff := false
          timer := some (p.time + 1000 * p.setup.settle) }
        ∧ records q .cipher ∧ q.attention = p.attention ||| 0x80
        ∧ (entry q.guard.detectors n).cipher = none
        ∧ q = { p with
            keys := q.keys, guard := q.guard, listen := q.listen, svcLine := q.svcLine
            attention := q.attention })
    ∧ (d.holdCount = 3 → p.guard.tests n = false → e.state = .hold →
      Completes (.openInHold n) s fun q =>
        records q .open ∧ (entry q.guard.detectors n).holdCount = 0
        ∧ (p.setupLoaded = true ∧ p.setup.policy.getLsbD (n.val / 32) = true
            ∧ d.retryCount < 3 →
          entry q.keys.entries n =
            { e with state := .settle, timer := some (p.time + 200000), coolOff := true })
        ∧ (¬(p.setupLoaded = true ∧ p.setup.policy.getLsbD (n.val / 32) = true
            ∧ d.retryCount < 3) →
          entry q.keys.entries n = { KeyEntry.idle with state := .disabled })
        ∧ q = { p with
            keys := q.keys, guard := q.guard, listen := q.listen, svcLine := q.svcLine })

/-- A TEST goes on when its output is at rest (R179): an output taken up and not yet pulled joins the queue,
a KEY with count 1; after one that was pulled the next mapped output of the range is taken up, and after
the last TEST ends with OK and the slot limit returns to Pmax (R153). With a slot free and the queue
empty the test pull is granted at once (R152), which empties the pull-in record and starts a KEY's cipher
timer (R172, R176). A pull-in of the output under test that passes is recorded as a pass and released
(R179 step 4); one with HOLD_OK or with no current is recorded WEAK or OPEN with no policy, and the
output is released, or disabled again where it was found DISABLED (step 5). A pulse passes on any current
and settles then too; one with none is OPEN (R173). With no good frame seen there is no record: a KEY
stays in HOLD, a pulse ends in OFF (R155), but a marked output is disabled again (the model's choice,
log 23). An OVER at a frame ends the pull or pulse at that frame, recorded with no policy (steps 3, 5). A
full queue refuses the pull: the entry is OFF, LATE latched for a KEY (R151). What the walk then does R179
does not say: the output counts as judged, with no record, one found DISABLED is left OFF and not disabled
again, and the walk goes on (the model's choice, log 23). -/
def Obligations.TestWalksItsRange : Prop :=
  ∀ (s : State) (t : Test), s.part.guard.test = some t → QueueExact s.part.keys →
    let p := s.part
    let n := t.output
    let e := entry p.keys.entries n
    let d := entry p.guard.detectors n
    let settling : KeyEntry := { e with
      state := .settle, count := 0, coolOff := false
      timer := some (p.time + 1000 * p.setup.settle) }
    let metBy (held : KeyEntry) : KeyEntry :=
      if t.marked then { KeyEntry.idle with state := .disabled } else held
    let judged (q : Part) : Prop := q.guard.test = some { t with stage := .judged }
    let passes (q : Part) : Prop := entry q.keys.entries n = settling ∧ judged q
      ∧ ∃ r : FaultRecord, r.output = n ∧ r.kind = .none ∧ r.retries = 0 ∧ r.passed = true
        ∧ r.clock = min (p.clock / 1000) 65535 ∧ q.svcLine = p.svcLine ++ [.faultRead r]
    let fails (q : Part) (kind : FaultKind) : Prop :=
      entry q.keys.entries n = metBy settling ∧ judged q
      ∧ ∃ r : FaultRecord, r.output = n ∧ r.kind = kind ∧ r.retries = d.retryCount
        ∧ r.passed = false ∧ r.clock = min (p.clock / 1000) 65535
        ∧ q.svcLine = p.svcLine ++ [.faultRead r]
    let full := p.setupLoaded = false ∨ p.keys.slotLimit ≤ slotsInUse p.keys.entries
    let nextFree (x : Nat) : Prop := ∀ m : OutputId, n.val < m.val → m.val < x →
      entry p.setup.outputMap m = .unused;
    (e.state.atRest = true → t.stage = .waiting → p.keys.queue.length < 64 → full →
      Completes .testNextOutput s fun q =>
        q.guard.test = some { t with marked := e.state == .disabled, stage := .pulled }
        ∧ q.keys.queue = p.keys.queue ++ [n]
        ∧ (entry q.keys.entries n).state = .waiting
        ∧ (∀ v k, entry p.setup.outputMap n = .key v k → (entry q.keys.entries n).count = 1)
        ∧ q = { p with keys := q.keys, guard := q.guard })
    ∧ (e.state.atRest = true → t.stage = .waiting → p.keys.queue = [] → ¬full →
      Completes .testNextOutput s fun q =>
        q.guard.test = some { t with marked := e.state == .disabled, stage := .pulled }
        ∧ q.keys.queue = []
        ∧ (∀ v k, entry p.setup.outputMap n = .key v k →
          entry q.keys.entries n =
            { state := .pull, count := 1, kind := .key, coolOff := false
              timer := some (p.time + 1000 * p.setup.pullIn) }
          ∧ (entry q.guard.detectors n).pullRecord = .empty
          ∧ (entry q.guard.detectors n).cipher = some (p.time + 1000000 * p.setup.cipherLimit)
          ∧ q.listen = (maskGrant v k p).listen)
        ∧ ((∃ i, entry p.setup.outputMap n = .stopOn i ∨ entry p.setup.outputMap n = .stopOff i) →
          entry q.keys.entries n =
            { state := .pulse, count := 0, kind := .stop, coolOff := false
              timer := some (p.time + 1000 * p.setup.stopPulse) }
          ∧ (entry q.guard.detectors n).pullRecord = .empty
          ∧ (entry q.guard.detectors n).cipher = none
          ∧ q.listen = p.listen)
        ∧ q = { p with keys := q.keys, guard := q.guard, listen := q.listen })
    ∧ (e.state.atRest = true → t.stage = .waiting → 64 ≤ p.keys.queue.length →
      Completes .testNextOutput s fun q =>
        entry q.keys.entries n = KeyEntry.idle ∧ q.keys.queue = p.keys.queue
        ∧ q.guard.test = some { t with marked := e.state == .disabled, stage := .judged }
        ∧ (∀ v k, entry p.setup.outputMap n = .key v k → q.latched .late = true)
        ∧ q = { p with keys := q.keys, guard := q.guard, attention := q.attention })
    ∧ (e.state.atRest = true → t.stage ≠ .waiting → nextFree (t.last.val + 1) →
      Completes .testNextOutput s fun q =>
        q.guard.test = none ∧ EndsWith 1 0 p q ∧ q.keys.slotTarget = p.setup.pmax
        ∧ q.player = p.player ∧ q.power = p.power)
    ∧ (∀ m : OutputId, e.state.atRest = true → t.stage ≠ .waiting → n < m → m ≤ t.last →
      entry p.setup.outputMap m ≠ .unused → nextFree m.val →
      Completes .testNextOutput s fun q =>
        (q.guard.test.map fun x => (x.output, x.last)) = some (m, t.last) ∧ q.slot = p.slot
        ∧ q.svcLine = p.svcLine)
    ∧ (∀ end_, e.state = .pull → e.timer = some end_ → end_ ≤ p.time → t.stage = .pulled →
      p.setupLoaded = true → Completes (.pullInEnd n) s fun q =>
        (d.pullRecord = .pullOk → passes q)
        ∧ (d.pullRecord = .holdOk → fails q .weak)
        ∧ (d.pullRecord = .none → fails q .open)
        ∧ (d.pullRecord = .empty → judged q ∧ q.svcLine = p.svcLine
          ∧ entry q.keys.entries n = metBy { e with state := .hold, timer := none }))
    ∧ (∀ end_, e.state = .pulse → e.timer = some end_ → end_ ≤ p.time → t.stage = .pulled →
      p.setupLoaded = true → Completes (.pulseEnd n) s fun q =>
        (d.pullRecord = .pullOk ∨ d.pullRecord = .holdOk → passes q)
        ∧ (d.pullRecord = .none → fails q .open)
        ∧ (d.pullRecord = .empty → judged q ∧ q.svcLine = p.svcLine
          ∧ entry q.keys.entries n = metBy KeyEntry.idle))
    ∧ (∀ (f : ChainFrame) (senses : List Sense), p.chain.frame = some f → p.setupLoaded = true →
      t.stage = .pulled → e.state = .pull ∨ e.state = .pulse → entry p.chain.lastDrive n ≠ .off →
      n.val < 32 * f.boards → senses.getD n.val .none = .over →
      (∀ m : OutputId, m ≠ n → senses.getD m.val .none ≠ .over) →
        Completes (.frameComplete (some f.seq) senses) s fun q => fails q .over)

/-- A Fault Table record is one read of word 0 and two writes (R16, R177): word 0 takes the kind, the disabled
flag as it stands, the retries and the count found plus 1, held at 255 (of a pass the count as found,
R179), word 1 the clock in ms; the last latches FAULT, but of a pass. A CLEAR rewrites word 0 with the
disabled flag 0 (R125). -/
def Obligations.FaultRecordsAreWritten : Prop :=
  ∀ (s : State) (r : FaultRecord) (rest : List SvcAccess), StoreOk s →
    let p := s.part
    let a := 0x40 + 2 * r.output.val
    let goes (line : List SvcAccess) : Part := { p with arb := .serviceUnit, svcLine := line };
    (s.part.serviceNext (.faultRead r) rest →
      exec .arbiterServe s = .next { s with
        part := goes (.faultWord0 r (s.store.read a) :: rest) })
    ∧ (∀ found, s.part.serviceNext (.faultWord0 r found) rest →
      r.retries < 4 → CompletesStoring .arbiterServe s fun m q =>
        q = goes (.faultWord1 r :: rest)
        ∧ ∃ v : Word, WordWritten s.store m a v
          ∧ (r.passed = true → v.toNat = found.toNat / 256 * 256)
          ∧ (r.passed = false → v.toNat = r.kind.code
            + (if (entry p.keys.entries r.output).state = .disabled then 8 else 0)
            + 16 * r.retries + 256 * min 255 (found.toNat / 256 + 1)))
    ∧ (s.part.serviceNext (.faultWord1 r) rest →
      ∀ c ∈ [Instr.faultRecordWritten, .arbiterServe], CompletesStoring c s fun m q =>
        WordWritten s.store m (a + 1) (BitVec.ofNat 16 r.clock)
        ∧ q = { goes rest with
            attention := if r.passed then p.attention else p.attention ||| 0x40 })
    ∧ (∀ n found, s.part.serviceNext (.clearWrite n found) rest →
      CompletesStoring .arbiterServe s fun m q =>
        WordWritten s.store m (0x40 + 2 * n.val) (found &&& 0xFFF7) ∧ q = goes rest)

/-! ## Chain, supply and magnet power -/

/-- The hold duty computed from a sample is held for every board and sent in the frame that begins at the
next cadence point: the frame begun at a point carries the duty of the sample before (R169). -/
def Obligations.HoldDutyFollowsTheSupply : Prop :=
  ∀ (s : State) (sense : Nat), s.part.clearing = false → s.part.chain.frame = none →
    s.part.chain.nextCadence ≤ s.part.time →
    let p := s.part
    let vs := min sense 1023
    let vhold := p.supply.vhold
    Completes (.cadencePoint sense) s fun q =>
      q.supply.vs = vs
      ∧ (∀ b, let d := entry q.chain.holdDuty b;
        (vs = 0 → 0 < vhold → d = 1023) ∧ (vs = 0 → vhold = 0 → d = 0)
        ∧ (vs ≠ 0 → d = min ((vhold * 1023 + vs / 2) / vs) 1023) ∧ d ≤ 1023)
      ∧ (∀ f, q.chain.frame = some f → f.duty = p.chain.holdDuty)

/-- The undervolt indication is set by each sample below Vmin and cleared by each at or above it, and is
shown in Part State word 0; the sample switches no magnet power and latches nothing (R170). -/
def Obligations.UndervoltFollowsTheSample : Prop :=
  ∀ (s : State) (sense : Nat), s.part.clearing = false → s.part.chain.frame = none →
    s.part.chain.nextCadence ≤ s.part.time →
    Completes (.cadencePoint sense) s fun q =>
      (q.supply.undervolt = true ↔ min sense 1023 < s.part.supply.vmin)
      ∧ q.partState0.getLsbD 13 = q.supply.undervolt
      ∧ q = { s.part with supply := q.supply, chain := q.chain }

/-- A frame begins at a cadence point where a chain length is held, with the sequence number and each
output's drive: OFF with magnet power OFF or no board, else its entry's (R161, R162). At its completion
the echo is compared (R165): a bad frame raises the bad count, held at 2, and drops the senses; a good
one returns it to 0, raises the good count, held at 16, and its senses raise the pull-in records on the
drive of the frame before (R164, R172), its hold count and its stuck count go on as R174 says, and an
OVER is recorded and met by the policy in the frame's own row (R174, R175, R177). A sense the list does
not reach reads NONE (log 30). With no frame in progress nothing comes about (log 6). What the counts
bring is marked for its own row (log 10). -/
def Obligations.FramesAreSentAndChecked : Prop :=
  ∀ (s : State) (echo : Option Nat) (senses : List Sense) (sense : Nat),
    let p := s.part
    let c := p.chain;
    (p.clearing = false → c.frame = none → c.nextCadence ≤ p.time →
      Completes (.cadencePoint sense) s fun q => q.chain.nextCadence = c.nextCadence + 1000
        ∧ (c.length = none → q.chain.frame = none ∧ q.chain.seq = c.seq)
        ∧ (∀ len, c.length = some len → q.chain.seq = (c.seq + 1) % 16
          ∧ ∃ f, q.chain.frame = some f ∧ f.seq = c.seq ∧ f.boards = len
            ∧ ∀ n : OutputId, entry f.drive n =
              if p.power.on = true ∧ n.val < 32 * len then (entry p.keys.entries n).state.drive
              else .off))
    ∧ (c.frame = none → exec (.frameComplete echo senses) s = .next s)
    ∧ (∀ f, c.frame = some f →
      let sent : Chain := { c with frame := none, lastDrive := f.drive, lastDuty := f.duty };
      (echo ≠ some f.seq → exec (.frameComplete echo senses) s = .next { s with part :=
        { p with chain := { sent with
          bad := min 2 (c.bad + 1), good := 0, faultDue := c.faultDue || c.bad == 1 } } })
      ∧ (echo = some f.seq → Completes (.frameComplete echo senses) s fun q =>
        let good := min 16 (c.good + 1)
        q.chain = { sent with
          bad := 0, good := good, clearDue := c.clearDue || (c.fault && good == 16) }
        ∧ SameConsole p q ∧ q.power = p.power ∧ q.player = p.player ∧ q.setup = p.setup
        ∧ ((∀ n : OutputId, senses.getD n.val .none ≠ .over) →
          q = { p with chain := q.chain, guard := q.guard }
          ∧ ∀ n : OutputId, n.val < 32 * f.boards →
            let e := (entry p.keys.entries n).state
            let old := (entry p.guard.detectors n).pullRecord
            let new := (entry q.guard.detectors n).pullRecord
            let sn := senses.getD n.val .none;
            (e.usesSlot = true → entry c.lastDrive n = .pull →
              (sn = .pullOk → new = .pullOk)
              ∧ (sn = .holdOk → new = if old = .pullOk then .pullOk else .holdOk)
              ∧ (sn = .none → new = if old = .empty then .none else old))
            ∧ (e.usesSlot = false ∨ entry c.lastDrive n ≠ .pull → new = old))
        ∧ ((∀ n : OutputId, senses.getD n.val .none ≠ .over) →
          ∀ n : OutputId, n.val < 32 * f.boards →
            let e := (entry p.keys.entries n).state
            let d := entry p.guard.detectors n
            let d' := entry q.guard.detectors n
            let sn := senses.getD n.val .none
            let drive := entry c.lastDrive n
            let duty := entry c.lastDuty (Fin.ofNat 8 (n.val / 32))
            let quiet := e = .off ∨ e = .waiting ∨ e = .settle ∨ e = .disabled;
            (e = .hold → drive = .hold → duty ≠ 0 → d.holdCount < 3 →
              d'.holdCount = if sn = .none then d.holdCount + 1 else 0)
            ∧ (e ≠ .hold ∨ drive ≠ .hold ∨ duty = 0 → d'.holdCount = d.holdCount)
            ∧ (drive ≠ .off → d'.stuckCount = 0)
            ∧ (drive = .off → sn = .none → d'.stuckCount = 0)
            ∧ (drive = .off → sn ≠ .none → quiet →
              d'.stuckCount = min 3 (d.stuckCount + 1)
              ∧ (d'.stuckDue = true ↔ d.stuckDue = true ∨ d.stuckCount = 2))
            ∧ d'.retryCount = d.retryCount ∧ d'.cipher = d.cipher)
        ∧ (∀ n : OutputId, QueueExact p.keys → n.val < 32 * f.boards →
          senses.getD n.val .none = .over →
          (∀ m : OutputId, m ≠ n → senses.getD m.val .none ≠ .over) → p.guard.tests n = false →
          let e := entry p.keys.entries n
          let d := entry p.guard.detectors n
          let driven := e.state = .pull ∨ e.state = .hold ∨ e.state = .pulse
          let retries := p.setupLoaded = true ∧ p.setup.policy.getLsbD (n.val / 32) = true
            ∧ d.retryCount < 3;
          (driven → entry c.lastDrive n ≠ .off →
            (∃ r : FaultRecord, r.output = n ∧ r.kind = .over ∧ r.passed = false
              ∧ r.clock = min (p.clock / 1000) 65535
              ∧ q.svcLine = p.svcLine ++ [.faultRead r])
            ∧ (retries → entry q.keys.entries n =
                { e with state := .settle, timer := some (p.time + 200000), coolOff := true }
              ∧ (entry q.guard.detectors n).retryCount = d.retryCount + 1)
            ∧ (¬retries → entry q.keys.entries n = { KeyEntry.idle with state := .disabled }))
          ∧ (¬driven ∨ entry c.lastDrive n = .off →
            q = { p with chain := q.chain, guard := q.guard }))))

/-- The faults that take magnet power away (R166, R171, R174, R178): the CHAIN fault sets the indication, the
supply's request and STUCK, which is recorded (its record asked for before the switch-off, the model's
choice, log 56), switch power OFF with their causes; with power OFF already nothing more comes about. A TEST ends with POWER_FAULT and POWER_LOST, and of its output found
DISABLED and being test-pulled the entry is DISABLED again (R180). The clearing of the indication changes it alone (R165; log 10). -/
def Obligations.FaultsSwitchMagnetPowerOff : Prop :=
  ∀ s : State,
    let p := s.part
    let chained : Part := { p with chain := { p.chain with
      fault := true, faultDue := false, clearDue := false } }
    let supplied : Part := { p with supply := { p.supply with outDue := false } }
    let testLost (q : Part) : Prop := ∀ t, p.guard.test = some t →
      EndsWith 5 9 p q
      ∧ (t.stage = .pulled → t.marked = true →
        (entry p.keys.entries t.output).state ≠ .disabled →
          entry q.keys.entries t.output = { KeyEntry.idle with state := .disabled });
    (p.chain.faultDue = true →
      (p.power.on = true → Completes .chainFault s fun q =>
        SwitchedOff .chain p q ∧ q.chain = chained.chain ∧ testLost q)
      ∧ (p.power.on = false → exec .chainFault s = .next { s with part := chained }))
    ∧ (p.chain.clearDue = true → exec .chainFaultClear s = .next { s with part :=
        { p with chain := { p.chain with fault := false, clearDue := false } } })
    ∧ (p.supply.outDue = true →
      (p.power.on = true → Completes .supplyOutOfRange s fun q =>
        SwitchedOff .supply p q ∧ q.supply = supplied.supply ∧ testLost q)
      ∧ (p.power.on = false → exec .supplyOutOfRange s = .next { s with part := supplied }))
    ∧ (∀ n : OutputId, (entry p.guard.detectors n).stuckDue = true →
      ∃ r : FaultRecord, r.output = n ∧ r.kind = .stuck ∧ r.passed = false
      ∧ (p.power.on = true → Completes (.stuck n) s fun q =>
        SwitchedOff .stuck p q ∧ (entry q.guard.detectors n).stuckDue = false
          ∧ ∃ more, q.svcLine = p.svcLine ++ .faultRead r :: more)
      ∧ (p.power.on = false → Completes (.stuck n) s fun q =>
        q = { p with guard := q.guard, svcLine := p.svcLine ++ [.faultRead r] }
        ∧ (entry q.guard.detectors n).stuckDue = false))
    ∧ (∀ sense : Nat, p.clearing = false → p.chain.frame = none → p.chain.nextCadence ≤ p.time →
      let vs := min sense 1023
      let below := if vs < p.supply.vcut then min 10 (p.supply.below + 1) else 0
      let above := if p.supply.vmax < vs then min 10 (p.supply.above + 1) else 0
      Completes (.cadencePoint sense) s fun q =>
        q.supply.below = below ∧ q.supply.above = above
        ∧ (q.supply.outDue = true ↔ p.supply.outDue = true
          ∨ below = 10 ∧ p.supply.below = 9 ∨ above = 10 ∧ p.supply.above = 9))

/-! ## The line -/

/-- The predicted time of a position is read off the line through the anchor with the period in force,
rounded half up, on either side of the anchor (R76). -/
def Obligations.PredictionFollowsTheLine : Prop :=
  ∀ (f : Follower) (x : Int),
    (f.aPos ≤ x → f.predict x = f.aTime + ((x - f.aPos) * f.period + 48) / 96)
    ∧ (x < f.aPos → f.predict x = f.aTime - ((f.aPos - x) * f.period + 48) / 96)
end

