-- ==== Sys2Proof/Laws/Cues.lean ====
section
/-! SUPPORT. The onset a cue chooses (R82): one of the candidates, and none of the others is nearer to the
predicted time, earlier at one distance, or stronger at one time. -/

namespace Sys2Proof.Machine

/-- No candidate is a better choice than `o`: nearer, equally near and earlier, or at one time stronger. -/
def NoneBetter (tp : Int) (o x : Onset) : Prop :=
  (o.time - tp).natAbs < (x.time - tp).natAbs
    ∨ (o.time - tp).natAbs = (x.time - tp).natAbs
      ∧ (o.time < x.time ∨ o.time = x.time ∧ x.strength ≤ o.strength)

theorem NoneBetter.refl (tp : Int) (o : Onset) : NoneBetter tp o o :=
  .inr ⟨rfl, .inr ⟨rfl, le_refl _⟩⟩

theorem NoneBetter.trans {tp : Int} {a b c : Onset} (h : NoneBetter tp a b) (k : NoneBetter tp b c) :
    NoneBetter tp a c := by
  unfold NoneBetter at *
  omega

/-- `preferred` decides which of two is the better choice. -/
theorem preferred_spec (tp : Int) (a b : Onset) :
    (preferred tp a b = true → NoneBetter tp a b) ∧ (preferred tp a b = false → NoneBetter tp b a) := by
  unfold preferred NoneBetter
  dsimp only
  split
  · split
    · simp only [decide_eq_true_eq, decide_eq_false_iff_not]; omega
    · simp only [decide_eq_true_eq, decide_eq_false_iff_not]; omega
  · simp only [decide_eq_true_eq, decide_eq_false_iff_not]; omega

/-- With no candidate there is no choice, and with one there is. -/
theorem chooseOnset_none (tp : Int) (l : List Onset) : chooseOnset tp l = none ↔ l = [] := by
  cases l with
  | nil => simp [chooseOnset]
  | cons o rest =>
    simp only [chooseOnset, reduceCtorEq, iff_false]
    split
    · simp
    · split <;> simp

/-- The choice is a candidate, and no candidate is a better one (R82). -/
theorem chooseOnset_spec (tp : Int) (l : List Onset) : ∀ {o : Onset}, chooseOnset tp l = some o →
    o ∈ l ∧ ∀ x ∈ l, NoneBetter tp o x := by
  induction l with
  | nil => intro o h; simp [chooseOnset] at h
  | cons a rest ih =>
    intro o h
    unfold chooseOnset at h
    split at h
    · rename_i hr
      rw [chooseOnset_none] at hr
      subst hr
      obtain rfl := Option.some.inj h
      exact ⟨List.mem_cons_self, fun x hx => by
        obtain rfl := List.mem_singleton.1 hx
        exact NoneBetter.refl tp x⟩
    · rename_i b hr
      obtain ⟨hb, hmin⟩ := ih hr
      split at h
      · rename_i hp
        obtain rfl := Option.some.inj h
        have k := (preferred_spec tp a b).1 hp
        exact ⟨List.mem_cons_self, fun x hx => by
          rcases List.mem_cons.1 hx with rfl | hx
          · exact NoneBetter.refl tp x
          · exact k.trans (hmin x hx)⟩
      · rename_i hp
        obtain rfl := Option.some.inj h
        have k := (preferred_spec tp a b).2 (Bool.eq_false_iff.2 hp)
        exact ⟨List.mem_cons_of_mem _ hb, fun x hx => by
          rcases List.mem_cons.1 hx with rfl | hx
          · exact k
          · exact hmin x hx⟩

end Sys2Proof.Machine
end

