-- ==== Sys2Proof/Laws/State.lean ====
section
/-! SUPPORT. The fields each named update of the part leaves alone: one lemma per update, a conjunction of
one equation per field, so that a later proof rewrites a field through an update and unfolds no record. -/

namespace Sys2Proof.Machine

/-- `latch` (R52). -/
@[simp] theorem latch_keeps (c : Condition) (p : Part) :
    (latch c p).clearing = p.clearing ∧ (latch c p).clearFor = p.clearFor ∧ (latch c p).time =
      p.time ∧ (latch c p).clock = p.clock ∧ (latch c p).satTaken = p.satTaken ∧ (latch c p).arb
      = p.arb ∧ (latch c p).port = p.port ∧ (latch c p).softReset = p.softReset ∧ (latch c
      p).lastTransfer = p.lastTransfer ∧ (latch c p).lastCommand = p.lastCommand ∧ (latch c
      p).prevCommand = p.prevCommand ∧ (latch c p).attnEnables = p.attnEnables ∧ (latch c
      p).slot = p.slot ∧ (latch c p).svcLine = p.svcLine ∧ (latch c p).setupLoaded =
      p.setupLoaded ∧ (latch c p).setup = p.setup ∧ (latch c p).reader = p.reader ∧ (latch c
      p).report = p.report ∧ (latch c p).listen = p.listen ∧ (latch c p).follower = p.follower ∧
      (latch c p).player = p.player ∧ (latch c p).sched = p.sched ∧ (latch c p).keys = p.keys ∧
      (latch c p).chain = p.chain ∧ (latch c p).supply = p.supply ∧ (latch c p).guard = p.guard
      ∧ (latch c p).power = p.power ∧ (latch c p).fresh = p.fresh :=
  ⟨rfl, rfl, rfl, rfl, rfl, rfl, rfl, rfl, rfl, rfl, rfl, rfl, rfl, rfl, rfl, rfl, rfl, rfl,
    rfl, rfl, rfl, rfl, rfl, rfl, rfl, rfl, rfl, rfl⟩

/-- `latchIf` (R52). -/
@[simp] theorem latchIf_keeps (b : Bool) (c : Condition) (p : Part) :
    (latchIf b c p).clearing = p.clearing ∧ (latchIf b c p).clearFor = p.clearFor ∧ (latchIf b c
      p).time = p.time ∧ (latchIf b c p).clock = p.clock ∧ (latchIf b c p).satTaken = p.satTaken
      ∧ (latchIf b c p).arb = p.arb ∧ (latchIf b c p).port = p.port ∧ (latchIf b c p).softReset
      = p.softReset ∧ (latchIf b c p).lastTransfer = p.lastTransfer ∧ (latchIf b c
      p).lastCommand = p.lastCommand ∧ (latchIf b c p).prevCommand = p.prevCommand ∧ (latchIf b
      c p).attnEnables = p.attnEnables ∧ (latchIf b c p).slot = p.slot ∧ (latchIf b c p).svcLine
      = p.svcLine ∧ (latchIf b c p).setupLoaded = p.setupLoaded ∧ (latchIf b c p).setup =
      p.setup ∧ (latchIf b c p).reader = p.reader ∧ (latchIf b c p).report = p.report ∧ (latchIf
      b c p).listen = p.listen ∧ (latchIf b c p).follower = p.follower ∧ (latchIf b c p).player
      = p.player ∧ (latchIf b c p).sched = p.sched ∧ (latchIf b c p).keys = p.keys ∧ (latchIf b
      c p).chain = p.chain ∧ (latchIf b c p).supply = p.supply ∧ (latchIf b c p).guard = p.guard
      ∧ (latchIf b c p).power = p.power ∧ (latchIf b c p).fresh = p.fresh := by
  unfold latchIf
  split <;> simp

/-- `closeSlot` (R42, R43). -/
@[simp] theorem closeSlot_keeps (o : SlotOutcome) (d : SlotDetail) (p : Part) :
    (closeSlot o d p).clearing = p.clearing ∧ (closeSlot o d p).clearFor = p.clearFor ∧
      (closeSlot o d p).time = p.time ∧ (closeSlot o d p).clock = p.clock ∧ (closeSlot o d
      p).satTaken = p.satTaken ∧ (closeSlot o d p).arb = p.arb ∧ (closeSlot o d p).port = p.port
      ∧ (closeSlot o d p).softReset = p.softReset ∧ (closeSlot o d p).lastTransfer =
      p.lastTransfer ∧ (closeSlot o d p).lastCommand = p.lastCommand ∧ (closeSlot o d
      p).prevCommand = p.prevCommand ∧ (closeSlot o d p).attention = p.attention ∧ (closeSlot o
      d p).attnEnables = p.attnEnables ∧ (closeSlot o d p).setupLoaded = p.setupLoaded ∧
      (closeSlot o d p).setup = p.setup ∧ (closeSlot o d p).reader = p.reader ∧ (closeSlot o d
      p).report = p.report ∧ (closeSlot o d p).listen = p.listen ∧ (closeSlot o d p).follower =
      p.follower ∧ (closeSlot o d p).player = p.player ∧ (closeSlot o d p).sched = p.sched ∧
      (closeSlot o d p).keys = p.keys ∧ (closeSlot o d p).chain = p.chain ∧ (closeSlot o d
      p).supply = p.supply ∧ (closeSlot o d p).guard = p.guard ∧ (closeSlot o d p).power =
      p.power ∧ (closeSlot o d p).fresh = p.fresh :=
  ⟨rfl, rfl, rfl, rfl, rfl, rfl, rfl, rfl, rfl, rfl, rfl, rfl, rfl, rfl, rfl, rfl, rfl, rfl,
    rfl, rfl, rfl, rfl, rfl, rfl, rfl, rfl, rfl⟩

/-- `recordFault` (R177). -/
@[simp] theorem recordFault_keeps (n : OutputId) (k : FaultKind) (p : Part) :
    (recordFault n k p).clearing = p.clearing ∧ (recordFault n k p).clearFor = p.clearFor ∧
      (recordFault n k p).time = p.time ∧ (recordFault n k p).clock = p.clock ∧ (recordFault n k
      p).satTaken = p.satTaken ∧ (recordFault n k p).arb = p.arb ∧ (recordFault n k p).port =
      p.port ∧ (recordFault n k p).softReset = p.softReset ∧ (recordFault n k p).lastTransfer =
      p.lastTransfer ∧ (recordFault n k p).lastCommand = p.lastCommand ∧ (recordFault n k
      p).prevCommand = p.prevCommand ∧ (recordFault n k p).attention = p.attention ∧
      (recordFault n k p).attnEnables = p.attnEnables ∧ (recordFault n k p).slot = p.slot ∧
      (recordFault n k p).setupLoaded = p.setupLoaded ∧ (recordFault n k p).setup = p.setup ∧
      (recordFault n k p).reader = p.reader ∧ (recordFault n k p).report = p.report ∧
      (recordFault n k p).listen = p.listen ∧ (recordFault n k p).follower = p.follower ∧
      (recordFault n k p).player = p.player ∧ (recordFault n k p).sched = p.sched ∧ (recordFault
      n k p).keys = p.keys ∧ (recordFault n k p).chain = p.chain ∧ (recordFault n k p).supply =
      p.supply ∧ (recordFault n k p).guard = p.guard ∧ (recordFault n k p).power = p.power ∧
      (recordFault n k p).fresh = p.fresh :=
  ⟨rfl, rfl, rfl, rfl, rfl, rfl, rfl, rfl, rfl, rfl, rfl, rfl, rfl, rfl, rfl, rfl, rfl, rfl,
    rfl, rfl, rfl, rfl, rfl, rfl, rfl, rfl, rfl, rfl⟩

/-- `recordPass` (R179). -/
@[simp] theorem recordPass_keeps (n : OutputId) (p : Part) :
    (recordPass n p).clearing = p.clearing ∧ (recordPass n p).clearFor = p.clearFor ∧
      (recordPass n p).time = p.time ∧ (recordPass n p).clock = p.clock ∧ (recordPass n
      p).satTaken = p.satTaken ∧ (recordPass n p).arb = p.arb ∧ (recordPass n p).port = p.port ∧
      (recordPass n p).softReset = p.softReset ∧ (recordPass n p).lastTransfer = p.lastTransfer
      ∧ (recordPass n p).lastCommand = p.lastCommand ∧ (recordPass n p).prevCommand =
      p.prevCommand ∧ (recordPass n p).attention = p.attention ∧ (recordPass n p).attnEnables =
      p.attnEnables ∧ (recordPass n p).slot = p.slot ∧ (recordPass n p).setupLoaded =
      p.setupLoaded ∧ (recordPass n p).setup = p.setup ∧ (recordPass n p).reader = p.reader ∧
      (recordPass n p).report = p.report ∧ (recordPass n p).listen = p.listen ∧ (recordPass n
      p).follower = p.follower ∧ (recordPass n p).player = p.player ∧ (recordPass n p).sched =
      p.sched ∧ (recordPass n p).keys = p.keys ∧ (recordPass n p).chain = p.chain ∧ (recordPass
      n p).supply = p.supply ∧ (recordPass n p).guard = p.guard ∧ (recordPass n p).power =
      p.power ∧ (recordPass n p).fresh = p.fresh :=
  ⟨rfl, rfl, rfl, rfl, rfl, rfl, rfl, rfl, rfl, rfl, rfl, rfl, rfl, rfl, rfl, rfl, rfl, rfl,
    rfl, rfl, rfl, rfl, rfl, rfl, rfl, rfl, rfl, rfl⟩

/-- `askService` (R39). -/
@[simp] theorem askService_keeps (a : SvcAccess) (p : Part) :
    (askService a p).clearing = p.clearing ∧ (askService a p).clearFor = p.clearFor ∧
      (askService a p).time = p.time ∧ (askService a p).clock = p.clock ∧ (askService a
      p).satTaken = p.satTaken ∧ (askService a p).arb = p.arb ∧ (askService a p).port = p.port ∧
      (askService a p).softReset = p.softReset ∧ (askService a p).lastTransfer = p.lastTransfer
      ∧ (askService a p).lastCommand = p.lastCommand ∧ (askService a p).prevCommand =
      p.prevCommand ∧ (askService a p).attention = p.attention ∧ (askService a p).attnEnables =
      p.attnEnables ∧ (askService a p).slot = p.slot ∧ (askService a p).setupLoaded =
      p.setupLoaded ∧ (askService a p).setup = p.setup ∧ (askService a p).reader = p.reader ∧
      (askService a p).report = p.report ∧ (askService a p).listen = p.listen ∧ (askService a
      p).follower = p.follower ∧ (askService a p).player = p.player ∧ (askService a p).sched =
      p.sched ∧ (askService a p).keys = p.keys ∧ (askService a p).chain = p.chain ∧ (askService
      a p).supply = p.supply ∧ (askService a p).guard = p.guard ∧ (askService a p).power =
      p.power ∧ (askService a p).fresh = p.fresh :=
  ⟨rfl, rfl, rfl, rfl, rfl, rfl, rfl, rfl, rfl, rfl, rfl, rfl, rfl, rfl, rfl, rfl, rfl, rfl,
    rfl, rfl, rfl, rfl, rfl, rfl, rfl, rfl, rfl, rfl⟩

/-- `resumeService` (R39). -/
@[simp] theorem resumeService_keeps (a : SvcAccess) (p : Part) :
    (resumeService a p).clearing = p.clearing ∧ (resumeService a p).clearFor = p.clearFor ∧
      (resumeService a p).time = p.time ∧ (resumeService a p).clock = p.clock ∧ (resumeService a
      p).satTaken = p.satTaken ∧ (resumeService a p).arb = p.arb ∧ (resumeService a p).port =
      p.port ∧ (resumeService a p).softReset = p.softReset ∧ (resumeService a p).lastTransfer =
      p.lastTransfer ∧ (resumeService a p).lastCommand = p.lastCommand ∧ (resumeService a
      p).prevCommand = p.prevCommand ∧ (resumeService a p).attention = p.attention ∧
      (resumeService a p).attnEnables = p.attnEnables ∧ (resumeService a p).slot = p.slot ∧
      (resumeService a p).setupLoaded = p.setupLoaded ∧ (resumeService a p).setup = p.setup ∧
      (resumeService a p).reader = p.reader ∧ (resumeService a p).report = p.report ∧
      (resumeService a p).listen = p.listen ∧ (resumeService a p).follower = p.follower ∧
      (resumeService a p).player = p.player ∧ (resumeService a p).sched = p.sched ∧
      (resumeService a p).keys = p.keys ∧ (resumeService a p).chain = p.chain ∧ (resumeService a
      p).supply = p.supply ∧ (resumeService a p).guard = p.guard ∧ (resumeService a p).power =
      p.power ∧ (resumeService a p).fresh = p.fresh :=
  ⟨rfl, rfl, rfl, rfl, rfl, rfl, rfl, rfl, rfl, rfl, rfl, rfl, rfl, rfl, rfl, rfl, rfl, rfl,
    rfl, rfl, rfl, rfl, rfl, rfl, rfl, rfl, rfl, rfl⟩

/-- `slotPhase` (R41). -/
@[simp] theorem slotPhase_keeps (ph : SlotPhase) (p : Part) :
    (slotPhase ph p).clearing = p.clearing ∧ (slotPhase ph p).clearFor = p.clearFor ∧ (slotPhase
      ph p).time = p.time ∧ (slotPhase ph p).clock = p.clock ∧ (slotPhase ph p).satTaken =
      p.satTaken ∧ (slotPhase ph p).arb = p.arb ∧ (slotPhase ph p).port = p.port ∧ (slotPhase ph
      p).softReset = p.softReset ∧ (slotPhase ph p).lastTransfer = p.lastTransfer ∧ (slotPhase
      ph p).lastCommand = p.lastCommand ∧ (slotPhase ph p).prevCommand = p.prevCommand ∧
      (slotPhase ph p).attention = p.attention ∧ (slotPhase ph p).attnEnables = p.attnEnables ∧
      (slotPhase ph p).svcLine = p.svcLine ∧ (slotPhase ph p).setupLoaded = p.setupLoaded ∧
      (slotPhase ph p).setup = p.setup ∧ (slotPhase ph p).reader = p.reader ∧ (slotPhase ph
      p).report = p.report ∧ (slotPhase ph p).listen = p.listen ∧ (slotPhase ph p).follower =
      p.follower ∧ (slotPhase ph p).player = p.player ∧ (slotPhase ph p).sched = p.sched ∧
      (slotPhase ph p).keys = p.keys ∧ (slotPhase ph p).chain = p.chain ∧ (slotPhase ph
      p).supply = p.supply ∧ (slotPhase ph p).guard = p.guard ∧ (slotPhase ph p).power = p.power
      ∧ (slotPhase ph p).fresh = p.fresh :=
  ⟨rfl, rfl, rfl, rfl, rfl, rfl, rfl, rfl, rfl, rfl, rfl, rfl, rfl, rfl, rfl, rfl, rfl, rfl,
    rfl, rfl, rfl, rfl, rfl, rfl, rfl, rfl, rfl, rfl⟩

/-- `recordTransfer` (R40). -/
@[simp] theorem recordTransfer_keeps (r : TransferResult) (p : Part) :
    (recordTransfer r p).clearing = p.clearing ∧ (recordTransfer r p).clearFor = p.clearFor ∧
      (recordTransfer r p).time = p.time ∧ (recordTransfer r p).clock = p.clock ∧
      (recordTransfer r p).satTaken = p.satTaken ∧ (recordTransfer r p).arb = p.arb ∧
      (recordTransfer r p).port = p.port ∧ (recordTransfer r p).softReset = p.softReset ∧
      (recordTransfer r p).lastCommand = p.lastCommand ∧ (recordTransfer r p).prevCommand =
      p.prevCommand ∧ (recordTransfer r p).attention = p.attention ∧ (recordTransfer r
      p).attnEnables = p.attnEnables ∧ (recordTransfer r p).slot = p.slot ∧ (recordTransfer r
      p).svcLine = p.svcLine ∧ (recordTransfer r p).setupLoaded = p.setupLoaded ∧
      (recordTransfer r p).setup = p.setup ∧ (recordTransfer r p).reader = p.reader ∧
      (recordTransfer r p).report = p.report ∧ (recordTransfer r p).listen = p.listen ∧
      (recordTransfer r p).follower = p.follower ∧ (recordTransfer r p).player = p.player ∧
      (recordTransfer r p).sched = p.sched ∧ (recordTransfer r p).keys = p.keys ∧
      (recordTransfer r p).chain = p.chain ∧ (recordTransfer r p).supply = p.supply ∧
      (recordTransfer r p).guard = p.guard ∧ (recordTransfer r p).power = p.power ∧
      (recordTransfer r p).fresh = p.fresh :=
  ⟨rfl, rfl, rfl, rfl, rfl, rfl, rfl, rfl, rfl, rfl, rfl, rfl, rfl, rfl, rfl, rfl, rfl, rfl,
    rfl, rfl, rfl, rfl, rfl, rfl, rfl, rfl, rfl, rfl⟩

/-- `rejectTransfer` (R40). -/
@[simp] theorem rejectTransfer_keeps (r : TransferResult) (p : Part) :
    (rejectTransfer r p).clearing = p.clearing ∧ (rejectTransfer r p).clearFor = p.clearFor ∧
      (rejectTransfer r p).time = p.time ∧ (rejectTransfer r p).clock = p.clock ∧
      (rejectTransfer r p).satTaken = p.satTaken ∧ (rejectTransfer r p).arb = p.arb ∧
      (rejectTransfer r p).port = p.port ∧ (rejectTransfer r p).softReset = p.softReset ∧
      (rejectTransfer r p).lastCommand = p.lastCommand ∧ (rejectTransfer r p).prevCommand =
      p.prevCommand ∧ (rejectTransfer r p).attnEnables = p.attnEnables ∧ (rejectTransfer r
      p).slot = p.slot ∧ (rejectTransfer r p).svcLine = p.svcLine ∧ (rejectTransfer r
      p).setupLoaded = p.setupLoaded ∧ (rejectTransfer r p).setup = p.setup ∧ (rejectTransfer r
      p).reader = p.reader ∧ (rejectTransfer r p).report = p.report ∧ (rejectTransfer r
      p).listen = p.listen ∧ (rejectTransfer r p).follower = p.follower ∧ (rejectTransfer r
      p).player = p.player ∧ (rejectTransfer r p).sched = p.sched ∧ (rejectTransfer r p).keys =
      p.keys ∧ (rejectTransfer r p).chain = p.chain ∧ (rejectTransfer r p).supply = p.supply ∧
      (rejectTransfer r p).guard = p.guard ∧ (rejectTransfer r p).power = p.power ∧
      (rejectTransfer r p).fresh = p.fresh :=
  ⟨rfl, rfl, rfl, rfl, rfl, rfl, rfl, rfl, rfl, rfl, rfl, rfl, rfl, rfl, rfl, rfl, rfl, rfl,
    rfl, rfl, rfl, rfl, rfl, rfl, rfl, rfl, rfl⟩

/-- `putPort` (R38). -/
@[simp] theorem putPort_keeps (ws : List Word) (l : List PortAccess) (p : Part) :
    (putPort ws l p).clearing = p.clearing ∧ (putPort ws l p).clearFor = p.clearFor ∧ (putPort
      ws l p).time = p.time ∧ (putPort ws l p).clock = p.clock ∧ (putPort ws l p).satTaken =
      p.satTaken ∧ (putPort ws l p).arb = p.arb ∧ (putPort ws l p).softReset = p.softReset ∧
      (putPort ws l p).lastTransfer = p.lastTransfer ∧ (putPort ws l p).lastCommand =
      p.lastCommand ∧ (putPort ws l p).prevCommand = p.prevCommand ∧ (putPort ws l p).attention
      = p.attention ∧ (putPort ws l p).attnEnables = p.attnEnables ∧ (putPort ws l p).slot =
      p.slot ∧ (putPort ws l p).svcLine = p.svcLine ∧ (putPort ws l p).setupLoaded =
      p.setupLoaded ∧ (putPort ws l p).setup = p.setup ∧ (putPort ws l p).reader = p.reader ∧
      (putPort ws l p).report = p.report ∧ (putPort ws l p).listen = p.listen ∧ (putPort ws l
      p).follower = p.follower ∧ (putPort ws l p).player = p.player ∧ (putPort ws l p).sched =
      p.sched ∧ (putPort ws l p).keys = p.keys ∧ (putPort ws l p).chain = p.chain ∧ (putPort ws
      l p).supply = p.supply ∧ (putPort ws l p).guard = p.guard ∧ (putPort ws l p).power =
      p.power ∧ (putPort ws l p).fresh = p.fresh :=
  ⟨rfl, rfl, rfl, rfl, rfl, rfl, rfl, rfl, rfl, rfl, rfl, rfl, rfl, rfl, rfl, rfl, rfl, rfl,
    rfl, rfl, rfl, rfl, rfl, rfl, rfl, rfl, rfl, rfl⟩

/-- `putDetector` (R172). -/
@[simp] theorem putDetector_keeps (n : OutputId) (d : Detector) (p : Part) :
    (putDetector n d p).clearing = p.clearing ∧ (putDetector n d p).clearFor = p.clearFor ∧
      (putDetector n d p).time = p.time ∧ (putDetector n d p).clock = p.clock ∧ (putDetector n d
      p).satTaken = p.satTaken ∧ (putDetector n d p).arb = p.arb ∧ (putDetector n d p).port =
      p.port ∧ (putDetector n d p).softReset = p.softReset ∧ (putDetector n d p).lastTransfer =
      p.lastTransfer ∧ (putDetector n d p).lastCommand = p.lastCommand ∧ (putDetector n d
      p).prevCommand = p.prevCommand ∧ (putDetector n d p).attention = p.attention ∧
      (putDetector n d p).attnEnables = p.attnEnables ∧ (putDetector n d p).slot = p.slot ∧
      (putDetector n d p).svcLine = p.svcLine ∧ (putDetector n d p).setupLoaded = p.setupLoaded
      ∧ (putDetector n d p).setup = p.setup ∧ (putDetector n d p).reader = p.reader ∧
      (putDetector n d p).report = p.report ∧ (putDetector n d p).listen = p.listen ∧
      (putDetector n d p).follower = p.follower ∧ (putDetector n d p).player = p.player ∧
      (putDetector n d p).sched = p.sched ∧ (putDetector n d p).keys = p.keys ∧ (putDetector n d
      p).chain = p.chain ∧ (putDetector n d p).supply = p.supply ∧ (putDetector n d p).power =
      p.power ∧ (putDetector n d p).fresh = p.fresh :=
  ⟨rfl, rfl, rfl, rfl, rfl, rfl, rfl, rfl, rfl, rfl, rfl, rfl, rfl, rfl, rfl, rfl, rfl, rfl,
    rfl, rfl, rfl, rfl, rfl, rfl, rfl, rfl, rfl, rfl⟩

/-- `setTestStage` (R179). -/
@[simp] theorem setTestStage_keeps (t : TestStage) (p : Part) :
    (setTestStage t p).clearing = p.clearing ∧ (setTestStage t p).clearFor = p.clearFor ∧
      (setTestStage t p).time = p.time ∧ (setTestStage t p).clock = p.clock ∧ (setTestStage t
      p).satTaken = p.satTaken ∧ (setTestStage t p).arb = p.arb ∧ (setTestStage t p).port =
      p.port ∧ (setTestStage t p).softReset = p.softReset ∧ (setTestStage t p).lastTransfer =
      p.lastTransfer ∧ (setTestStage t p).lastCommand = p.lastCommand ∧ (setTestStage t
      p).prevCommand = p.prevCommand ∧ (setTestStage t p).attention = p.attention ∧
      (setTestStage t p).attnEnables = p.attnEnables ∧ (setTestStage t p).slot = p.slot ∧
      (setTestStage t p).svcLine = p.svcLine ∧ (setTestStage t p).setupLoaded = p.setupLoaded ∧
      (setTestStage t p).setup = p.setup ∧ (setTestStage t p).reader = p.reader ∧ (setTestStage
      t p).report = p.report ∧ (setTestStage t p).listen = p.listen ∧ (setTestStage t
      p).follower = p.follower ∧ (setTestStage t p).player = p.player ∧ (setTestStage t p).sched
      = p.sched ∧ (setTestStage t p).keys = p.keys ∧ (setTestStage t p).chain = p.chain ∧
      (setTestStage t p).supply = p.supply ∧ (setTestStage t p).power = p.power ∧ (setTestStage
      t p).fresh = p.fresh :=
  ⟨rfl, rfl, rfl, rfl, rfl, rfl, rfl, rfl, rfl, rfl, rfl, rfl, rfl, rfl, rfl, rfl, rfl, rfl,
    rfl, rfl, rfl, rfl, rfl, rfl, rfl, rfl, rfl, rfl⟩

/-- `setEntry` (R146). -/
@[simp] theorem setEntry_keeps (n : OutputId) (e : KeyEntry) (p : Part) :
    (setEntry n e p).clearing = p.clearing ∧ (setEntry n e p).clearFor = p.clearFor ∧ (setEntry
      n e p).time = p.time ∧ (setEntry n e p).clock = p.clock ∧ (setEntry n e p).satTaken =
      p.satTaken ∧ (setEntry n e p).arb = p.arb ∧ (setEntry n e p).port = p.port ∧ (setEntry n e
      p).softReset = p.softReset ∧ (setEntry n e p).lastTransfer = p.lastTransfer ∧ (setEntry n
      e p).lastCommand = p.lastCommand ∧ (setEntry n e p).prevCommand = p.prevCommand ∧
      (setEntry n e p).attention = p.attention ∧ (setEntry n e p).attnEnables = p.attnEnables ∧
      (setEntry n e p).slot = p.slot ∧ (setEntry n e p).svcLine = p.svcLine ∧ (setEntry n e
      p).setupLoaded = p.setupLoaded ∧ (setEntry n e p).setup = p.setup ∧ (setEntry n e
      p).reader = p.reader ∧ (setEntry n e p).report = p.report ∧ (setEntry n e p).listen =
      p.listen ∧ (setEntry n e p).follower = p.follower ∧ (setEntry n e p).player = p.player ∧
      (setEntry n e p).sched = p.sched ∧ (setEntry n e p).chain = p.chain ∧ (setEntry n e
      p).supply = p.supply ∧ (setEntry n e p).power = p.power ∧ (setEntry n e p).fresh = p.fresh :=
  ⟨rfl, rfl, rfl, rfl, rfl, rfl, rfl, rfl, rfl, rfl, rfl, rfl, rfl, rfl, rfl, rfl, rfl, rfl,
    rfl, rfl, rfl, rfl, rfl, rfl, rfl, rfl, rfl⟩

/-- `setAllEntries` (R146). -/
@[simp] theorem setAllEntries_keeps (f : KeyEntry → KeyEntry) (p : Part) :
    (setAllEntries f p).clearing = p.clearing ∧ (setAllEntries f p).clearFor = p.clearFor ∧
      (setAllEntries f p).time = p.time ∧ (setAllEntries f p).clock = p.clock ∧ (setAllEntries f
      p).satTaken = p.satTaken ∧ (setAllEntries f p).arb = p.arb ∧ (setAllEntries f p).port =
      p.port ∧ (setAllEntries f p).softReset = p.softReset ∧ (setAllEntries f p).lastTransfer =
      p.lastTransfer ∧ (setAllEntries f p).lastCommand = p.lastCommand ∧ (setAllEntries f
      p).prevCommand = p.prevCommand ∧ (setAllEntries f p).attention = p.attention ∧
      (setAllEntries f p).attnEnables = p.attnEnables ∧ (setAllEntries f p).slot = p.slot ∧
      (setAllEntries f p).svcLine = p.svcLine ∧ (setAllEntries f p).setupLoaded = p.setupLoaded
      ∧ (setAllEntries f p).setup = p.setup ∧ (setAllEntries f p).reader = p.reader ∧
      (setAllEntries f p).report = p.report ∧ (setAllEntries f p).listen = p.listen ∧
      (setAllEntries f p).follower = p.follower ∧ (setAllEntries f p).player = p.player ∧
      (setAllEntries f p).sched = p.sched ∧ (setAllEntries f p).chain = p.chain ∧ (setAllEntries
      f p).supply = p.supply ∧ (setAllEntries f p).power = p.power ∧ (setAllEntries f p).fresh =
      p.fresh :=
  ⟨rfl, rfl, rfl, rfl, rfl, rfl, rfl, rfl, rfl, rfl, rfl, rfl, rfl, rfl, rfl, rfl, rfl, rfl,
    rfl, rfl, rfl, rfl, rfl, rfl, rfl, rfl, rfl⟩

/-- `spendFresh` (log 18). -/
@[simp] theorem spendFresh_keeps (b : Bool) (p : Part) :
    (spendFresh b p).clearing = p.clearing ∧ (spendFresh b p).clearFor = p.clearFor ∧
      (spendFresh b p).time = p.time ∧ (spendFresh b p).clock = p.clock ∧ (spendFresh b
      p).satTaken = p.satTaken ∧ (spendFresh b p).arb = p.arb ∧ (spendFresh b p).port = p.port ∧
      (spendFresh b p).softReset = p.softReset ∧ (spendFresh b p).lastTransfer = p.lastTransfer
      ∧ (spendFresh b p).lastCommand = p.lastCommand ∧ (spendFresh b p).prevCommand =
      p.prevCommand ∧ (spendFresh b p).attention = p.attention ∧ (spendFresh b p).attnEnables =
      p.attnEnables ∧ (spendFresh b p).slot = p.slot ∧ (spendFresh b p).svcLine = p.svcLine ∧
      (spendFresh b p).setupLoaded = p.setupLoaded ∧ (spendFresh b p).setup = p.setup ∧
      (spendFresh b p).reader = p.reader ∧ (spendFresh b p).report = p.report ∧ (spendFresh b
      p).listen = p.listen ∧ (spendFresh b p).follower = p.follower ∧ (spendFresh b p).player =
      p.player ∧ (spendFresh b p).sched = p.sched ∧ (spendFresh b p).keys = p.keys ∧ (spendFresh
      b p).chain = p.chain ∧ (spendFresh b p).supply = p.supply ∧ (spendFresh b p).guard =
      p.guard ∧ (spendFresh b p).power = p.power := by
  unfold spendFresh
  split <;> simp

/-- `enterSettle` (R149). -/
@[simp] theorem enterSettle_keeps (n : OutputId) (p : Part) :
    (enterSettle n p).clearing = p.clearing ∧ (enterSettle n p).clearFor = p.clearFor ∧
      (enterSettle n p).time = p.time ∧ (enterSettle n p).clock = p.clock ∧ (enterSettle n
      p).satTaken = p.satTaken ∧ (enterSettle n p).arb = p.arb ∧ (enterSettle n p).port = p.port
      ∧ (enterSettle n p).softReset = p.softReset ∧ (enterSettle n p).lastTransfer =
      p.lastTransfer ∧ (enterSettle n p).lastCommand = p.lastCommand ∧ (enterSettle n
      p).prevCommand = p.prevCommand ∧ (enterSettle n p).attention = p.attention ∧ (enterSettle
      n p).attnEnables = p.attnEnables ∧ (enterSettle n p).slot = p.slot ∧ (enterSettle n
      p).svcLine = p.svcLine ∧ (enterSettle n p).setupLoaded = p.setupLoaded ∧ (enterSettle n
      p).setup = p.setup ∧ (enterSettle n p).reader = p.reader ∧ (enterSettle n p).report =
      p.report ∧ (enterSettle n p).listen = p.listen ∧ (enterSettle n p).follower = p.follower ∧
      (enterSettle n p).player = p.player ∧ (enterSettle n p).sched = p.sched ∧ (enterSettle n
      p).chain = p.chain ∧ (enterSettle n p).supply = p.supply ∧ (enterSettle n p).power =
      p.power := by simp [enterSettle]

/-- `joinQueue` (R150). -/
@[simp] theorem joinQueue_keeps (n : OutputId) (k : OutputKind) (c : Nat) (p : Part) :
    (joinQueue n k c p).clearing = p.clearing ∧ (joinQueue n k c p).clearFor = p.clearFor ∧
      (joinQueue n k c p).time = p.time ∧ (joinQueue n k c p).clock = p.clock ∧ (joinQueue n k c
      p).satTaken = p.satTaken ∧ (joinQueue n k c p).arb = p.arb ∧ (joinQueue n k c p).port =
      p.port ∧ (joinQueue n k c p).softReset = p.softReset ∧ (joinQueue n k c p).lastTransfer =
      p.lastTransfer ∧ (joinQueue n k c p).lastCommand = p.lastCommand ∧ (joinQueue n k c
      p).prevCommand = p.prevCommand ∧ (joinQueue n k c p).attnEnables = p.attnEnables ∧
      (joinQueue n k c p).slot = p.slot ∧ (joinQueue n k c p).svcLine = p.svcLine ∧ (joinQueue n
      k c p).setupLoaded = p.setupLoaded ∧ (joinQueue n k c p).setup = p.setup ∧ (joinQueue n k
      c p).reader = p.reader ∧ (joinQueue n k c p).report = p.report ∧ (joinQueue n k c
      p).listen = p.listen ∧ (joinQueue n k c p).follower = p.follower ∧ (joinQueue n k c
      p).player = p.player ∧ (joinQueue n k c p).sched = p.sched ∧ (joinQueue n k c p).chain =
      p.chain ∧ (joinQueue n k c p).supply = p.supply ∧ (joinQueue n k c p).power = p.power ∧
      (joinQueue n k c p).fresh = p.fresh := by
  unfold joinQueue
  dsimp only
  split <;> simp

/-- `maskGrant` (R67). -/
@[simp] theorem maskGrant_keeps (d : Division) (k : Nat) (p : Part) :
    (maskGrant d k p).clearing = p.clearing ∧ (maskGrant d k p).clearFor = p.clearFor ∧
      (maskGrant d k p).time = p.time ∧ (maskGrant d k p).clock = p.clock ∧ (maskGrant d k
      p).satTaken = p.satTaken ∧ (maskGrant d k p).arb = p.arb ∧ (maskGrant d k p).port = p.port
      ∧ (maskGrant d k p).softReset = p.softReset ∧ (maskGrant d k p).lastTransfer =
      p.lastTransfer ∧ (maskGrant d k p).lastCommand = p.lastCommand ∧ (maskGrant d k
      p).prevCommand = p.prevCommand ∧ (maskGrant d k p).attention = p.attention ∧ (maskGrant d
      k p).attnEnables = p.attnEnables ∧ (maskGrant d k p).slot = p.slot ∧ (maskGrant d k
      p).svcLine = p.svcLine ∧ (maskGrant d k p).setupLoaded = p.setupLoaded ∧ (maskGrant d k
      p).setup = p.setup ∧ (maskGrant d k p).reader = p.reader ∧ (maskGrant d k p).report =
      p.report ∧ (maskGrant d k p).follower = p.follower ∧ (maskGrant d k p).player = p.player ∧
      (maskGrant d k p).sched = p.sched ∧ (maskGrant d k p).keys = p.keys ∧ (maskGrant d k
      p).chain = p.chain ∧ (maskGrant d k p).supply = p.supply ∧ (maskGrant d k p).guard =
      p.guard ∧ (maskGrant d k p).power = p.power ∧ (maskGrant d k p).fresh = p.fresh :=
  ⟨rfl, rfl, rfl, rfl, rfl, rfl, rfl, rfl, rfl, rfl, rfl, rfl, rfl, rfl, rfl, rfl, rfl, rfl,
    rfl, rfl, rfl, rfl, rfl, rfl, rfl, rfl, rfl, rfl⟩

/-- `grantOne` (R152). -/
@[simp] theorem grantOne_keeps (n : OutputId) (p : Part) :
    (grantOne n p).clearing = p.clearing ∧ (grantOne n p).clearFor = p.clearFor ∧ (grantOne n
      p).time = p.time ∧ (grantOne n p).clock = p.clock ∧ (grantOne n p).satTaken = p.satTaken ∧
      (grantOne n p).arb = p.arb ∧ (grantOne n p).port = p.port ∧ (grantOne n p).softReset =
      p.softReset ∧ (grantOne n p).lastTransfer = p.lastTransfer ∧ (grantOne n p).lastCommand =
      p.lastCommand ∧ (grantOne n p).prevCommand = p.prevCommand ∧ (grantOne n p).attention =
      p.attention ∧ (grantOne n p).attnEnables = p.attnEnables ∧ (grantOne n p).slot = p.slot ∧
      (grantOne n p).svcLine = p.svcLine ∧ (grantOne n p).setupLoaded = p.setupLoaded ∧
      (grantOne n p).setup = p.setup ∧ (grantOne n p).reader = p.reader ∧ (grantOne n p).report
      = p.report ∧ (grantOne n p).follower = p.follower ∧ (grantOne n p).player = p.player ∧
      (grantOne n p).sched = p.sched ∧ (grantOne n p).chain = p.chain ∧ (grantOne n p).supply =
      p.supply ∧ (grantOne n p).power = p.power ∧ (grantOne n p).fresh = p.fresh := by
  unfold grantOne
  dsimp only
  split
  · simp
  · split <;> simp

/-- `grantLoop` (R152). -/
@[simp] theorem grantLoop_keeps (l : List OutputId) (p : Part) :
    (grantLoop l p).clearing = p.clearing ∧ (grantLoop l p).clearFor = p.clearFor ∧ (grantLoop l
      p).time = p.time ∧ (grantLoop l p).clock = p.clock ∧ (grantLoop l p).satTaken = p.satTaken
      ∧ (grantLoop l p).arb = p.arb ∧ (grantLoop l p).port = p.port ∧ (grantLoop l p).softReset
      = p.softReset ∧ (grantLoop l p).lastTransfer = p.lastTransfer ∧ (grantLoop l
      p).lastCommand = p.lastCommand ∧ (grantLoop l p).prevCommand = p.prevCommand ∧ (grantLoop
      l p).attention = p.attention ∧ (grantLoop l p).attnEnables = p.attnEnables ∧ (grantLoop l
      p).slot = p.slot ∧ (grantLoop l p).svcLine = p.svcLine ∧ (grantLoop l p).setupLoaded =
      p.setupLoaded ∧ (grantLoop l p).setup = p.setup ∧ (grantLoop l p).reader = p.reader ∧
      (grantLoop l p).report = p.report ∧ (grantLoop l p).follower = p.follower ∧ (grantLoop l
      p).player = p.player ∧ (grantLoop l p).sched = p.sched ∧ (grantLoop l p).chain = p.chain ∧
      (grantLoop l p).supply = p.supply ∧ (grantLoop l p).power = p.power ∧ (grantLoop l
      p).fresh = p.fresh := by
  induction l generalizing p with
  | nil => simp [grantLoop]
  | cons n rest ih =>
    unfold grantLoop
    split
    · simp [ih]
    · simp

/-- `grants` (R152). -/
@[simp] theorem grants_keeps (p : Part) :
    (grants p).clearing = p.clearing ∧ (grants p).clearFor = p.clearFor ∧ (grants p).time =
      p.time ∧ (grants p).clock = p.clock ∧ (grants p).satTaken = p.satTaken ∧ (grants p).arb =
      p.arb ∧ (grants p).port = p.port ∧ (grants p).softReset = p.softReset ∧ (grants
      p).lastTransfer = p.lastTransfer ∧ (grants p).lastCommand = p.lastCommand ∧ (grants
      p).prevCommand = p.prevCommand ∧ (grants p).attention = p.attention ∧ (grants
      p).attnEnables = p.attnEnables ∧ (grants p).slot = p.slot ∧ (grants p).svcLine = p.svcLine
      ∧ (grants p).setupLoaded = p.setupLoaded ∧ (grants p).setup = p.setup ∧ (grants p).reader
      = p.reader ∧ (grants p).report = p.report ∧ (grants p).follower = p.follower ∧ (grants
      p).player = p.player ∧ (grants p).sched = p.sched ∧ (grants p).chain = p.chain ∧ (grants
      p).supply = p.supply ∧ (grants p).power = p.power ∧ (grants p).fresh = p.fresh := by simp [grants]

/-- `setSlotLimit` (R153). -/
@[simp] theorem setSlotLimit_keeps (k : Nat) (p : Part) :
    (setSlotLimit k p).clearing = p.clearing ∧ (setSlotLimit k p).clearFor = p.clearFor ∧
      (setSlotLimit k p).time = p.time ∧ (setSlotLimit k p).clock = p.clock ∧ (setSlotLimit k
      p).satTaken = p.satTaken ∧ (setSlotLimit k p).arb = p.arb ∧ (setSlotLimit k p).port =
      p.port ∧ (setSlotLimit k p).softReset = p.softReset ∧ (setSlotLimit k p).lastTransfer =
      p.lastTransfer ∧ (setSlotLimit k p).lastCommand = p.lastCommand ∧ (setSlotLimit k
      p).prevCommand = p.prevCommand ∧ (setSlotLimit k p).attention = p.attention ∧
      (setSlotLimit k p).attnEnables = p.attnEnables ∧ (setSlotLimit k p).slot = p.slot ∧
      (setSlotLimit k p).svcLine = p.svcLine ∧ (setSlotLimit k p).setupLoaded = p.setupLoaded ∧
      (setSlotLimit k p).setup = p.setup ∧ (setSlotLimit k p).reader = p.reader ∧ (setSlotLimit
      k p).report = p.report ∧ (setSlotLimit k p).follower = p.follower ∧ (setSlotLimit k
      p).player = p.player ∧ (setSlotLimit k p).sched = p.sched ∧ (setSlotLimit k p).chain =
      p.chain ∧ (setSlotLimit k p).supply = p.supply ∧ (setSlotLimit k p).power = p.power ∧
      (setSlotLimit k p).fresh = p.fresh := by simp [setSlotLimit]

/-- `askReader` (R39). -/
@[simp] theorem askReader_keeps (a : ReaderAccess) (p : Part) :
    (askReader a p).clearing = p.clearing ∧ (askReader a p).clearFor = p.clearFor ∧ (askReader a
      p).time = p.time ∧ (askReader a p).clock = p.clock ∧ (askReader a p).satTaken = p.satTaken
      ∧ (askReader a p).arb = p.arb ∧ (askReader a p).port = p.port ∧ (askReader a p).softReset
      = p.softReset ∧ (askReader a p).lastTransfer = p.lastTransfer ∧ (askReader a
      p).lastCommand = p.lastCommand ∧ (askReader a p).prevCommand = p.prevCommand ∧ (askReader
      a p).attention = p.attention ∧ (askReader a p).attnEnables = p.attnEnables ∧ (askReader a
      p).slot = p.slot ∧ (askReader a p).svcLine = p.svcLine ∧ (askReader a p).setupLoaded =
      p.setupLoaded ∧ (askReader a p).setup = p.setup ∧ (askReader a p).report = p.report ∧
      (askReader a p).listen = p.listen ∧ (askReader a p).follower = p.follower ∧ (askReader a
      p).player = p.player ∧ (askReader a p).sched = p.sched ∧ (askReader a p).keys = p.keys ∧
      (askReader a p).chain = p.chain ∧ (askReader a p).supply = p.supply ∧ (askReader a
      p).guard = p.guard ∧ (askReader a p).power = p.power ∧ (askReader a p).fresh = p.fresh :=
  ⟨rfl, rfl, rfl, rfl, rfl, rfl, rfl, rfl, rfl, rfl, rfl, rfl, rfl, rfl, rfl, rfl, rfl, rfl,
    rfl, rfl, rfl, rfl, rfl, rfl, rfl, rfl, rfl, rfl⟩

/-- `resumeReader` (R39). -/
@[simp] theorem resumeReader_keeps (a : ReaderAccess) (p : Part) :
    (resumeReader a p).clearing = p.clearing ∧ (resumeReader a p).clearFor = p.clearFor ∧
      (resumeReader a p).time = p.time ∧ (resumeReader a p).clock = p.clock ∧ (resumeReader a
      p).satTaken = p.satTaken ∧ (resumeReader a p).arb = p.arb ∧ (resumeReader a p).port =
      p.port ∧ (resumeReader a p).softReset = p.softReset ∧ (resumeReader a p).lastTransfer =
      p.lastTransfer ∧ (resumeReader a p).lastCommand = p.lastCommand ∧ (resumeReader a
      p).prevCommand = p.prevCommand ∧ (resumeReader a p).attention = p.attention ∧
      (resumeReader a p).attnEnables = p.attnEnables ∧ (resumeReader a p).slot = p.slot ∧
      (resumeReader a p).svcLine = p.svcLine ∧ (resumeReader a p).setupLoaded = p.setupLoaded ∧
      (resumeReader a p).setup = p.setup ∧ (resumeReader a p).report = p.report ∧ (resumeReader
      a p).listen = p.listen ∧ (resumeReader a p).follower = p.follower ∧ (resumeReader a
      p).player = p.player ∧ (resumeReader a p).sched = p.sched ∧ (resumeReader a p).keys =
      p.keys ∧ (resumeReader a p).chain = p.chain ∧ (resumeReader a p).supply = p.supply ∧
      (resumeReader a p).guard = p.guard ∧ (resumeReader a p).power = p.power ∧ (resumeReader a
      p).fresh = p.fresh :=
  ⟨rfl, rfl, rfl, rfl, rfl, rfl, rfl, rfl, rfl, rfl, rfl, rfl, rfl, rfl, rfl, rfl, rfl, rfl,
    rfl, rfl, rfl, rfl, rfl, rfl, rfl, rfl, rfl, rfl⟩

/-- `cutTake` (R22). -/
@[simp] theorem cutTake_keeps (p : Part) :
    (cutTake p).clearing = p.clearing ∧ (cutTake p).clearFor = p.clearFor ∧ (cutTake p).time =
      p.time ∧ (cutTake p).clock = p.clock ∧ (cutTake p).satTaken = p.satTaken ∧ (cutTake p).arb
      = p.arb ∧ (cutTake p).port = p.port ∧ (cutTake p).softReset = p.softReset ∧ (cutTake
      p).lastTransfer = p.lastTransfer ∧ (cutTake p).lastCommand = p.lastCommand ∧ (cutTake
      p).prevCommand = p.prevCommand ∧ (cutTake p).attention = p.attention ∧ (cutTake
      p).attnEnables = p.attnEnables ∧ (cutTake p).slot = p.slot ∧ (cutTake p).svcLine =
      p.svcLine ∧ (cutTake p).setupLoaded = p.setupLoaded ∧ (cutTake p).setup = p.setup ∧
      (cutTake p).report = p.report ∧ (cutTake p).listen = p.listen ∧ (cutTake p).follower =
      p.follower ∧ (cutTake p).player = p.player ∧ (cutTake p).sched = p.sched ∧ (cutTake
      p).keys = p.keys ∧ (cutTake p).chain = p.chain ∧ (cutTake p).supply = p.supply ∧ (cutTake
      p).guard = p.guard ∧ (cutTake p).power = p.power ∧ (cutTake p).fresh = p.fresh :=
  ⟨rfl, rfl, rfl, rfl, rfl, rfl, rfl, rfl, rfl, rfl, rfl, rfl, rfl, rfl, rfl, rfl, rfl, rfl,
    rfl, rfl, rfl, rfl, rfl, rfl, rfl, rfl, rfl, rfl⟩

/-- `beginTake` (R22). -/
@[simp] theorem beginTake_keeps (q : Nat) (b : Bool) (p : Part) :
    (beginTake q b p).clearing = p.clearing ∧ (beginTake q b p).clearFor = p.clearFor ∧
      (beginTake q b p).time = p.time ∧ (beginTake q b p).clock = p.clock ∧ (beginTake q b
      p).satTaken = p.satTaken ∧ (beginTake q b p).arb = p.arb ∧ (beginTake q b p).port = p.port
      ∧ (beginTake q b p).softReset = p.softReset ∧ (beginTake q b p).lastTransfer =
      p.lastTransfer ∧ (beginTake q b p).lastCommand = p.lastCommand ∧ (beginTake q b
      p).prevCommand = p.prevCommand ∧ (beginTake q b p).attention = p.attention ∧ (beginTake q
      b p).attnEnables = p.attnEnables ∧ (beginTake q b p).slot = p.slot ∧ (beginTake q b
      p).svcLine = p.svcLine ∧ (beginTake q b p).setupLoaded = p.setupLoaded ∧ (beginTake q b
      p).setup = p.setup ∧ (beginTake q b p).report = p.report ∧ (beginTake q b p).listen =
      p.listen ∧ (beginTake q b p).follower = p.follower ∧ (beginTake q b p).player = p.player ∧
      (beginTake q b p).sched = p.sched ∧ (beginTake q b p).keys = p.keys ∧ (beginTake q b
      p).chain = p.chain ∧ (beginTake q b p).supply = p.supply ∧ (beginTake q b p).guard =
      p.guard ∧ (beginTake q b p).power = p.power ∧ (beginTake q b p).fresh = p.fresh :=
  ⟨rfl, rfl, rfl, rfl, rfl, rfl, rfl, rfl, rfl, rfl, rfl, rfl, rfl, rfl, rfl, rfl, rfl, rfl,
    rfl, rfl, rfl, rfl, rfl, rfl, rfl, rfl, rfl, rfl⟩

/-- `takeOver` (R23). -/
@[simp] theorem takeOver_keeps (p : Part) :
    (takeOver p).clearing = p.clearing ∧ (takeOver p).clearFor = p.clearFor ∧ (takeOver p).time
      = p.time ∧ (takeOver p).clock = p.clock ∧ (takeOver p).satTaken = p.satTaken ∧ (takeOver
      p).arb = p.arb ∧ (takeOver p).port = p.port ∧ (takeOver p).softReset = p.softReset ∧
      (takeOver p).lastTransfer = p.lastTransfer ∧ (takeOver p).lastCommand = p.lastCommand ∧
      (takeOver p).prevCommand = p.prevCommand ∧ (takeOver p).attention = p.attention ∧
      (takeOver p).attnEnables = p.attnEnables ∧ (takeOver p).slot = p.slot ∧ (takeOver
      p).svcLine = p.svcLine ∧ (takeOver p).setupLoaded = p.setupLoaded ∧ (takeOver p).setup =
      p.setup ∧ (takeOver p).report = p.report ∧ (takeOver p).listen = p.listen ∧ (takeOver
      p).follower = p.follower ∧ (takeOver p).player = p.player ∧ (takeOver p).sched = p.sched ∧
      (takeOver p).keys = p.keys ∧ (takeOver p).chain = p.chain ∧ (takeOver p).supply = p.supply
      ∧ (takeOver p).guard = p.guard ∧ (takeOver p).power = p.power ∧ (takeOver p).fresh =
      p.fresh :=
  ⟨rfl, rfl, rfl, rfl, rfl, rfl, rfl, rfl, rfl, rfl, rfl, rfl, rfl, rfl, rfl, rfl, rfl, rfl,
    rfl, rfl, rfl, rfl, rfl, rfl, rfl, rfl, rfl, rfl⟩

/-- `abandonHeld` (R36). -/
@[simp] theorem abandonHeld_keeps (p : Part) :
    (abandonHeld p).clearing = p.clearing ∧ (abandonHeld p).clearFor = p.clearFor ∧ (abandonHeld
      p).time = p.time ∧ (abandonHeld p).clock = p.clock ∧ (abandonHeld p).satTaken = p.satTaken
      ∧ (abandonHeld p).arb = p.arb ∧ (abandonHeld p).port = p.port ∧ (abandonHeld p).softReset
      = p.softReset ∧ (abandonHeld p).lastTransfer = p.lastTransfer ∧ (abandonHeld
      p).lastCommand = p.lastCommand ∧ (abandonHeld p).prevCommand = p.prevCommand ∧
      (abandonHeld p).attention = p.attention ∧ (abandonHeld p).attnEnables = p.attnEnables ∧
      (abandonHeld p).slot = p.slot ∧ (abandonHeld p).svcLine = p.svcLine ∧ (abandonHeld
      p).setupLoaded = p.setupLoaded ∧ (abandonHeld p).setup = p.setup ∧ (abandonHeld p).report
      = p.report ∧ (abandonHeld p).listen = p.listen ∧ (abandonHeld p).follower = p.follower ∧
      (abandonHeld p).player = p.player ∧ (abandonHeld p).sched = p.sched ∧ (abandonHeld p).keys
      = p.keys ∧ (abandonHeld p).chain = p.chain ∧ (abandonHeld p).supply = p.supply ∧
      (abandonHeld p).guard = p.guard ∧ (abandonHeld p).power = p.power ∧ (abandonHeld p).fresh
      = p.fresh :=
  ⟨rfl, rfl, rfl, rfl, rfl, rfl, rfl, rfl, rfl, rfl, rfl, rfl, rfl, rfl, rfl, rfl, rfl, rfl,
    rfl, rfl, rfl, rfl, rfl, rfl, rfl, rfl, rfl, rfl⟩

/-- `served` (R39). -/
@[simp] theorem served_keeps (r : Requester) (p : Part) :
    (served r p).clearing = p.clearing ∧ (served r p).clearFor = p.clearFor ∧ (served r p).time
      = p.time ∧ (served r p).clock = p.clock ∧ (served r p).satTaken = p.satTaken ∧ (served r
      p).port = p.port ∧ (served r p).softReset = p.softReset ∧ (served r p).lastTransfer =
      p.lastTransfer ∧ (served r p).lastCommand = p.lastCommand ∧ (served r p).prevCommand =
      p.prevCommand ∧ (served r p).attention = p.attention ∧ (served r p).attnEnables =
      p.attnEnables ∧ (served r p).slot = p.slot ∧ (served r p).svcLine = p.svcLine ∧ (served r
      p).setupLoaded = p.setupLoaded ∧ (served r p).setup = p.setup ∧ (served r p).reader =
      p.reader ∧ (served r p).report = p.report ∧ (served r p).listen = p.listen ∧ (served r
      p).follower = p.follower ∧ (served r p).player = p.player ∧ (served r p).sched = p.sched ∧
      (served r p).keys = p.keys ∧ (served r p).chain = p.chain ∧ (served r p).supply = p.supply
      ∧ (served r p).guard = p.guard ∧ (served r p).power = p.power ∧ (served r p).fresh =
      p.fresh :=
  ⟨rfl, rfl, rfl, rfl, rfl, rfl, rfl, rfl, rfl, rfl, rfl, rfl, rfl, rfl, rfl, rfl, rfl, rfl,
    rfl, rfl, rfl, rfl, rfl, rfl, rfl, rfl, rfl, rfl⟩

/-- `startLookTimer` (R21). -/
@[simp] theorem startLookTimer_keeps (p : Part) :
    (startLookTimer p).clearing = p.clearing ∧ (startLookTimer p).clearFor = p.clearFor ∧
      (startLookTimer p).time = p.time ∧ (startLookTimer p).clock = p.clock ∧ (startLookTimer
      p).satTaken = p.satTaken ∧ (startLookTimer p).arb = p.arb ∧ (startLookTimer p).port =
      p.port ∧ (startLookTimer p).softReset = p.softReset ∧ (startLookTimer p).lastTransfer =
      p.lastTransfer ∧ (startLookTimer p).lastCommand = p.lastCommand ∧ (startLookTimer
      p).prevCommand = p.prevCommand ∧ (startLookTimer p).attention = p.attention ∧
      (startLookTimer p).attnEnables = p.attnEnables ∧ (startLookTimer p).slot = p.slot ∧
      (startLookTimer p).svcLine = p.svcLine ∧ (startLookTimer p).setupLoaded = p.setupLoaded ∧
      (startLookTimer p).setup = p.setup ∧ (startLookTimer p).report = p.report ∧
      (startLookTimer p).listen = p.listen ∧ (startLookTimer p).follower = p.follower ∧
      (startLookTimer p).player = p.player ∧ (startLookTimer p).sched = p.sched ∧
      (startLookTimer p).keys = p.keys ∧ (startLookTimer p).chain = p.chain ∧ (startLookTimer
      p).supply = p.supply ∧ (startLookTimer p).guard = p.guard ∧ (startLookTimer p).power =
      p.power ∧ (startLookTimer p).fresh = p.fresh :=
  ⟨rfl, rfl, rfl, rfl, rfl, rfl, rfl, rfl, rfl, rfl, rfl, rfl, rfl, rfl, rfl, rfl, rfl, rfl,
    rfl, rfl, rfl, rfl, rfl, rfl, rfl, rfl, rfl, rfl⟩

/-- `askLook` (R19). -/
@[simp] theorem askLook_keeps (p : Part) :
    (askLook p).clearing = p.clearing ∧ (askLook p).clearFor = p.clearFor ∧ (askLook p).time =
      p.time ∧ (askLook p).clock = p.clock ∧ (askLook p).satTaken = p.satTaken ∧ (askLook p).arb
      = p.arb ∧ (askLook p).port = p.port ∧ (askLook p).softReset = p.softReset ∧ (askLook
      p).lastTransfer = p.lastTransfer ∧ (askLook p).lastCommand = p.lastCommand ∧ (askLook
      p).prevCommand = p.prevCommand ∧ (askLook p).attention = p.attention ∧ (askLook
      p).attnEnables = p.attnEnables ∧ (askLook p).slot = p.slot ∧ (askLook p).svcLine =
      p.svcLine ∧ (askLook p).setupLoaded = p.setupLoaded ∧ (askLook p).setup = p.setup ∧
      (askLook p).report = p.report ∧ (askLook p).listen = p.listen ∧ (askLook p).follower =
      p.follower ∧ (askLook p).player = p.player ∧ (askLook p).sched = p.sched ∧ (askLook
      p).keys = p.keys ∧ (askLook p).chain = p.chain ∧ (askLook p).supply = p.supply ∧ (askLook
      p).guard = p.guard ∧ (askLook p).power = p.power ∧ (askLook p).fresh = p.fresh := by
  unfold askLook
  split <;> simp

/-- `beginSeeking` (R21). -/
@[simp] theorem beginSeeking_keeps (p : Part) :
    (beginSeeking p).clearing = p.clearing ∧ (beginSeeking p).clearFor = p.clearFor ∧
      (beginSeeking p).time = p.time ∧ (beginSeeking p).clock = p.clock ∧ (beginSeeking
      p).satTaken = p.satTaken ∧ (beginSeeking p).arb = p.arb ∧ (beginSeeking p).port = p.port ∧
      (beginSeeking p).softReset = p.softReset ∧ (beginSeeking p).lastTransfer = p.lastTransfer
      ∧ (beginSeeking p).lastCommand = p.lastCommand ∧ (beginSeeking p).prevCommand =
      p.prevCommand ∧ (beginSeeking p).attention = p.attention ∧ (beginSeeking p).attnEnables =
      p.attnEnables ∧ (beginSeeking p).slot = p.slot ∧ (beginSeeking p).svcLine = p.svcLine ∧
      (beginSeeking p).setupLoaded = p.setupLoaded ∧ (beginSeeking p).setup = p.setup ∧
      (beginSeeking p).report = p.report ∧ (beginSeeking p).listen = p.listen ∧ (beginSeeking
      p).follower = p.follower ∧ (beginSeeking p).player = p.player ∧ (beginSeeking p).sched =
      p.sched ∧ (beginSeeking p).keys = p.keys ∧ (beginSeeking p).chain = p.chain ∧
      (beginSeeking p).supply = p.supply ∧ (beginSeeking p).guard = p.guard ∧ (beginSeeking
      p).power = p.power ∧ (beginSeeking p).fresh = p.fresh := by simp [beginSeeking]

/-- `needTest` (R21). -/
@[simp] theorem needTest_keeps (p : Part) :
    (needTest p).clearing = p.clearing ∧ (needTest p).clearFor = p.clearFor ∧ (needTest p).time
      = p.time ∧ (needTest p).clock = p.clock ∧ (needTest p).satTaken = p.satTaken ∧ (needTest
      p).arb = p.arb ∧ (needTest p).port = p.port ∧ (needTest p).softReset = p.softReset ∧
      (needTest p).lastTransfer = p.lastTransfer ∧ (needTest p).lastCommand = p.lastCommand ∧
      (needTest p).prevCommand = p.prevCommand ∧ (needTest p).attention = p.attention ∧
      (needTest p).attnEnables = p.attnEnables ∧ (needTest p).slot = p.slot ∧ (needTest
      p).svcLine = p.svcLine ∧ (needTest p).setupLoaded = p.setupLoaded ∧ (needTest p).setup =
      p.setup ∧ (needTest p).report = p.report ∧ (needTest p).listen = p.listen ∧ (needTest
      p).follower = p.follower ∧ (needTest p).player = p.player ∧ (needTest p).sched = p.sched ∧
      (needTest p).keys = p.keys ∧ (needTest p).chain = p.chain ∧ (needTest p).supply = p.supply
      ∧ (needTest p).guard = p.guard ∧ (needTest p).power = p.power ∧ (needTest p).fresh =
      p.fresh := by
  unfold needTest
  split <;> simp

/-- `putPass` (R28). -/
@[simp] theorem putPass_keeps (x : Option Pass) (p : Part) :
    (putPass x p).clearing = p.clearing ∧ (putPass x p).clearFor = p.clearFor ∧ (putPass x
      p).time = p.time ∧ (putPass x p).clock = p.clock ∧ (putPass x p).satTaken = p.satTaken ∧
      (putPass x p).arb = p.arb ∧ (putPass x p).port = p.port ∧ (putPass x p).softReset =
      p.softReset ∧ (putPass x p).lastTransfer = p.lastTransfer ∧ (putPass x p).lastCommand =
      p.lastCommand ∧ (putPass x p).prevCommand = p.prevCommand ∧ (putPass x p).attention =
      p.attention ∧ (putPass x p).attnEnables = p.attnEnables ∧ (putPass x p).slot = p.slot ∧
      (putPass x p).svcLine = p.svcLine ∧ (putPass x p).setupLoaded = p.setupLoaded ∧ (putPass x
      p).setup = p.setup ∧ (putPass x p).report = p.report ∧ (putPass x p).listen = p.listen ∧
      (putPass x p).follower = p.follower ∧ (putPass x p).player = p.player ∧ (putPass x
      p).sched = p.sched ∧ (putPass x p).keys = p.keys ∧ (putPass x p).chain = p.chain ∧
      (putPass x p).supply = p.supply ∧ (putPass x p).guard = p.guard ∧ (putPass x p).power =
      p.power ∧ (putPass x p).fresh = p.fresh :=
  ⟨rfl, rfl, rfl, rfl, rfl, rfl, rfl, rfl, rfl, rfl, rfl, rfl, rfl, rfl, rfl, rfl, rfl, rfl,
    rfl, rfl, rfl, rfl, rfl, rfl, rfl, rfl, rfl, rfl⟩

/-- `putBuffer` (R28). -/
@[simp] theorem putBuffer_keeps (a : Bool) (b : Buffer) (p : Part) :
    (putBuffer a b p).clearing = p.clearing ∧ (putBuffer a b p).clearFor = p.clearFor ∧
      (putBuffer a b p).time = p.time ∧ (putBuffer a b p).clock = p.clock ∧ (putBuffer a b
      p).satTaken = p.satTaken ∧ (putBuffer a b p).arb = p.arb ∧ (putBuffer a b p).port = p.port
      ∧ (putBuffer a b p).softReset = p.softReset ∧ (putBuffer a b p).lastTransfer =
      p.lastTransfer ∧ (putBuffer a b p).lastCommand = p.lastCommand ∧ (putBuffer a b
      p).prevCommand = p.prevCommand ∧ (putBuffer a b p).attention = p.attention ∧ (putBuffer a
      b p).attnEnables = p.attnEnables ∧ (putBuffer a b p).slot = p.slot ∧ (putBuffer a b
      p).svcLine = p.svcLine ∧ (putBuffer a b p).setupLoaded = p.setupLoaded ∧ (putBuffer a b
      p).setup = p.setup ∧ (putBuffer a b p).report = p.report ∧ (putBuffer a b p).listen =
      p.listen ∧ (putBuffer a b p).follower = p.follower ∧ (putBuffer a b p).player = p.player ∧
      (putBuffer a b p).sched = p.sched ∧ (putBuffer a b p).keys = p.keys ∧ (putBuffer a b
      p).chain = p.chain ∧ (putBuffer a b p).supply = p.supply ∧ (putBuffer a b p).guard =
      p.guard ∧ (putBuffer a b p).power = p.power ∧ (putBuffer a b p).fresh = p.fresh := by
  unfold putBuffer
  split <;> simp

/-- `rewatch` (R80). -/
@[simp] theorem rewatch_keeps (p : Part) :
    (rewatch p).clearing = p.clearing ∧ (rewatch p).clearFor = p.clearFor ∧ (rewatch p).time =
      p.time ∧ (rewatch p).clock = p.clock ∧ (rewatch p).satTaken = p.satTaken ∧ (rewatch p).arb
      = p.arb ∧ (rewatch p).port = p.port ∧ (rewatch p).softReset = p.softReset ∧ (rewatch
      p).lastTransfer = p.lastTransfer ∧ (rewatch p).lastCommand = p.lastCommand ∧ (rewatch
      p).prevCommand = p.prevCommand ∧ (rewatch p).attention = p.attention ∧ (rewatch
      p).attnEnables = p.attnEnables ∧ (rewatch p).slot = p.slot ∧ (rewatch p).svcLine =
      p.svcLine ∧ (rewatch p).setupLoaded = p.setupLoaded ∧ (rewatch p).setup = p.setup ∧
      (rewatch p).reader = p.reader ∧ (rewatch p).report = p.report ∧ (rewatch p).listen =
      p.listen ∧ (rewatch p).player = p.player ∧ (rewatch p).sched = p.sched ∧ (rewatch p).keys
      = p.keys ∧ (rewatch p).chain = p.chain ∧ (rewatch p).supply = p.supply ∧ (rewatch p).guard
      = p.guard ∧ (rewatch p).power = p.power ∧ (rewatch p).fresh = p.fresh :=
  ⟨rfl, rfl, rfl, rfl, rfl, rfl, rfl, rfl, rfl, rfl, rfl, rfl, rfl, rfl, rfl, rfl, rfl, rfl,
    rfl, rfl, rfl, rfl, rfl, rfl, rfl, rfl, rfl, rfl⟩

/-- `leaveFollower` (R94). -/
@[simp] theorem leaveFollower_keeps (p : Part) :
    (leaveFollower p).clearing = p.clearing ∧ (leaveFollower p).clearFor = p.clearFor ∧
      (leaveFollower p).time = p.time ∧ (leaveFollower p).clock = p.clock ∧ (leaveFollower
      p).satTaken = p.satTaken ∧ (leaveFollower p).arb = p.arb ∧ (leaveFollower p).port = p.port
      ∧ (leaveFollower p).softReset = p.softReset ∧ (leaveFollower p).lastTransfer =
      p.lastTransfer ∧ (leaveFollower p).lastCommand = p.lastCommand ∧ (leaveFollower
      p).prevCommand = p.prevCommand ∧ (leaveFollower p).attention = p.attention ∧
      (leaveFollower p).attnEnables = p.attnEnables ∧ (leaveFollower p).slot = p.slot ∧
      (leaveFollower p).svcLine = p.svcLine ∧ (leaveFollower p).setupLoaded = p.setupLoaded ∧
      (leaveFollower p).setup = p.setup ∧ (leaveFollower p).reader = p.reader ∧ (leaveFollower
      p).report = p.report ∧ (leaveFollower p).listen = p.listen ∧ (leaveFollower p).player =
      p.player ∧ (leaveFollower p).sched = p.sched ∧ (leaveFollower p).keys = p.keys ∧
      (leaveFollower p).chain = p.chain ∧ (leaveFollower p).supply = p.supply ∧ (leaveFollower
      p).guard = p.guard ∧ (leaveFollower p).power = p.power ∧ (leaveFollower p).fresh = p.fresh :=
  ⟨rfl, rfl, rfl, rfl, rfl, rfl, rfl, rfl, rfl, rfl, rfl, rfl, rfl, rfl, rfl, rfl, rfl, rfl,
    rfl, rfl, rfl, rfl, rfl, rfl, rfl, rfl, rfl, rfl⟩

/-- `clearFermata` (R105). -/
@[simp] theorem clearFermata_keeps (p : Part) :
    (clearFermata p).clearing = p.clearing ∧ (clearFermata p).clearFor = p.clearFor ∧
      (clearFermata p).time = p.time ∧ (clearFermata p).clock = p.clock ∧ (clearFermata
      p).satTaken = p.satTaken ∧ (clearFermata p).arb = p.arb ∧ (clearFermata p).port = p.port ∧
      (clearFermata p).softReset = p.softReset ∧ (clearFermata p).lastTransfer = p.lastTransfer
      ∧ (clearFermata p).lastCommand = p.lastCommand ∧ (clearFermata p).prevCommand =
      p.prevCommand ∧ (clearFermata p).attention = p.attention ∧ (clearFermata p).attnEnables =
      p.attnEnables ∧ (clearFermata p).slot = p.slot ∧ (clearFermata p).svcLine = p.svcLine ∧
      (clearFermata p).setupLoaded = p.setupLoaded ∧ (clearFermata p).setup = p.setup ∧
      (clearFermata p).reader = p.reader ∧ (clearFermata p).report = p.report ∧ (clearFermata
      p).listen = p.listen ∧ (clearFermata p).follower = p.follower ∧ (clearFermata p).sched =
      p.sched ∧ (clearFermata p).keys = p.keys ∧ (clearFermata p).chain = p.chain ∧
      (clearFermata p).supply = p.supply ∧ (clearFermata p).guard = p.guard ∧ (clearFermata
      p).power = p.power ∧ (clearFermata p).fresh = p.fresh :=
  ⟨rfl, rfl, rfl, rfl, rfl, rfl, rfl, rfl, rfl, rfl, rfl, rfl, rfl, rfl, rfl, rfl, rfl, rfl,
    rfl, rfl, rfl, rfl, rfl, rfl, rfl, rfl, rfl, rfl⟩

/-- `flushOnsets` (R65). -/
@[simp] theorem flushOnsets_keeps (p : Part) :
    (flushOnsets p).clearing = p.clearing ∧ (flushOnsets p).clearFor = p.clearFor ∧ (flushOnsets
      p).time = p.time ∧ (flushOnsets p).clock = p.clock ∧ (flushOnsets p).satTaken = p.satTaken
      ∧ (flushOnsets p).arb = p.arb ∧ (flushOnsets p).port = p.port ∧ (flushOnsets p).softReset
      = p.softReset ∧ (flushOnsets p).lastTransfer = p.lastTransfer ∧ (flushOnsets
      p).lastCommand = p.lastCommand ∧ (flushOnsets p).prevCommand = p.prevCommand ∧
      (flushOnsets p).attention = p.attention ∧ (flushOnsets p).attnEnables = p.attnEnables ∧
      (flushOnsets p).slot = p.slot ∧ (flushOnsets p).svcLine = p.svcLine ∧ (flushOnsets
      p).setupLoaded = p.setupLoaded ∧ (flushOnsets p).setup = p.setup ∧ (flushOnsets p).reader
      = p.reader ∧ (flushOnsets p).report = p.report ∧ (flushOnsets p).follower = p.follower ∧
      (flushOnsets p).player = p.player ∧ (flushOnsets p).sched = p.sched ∧ (flushOnsets p).keys
      = p.keys ∧ (flushOnsets p).chain = p.chain ∧ (flushOnsets p).supply = p.supply ∧
      (flushOnsets p).guard = p.guard ∧ (flushOnsets p).power = p.power ∧ (flushOnsets p).fresh
      = p.fresh :=
  ⟨rfl, rfl, rfl, rfl, rfl, rfl, rfl, rfl, rfl, rfl, rfl, rfl, rfl, rfl, rfl, rfl, rfl, rfl,
    rfl, rfl, rfl, rfl, rfl, rfl, rfl, rfl, rfl, rfl⟩

/-- `startHoldListening` (R70). -/
@[simp] theorem startHoldListening_keeps (p : Part) :
    (startHoldListening p).clearing = p.clearing ∧ (startHoldListening p).clearFor = p.clearFor
      ∧ (startHoldListening p).time = p.time ∧ (startHoldListening p).clock = p.clock ∧
      (startHoldListening p).satTaken = p.satTaken ∧ (startHoldListening p).arb = p.arb ∧
      (startHoldListening p).port = p.port ∧ (startHoldListening p).softReset = p.softReset ∧
      (startHoldListening p).lastTransfer = p.lastTransfer ∧ (startHoldListening p).lastCommand
      = p.lastCommand ∧ (startHoldListening p).prevCommand = p.prevCommand ∧ (startHoldListening
      p).attention = p.attention ∧ (startHoldListening p).attnEnables = p.attnEnables ∧
      (startHoldListening p).slot = p.slot ∧ (startHoldListening p).svcLine = p.svcLine ∧
      (startHoldListening p).setupLoaded = p.setupLoaded ∧ (startHoldListening p).setup =
      p.setup ∧ (startHoldListening p).reader = p.reader ∧ (startHoldListening p).report =
      p.report ∧ (startHoldListening p).follower = p.follower ∧ (startHoldListening p).player =
      p.player ∧ (startHoldListening p).sched = p.sched ∧ (startHoldListening p).keys = p.keys ∧
      (startHoldListening p).chain = p.chain ∧ (startHoldListening p).supply = p.supply ∧
      (startHoldListening p).guard = p.guard ∧ (startHoldListening p).power = p.power ∧
      (startHoldListening p).fresh = p.fresh :=
  ⟨rfl, rfl, rfl, rfl, rfl, rfl, rfl, rfl, rfl, rfl, rfl, rfl, rfl, rfl, rfl, rfl, rfl, rfl,
    rfl, rfl, rfl, rfl, rfl, rfl, rfl, rfl, rfl, rfl⟩

/-- `stopHoldListening` (R70). -/
@[simp] theorem stopHoldListening_keeps (p : Part) :
    (stopHoldListening p).clearing = p.clearing ∧ (stopHoldListening p).clearFor = p.clearFor ∧
      (stopHoldListening p).time = p.time ∧ (stopHoldListening p).clock = p.clock ∧
      (stopHoldListening p).satTaken = p.satTaken ∧ (stopHoldListening p).arb = p.arb ∧
      (stopHoldListening p).port = p.port ∧ (stopHoldListening p).softReset = p.softReset ∧
      (stopHoldListening p).lastTransfer = p.lastTransfer ∧ (stopHoldListening p).lastCommand =
      p.lastCommand ∧ (stopHoldListening p).prevCommand = p.prevCommand ∧ (stopHoldListening
      p).attention = p.attention ∧ (stopHoldListening p).attnEnables = p.attnEnables ∧
      (stopHoldListening p).slot = p.slot ∧ (stopHoldListening p).svcLine = p.svcLine ∧
      (stopHoldListening p).setupLoaded = p.setupLoaded ∧ (stopHoldListening p).setup = p.setup
      ∧ (stopHoldListening p).reader = p.reader ∧ (stopHoldListening p).report = p.report ∧
      (stopHoldListening p).follower = p.follower ∧ (stopHoldListening p).player = p.player ∧
      (stopHoldListening p).sched = p.sched ∧ (stopHoldListening p).keys = p.keys ∧
      (stopHoldListening p).chain = p.chain ∧ (stopHoldListening p).supply = p.supply ∧
      (stopHoldListening p).guard = p.guard ∧ (stopHoldListening p).power = p.power ∧
      (stopHoldListening p).fresh = p.fresh :=
  ⟨rfl, rfl, rfl, rfl, rfl, rfl, rfl, rfl, rfl, rfl, rfl, rfl, rfl, rfl, rfl, rfl, rfl, rfl,
    rfl, rfl, rfl, rfl, rfl, rfl, rfl, rfl, rfl, rfl⟩

/-- `expireMasks` (R69). -/
@[simp] theorem expireMasks_keeps (p : Part) :
    (expireMasks p).clearing = p.clearing ∧ (expireMasks p).clearFor = p.clearFor ∧ (expireMasks
      p).time = p.time ∧ (expireMasks p).clock = p.clock ∧ (expireMasks p).satTaken = p.satTaken
      ∧ (expireMasks p).arb = p.arb ∧ (expireMasks p).port = p.port ∧ (expireMasks p).softReset
      = p.softReset ∧ (expireMasks p).lastTransfer = p.lastTransfer ∧ (expireMasks
      p).lastCommand = p.lastCommand ∧ (expireMasks p).prevCommand = p.prevCommand ∧
      (expireMasks p).attention = p.attention ∧ (expireMasks p).attnEnables = p.attnEnables ∧
      (expireMasks p).slot = p.slot ∧ (expireMasks p).svcLine = p.svcLine ∧ (expireMasks
      p).setupLoaded = p.setupLoaded ∧ (expireMasks p).setup = p.setup ∧ (expireMasks p).reader
      = p.reader ∧ (expireMasks p).report = p.report ∧ (expireMasks p).follower = p.follower ∧
      (expireMasks p).player = p.player ∧ (expireMasks p).sched = p.sched ∧ (expireMasks p).keys
      = p.keys ∧ (expireMasks p).chain = p.chain ∧ (expireMasks p).supply = p.supply ∧
      (expireMasks p).guard = p.guard ∧ (expireMasks p).power = p.power ∧ (expireMasks p).fresh
      = p.fresh :=
  ⟨rfl, rfl, rfl, rfl, rfl, rfl, rfl, rfl, rfl, rfl, rfl, rfl, rfl, rfl, rfl, rfl, rfl, rfl,
    rfl, rfl, rfl, rfl, rfl, rfl, rfl, rfl, rfl, rfl⟩

/-- `beginNowWrite` (R57). -/
@[simp] theorem beginNowWrite_keeps (p : Part) :
    (beginNowWrite p).clearing = p.clearing ∧ (beginNowWrite p).clearFor = p.clearFor ∧
      (beginNowWrite p).time = p.time ∧ (beginNowWrite p).clock = p.clock ∧ (beginNowWrite
      p).satTaken = p.satTaken ∧ (beginNowWrite p).arb = p.arb ∧ (beginNowWrite p).port = p.port
      ∧ (beginNowWrite p).softReset = p.softReset ∧ (beginNowWrite p).lastTransfer =
      p.lastTransfer ∧ (beginNowWrite p).lastCommand = p.lastCommand ∧ (beginNowWrite
      p).prevCommand = p.prevCommand ∧ (beginNowWrite p).attention = p.attention ∧
      (beginNowWrite p).attnEnables = p.attnEnables ∧ (beginNowWrite p).slot = p.slot ∧
      (beginNowWrite p).svcLine = p.svcLine ∧ (beginNowWrite p).setupLoaded = p.setupLoaded ∧
      (beginNowWrite p).setup = p.setup ∧ (beginNowWrite p).reader = p.reader ∧ (beginNowWrite
      p).listen = p.listen ∧ (beginNowWrite p).follower = p.follower ∧ (beginNowWrite p).player
      = p.player ∧ (beginNowWrite p).sched = p.sched ∧ (beginNowWrite p).keys = p.keys ∧
      (beginNowWrite p).chain = p.chain ∧ (beginNowWrite p).supply = p.supply ∧ (beginNowWrite
      p).guard = p.guard ∧ (beginNowWrite p).power = p.power ∧ (beginNowWrite p).fresh = p.fresh :=
  ⟨rfl, rfl, rfl, rfl, rfl, rfl, rfl, rfl, rfl, rfl, rfl, rfl, rfl, rfl, rfl, rfl, rfl, rfl,
    rfl, rfl, rfl, rfl, rfl, rfl, rfl, rfl, rfl, rfl⟩

/-- `trigger` (R56). -/
@[simp] theorem trigger_keeps (p : Part) :
    (trigger p).clearing = p.clearing ∧ (trigger p).clearFor = p.clearFor ∧ (trigger p).time =
      p.time ∧ (trigger p).clock = p.clock ∧ (trigger p).satTaken = p.satTaken ∧ (trigger p).arb
      = p.arb ∧ (trigger p).port = p.port ∧ (trigger p).softReset = p.softReset ∧ (trigger
      p).lastTransfer = p.lastTransfer ∧ (trigger p).lastCommand = p.lastCommand ∧ (trigger
      p).prevCommand = p.prevCommand ∧ (trigger p).attention = p.attention ∧ (trigger
      p).attnEnables = p.attnEnables ∧ (trigger p).slot = p.slot ∧ (trigger p).svcLine =
      p.svcLine ∧ (trigger p).setupLoaded = p.setupLoaded ∧ (trigger p).setup = p.setup ∧
      (trigger p).reader = p.reader ∧ (trigger p).listen = p.listen ∧ (trigger p).follower =
      p.follower ∧ (trigger p).player = p.player ∧ (trigger p).sched = p.sched ∧ (trigger
      p).keys = p.keys ∧ (trigger p).chain = p.chain ∧ (trigger p).supply = p.supply ∧ (trigger
      p).guard = p.guard ∧ (trigger p).power = p.power ∧ (trigger p).fresh = p.fresh := by
  unfold trigger
  split <;> simp

/-- `triggerIf` (R56). -/
@[simp] theorem triggerIf_keeps (b : Bool) (p : Part) :
    (triggerIf b p).clearing = p.clearing ∧ (triggerIf b p).clearFor = p.clearFor ∧ (triggerIf b
      p).time = p.time ∧ (triggerIf b p).clock = p.clock ∧ (triggerIf b p).satTaken = p.satTaken
      ∧ (triggerIf b p).arb = p.arb ∧ (triggerIf b p).port = p.port ∧ (triggerIf b p).softReset
      = p.softReset ∧ (triggerIf b p).lastTransfer = p.lastTransfer ∧ (triggerIf b
      p).lastCommand = p.lastCommand ∧ (triggerIf b p).prevCommand = p.prevCommand ∧ (triggerIf
      b p).attention = p.attention ∧ (triggerIf b p).attnEnables = p.attnEnables ∧ (triggerIf b
      p).slot = p.slot ∧ (triggerIf b p).svcLine = p.svcLine ∧ (triggerIf b p).setupLoaded =
      p.setupLoaded ∧ (triggerIf b p).setup = p.setup ∧ (triggerIf b p).reader = p.reader ∧
      (triggerIf b p).listen = p.listen ∧ (triggerIf b p).follower = p.follower ∧ (triggerIf b
      p).player = p.player ∧ (triggerIf b p).sched = p.sched ∧ (triggerIf b p).keys = p.keys ∧
      (triggerIf b p).chain = p.chain ∧ (triggerIf b p).supply = p.supply ∧ (triggerIf b
      p).guard = p.guard ∧ (triggerIf b p).power = p.power ∧ (triggerIf b p).fresh = p.fresh := by
  unfold triggerIf
  split <;> simp

/-- `beatTrigger` (R56). -/
@[simp] theorem beatTrigger_keeps (p : Part) :
    (beatTrigger p).clearing = p.clearing ∧ (beatTrigger p).clearFor = p.clearFor ∧ (beatTrigger
      p).time = p.time ∧ (beatTrigger p).clock = p.clock ∧ (beatTrigger p).satTaken = p.satTaken
      ∧ (beatTrigger p).arb = p.arb ∧ (beatTrigger p).port = p.port ∧ (beatTrigger p).softReset
      = p.softReset ∧ (beatTrigger p).lastTransfer = p.lastTransfer ∧ (beatTrigger
      p).lastCommand = p.lastCommand ∧ (beatTrigger p).prevCommand = p.prevCommand ∧
      (beatTrigger p).attention = p.attention ∧ (beatTrigger p).attnEnables = p.attnEnables ∧
      (beatTrigger p).slot = p.slot ∧ (beatTrigger p).svcLine = p.svcLine ∧ (beatTrigger
      p).setupLoaded = p.setupLoaded ∧ (beatTrigger p).setup = p.setup ∧ (beatTrigger p).reader
      = p.reader ∧ (beatTrigger p).listen = p.listen ∧ (beatTrigger p).follower = p.follower ∧
      (beatTrigger p).player = p.player ∧ (beatTrigger p).sched = p.sched ∧ (beatTrigger p).keys
      = p.keys ∧ (beatTrigger p).chain = p.chain ∧ (beatTrigger p).supply = p.supply ∧
      (beatTrigger p).guard = p.guard ∧ (beatTrigger p).power = p.power ∧ (beatTrigger p).fresh
      = p.fresh := by simp [beatTrigger]

/-- `nowWriteServed` (R56). -/
@[simp] theorem nowWriteServed_keeps (p : Part) :
    (nowWriteServed p).clearing = p.clearing ∧ (nowWriteServed p).clearFor = p.clearFor ∧
      (nowWriteServed p).time = p.time ∧ (nowWriteServed p).clock = p.clock ∧ (nowWriteServed
      p).satTaken = p.satTaken ∧ (nowWriteServed p).arb = p.arb ∧ (nowWriteServed p).port =
      p.port ∧ (nowWriteServed p).softReset = p.softReset ∧ (nowWriteServed p).lastTransfer =
      p.lastTransfer ∧ (nowWriteServed p).lastCommand = p.lastCommand ∧ (nowWriteServed
      p).prevCommand = p.prevCommand ∧ (nowWriteServed p).attention = p.attention ∧
      (nowWriteServed p).attnEnables = p.attnEnables ∧ (nowWriteServed p).slot = p.slot ∧
      (nowWriteServed p).svcLine = p.svcLine ∧ (nowWriteServed p).setupLoaded = p.setupLoaded ∧
      (nowWriteServed p).setup = p.setup ∧ (nowWriteServed p).reader = p.reader ∧
      (nowWriteServed p).listen = p.listen ∧ (nowWriteServed p).follower = p.follower ∧
      (nowWriteServed p).player = p.player ∧ (nowWriteServed p).sched = p.sched ∧
      (nowWriteServed p).keys = p.keys ∧ (nowWriteServed p).chain = p.chain ∧ (nowWriteServed
      p).supply = p.supply ∧ (nowWriteServed p).guard = p.guard ∧ (nowWriteServed p).power =
      p.power ∧ (nowWriteServed p).fresh = p.fresh := by
  unfold nowWriteServed
  split <;> simp

/-- `placeBoundary` (R56). -/
@[simp] theorem placeBoundary_keeps (n : Nat) (p : Part) :
    (placeBoundary n p).clearing = p.clearing ∧ (placeBoundary n p).clearFor = p.clearFor ∧
      (placeBoundary n p).time = p.time ∧ (placeBoundary n p).clock = p.clock ∧ (placeBoundary n
      p).satTaken = p.satTaken ∧ (placeBoundary n p).arb = p.arb ∧ (placeBoundary n p).port =
      p.port ∧ (placeBoundary n p).softReset = p.softReset ∧ (placeBoundary n p).lastTransfer =
      p.lastTransfer ∧ (placeBoundary n p).lastCommand = p.lastCommand ∧ (placeBoundary n
      p).prevCommand = p.prevCommand ∧ (placeBoundary n p).attention = p.attention ∧
      (placeBoundary n p).attnEnables = p.attnEnables ∧ (placeBoundary n p).slot = p.slot ∧
      (placeBoundary n p).svcLine = p.svcLine ∧ (placeBoundary n p).setupLoaded = p.setupLoaded
      ∧ (placeBoundary n p).setup = p.setup ∧ (placeBoundary n p).reader = p.reader ∧
      (placeBoundary n p).listen = p.listen ∧ (placeBoundary n p).follower = p.follower ∧
      (placeBoundary n p).player = p.player ∧ (placeBoundary n p).sched = p.sched ∧
      (placeBoundary n p).keys = p.keys ∧ (placeBoundary n p).chain = p.chain ∧ (placeBoundary n
      p).supply = p.supply ∧ (placeBoundary n p).guard = p.guard ∧ (placeBoundary n p).power =
      p.power ∧ (placeBoundary n p).fresh = p.fresh :=
  ⟨rfl, rfl, rfl, rfl, rfl, rfl, rfl, rfl, rfl, rfl, rfl, rfl, rfl, rfl, rfl, rfl, rfl, rfl,
    rfl, rfl, rfl, rfl, rfl, rfl, rfl, rfl, rfl, rfl⟩

/-- `enterState` (R116). -/
@[simp] theorem enterState_keeps (st : PlayerState) (p : Part) :
    (enterState st p).clearing = p.clearing ∧ (enterState st p).clearFor = p.clearFor ∧
      (enterState st p).time = p.time ∧ (enterState st p).clock = p.clock ∧ (enterState st
      p).satTaken = p.satTaken ∧ (enterState st p).arb = p.arb ∧ (enterState st p).port = p.port
      ∧ (enterState st p).softReset = p.softReset ∧ (enterState st p).lastTransfer =
      p.lastTransfer ∧ (enterState st p).lastCommand = p.lastCommand ∧ (enterState st
      p).prevCommand = p.prevCommand ∧ (enterState st p).attention = p.attention ∧ (enterState
      st p).attnEnables = p.attnEnables ∧ (enterState st p).slot = p.slot ∧ (enterState st
      p).svcLine = p.svcLine ∧ (enterState st p).setupLoaded = p.setupLoaded ∧ (enterState st
      p).setup = p.setup ∧ (enterState st p).reader = p.reader ∧ (enterState st p).listen =
      p.listen ∧ (enterState st p).follower = p.follower ∧ (enterState st p).sched = p.sched ∧
      (enterState st p).keys = p.keys ∧ (enterState st p).chain = p.chain ∧ (enterState st
      p).supply = p.supply ∧ (enterState st p).guard = p.guard ∧ (enterState st p).power =
      p.power ∧ (enterState st p).fresh = p.fresh := by simp [enterState]

/-- `moveTo` (R116). -/
@[simp] theorem moveTo_keeps (st : PlayerState) (p : Part) :
    (moveTo st p).clearing = p.clearing ∧ (moveTo st p).clearFor = p.clearFor ∧ (moveTo st
      p).time = p.time ∧ (moveTo st p).clock = p.clock ∧ (moveTo st p).satTaken = p.satTaken ∧
      (moveTo st p).arb = p.arb ∧ (moveTo st p).port = p.port ∧ (moveTo st p).softReset =
      p.softReset ∧ (moveTo st p).lastTransfer = p.lastTransfer ∧ (moveTo st p).lastCommand =
      p.lastCommand ∧ (moveTo st p).prevCommand = p.prevCommand ∧ (moveTo st p).attention =
      p.attention ∧ (moveTo st p).attnEnables = p.attnEnables ∧ (moveTo st p).slot = p.slot ∧
      (moveTo st p).svcLine = p.svcLine ∧ (moveTo st p).setupLoaded = p.setupLoaded ∧ (moveTo st
      p).setup = p.setup ∧ (moveTo st p).reader = p.reader ∧ (moveTo st p).follower = p.follower
      ∧ (moveTo st p).sched = p.sched ∧ (moveTo st p).keys = p.keys ∧ (moveTo st p).chain =
      p.chain ∧ (moveTo st p).supply = p.supply ∧ (moveTo st p).guard = p.guard ∧ (moveTo st
      p).power = p.power ∧ (moveTo st p).fresh = p.fresh := by
  unfold moveTo
  split <;> simp

/-- `putWindow` (R131). -/
@[simp] theorem putWindow_keeps (w : List Note) (p : Part) :
    (putWindow w p).clearing = p.clearing ∧ (putWindow w p).clearFor = p.clearFor ∧ (putWindow w
      p).time = p.time ∧ (putWindow w p).clock = p.clock ∧ (putWindow w p).satTaken = p.satTaken
      ∧ (putWindow w p).arb = p.arb ∧ (putWindow w p).port = p.port ∧ (putWindow w p).softReset
      = p.softReset ∧ (putWindow w p).lastTransfer = p.lastTransfer ∧ (putWindow w
      p).lastCommand = p.lastCommand ∧ (putWindow w p).prevCommand = p.prevCommand ∧ (putWindow
      w p).attention = p.attention ∧ (putWindow w p).attnEnables = p.attnEnables ∧ (putWindow w
      p).slot = p.slot ∧ (putWindow w p).svcLine = p.svcLine ∧ (putWindow w p).setupLoaded =
      p.setupLoaded ∧ (putWindow w p).setup = p.setup ∧ (putWindow w p).reader = p.reader ∧
      (putWindow w p).report = p.report ∧ (putWindow w p).listen = p.listen ∧ (putWindow w
      p).follower = p.follower ∧ (putWindow w p).player = p.player ∧ (putWindow w p).keys =
      p.keys ∧ (putWindow w p).chain = p.chain ∧ (putWindow w p).supply = p.supply ∧ (putWindow
      w p).guard = p.guard ∧ (putWindow w p).power = p.power ∧ (putWindow w p).fresh = p.fresh :=
  ⟨rfl, rfl, rfl, rfl, rfl, rfl, rfl, rfl, rfl, rfl, rfl, rfl, rfl, rfl, rfl, rfl, rfl, rfl,
    rfl, rfl, rfl, rfl, rfl, rfl, rfl, rfl, rfl, rfl⟩

/-- `emptyLists` (R120). -/
@[simp] theorem emptyLists_keeps (p : Part) :
    (emptyLists p).clearing = p.clearing ∧ (emptyLists p).clearFor = p.clearFor ∧ (emptyLists
      p).time = p.time ∧ (emptyLists p).clock = p.clock ∧ (emptyLists p).satTaken = p.satTaken ∧
      (emptyLists p).arb = p.arb ∧ (emptyLists p).port = p.port ∧ (emptyLists p).softReset =
      p.softReset ∧ (emptyLists p).lastTransfer = p.lastTransfer ∧ (emptyLists p).lastCommand =
      p.lastCommand ∧ (emptyLists p).prevCommand = p.prevCommand ∧ (emptyLists p).attention =
      p.attention ∧ (emptyLists p).attnEnables = p.attnEnables ∧ (emptyLists p).slot = p.slot ∧
      (emptyLists p).svcLine = p.svcLine ∧ (emptyLists p).setupLoaded = p.setupLoaded ∧
      (emptyLists p).setup = p.setup ∧ (emptyLists p).reader = p.reader ∧ (emptyLists p).report
      = p.report ∧ (emptyLists p).listen = p.listen ∧ (emptyLists p).follower = p.follower ∧
      (emptyLists p).player = p.player ∧ (emptyLists p).keys = p.keys ∧ (emptyLists p).chain =
      p.chain ∧ (emptyLists p).supply = p.supply ∧ (emptyLists p).guard = p.guard ∧ (emptyLists
      p).power = p.power ∧ (emptyLists p).fresh = p.fresh :=
  ⟨rfl, rfl, rfl, rfl, rfl, rfl, rfl, rfl, rfl, rfl, rfl, rfl, rfl, rfl, rfl, rfl, rfl, rfl,
    rfl, rfl, rfl, rfl, rfl, rfl, rfl, rfl, rfl, rfl⟩

/-- `dropCues` (R102). -/
@[simp] theorem dropCues_keeps (k : Nat) (p : Part) :
    (dropCues k p).clearing = p.clearing ∧ (dropCues k p).clearFor = p.clearFor ∧ (dropCues k
      p).time = p.time ∧ (dropCues k p).clock = p.clock ∧ (dropCues k p).satTaken = p.satTaken ∧
      (dropCues k p).arb = p.arb ∧ (dropCues k p).port = p.port ∧ (dropCues k p).softReset =
      p.softReset ∧ (dropCues k p).lastTransfer = p.lastTransfer ∧ (dropCues k p).lastCommand =
      p.lastCommand ∧ (dropCues k p).prevCommand = p.prevCommand ∧ (dropCues k p).attention =
      p.attention ∧ (dropCues k p).attnEnables = p.attnEnables ∧ (dropCues k p).slot = p.slot ∧
      (dropCues k p).svcLine = p.svcLine ∧ (dropCues k p).setupLoaded = p.setupLoaded ∧
      (dropCues k p).setup = p.setup ∧ (dropCues k p).reader = p.reader ∧ (dropCues k p).report
      = p.report ∧ (dropCues k p).listen = p.listen ∧ (dropCues k p).follower = p.follower ∧
      (dropCues k p).player = p.player ∧ (dropCues k p).keys = p.keys ∧ (dropCues k p).chain =
      p.chain ∧ (dropCues k p).supply = p.supply ∧ (dropCues k p).guard = p.guard ∧ (dropCues k
      p).power = p.power ∧ (dropCues k p).fresh = p.fresh :=
  ⟨rfl, rfl, rfl, rfl, rfl, rfl, rfl, rfl, rfl, rfl, rfl, rfl, rfl, rfl, rfl, rfl, rfl, rfl,
    rfl, rfl, rfl, rfl, rfl, rfl, rfl, rfl, rfl, rfl⟩

/-- `dropHeadCue` (R84). -/
@[simp] theorem dropHeadCue_keeps (p : Part) :
    (dropHeadCue p).clearing = p.clearing ∧ (dropHeadCue p).clearFor = p.clearFor ∧ (dropHeadCue
      p).time = p.time ∧ (dropHeadCue p).clock = p.clock ∧ (dropHeadCue p).satTaken = p.satTaken
      ∧ (dropHeadCue p).arb = p.arb ∧ (dropHeadCue p).port = p.port ∧ (dropHeadCue p).softReset
      = p.softReset ∧ (dropHeadCue p).lastTransfer = p.lastTransfer ∧ (dropHeadCue
      p).lastCommand = p.lastCommand ∧ (dropHeadCue p).prevCommand = p.prevCommand ∧
      (dropHeadCue p).attention = p.attention ∧ (dropHeadCue p).attnEnables = p.attnEnables ∧
      (dropHeadCue p).slot = p.slot ∧ (dropHeadCue p).svcLine = p.svcLine ∧ (dropHeadCue
      p).setupLoaded = p.setupLoaded ∧ (dropHeadCue p).setup = p.setup ∧ (dropHeadCue p).reader
      = p.reader ∧ (dropHeadCue p).report = p.report ∧ (dropHeadCue p).listen = p.listen ∧
      (dropHeadCue p).follower = p.follower ∧ (dropHeadCue p).player = p.player ∧ (dropHeadCue
      p).keys = p.keys ∧ (dropHeadCue p).chain = p.chain ∧ (dropHeadCue p).supply = p.supply ∧
      (dropHeadCue p).guard = p.guard ∧ (dropHeadCue p).power = p.power ∧ (dropHeadCue p).fresh
      = p.fresh :=
  ⟨rfl, rfl, rfl, rfl, rfl, rfl, rfl, rfl, rfl, rfl, rfl, rfl, rfl, rfl, rfl, rfl, rfl, rfl,
    rfl, rfl, rfl, rfl, rfl, rfl, rfl, rfl, rfl, rfl⟩

/-- `discardPending` (R102). -/
@[simp] theorem discardPending_keeps (p : Part) :
    (discardPending p).clearing = p.clearing ∧ (discardPending p).clearFor = p.clearFor ∧
      (discardPending p).time = p.time ∧ (discardPending p).clock = p.clock ∧ (discardPending
      p).satTaken = p.satTaken ∧ (discardPending p).arb = p.arb ∧ (discardPending p).port =
      p.port ∧ (discardPending p).softReset = p.softReset ∧ (discardPending p).lastTransfer =
      p.lastTransfer ∧ (discardPending p).lastCommand = p.lastCommand ∧ (discardPending
      p).prevCommand = p.prevCommand ∧ (discardPending p).attention = p.attention ∧
      (discardPending p).attnEnables = p.attnEnables ∧ (discardPending p).slot = p.slot ∧
      (discardPending p).svcLine = p.svcLine ∧ (discardPending p).setupLoaded = p.setupLoaded ∧
      (discardPending p).setup = p.setup ∧ (discardPending p).reader = p.reader ∧
      (discardPending p).report = p.report ∧ (discardPending p).listen = p.listen ∧
      (discardPending p).follower = p.follower ∧ (discardPending p).sched = p.sched ∧
      (discardPending p).keys = p.keys ∧ (discardPending p).chain = p.chain ∧ (discardPending
      p).supply = p.supply ∧ (discardPending p).guard = p.guard ∧ (discardPending p).power =
      p.power ∧ (discardPending p).fresh = p.fresh := by
  unfold discardPending
  split <;> simp

/-- `takeHold` (R106). -/
@[simp] theorem takeHold_keeps (c : Cue) (p : Part) :
    (takeHold c p).clearing = p.clearing ∧ (takeHold c p).clearFor = p.clearFor ∧ (takeHold c
      p).time = p.time ∧ (takeHold c p).clock = p.clock ∧ (takeHold c p).satTaken = p.satTaken ∧
      (takeHold c p).arb = p.arb ∧ (takeHold c p).port = p.port ∧ (takeHold c p).softReset =
      p.softReset ∧ (takeHold c p).lastTransfer = p.lastTransfer ∧ (takeHold c p).lastCommand =
      p.lastCommand ∧ (takeHold c p).prevCommand = p.prevCommand ∧ (takeHold c p).attention =
      p.attention ∧ (takeHold c p).attnEnables = p.attnEnables ∧ (takeHold c p).slot = p.slot ∧
      (takeHold c p).svcLine = p.svcLine ∧ (takeHold c p).setupLoaded = p.setupLoaded ∧
      (takeHold c p).setup = p.setup ∧ (takeHold c p).reader = p.reader ∧ (takeHold c p).report
      = p.report ∧ (takeHold c p).listen = p.listen ∧ (takeHold c p).follower = p.follower ∧
      (takeHold c p).sched = p.sched ∧ (takeHold c p).keys = p.keys ∧ (takeHold c p).chain =
      p.chain ∧ (takeHold c p).supply = p.supply ∧ (takeHold c p).guard = p.guard ∧ (takeHold c
      p).power = p.power ∧ (takeHold c p).fresh = p.fresh := by
  unfold takeHold
  split <;> simp

/-- `releaseFreeze` (R77). -/
@[simp] theorem releaseFreeze_keeps (q t : Int) (p : Part) :
    (releaseFreeze q t p).clearing = p.clearing ∧ (releaseFreeze q t p).clearFor = p.clearFor ∧
      (releaseFreeze q t p).time = p.time ∧ (releaseFreeze q t p).clock = p.clock ∧
      (releaseFreeze q t p).satTaken = p.satTaken ∧ (releaseFreeze q t p).arb = p.arb ∧
      (releaseFreeze q t p).port = p.port ∧ (releaseFreeze q t p).softReset = p.softReset ∧
      (releaseFreeze q t p).lastTransfer = p.lastTransfer ∧ (releaseFreeze q t p).lastCommand =
      p.lastCommand ∧ (releaseFreeze q t p).prevCommand = p.prevCommand ∧ (releaseFreeze q t
      p).attention = p.attention ∧ (releaseFreeze q t p).attnEnables = p.attnEnables ∧
      (releaseFreeze q t p).slot = p.slot ∧ (releaseFreeze q t p).svcLine = p.svcLine ∧
      (releaseFreeze q t p).setupLoaded = p.setupLoaded ∧ (releaseFreeze q t p).setup = p.setup
      ∧ (releaseFreeze q t p).reader = p.reader ∧ (releaseFreeze q t p).report = p.report ∧
      (releaseFreeze q t p).listen = p.listen ∧ (releaseFreeze q t p).player = p.player ∧
      (releaseFreeze q t p).sched = p.sched ∧ (releaseFreeze q t p).keys = p.keys ∧
      (releaseFreeze q t p).chain = p.chain ∧ (releaseFreeze q t p).supply = p.supply ∧
      (releaseFreeze q t p).guard = p.guard ∧ (releaseFreeze q t p).power = p.power ∧
      (releaseFreeze q t p).fresh = p.fresh :=
  ⟨rfl, rfl, rfl, rfl, rfl, rfl, rfl, rfl, rfl, rfl, rfl, rfl, rfl, rfl, rfl, rfl, rfl, rfl,
    rfl, rfl, rfl, rfl, rfl, rfl, rfl, rfl, rfl, rfl⟩

/-- `nextSliceSet` (R130). -/
@[simp] theorem nextSliceSet_keeps (p : Part) :
    (nextSliceSet p).clearing = p.clearing ∧ (nextSliceSet p).clearFor = p.clearFor ∧
      (nextSliceSet p).time = p.time ∧ (nextSliceSet p).clock = p.clock ∧ (nextSliceSet
      p).satTaken = p.satTaken ∧ (nextSliceSet p).arb = p.arb ∧ (nextSliceSet p).port = p.port ∧
      (nextSliceSet p).softReset = p.softReset ∧ (nextSliceSet p).lastTransfer = p.lastTransfer
      ∧ (nextSliceSet p).lastCommand = p.lastCommand ∧ (nextSliceSet p).prevCommand =
      p.prevCommand ∧ (nextSliceSet p).attention = p.attention ∧ (nextSliceSet p).attnEnables =
      p.attnEnables ∧ (nextSliceSet p).slot = p.slot ∧ (nextSliceSet p).svcLine = p.svcLine ∧
      (nextSliceSet p).setupLoaded = p.setupLoaded ∧ (nextSliceSet p).setup = p.setup ∧
      (nextSliceSet p).reader = p.reader ∧ (nextSliceSet p).report = p.report ∧ (nextSliceSet
      p).listen = p.listen ∧ (nextSliceSet p).follower = p.follower ∧ (nextSliceSet p).player =
      p.player ∧ (nextSliceSet p).keys = p.keys ∧ (nextSliceSet p).chain = p.chain ∧
      (nextSliceSet p).supply = p.supply ∧ (nextSliceSet p).guard = p.guard ∧ (nextSliceSet
      p).power = p.power ∧ (nextSliceSet p).fresh = p.fresh :=
  ⟨rfl, rfl, rfl, rfl, rfl, rfl, rfl, rfl, rfl, rfl, rfl, rfl, rfl, rfl, rfl, rfl, rfl, rfl,
    rfl, rfl, rfl, rfl, rfl, rfl, rfl, rfl, rfl, rfl⟩

/-- `resolveCue` (R82). -/
@[simp] theorem resolveCue_keeps (q : Passage) (c : Cue) (p : Part) :
    (resolveCue q c p).clearing = p.clearing ∧ (resolveCue q c p).clearFor = p.clearFor ∧
      (resolveCue q c p).time = p.time ∧ (resolveCue q c p).clock = p.clock ∧ (resolveCue q c
      p).satTaken = p.satTaken ∧ (resolveCue q c p).arb = p.arb ∧ (resolveCue q c p).port =
      p.port ∧ (resolveCue q c p).softReset = p.softReset ∧ (resolveCue q c p).lastTransfer =
      p.lastTransfer ∧ (resolveCue q c p).lastCommand = p.lastCommand ∧ (resolveCue q c
      p).prevCommand = p.prevCommand ∧ (resolveCue q c p).attnEnables = p.attnEnables ∧
      (resolveCue q c p).slot = p.slot ∧ (resolveCue q c p).svcLine = p.svcLine ∧ (resolveCue q
      c p).setupLoaded = p.setupLoaded ∧ (resolveCue q c p).setup = p.setup ∧ (resolveCue q c
      p).reader = p.reader ∧ (resolveCue q c p).keys = p.keys ∧ (resolveCue q c p).chain =
      p.chain ∧ (resolveCue q c p).supply = p.supply ∧ (resolveCue q c p).guard = p.guard ∧
      (resolveCue q c p).power = p.power ∧ (resolveCue q c p).fresh = p.fresh := by simp [resolveCue]

/-- `closeHead` (R82). -/
@[simp] theorem closeHead_keeps (p : Part) :
    (closeHead p).clearing = p.clearing ∧ (closeHead p).clearFor = p.clearFor ∧ (closeHead
      p).time = p.time ∧ (closeHead p).clock = p.clock ∧ (closeHead p).satTaken = p.satTaken ∧
      (closeHead p).arb = p.arb ∧ (closeHead p).port = p.port ∧ (closeHead p).softReset =
      p.softReset ∧ (closeHead p).lastTransfer = p.lastTransfer ∧ (closeHead p).lastCommand =
      p.lastCommand ∧ (closeHead p).prevCommand = p.prevCommand ∧ (closeHead p).attnEnables =
      p.attnEnables ∧ (closeHead p).slot = p.slot ∧ (closeHead p).svcLine = p.svcLine ∧
      (closeHead p).setupLoaded = p.setupLoaded ∧ (closeHead p).setup = p.setup ∧ (closeHead
      p).reader = p.reader ∧ (closeHead p).keys = p.keys ∧ (closeHead p).chain = p.chain ∧
      (closeHead p).supply = p.supply ∧ (closeHead p).guard = p.guard ∧ (closeHead p).power =
      p.power ∧ (closeHead p).fresh = p.fresh := by
  unfold closeHead
  try dsimp only
  repeat' split
  all_goals simp

/-- `runCloses` (R80). -/
@[simp] theorem runCloses_keeps (k : Nat) (p : Part) :
    (runCloses k p).clearing = p.clearing ∧ (runCloses k p).clearFor = p.clearFor ∧ (runCloses k
      p).time = p.time ∧ (runCloses k p).clock = p.clock ∧ (runCloses k p).satTaken = p.satTaken
      ∧ (runCloses k p).arb = p.arb ∧ (runCloses k p).port = p.port ∧ (runCloses k p).softReset
      = p.softReset ∧ (runCloses k p).lastTransfer = p.lastTransfer ∧ (runCloses k
      p).lastCommand = p.lastCommand ∧ (runCloses k p).prevCommand = p.prevCommand ∧ (runCloses
      k p).attnEnables = p.attnEnables ∧ (runCloses k p).slot = p.slot ∧ (runCloses k p).svcLine
      = p.svcLine ∧ (runCloses k p).setupLoaded = p.setupLoaded ∧ (runCloses k p).setup =
      p.setup ∧ (runCloses k p).reader = p.reader ∧ (runCloses k p).keys = p.keys ∧ (runCloses k
      p).chain = p.chain ∧ (runCloses k p).supply = p.supply ∧ (runCloses k p).guard = p.guard ∧
      (runCloses k p).power = p.power ∧ (runCloses k p).fresh = p.fresh := by
  induction k generalizing p with
  | zero => simp [runCloses]
  | succ k ih =>
    unfold runCloses
    split
    · simp [ih]
    · simp

/-- `takeCloses` (R80). -/
@[simp] theorem takeCloses_keeps (p : Part) :
    (takeCloses p).clearing = p.clearing ∧ (takeCloses p).clearFor = p.clearFor ∧ (takeCloses
      p).time = p.time ∧ (takeCloses p).clock = p.clock ∧ (takeCloses p).satTaken = p.satTaken ∧
      (takeCloses p).arb = p.arb ∧ (takeCloses p).port = p.port ∧ (takeCloses p).softReset =
      p.softReset ∧ (takeCloses p).lastTransfer = p.lastTransfer ∧ (takeCloses p).lastCommand =
      p.lastCommand ∧ (takeCloses p).prevCommand = p.prevCommand ∧ (takeCloses p).attnEnables =
      p.attnEnables ∧ (takeCloses p).slot = p.slot ∧ (takeCloses p).svcLine = p.svcLine ∧
      (takeCloses p).setupLoaded = p.setupLoaded ∧ (takeCloses p).setup = p.setup ∧ (takeCloses
      p).reader = p.reader ∧ (takeCloses p).keys = p.keys ∧ (takeCloses p).chain = p.chain ∧
      (takeCloses p).supply = p.supply ∧ (takeCloses p).guard = p.guard ∧ (takeCloses p).power =
      p.power ∧ (takeCloses p).fresh = p.fresh := by simp [takeCloses]

/-- `settleCloses` (R80). -/
@[simp] theorem settleCloses_keeps (p : Part) :
    (settleCloses p).clearing = p.clearing ∧ (settleCloses p).clearFor = p.clearFor ∧
      (settleCloses p).time = p.time ∧ (settleCloses p).clock = p.clock ∧ (settleCloses
      p).satTaken = p.satTaken ∧ (settleCloses p).arb = p.arb ∧ (settleCloses p).port = p.port ∧
      (settleCloses p).softReset = p.softReset ∧ (settleCloses p).lastTransfer = p.lastTransfer
      ∧ (settleCloses p).lastCommand = p.lastCommand ∧ (settleCloses p).prevCommand =
      p.prevCommand ∧ (settleCloses p).attnEnables = p.attnEnables ∧ (settleCloses p).slot =
      p.slot ∧ (settleCloses p).svcLine = p.svcLine ∧ (settleCloses p).setupLoaded =
      p.setupLoaded ∧ (settleCloses p).setup = p.setup ∧ (settleCloses p).reader = p.reader ∧
      (settleCloses p).keys = p.keys ∧ (settleCloses p).chain = p.chain ∧ (settleCloses
      p).supply = p.supply ∧ (settleCloses p).guard = p.guard ∧ (settleCloses p).power = p.power
      ∧ (settleCloses p).fresh = p.fresh := by simp [settleCloses]

/-- `handCue` (R30). -/
@[simp] theorem handCue_keeps (x : Cue) (p : Part) :
    (handCue x p).clearing = p.clearing ∧ (handCue x p).clearFor = p.clearFor ∧ (handCue x
      p).time = p.time ∧ (handCue x p).clock = p.clock ∧ (handCue x p).satTaken = p.satTaken ∧
      (handCue x p).arb = p.arb ∧ (handCue x p).port = p.port ∧ (handCue x p).softReset =
      p.softReset ∧ (handCue x p).lastTransfer = p.lastTransfer ∧ (handCue x p).lastCommand =
      p.lastCommand ∧ (handCue x p).prevCommand = p.prevCommand ∧ (handCue x p).attnEnables =
      p.attnEnables ∧ (handCue x p).slot = p.slot ∧ (handCue x p).svcLine = p.svcLine ∧ (handCue
      x p).setupLoaded = p.setupLoaded ∧ (handCue x p).setup = p.setup ∧ (handCue x p).reader =
      p.reader ∧ (handCue x p).keys = p.keys ∧ (handCue x p).chain = p.chain ∧ (handCue x
      p).supply = p.supply ∧ (handCue x p).guard = p.guard ∧ (handCue x p).power = p.power ∧
      (handCue x p).fresh = p.fresh := by simp [handCue]

/-- `handStep` (R31). -/
@[simp] theorem handStep_keeps (x : Step) (p : Part) :
    (handStep x p).clearing = p.clearing ∧ (handStep x p).clearFor = p.clearFor ∧ (handStep x
      p).time = p.time ∧ (handStep x p).clock = p.clock ∧ (handStep x p).satTaken = p.satTaken ∧
      (handStep x p).arb = p.arb ∧ (handStep x p).port = p.port ∧ (handStep x p).softReset =
      p.softReset ∧ (handStep x p).lastTransfer = p.lastTransfer ∧ (handStep x p).lastCommand =
      p.lastCommand ∧ (handStep x p).prevCommand = p.prevCommand ∧ (handStep x p).attention =
      p.attention ∧ (handStep x p).attnEnables = p.attnEnables ∧ (handStep x p).slot = p.slot ∧
      (handStep x p).svcLine = p.svcLine ∧ (handStep x p).setupLoaded = p.setupLoaded ∧
      (handStep x p).setup = p.setup ∧ (handStep x p).reader = p.reader ∧ (handStep x p).report
      = p.report ∧ (handStep x p).listen = p.listen ∧ (handStep x p).follower = p.follower ∧
      (handStep x p).player = p.player ∧ (handStep x p).keys = p.keys ∧ (handStep x p).chain =
      p.chain ∧ (handStep x p).supply = p.supply ∧ (handStep x p).guard = p.guard ∧ (handStep x
      p).power = p.power ∧ (handStep x p).fresh = p.fresh :=
  ⟨rfl, rfl, rfl, rfl, rfl, rfl, rfl, rfl, rfl, rfl, rfl, rfl, rfl, rfl, rfl, rfl, rfl, rfl,
    rfl, rfl, rfl, rfl, rfl, rfl, rfl, rfl, rfl, rfl⟩

/-- `handRead` (R31). -/
@[simp] theorem handRead_keeps (b : Buffer) (d : Int) (pos stored : Nat) (ws : List Word) (p : Part) :
    (handRead b d pos stored ws p).clearing = p.clearing ∧ (handRead b d pos stored ws
      p).clearFor = p.clearFor ∧ (handRead b d pos stored ws p).time = p.time ∧ (handRead b d
      pos stored ws p).clock = p.clock ∧ (handRead b d pos stored ws p).satTaken = p.satTaken ∧
      (handRead b d pos stored ws p).arb = p.arb ∧ (handRead b d pos stored ws p).port = p.port
      ∧ (handRead b d pos stored ws p).softReset = p.softReset ∧ (handRead b d pos stored ws
      p).lastTransfer = p.lastTransfer ∧ (handRead b d pos stored ws p).lastCommand =
      p.lastCommand ∧ (handRead b d pos stored ws p).prevCommand = p.prevCommand ∧ (handRead b d
      pos stored ws p).attnEnables = p.attnEnables ∧ (handRead b d pos stored ws p).slot =
      p.slot ∧ (handRead b d pos stored ws p).svcLine = p.svcLine ∧ (handRead b d pos stored ws
      p).setupLoaded = p.setupLoaded ∧ (handRead b d pos stored ws p).setup = p.setup ∧
      (handRead b d pos stored ws p).reader = p.reader ∧ (handRead b d pos stored ws p).report =
      p.report ∧ (handRead b d pos stored ws p).listen = p.listen ∧ (handRead b d pos stored ws
      p).follower = p.follower ∧ (handRead b d pos stored ws p).player = p.player ∧ (handRead b
      d pos stored ws p).keys = p.keys ∧ (handRead b d pos stored ws p).chain = p.chain ∧
      (handRead b d pos stored ws p).supply = p.supply ∧ (handRead b d pos stored ws p).guard =
      p.guard ∧ (handRead b d pos stored ws p).power = p.power ∧ (handRead b d pos stored ws
      p).fresh = p.fresh := by
  unfold handRead
  try dsimp only
  repeat' split
  all_goals simp

/-- `handNote` (R29). -/
@[simp] theorem handNote_keeps (x : Note) (p : Part) :
    (handNote x p).clearing = p.clearing ∧ (handNote x p).clearFor = p.clearFor ∧ (handNote x
      p).time = p.time ∧ (handNote x p).clock = p.clock ∧ (handNote x p).satTaken = p.satTaken ∧
      (handNote x p).arb = p.arb ∧ (handNote x p).port = p.port ∧ (handNote x p).softReset =
      p.softReset ∧ (handNote x p).lastTransfer = p.lastTransfer ∧ (handNote x p).lastCommand =
      p.lastCommand ∧ (handNote x p).prevCommand = p.prevCommand ∧ (handNote x p).attnEnables =
      p.attnEnables ∧ (handNote x p).slot = p.slot ∧ (handNote x p).svcLine = p.svcLine ∧
      (handNote x p).setupLoaded = p.setupLoaded ∧ (handNote x p).setup = p.setup ∧ (handNote x
      p).reader = p.reader ∧ (handNote x p).report = p.report ∧ (handNote x p).listen = p.listen
      ∧ (handNote x p).follower = p.follower ∧ (handNote x p).player = p.player ∧ (handNote x
      p).keys = p.keys ∧ (handNote x p).chain = p.chain ∧ (handNote x p).supply = p.supply ∧
      (handNote x p).guard = p.guard ∧ (handNote x p).power = p.power ∧ (handNote x p).fresh =
      p.fresh := by
  unfold handNote
  split <;> simp

/-- `streamBase` (R31). -/
@[simp] theorem streamBase_keeps (bound : Int) (a : Bool) (p : Part) :
    (streamBase bound a p).clearing = p.clearing ∧ (streamBase bound a p).clearFor = p.clearFor
      ∧ (streamBase bound a p).time = p.time ∧ (streamBase bound a p).clock = p.clock ∧
      (streamBase bound a p).satTaken = p.satTaken ∧ (streamBase bound a p).arb = p.arb ∧
      (streamBase bound a p).port = p.port ∧ (streamBase bound a p).softReset = p.softReset ∧
      (streamBase bound a p).lastTransfer = p.lastTransfer ∧ (streamBase bound a p).lastCommand
      = p.lastCommand ∧ (streamBase bound a p).prevCommand = p.prevCommand ∧ (streamBase bound a
      p).attention = p.attention ∧ (streamBase bound a p).attnEnables = p.attnEnables ∧
      (streamBase bound a p).slot = p.slot ∧ (streamBase bound a p).svcLine = p.svcLine ∧
      (streamBase bound a p).setupLoaded = p.setupLoaded ∧ (streamBase bound a p).setup =
      p.setup ∧ (streamBase bound a p).report = p.report ∧ (streamBase bound a p).listen =
      p.listen ∧ (streamBase bound a p).follower = p.follower ∧ (streamBase bound a p).player =
      p.player ∧ (streamBase bound a p).keys = p.keys ∧ (streamBase bound a p).chain = p.chain ∧
      (streamBase bound a p).supply = p.supply ∧ (streamBase bound a p).guard = p.guard ∧
      (streamBase bound a p).power = p.power ∧ (streamBase bound a p).fresh = p.fresh := by
  unfold streamBase
  try dsimp only
  repeat' split
  all_goals simp

/-- `atStage` (R31). -/
@[simp] theorem atStage_keeps (bound : Int) (st : Stage) (p : Part) :
    (atStage bound st p).clearing = p.clearing ∧ (atStage bound st p).clearFor = p.clearFor ∧
      (atStage bound st p).time = p.time ∧ (atStage bound st p).clock = p.clock ∧ (atStage bound
      st p).satTaken = p.satTaken ∧ (atStage bound st p).arb = p.arb ∧ (atStage bound st p).port
      = p.port ∧ (atStage bound st p).softReset = p.softReset ∧ (atStage bound st
      p).lastTransfer = p.lastTransfer ∧ (atStage bound st p).lastCommand = p.lastCommand ∧
      (atStage bound st p).prevCommand = p.prevCommand ∧ (atStage bound st p).attention =
      p.attention ∧ (atStage bound st p).attnEnables = p.attnEnables ∧ (atStage bound st p).slot
      = p.slot ∧ (atStage bound st p).svcLine = p.svcLine ∧ (atStage bound st p).setupLoaded =
      p.setupLoaded ∧ (atStage bound st p).setup = p.setup ∧ (atStage bound st p).report =
      p.report ∧ (atStage bound st p).listen = p.listen ∧ (atStage bound st p).follower =
      p.follower ∧ (atStage bound st p).player = p.player ∧ (atStage bound st p).keys = p.keys ∧
      (atStage bound st p).chain = p.chain ∧ (atStage bound st p).supply = p.supply ∧ (atStage
      bound st p).guard = p.guard ∧ (atStage bound st p).power = p.power ∧ (atStage bound st
      p).fresh = p.fresh := by
  unfold atStage
  split <;> simp

/-- `seekEntry` (R28). -/
@[simp] theorem seekEntry_keeps (bound : Int) (l : List Stage) (p : Part) :
    (seekEntry bound l p).clearing = p.clearing ∧ (seekEntry bound l p).clearFor = p.clearFor ∧
      (seekEntry bound l p).time = p.time ∧ (seekEntry bound l p).clock = p.clock ∧ (seekEntry
      bound l p).satTaken = p.satTaken ∧ (seekEntry bound l p).arb = p.arb ∧ (seekEntry bound l
      p).port = p.port ∧ (seekEntry bound l p).softReset = p.softReset ∧ (seekEntry bound l
      p).lastTransfer = p.lastTransfer ∧ (seekEntry bound l p).lastCommand = p.lastCommand ∧
      (seekEntry bound l p).prevCommand = p.prevCommand ∧ (seekEntry bound l p).attention =
      p.attention ∧ (seekEntry bound l p).attnEnables = p.attnEnables ∧ (seekEntry bound l
      p).slot = p.slot ∧ (seekEntry bound l p).svcLine = p.svcLine ∧ (seekEntry bound l
      p).setupLoaded = p.setupLoaded ∧ (seekEntry bound l p).setup = p.setup ∧ (seekEntry bound
      l p).report = p.report ∧ (seekEntry bound l p).listen = p.listen ∧ (seekEntry bound l
      p).follower = p.follower ∧ (seekEntry bound l p).player = p.player ∧ (seekEntry bound l
      p).keys = p.keys ∧ (seekEntry bound l p).chain = p.chain ∧ (seekEntry bound l p).supply =
      p.supply ∧ (seekEntry bound l p).guard = p.guard ∧ (seekEntry bound l p).power = p.power ∧
      (seekEntry bound l p).fresh = p.fresh := by
  induction l generalizing p with
  | nil => simp [seekEntry]
  | cons st rest ih =>
    unfold seekEntry
    dsimp only
    split
    · simp
    · simp [ih]

/-- `startPass` (R28). -/
@[simp] theorem startPass_keeps (p : Part) :
    (startPass p).clearing = p.clearing ∧ (startPass p).clearFor = p.clearFor ∧ (startPass
      p).time = p.time ∧ (startPass p).clock = p.clock ∧ (startPass p).satTaken = p.satTaken ∧
      (startPass p).arb = p.arb ∧ (startPass p).port = p.port ∧ (startPass p).softReset =
      p.softReset ∧ (startPass p).lastTransfer = p.lastTransfer ∧ (startPass p).lastCommand =
      p.lastCommand ∧ (startPass p).prevCommand = p.prevCommand ∧ (startPass p).attention =
      p.attention ∧ (startPass p).attnEnables = p.attnEnables ∧ (startPass p).slot = p.slot ∧
      (startPass p).svcLine = p.svcLine ∧ (startPass p).setupLoaded = p.setupLoaded ∧ (startPass
      p).setup = p.setup ∧ (startPass p).report = p.report ∧ (startPass p).listen = p.listen ∧
      (startPass p).follower = p.follower ∧ (startPass p).player = p.player ∧ (startPass p).keys
      = p.keys ∧ (startPass p).chain = p.chain ∧ (startPass p).supply = p.supply ∧ (startPass
      p).guard = p.guard ∧ (startPass p).power = p.power ∧ (startPass p).fresh = p.fresh := by simp [startPass]

/-- `requestPass` (R28). -/
@[simp] theorem requestPass_keeps (p : Part) :
    (requestPass p).clearing = p.clearing ∧ (requestPass p).clearFor = p.clearFor ∧ (requestPass
      p).time = p.time ∧ (requestPass p).clock = p.clock ∧ (requestPass p).satTaken = p.satTaken
      ∧ (requestPass p).arb = p.arb ∧ (requestPass p).port = p.port ∧ (requestPass p).softReset
      = p.softReset ∧ (requestPass p).lastTransfer = p.lastTransfer ∧ (requestPass
      p).lastCommand = p.lastCommand ∧ (requestPass p).prevCommand = p.prevCommand ∧
      (requestPass p).attention = p.attention ∧ (requestPass p).attnEnables = p.attnEnables ∧
      (requestPass p).slot = p.slot ∧ (requestPass p).svcLine = p.svcLine ∧ (requestPass
      p).setupLoaded = p.setupLoaded ∧ (requestPass p).setup = p.setup ∧ (requestPass p).report
      = p.report ∧ (requestPass p).listen = p.listen ∧ (requestPass p).follower = p.follower ∧
      (requestPass p).player = p.player ∧ (requestPass p).keys = p.keys ∧ (requestPass p).chain
      = p.chain ∧ (requestPass p).supply = p.supply ∧ (requestPass p).guard = p.guard ∧
      (requestPass p).power = p.power ∧ (requestPass p).fresh = p.fresh := by
  unfold requestPass
  split <;> simp

/-- `nextPass` (R28). -/
@[simp] theorem nextPass_keeps (p : Part) :
    (nextPass p).clearing = p.clearing ∧ (nextPass p).clearFor = p.clearFor ∧ (nextPass p).time
      = p.time ∧ (nextPass p).clock = p.clock ∧ (nextPass p).satTaken = p.satTaken ∧ (nextPass
      p).arb = p.arb ∧ (nextPass p).port = p.port ∧ (nextPass p).softReset = p.softReset ∧
      (nextPass p).lastTransfer = p.lastTransfer ∧ (nextPass p).lastCommand = p.lastCommand ∧
      (nextPass p).prevCommand = p.prevCommand ∧ (nextPass p).attention = p.attention ∧
      (nextPass p).attnEnables = p.attnEnables ∧ (nextPass p).slot = p.slot ∧ (nextPass
      p).svcLine = p.svcLine ∧ (nextPass p).setupLoaded = p.setupLoaded ∧ (nextPass p).setup =
      p.setup ∧ (nextPass p).report = p.report ∧ (nextPass p).listen = p.listen ∧ (nextPass
      p).follower = p.follower ∧ (nextPass p).player = p.player ∧ (nextPass p).keys = p.keys ∧
      (nextPass p).chain = p.chain ∧ (nextPass p).supply = p.supply ∧ (nextPass p).guard =
      p.guard ∧ (nextPass p).power = p.power ∧ (nextPass p).fresh = p.fresh := by
  unfold nextPass
  split <;> simp

/-- `goOn` (R28). -/
@[simp] theorem goOn_keeps (bound : Int) (l : List Stage) (p : Part) :
    (goOn bound l p).clearing = p.clearing ∧ (goOn bound l p).clearFor = p.clearFor ∧ (goOn
      bound l p).time = p.time ∧ (goOn bound l p).clock = p.clock ∧ (goOn bound l p).satTaken =
      p.satTaken ∧ (goOn bound l p).arb = p.arb ∧ (goOn bound l p).port = p.port ∧ (goOn bound l
      p).softReset = p.softReset ∧ (goOn bound l p).lastTransfer = p.lastTransfer ∧ (goOn bound
      l p).lastCommand = p.lastCommand ∧ (goOn bound l p).prevCommand = p.prevCommand ∧ (goOn
      bound l p).attention = p.attention ∧ (goOn bound l p).attnEnables = p.attnEnables ∧ (goOn
      bound l p).slot = p.slot ∧ (goOn bound l p).svcLine = p.svcLine ∧ (goOn bound l
      p).setupLoaded = p.setupLoaded ∧ (goOn bound l p).setup = p.setup ∧ (goOn bound l
      p).report = p.report ∧ (goOn bound l p).listen = p.listen ∧ (goOn bound l p).follower =
      p.follower ∧ (goOn bound l p).player = p.player ∧ (goOn bound l p).keys = p.keys ∧ (goOn
      bound l p).chain = p.chain ∧ (goOn bound l p).supply = p.supply ∧ (goOn bound l p).guard =
      p.guard ∧ (goOn bound l p).power = p.power ∧ (goOn bound l p).fresh = p.fresh := by simp [goOn]

/-- `release` (R149). -/
@[simp] theorem release_keeps (n : OutputId) (p : Part) :
    (release n p).clearing = p.clearing ∧ (release n p).clearFor = p.clearFor ∧ (release n
      p).time = p.time ∧ (release n p).clock = p.clock ∧ (release n p).satTaken = p.satTaken ∧
      (release n p).arb = p.arb ∧ (release n p).port = p.port ∧ (release n p).softReset =
      p.softReset ∧ (release n p).lastTransfer = p.lastTransfer ∧ (release n p).lastCommand =
      p.lastCommand ∧ (release n p).prevCommand = p.prevCommand ∧ (release n p).attnEnables =
      p.attnEnables ∧ (release n p).slot = p.slot ∧ (release n p).svcLine = p.svcLine ∧ (release
      n p).setupLoaded = p.setupLoaded ∧ (release n p).setup = p.setup ∧ (release n p).reader =
      p.reader ∧ (release n p).report = p.report ∧ (release n p).follower = p.follower ∧
      (release n p).player = p.player ∧ (release n p).sched = p.sched ∧ (release n p).chain =
      p.chain ∧ (release n p).supply = p.supply ∧ (release n p).power = p.power := by
  unfold release
  try dsimp only
  repeat' split
  all_goals simp

/-- `raiseCount` (R148). -/
@[simp] theorem raiseCount_keeps (n : OutputId) (p : Part) :
    ((raiseCount n p).1).clearing = p.clearing ∧ ((raiseCount n p).1).clearFor = p.clearFor ∧
      ((raiseCount n p).1).time = p.time ∧ ((raiseCount n p).1).clock = p.clock ∧ ((raiseCount n
      p).1).satTaken = p.satTaken ∧ ((raiseCount n p).1).arb = p.arb ∧ ((raiseCount n p).1).port
      = p.port ∧ ((raiseCount n p).1).softReset = p.softReset ∧ ((raiseCount n
      p).1).lastTransfer = p.lastTransfer ∧ ((raiseCount n p).1).lastCommand = p.lastCommand ∧
      ((raiseCount n p).1).prevCommand = p.prevCommand ∧ ((raiseCount n p).1).attention =
      p.attention ∧ ((raiseCount n p).1).attnEnables = p.attnEnables ∧ ((raiseCount n p).1).slot
      = p.slot ∧ ((raiseCount n p).1).svcLine = p.svcLine ∧ ((raiseCount n p).1).setupLoaded =
      p.setupLoaded ∧ ((raiseCount n p).1).setup = p.setup ∧ ((raiseCount n p).1).reader =
      p.reader ∧ ((raiseCount n p).1).report = p.report ∧ ((raiseCount n p).1).listen = p.listen
      ∧ ((raiseCount n p).1).follower = p.follower ∧ ((raiseCount n p).1).player = p.player ∧
      ((raiseCount n p).1).sched = p.sched ∧ ((raiseCount n p).1).chain = p.chain ∧ ((raiseCount
      n p).1).supply = p.supply ∧ ((raiseCount n p).1).power = p.power ∧ ((raiseCount n
      p).1).fresh = p.fresh := by
  unfold raiseCount
  try dsimp only
  repeat' split
  all_goals simp

/-- `claim` (R148). -/
@[simp] theorem claim_keeps (n : OutputId) (p : Part) :
    ((claim n p).1).clearing = p.clearing ∧ ((claim n p).1).clearFor = p.clearFor ∧ ((claim n
      p).1).time = p.time ∧ ((claim n p).1).clock = p.clock ∧ ((claim n p).1).satTaken =
      p.satTaken ∧ ((claim n p).1).arb = p.arb ∧ ((claim n p).1).port = p.port ∧ ((claim n
      p).1).softReset = p.softReset ∧ ((claim n p).1).lastTransfer = p.lastTransfer ∧ ((claim n
      p).1).lastCommand = p.lastCommand ∧ ((claim n p).1).prevCommand = p.prevCommand ∧ ((claim
      n p).1).attnEnables = p.attnEnables ∧ ((claim n p).1).slot = p.slot ∧ ((claim n
      p).1).svcLine = p.svcLine ∧ ((claim n p).1).setupLoaded = p.setupLoaded ∧ ((claim n
      p).1).setup = p.setup ∧ ((claim n p).1).reader = p.reader ∧ ((claim n p).1).report =
      p.report ∧ ((claim n p).1).follower = p.follower ∧ ((claim n p).1).player = p.player ∧
      ((claim n p).1).sched = p.sched ∧ ((claim n p).1).chain = p.chain ∧ ((claim n p).1).supply
      = p.supply ∧ ((claim n p).1).power = p.power ∧ ((claim n p).1).fresh = p.fresh := by
  unfold claim
  try dsimp only
  repeat' split
  all_goals simp

/-- `stopPulse` (R155). -/
@[simp] theorem stopPulse_keeps (n : OutputId) (p : Part) :
    (stopPulse n p).clearing = p.clearing ∧ (stopPulse n p).clearFor = p.clearFor ∧ (stopPulse n
      p).time = p.time ∧ (stopPulse n p).clock = p.clock ∧ (stopPulse n p).satTaken = p.satTaken
      ∧ (stopPulse n p).arb = p.arb ∧ (stopPulse n p).port = p.port ∧ (stopPulse n p).softReset
      = p.softReset ∧ (stopPulse n p).lastTransfer = p.lastTransfer ∧ (stopPulse n
      p).lastCommand = p.lastCommand ∧ (stopPulse n p).prevCommand = p.prevCommand ∧ (stopPulse
      n p).attnEnables = p.attnEnables ∧ (stopPulse n p).slot = p.slot ∧ (stopPulse n p).svcLine
      = p.svcLine ∧ (stopPulse n p).setupLoaded = p.setupLoaded ∧ (stopPulse n p).setup =
      p.setup ∧ (stopPulse n p).reader = p.reader ∧ (stopPulse n p).report = p.report ∧
      (stopPulse n p).follower = p.follower ∧ (stopPulse n p).player = p.player ∧ (stopPulse n
      p).sched = p.sched ∧ (stopPulse n p).chain = p.chain ∧ (stopPulse n p).supply = p.supply ∧
      (stopPulse n p).power = p.power ∧ (stopPulse n p).fresh = p.fresh := by
  unfold stopPulse
  try dsimp only
  repeat' split
  all_goals simp

/-- `disableOutput` (R156). -/
@[simp] theorem disableOutput_keeps (n : OutputId) (p : Part) :
    (disableOutput n p).clearing = p.clearing ∧ (disableOutput n p).clearFor = p.clearFor ∧
      (disableOutput n p).time = p.time ∧ (disableOutput n p).clock = p.clock ∧ (disableOutput n
      p).satTaken = p.satTaken ∧ (disableOutput n p).arb = p.arb ∧ (disableOutput n p).port =
      p.port ∧ (disableOutput n p).softReset = p.softReset ∧ (disableOutput n p).lastTransfer =
      p.lastTransfer ∧ (disableOutput n p).lastCommand = p.lastCommand ∧ (disableOutput n
      p).prevCommand = p.prevCommand ∧ (disableOutput n p).attention = p.attention ∧
      (disableOutput n p).attnEnables = p.attnEnables ∧ (disableOutput n p).slot = p.slot ∧
      (disableOutput n p).svcLine = p.svcLine ∧ (disableOutput n p).setupLoaded = p.setupLoaded
      ∧ (disableOutput n p).setup = p.setup ∧ (disableOutput n p).reader = p.reader ∧
      (disableOutput n p).report = p.report ∧ (disableOutput n p).follower = p.follower ∧
      (disableOutput n p).player = p.player ∧ (disableOutput n p).sched = p.sched ∧
      (disableOutput n p).chain = p.chain ∧ (disableOutput n p).supply = p.supply ∧
      (disableOutput n p).power = p.power ∧ (disableOutput n p).fresh = p.fresh := by
  unfold disableOutput
  try dsimp only
  repeat' split
  all_goals simp

/-- `retryOutput` (R156). -/
@[simp] theorem retryOutput_keeps (n : OutputId) (p : Part) :
    (retryOutput n p).clearing = p.clearing ∧ (retryOutput n p).clearFor = p.clearFor ∧
      (retryOutput n p).time = p.time ∧ (retryOutput n p).clock = p.clock ∧ (retryOutput n
      p).satTaken = p.satTaken ∧ (retryOutput n p).arb = p.arb ∧ (retryOutput n p).port = p.port
      ∧ (retryOutput n p).softReset = p.softReset ∧ (retryOutput n p).lastTransfer =
      p.lastTransfer ∧ (retryOutput n p).lastCommand = p.lastCommand ∧ (retryOutput n
      p).prevCommand = p.prevCommand ∧ (retryOutput n p).attention = p.attention ∧ (retryOutput
      n p).attnEnables = p.attnEnables ∧ (retryOutput n p).slot = p.slot ∧ (retryOutput n
      p).svcLine = p.svcLine ∧ (retryOutput n p).setupLoaded = p.setupLoaded ∧ (retryOutput n
      p).setup = p.setup ∧ (retryOutput n p).reader = p.reader ∧ (retryOutput n p).report =
      p.report ∧ (retryOutput n p).follower = p.follower ∧ (retryOutput n p).player = p.player ∧
      (retryOutput n p).sched = p.sched ∧ (retryOutput n p).chain = p.chain ∧ (retryOutput n
      p).supply = p.supply ∧ (retryOutput n p).power = p.power ∧ (retryOutput n p).fresh =
      p.fresh := by
  unfold retryOutput
  try dsimp only
  repeat' split
  all_goals simp

/-- `cipherRelease` (R156). -/
@[simp] theorem cipherRelease_keeps (n : OutputId) (p : Part) :
    (cipherRelease n p).clearing = p.clearing ∧ (cipherRelease n p).clearFor = p.clearFor ∧
      (cipherRelease n p).time = p.time ∧ (cipherRelease n p).clock = p.clock ∧ (cipherRelease n
      p).satTaken = p.satTaken ∧ (cipherRelease n p).arb = p.arb ∧ (cipherRelease n p).port =
      p.port ∧ (cipherRelease n p).softReset = p.softReset ∧ (cipherRelease n p).lastTransfer =
      p.lastTransfer ∧ (cipherRelease n p).lastCommand = p.lastCommand ∧ (cipherRelease n
      p).prevCommand = p.prevCommand ∧ (cipherRelease n p).attention = p.attention ∧
      (cipherRelease n p).attnEnables = p.attnEnables ∧ (cipherRelease n p).slot = p.slot ∧
      (cipherRelease n p).svcLine = p.svcLine ∧ (cipherRelease n p).setupLoaded = p.setupLoaded
      ∧ (cipherRelease n p).setup = p.setup ∧ (cipherRelease n p).reader = p.reader ∧
      (cipherRelease n p).report = p.report ∧ (cipherRelease n p).follower = p.follower ∧
      (cipherRelease n p).player = p.player ∧ (cipherRelease n p).sched = p.sched ∧
      (cipherRelease n p).chain = p.chain ∧ (cipherRelease n p).supply = p.supply ∧
      (cipherRelease n p).power = p.power := by
  unfold cipherRelease
  try dsimp only
  repeat' split
  all_goals simp

/-- `testRelease` (R179). -/
@[simp] theorem testRelease_keeps (n : OutputId) (p : Part) :
    (testRelease n p).clearing = p.clearing ∧ (testRelease n p).clearFor = p.clearFor ∧
      (testRelease n p).time = p.time ∧ (testRelease n p).clock = p.clock ∧ (testRelease n
      p).satTaken = p.satTaken ∧ (testRelease n p).arb = p.arb ∧ (testRelease n p).port = p.port
      ∧ (testRelease n p).softReset = p.softReset ∧ (testRelease n p).lastTransfer =
      p.lastTransfer ∧ (testRelease n p).lastCommand = p.lastCommand ∧ (testRelease n
      p).prevCommand = p.prevCommand ∧ (testRelease n p).attention = p.attention ∧ (testRelease
      n p).attnEnables = p.attnEnables ∧ (testRelease n p).slot = p.slot ∧ (testRelease n
      p).svcLine = p.svcLine ∧ (testRelease n p).setupLoaded = p.setupLoaded ∧ (testRelease n
      p).setup = p.setup ∧ (testRelease n p).reader = p.reader ∧ (testRelease n p).report =
      p.report ∧ (testRelease n p).follower = p.follower ∧ (testRelease n p).player = p.player ∧
      (testRelease n p).sched = p.sched ∧ (testRelease n p).chain = p.chain ∧ (testRelease n
      p).supply = p.supply ∧ (testRelease n p).power = p.power := by
  unfold testRelease
  try dsimp only
  repeat' split
  all_goals simp

/-- `settleCourse` (R157). -/
@[simp] theorem settleCourse_keeps (n : OutputId) (p : Part) :
    (settleCourse n p).clearing = p.clearing ∧ (settleCourse n p).clearFor = p.clearFor ∧
      (settleCourse n p).time = p.time ∧ (settleCourse n p).clock = p.clock ∧ (settleCourse n
      p).satTaken = p.satTaken ∧ (settleCourse n p).arb = p.arb ∧ (settleCourse n p).port =
      p.port ∧ (settleCourse n p).softReset = p.softReset ∧ (settleCourse n p).lastTransfer =
      p.lastTransfer ∧ (settleCourse n p).lastCommand = p.lastCommand ∧ (settleCourse n
      p).prevCommand = p.prevCommand ∧ (settleCourse n p).attnEnables = p.attnEnables ∧
      (settleCourse n p).slot = p.slot ∧ (settleCourse n p).svcLine = p.svcLine ∧ (settleCourse
      n p).setupLoaded = p.setupLoaded ∧ (settleCourse n p).setup = p.setup ∧ (settleCourse n
      p).reader = p.reader ∧ (settleCourse n p).report = p.report ∧ (settleCourse n p).follower
      = p.follower ∧ (settleCourse n p).player = p.player ∧ (settleCourse n p).sched = p.sched ∧
      (settleCourse n p).chain = p.chain ∧ (settleCourse n p).supply = p.supply ∧ (settleCourse
      n p).power = p.power ∧ (settleCourse n p).fresh = p.fresh := by
  unfold settleCourse
  try dsimp only
  repeat' split
  all_goals simp

/-- `keyPowerOff` (R158). -/
@[simp] theorem keyPowerOff_keeps (p : Part) :
    (keyPowerOff p).clearing = p.clearing ∧ (keyPowerOff p).clearFor = p.clearFor ∧ (keyPowerOff
      p).time = p.time ∧ (keyPowerOff p).clock = p.clock ∧ (keyPowerOff p).satTaken = p.satTaken
      ∧ (keyPowerOff p).arb = p.arb ∧ (keyPowerOff p).port = p.port ∧ (keyPowerOff p).softReset
      = p.softReset ∧ (keyPowerOff p).lastTransfer = p.lastTransfer ∧ (keyPowerOff
      p).lastCommand = p.lastCommand ∧ (keyPowerOff p).prevCommand = p.prevCommand ∧
      (keyPowerOff p).attention = p.attention ∧ (keyPowerOff p).attnEnables = p.attnEnables ∧
      (keyPowerOff p).slot = p.slot ∧ (keyPowerOff p).svcLine = p.svcLine ∧ (keyPowerOff
      p).setupLoaded = p.setupLoaded ∧ (keyPowerOff p).setup = p.setup ∧ (keyPowerOff p).reader
      = p.reader ∧ (keyPowerOff p).report = p.report ∧ (keyPowerOff p).listen = p.listen ∧
      (keyPowerOff p).follower = p.follower ∧ (keyPowerOff p).player = p.player ∧ (keyPowerOff
      p).sched = p.sched ∧ (keyPowerOff p).chain = p.chain ∧ (keyPowerOff p).supply = p.supply ∧
      (keyPowerOff p).power = p.power ∧ (keyPowerOff p).fresh = p.fresh := by simp [keyPowerOff]

/-- `keyGeneralRelease` (R159). -/
@[simp] theorem keyGeneralRelease_keeps (p : Part) :
    (keyGeneralRelease p).clearing = p.clearing ∧ (keyGeneralRelease p).clearFor = p.clearFor ∧
      (keyGeneralRelease p).time = p.time ∧ (keyGeneralRelease p).clock = p.clock ∧
      (keyGeneralRelease p).satTaken = p.satTaken ∧ (keyGeneralRelease p).arb = p.arb ∧
      (keyGeneralRelease p).port = p.port ∧ (keyGeneralRelease p).softReset = p.softReset ∧
      (keyGeneralRelease p).lastTransfer = p.lastTransfer ∧ (keyGeneralRelease p).lastCommand =
      p.lastCommand ∧ (keyGeneralRelease p).prevCommand = p.prevCommand ∧ (keyGeneralRelease
      p).attention = p.attention ∧ (keyGeneralRelease p).attnEnables = p.attnEnables ∧
      (keyGeneralRelease p).slot = p.slot ∧ (keyGeneralRelease p).svcLine = p.svcLine ∧
      (keyGeneralRelease p).setupLoaded = p.setupLoaded ∧ (keyGeneralRelease p).setup = p.setup
      ∧ (keyGeneralRelease p).reader = p.reader ∧ (keyGeneralRelease p).report = p.report ∧
      (keyGeneralRelease p).listen = p.listen ∧ (keyGeneralRelease p).follower = p.follower ∧
      (keyGeneralRelease p).player = p.player ∧ (keyGeneralRelease p).sched = p.sched ∧
      (keyGeneralRelease p).chain = p.chain ∧ (keyGeneralRelease p).supply = p.supply ∧
      (keyGeneralRelease p).power = p.power := by simp [keyGeneralRelease]

/-- `policy` (R175). -/
@[simp] theorem policy_keeps (n : OutputId) (p : Part) :
    (policy n p).clearing = p.clearing ∧ (policy n p).clearFor = p.clearFor ∧ (policy n p).time
      = p.time ∧ (policy n p).clock = p.clock ∧ (policy n p).satTaken = p.satTaken ∧ (policy n
      p).arb = p.arb ∧ (policy n p).port = p.port ∧ (policy n p).softReset = p.softReset ∧
      (policy n p).lastTransfer = p.lastTransfer ∧ (policy n p).lastCommand = p.lastCommand ∧
      (policy n p).prevCommand = p.prevCommand ∧ (policy n p).attention = p.attention ∧ (policy
      n p).attnEnables = p.attnEnables ∧ (policy n p).slot = p.slot ∧ (policy n p).svcLine =
      p.svcLine ∧ (policy n p).setupLoaded = p.setupLoaded ∧ (policy n p).setup = p.setup ∧
      (policy n p).reader = p.reader ∧ (policy n p).report = p.report ∧ (policy n p).follower =
      p.follower ∧ (policy n p).player = p.player ∧ (policy n p).sched = p.sched ∧ (policy n
      p).chain = p.chain ∧ (policy n p).supply = p.supply ∧ (policy n p).power = p.power ∧
      (policy n p).fresh = p.fresh := by
  unfold policy
  try dsimp only
  repeat' split
  all_goals simp

/-- `testFailure` (R179). -/
@[simp] theorem testFailure_keeps (n : OutputId) (k : FaultKind) (p : Part) :
    (testFailure n k p).clearing = p.clearing ∧ (testFailure n k p).clearFor = p.clearFor ∧
      (testFailure n k p).time = p.time ∧ (testFailure n k p).clock = p.clock ∧ (testFailure n k
      p).satTaken = p.satTaken ∧ (testFailure n k p).arb = p.arb ∧ (testFailure n k p).port =
      p.port ∧ (testFailure n k p).softReset = p.softReset ∧ (testFailure n k p).lastTransfer =
      p.lastTransfer ∧ (testFailure n k p).lastCommand = p.lastCommand ∧ (testFailure n k
      p).prevCommand = p.prevCommand ∧ (testFailure n k p).attention = p.attention ∧
      (testFailure n k p).attnEnables = p.attnEnables ∧ (testFailure n k p).slot = p.slot ∧
      (testFailure n k p).setupLoaded = p.setupLoaded ∧ (testFailure n k p).setup = p.setup ∧
      (testFailure n k p).reader = p.reader ∧ (testFailure n k p).report = p.report ∧
      (testFailure n k p).follower = p.follower ∧ (testFailure n k p).player = p.player ∧
      (testFailure n k p).sched = p.sched ∧ (testFailure n k p).chain = p.chain ∧ (testFailure n
      k p).supply = p.supply ∧ (testFailure n k p).power = p.power := by
  unfold testFailure
  try dsimp only
  repeat' split
  all_goals simp

/-- `testPass` (R179). -/
@[simp] theorem testPass_keeps (n : OutputId) (p : Part) :
    (testPass n p).clearing = p.clearing ∧ (testPass n p).clearFor = p.clearFor ∧ (testPass n
      p).time = p.time ∧ (testPass n p).clock = p.clock ∧ (testPass n p).satTaken = p.satTaken ∧
      (testPass n p).arb = p.arb ∧ (testPass n p).port = p.port ∧ (testPass n p).softReset =
      p.softReset ∧ (testPass n p).lastTransfer = p.lastTransfer ∧ (testPass n p).lastCommand =
      p.lastCommand ∧ (testPass n p).prevCommand = p.prevCommand ∧ (testPass n p).attention =
      p.attention ∧ (testPass n p).attnEnables = p.attnEnables ∧ (testPass n p).slot = p.slot ∧
      (testPass n p).setupLoaded = p.setupLoaded ∧ (testPass n p).setup = p.setup ∧ (testPass n
      p).reader = p.reader ∧ (testPass n p).report = p.report ∧ (testPass n p).follower =
      p.follower ∧ (testPass n p).player = p.player ∧ (testPass n p).sched = p.sched ∧ (testPass
      n p).chain = p.chain ∧ (testPass n p).supply = p.supply ∧ (testPass n p).power = p.power := by simp [testPass]

/-- `testNoVerdict` (R173). -/
@[simp] theorem testNoVerdict_keeps (n : OutputId) (p : Part) :
    (testNoVerdict n p).clearing = p.clearing ∧ (testNoVerdict n p).clearFor = p.clearFor ∧
      (testNoVerdict n p).time = p.time ∧ (testNoVerdict n p).clock = p.clock ∧ (testNoVerdict n
      p).satTaken = p.satTaken ∧ (testNoVerdict n p).arb = p.arb ∧ (testNoVerdict n p).port =
      p.port ∧ (testNoVerdict n p).softReset = p.softReset ∧ (testNoVerdict n p).lastTransfer =
      p.lastTransfer ∧ (testNoVerdict n p).lastCommand = p.lastCommand ∧ (testNoVerdict n
      p).prevCommand = p.prevCommand ∧ (testNoVerdict n p).attention = p.attention ∧
      (testNoVerdict n p).attnEnables = p.attnEnables ∧ (testNoVerdict n p).slot = p.slot ∧
      (testNoVerdict n p).svcLine = p.svcLine ∧ (testNoVerdict n p).setupLoaded = p.setupLoaded
      ∧ (testNoVerdict n p).setup = p.setup ∧ (testNoVerdict n p).reader = p.reader ∧
      (testNoVerdict n p).report = p.report ∧ (testNoVerdict n p).follower = p.follower ∧
      (testNoVerdict n p).player = p.player ∧ (testNoVerdict n p).sched = p.sched ∧
      (testNoVerdict n p).chain = p.chain ∧ (testNoVerdict n p).supply = p.supply ∧
      (testNoVerdict n p).power = p.power ∧ (testNoVerdict n p).fresh = p.fresh := by
  unfold testNoVerdict
  try dsimp only
  repeat' split
  all_goals simp

/-- `outputFault` (R175). -/
@[simp] theorem outputFault_keeps (n : OutputId) (k : FaultKind) (p : Part) :
    (outputFault n k p).clearing = p.clearing ∧ (outputFault n k p).clearFor = p.clearFor ∧
      (outputFault n k p).time = p.time ∧ (outputFault n k p).clock = p.clock ∧ (outputFault n k
      p).satTaken = p.satTaken ∧ (outputFault n k p).arb = p.arb ∧ (outputFault n k p).port =
      p.port ∧ (outputFault n k p).softReset = p.softReset ∧ (outputFault n k p).lastTransfer =
      p.lastTransfer ∧ (outputFault n k p).lastCommand = p.lastCommand ∧ (outputFault n k
      p).prevCommand = p.prevCommand ∧ (outputFault n k p).attention = p.attention ∧
      (outputFault n k p).attnEnables = p.attnEnables ∧ (outputFault n k p).slot = p.slot ∧
      (outputFault n k p).setupLoaded = p.setupLoaded ∧ (outputFault n k p).setup = p.setup ∧
      (outputFault n k p).reader = p.reader ∧ (outputFault n k p).report = p.report ∧
      (outputFault n k p).follower = p.follower ∧ (outputFault n k p).player = p.player ∧
      (outputFault n k p).sched = p.sched ∧ (outputFault n k p).chain = p.chain ∧ (outputFault n
      k p).supply = p.supply ∧ (outputFault n k p).power = p.power := by
  unfold outputFault
  try dsimp only
  repeat' split
  all_goals simp

/-- `serviceVerdict` (R173). -/
@[simp] theorem serviceVerdict_keeps (n : OutputId) (v : Verdict) (p : Part) :
    (serviceVerdict n v p).clearing = p.clearing ∧ (serviceVerdict n v p).clearFor = p.clearFor
      ∧ (serviceVerdict n v p).time = p.time ∧ (serviceVerdict n v p).clock = p.clock ∧
      (serviceVerdict n v p).satTaken = p.satTaken ∧ (serviceVerdict n v p).arb = p.arb ∧
      (serviceVerdict n v p).port = p.port ∧ (serviceVerdict n v p).softReset = p.softReset ∧
      (serviceVerdict n v p).lastTransfer = p.lastTransfer ∧ (serviceVerdict n v p).lastCommand
      = p.lastCommand ∧ (serviceVerdict n v p).prevCommand = p.prevCommand ∧ (serviceVerdict n v
      p).attention = p.attention ∧ (serviceVerdict n v p).attnEnables = p.attnEnables ∧
      (serviceVerdict n v p).slot = p.slot ∧ (serviceVerdict n v p).setupLoaded = p.setupLoaded
      ∧ (serviceVerdict n v p).setup = p.setup ∧ (serviceVerdict n v p).reader = p.reader ∧
      (serviceVerdict n v p).report = p.report ∧ (serviceVerdict n v p).follower = p.follower ∧
      (serviceVerdict n v p).player = p.player ∧ (serviceVerdict n v p).sched = p.sched ∧
      (serviceVerdict n v p).chain = p.chain ∧ (serviceVerdict n v p).supply = p.supply ∧
      (serviceVerdict n v p).power = p.power := by
  unfold serviceVerdict
  try dsimp only
  repeat' split
  all_goals simp

/-- `testVerdict` (R179). -/
@[simp] theorem testVerdict_keeps (n : OutputId) (v : Verdict) (p : Part) :
    (testVerdict n v p).clearing = p.clearing ∧ (testVerdict n v p).clearFor = p.clearFor ∧
      (testVerdict n v p).time = p.time ∧ (testVerdict n v p).clock = p.clock ∧ (testVerdict n v
      p).satTaken = p.satTaken ∧ (testVerdict n v p).arb = p.arb ∧ (testVerdict n v p).port =
      p.port ∧ (testVerdict n v p).softReset = p.softReset ∧ (testVerdict n v p).lastTransfer =
      p.lastTransfer ∧ (testVerdict n v p).lastCommand = p.lastCommand ∧ (testVerdict n v
      p).prevCommand = p.prevCommand ∧ (testVerdict n v p).attention = p.attention ∧
      (testVerdict n v p).attnEnables = p.attnEnables ∧ (testVerdict n v p).slot = p.slot ∧
      (testVerdict n v p).setupLoaded = p.setupLoaded ∧ (testVerdict n v p).setup = p.setup ∧
      (testVerdict n v p).reader = p.reader ∧ (testVerdict n v p).report = p.report ∧
      (testVerdict n v p).follower = p.follower ∧ (testVerdict n v p).player = p.player ∧
      (testVerdict n v p).sched = p.sched ∧ (testVerdict n v p).chain = p.chain ∧ (testVerdict n
      v p).supply = p.supply ∧ (testVerdict n v p).power = p.power := by
  unfold testVerdict
  try dsimp only
  repeat' split
  all_goals simp

/-- `finishTest` (R179). -/
@[simp] theorem finishTest_keeps (o : SlotOutcome) (d : SlotDetail) (p : Part) :
    (finishTest o d p).clearing = p.clearing ∧ (finishTest o d p).clearFor = p.clearFor ∧
      (finishTest o d p).time = p.time ∧ (finishTest o d p).clock = p.clock ∧ (finishTest o d
      p).satTaken = p.satTaken ∧ (finishTest o d p).arb = p.arb ∧ (finishTest o d p).port =
      p.port ∧ (finishTest o d p).softReset = p.softReset ∧ (finishTest o d p).lastTransfer =
      p.lastTransfer ∧ (finishTest o d p).lastCommand = p.lastCommand ∧ (finishTest o d
      p).prevCommand = p.prevCommand ∧ (finishTest o d p).attention = p.attention ∧ (finishTest
      o d p).attnEnables = p.attnEnables ∧ (finishTest o d p).setupLoaded = p.setupLoaded ∧
      (finishTest o d p).setup = p.setup ∧ (finishTest o d p).reader = p.reader ∧ (finishTest o
      d p).report = p.report ∧ (finishTest o d p).follower = p.follower ∧ (finishTest o d
      p).player = p.player ∧ (finishTest o d p).sched = p.sched ∧ (finishTest o d p).chain =
      p.chain ∧ (finishTest o d p).supply = p.supply ∧ (finishTest o d p).power = p.power ∧
      (finishTest o d p).fresh = p.fresh := by simp [finishTest]

/-- `keyOff` (R137). -/
@[simp] theorem keyOff_keeps (x : Note) (p : Part) :
    (keyOff x p).clearing = p.clearing ∧ (keyOff x p).clearFor = p.clearFor ∧ (keyOff x p).time
      = p.time ∧ (keyOff x p).clock = p.clock ∧ (keyOff x p).satTaken = p.satTaken ∧ (keyOff x
      p).arb = p.arb ∧ (keyOff x p).port = p.port ∧ (keyOff x p).softReset = p.softReset ∧
      (keyOff x p).lastTransfer = p.lastTransfer ∧ (keyOff x p).lastCommand = p.lastCommand ∧
      (keyOff x p).prevCommand = p.prevCommand ∧ (keyOff x p).attnEnables = p.attnEnables ∧
      (keyOff x p).slot = p.slot ∧ (keyOff x p).svcLine = p.svcLine ∧ (keyOff x p).setupLoaded =
      p.setupLoaded ∧ (keyOff x p).setup = p.setup ∧ (keyOff x p).reader = p.reader ∧ (keyOff x
      p).report = p.report ∧ (keyOff x p).follower = p.follower ∧ (keyOff x p).player = p.player
      ∧ (keyOff x p).sched = p.sched ∧ (keyOff x p).chain = p.chain ∧ (keyOff x p).supply =
      p.supply ∧ (keyOff x p).power = p.power := by
  unfold keyOff
  generalize x.claimed = l
  induction l generalizing p with
  | nil => simp
  | cons n rest ih =>
    rw [List.foldl_cons]
    simp [ih]

/-- `claimAll` (R135). -/
@[simp] theorem claimAll_keeps (l : List OutputId) (p : Part) :
    ((claimAll l p).1).clearing = p.clearing ∧ ((claimAll l p).1).clearFor = p.clearFor ∧
      ((claimAll l p).1).time = p.time ∧ ((claimAll l p).1).clock = p.clock ∧ ((claimAll l
      p).1).satTaken = p.satTaken ∧ ((claimAll l p).1).arb = p.arb ∧ ((claimAll l p).1).port =
      p.port ∧ ((claimAll l p).1).softReset = p.softReset ∧ ((claimAll l p).1).lastTransfer =
      p.lastTransfer ∧ ((claimAll l p).1).lastCommand = p.lastCommand ∧ ((claimAll l
      p).1).prevCommand = p.prevCommand ∧ ((claimAll l p).1).attnEnables = p.attnEnables ∧
      ((claimAll l p).1).slot = p.slot ∧ ((claimAll l p).1).svcLine = p.svcLine ∧ ((claimAll l
      p).1).setupLoaded = p.setupLoaded ∧ ((claimAll l p).1).setup = p.setup ∧ ((claimAll l
      p).1).reader = p.reader ∧ ((claimAll l p).1).report = p.report ∧ ((claimAll l
      p).1).follower = p.follower ∧ ((claimAll l p).1).player = p.player ∧ ((claimAll l
      p).1).sched = p.sched ∧ ((claimAll l p).1).chain = p.chain ∧ ((claimAll l p).1).supply =
      p.supply ∧ ((claimAll l p).1).power = p.power ∧ ((claimAll l p).1).fresh = p.fresh := by
  induction l generalizing p with
  | nil => simp [claimAll]
  | cons n rest ih => simp [claimAll, ih]

/-! ## What the updates write -/

@[simp] theorem latch_attention (c : Condition) (p : Part) :
    (latch c p).attention = p.attention ||| c.mask := rfl

@[simp] theorem latchIf_true (c : Condition) (p : Part) : latchIf true c p = latch c p := rfl

@[simp] theorem latchIf_false (c : Condition) (p : Part) : latchIf false c p = p := rfl

@[simp] theorem closeSlot_slot (o : SlotOutcome) (d : SlotDetail) (p : Part) :
    (closeSlot o d p).slot = { p.slot with phase := .closing } := rfl

@[simp] theorem closeSlot_svcLine (o : SlotOutcome) (d : SlotDetail) (p : Part) :
    (closeSlot o d p).svcLine = p.svcLine ++ [.writeDetail d.code, .writeCode o.code] := rfl

@[simp] theorem enterState_player (st : PlayerState) (p : Part) :
    (enterState st p).player = { p.player with state := st } := by
  simp [enterState]

@[simp] theorem moveTo_player (st : PlayerState) (p : Part) :
    (moveTo st p).player = { p.player with state := st } := by
  unfold moveTo
  split <;> simp

@[simp] theorem flushOnsets_queue (p : Part) : (flushOnsets p).listen.queue = [] := rfl

@[simp] theorem clearFermata_player (p : Part) :
    (clearFermata p).player = { p.player with fermata := Fermata.init, starveTimer := none } := rfl

@[simp] theorem leaveFollower_follower (p : Part) :
    (leaveFollower p).follower = p.follower.leave := rfl

@[simp] theorem recordFault_svcLine (n : OutputId) (k : FaultKind) (p : Part) :
    (recordFault n k p).svcLine = p.svcLine ++ [.faultRead
      { output := n
        kind := k
        retries := (entry p.guard.detectors n).retryCount
        clock := faultClock p.clock
        passed := false }] := rfl

end Sys2Proof.Machine
end

