-- ==== Sys2Proof/Laws/Store.lean ====
section
/-! SUPPORT. The store and the tables of fixed length: reading after a write, the canonical form kept
by a write, and an entry of a table after `put` and `tabulate`. -/

namespace Sys2Proof.Machine

/-! ## The store -/

theorem Memory.wfFrom_cons (lo a : Nat) (w : Word) (rest : Memory) :
    Memory.wfFrom lo ((a, w) :: rest) = true ↔
      lo ≤ a ∧ a < Config.storeWords ∧ w ≠ Config.unwritten ∧ Memory.wfFrom (a + 1) rest = true := by
  simp [Memory.wfFrom, and_assoc]

theorem Memory.wfFrom_mono {m : Memory} {lo lo' : Nat} (h : Memory.wfFrom lo m = true)
    (hle : lo' ≤ lo) : Memory.wfFrom lo' m = true := by
  cases m with
  | nil => rfl
  | cons e rest =>
    obtain ⟨a, w⟩ := e
    rw [Memory.wfFrom_cons] at h ⊢
    exact ⟨by omega, h.2⟩

/-- An address below every listed one is unlisted. -/
theorem Memory.read_below {m : Memory} {lo x : Nat} (h : Memory.wfFrom lo m = true) (hx : x < lo) :
    m.read x = Config.unwritten := by
  induction m generalizing lo with
  | nil => rfl
  | cons e rest ih =>
    obtain ⟨a, w⟩ := e
    rw [Memory.wfFrom_cons] at h
    have hne : a ≠ x := by omega
    simp only [Memory.read, if_neg hne]
    exact ih h.2.2.2 (by omega)

theorem Memory.insert_wfFrom {m : Memory} {lo x : Nat} (v : Word) (h : Memory.wfFrom lo m = true)
    (hlo : lo ≤ x) (hx : x < Config.storeWords) : Memory.wfFrom lo (m.insert x v) = true := by
  induction m generalizing lo with
  | nil =>
    by_cases hv : v = Config.unwritten
    · simp [Memory.insert, hv, Memory.wfFrom]
    · simp [Memory.insert, hv, Memory.wfFrom, hlo, hx]
  | cons e rest ih =>
    obtain ⟨a, w⟩ := e
    have h' := h
    rw [Memory.wfFrom_cons] at h
    obtain ⟨h1, h2, h3, h4⟩ := h
    by_cases hxa : x < a
    · by_cases hv : v = Config.unwritten
      · simpa [Memory.insert, hxa, hv] using h'
      · simp only [Memory.insert, if_pos hxa, if_neg hv]
        rw [Memory.wfFrom_cons, Memory.wfFrom_cons]
        exact ⟨hlo, hx, hv, by omega, h2, h3, h4⟩
    · by_cases hxe : x = a
      · subst hxe
        by_cases hv : v = Config.unwritten
        · simp only [Memory.insert, if_neg hxa, if_true, if_pos hv]
          exact Memory.wfFrom_mono h4 (by omega)
        · simp only [Memory.insert, if_neg hxa, if_true, if_neg hv]
          rw [Memory.wfFrom_cons]
          exact ⟨hlo, hx, hv, h4⟩
      · simp only [Memory.insert, if_neg hxa, if_neg hxe]
        rw [Memory.wfFrom_cons]
        exact ⟨h1, h2, h3, ih h4 (by omega)⟩

theorem Memory.read_insert_same {m : Memory} {lo x : Nat} (v : Word)
    (h : Memory.wfFrom lo m = true) : (m.insert x v).read x = v := by
  induction m generalizing lo with
  | nil => by_cases hv : v = Config.unwritten <;> simp [Memory.insert, Memory.read, hv]
  | cons e rest ih =>
    obtain ⟨a, w⟩ := e
    have h' := h
    rw [Memory.wfFrom_cons] at h
    by_cases hxa : x < a
    · by_cases hv : v = Config.unwritten
      · simp only [Memory.insert, if_pos hxa, if_pos hv]
        rw [hv]
        exact Memory.read_below (lo := a) ((Memory.wfFrom_cons a a w rest).2 ⟨le_refl a, h.2⟩) hxa
      · simp [Memory.insert, hxa, hv, Memory.read]
    · by_cases hxe : x = a
      · subst hxe
        by_cases hv : v = Config.unwritten
        · simp only [Memory.insert, if_neg hxa, if_true, if_pos hv]
          rw [hv]
          exact Memory.read_below h.2.2.2 (by omega)
        · simp [Memory.insert, hv, Memory.read]
      · have hax : a ≠ x := fun e => hxe e.symm
        simp only [Memory.insert, if_neg hxa, if_neg hxe, Memory.read, if_neg hax]
        exact ih h.2.2.2

theorem Memory.read_insert_other {m : Memory} {lo x y : Nat} (v : Word)
    (h : Memory.wfFrom lo m = true) (hxy : x ≠ y) : (m.insert x v).read y = m.read y := by
  induction m generalizing lo with
  | nil => by_cases hv : v = Config.unwritten <;> simp [Memory.insert, Memory.read, hv, hxy]
  | cons e rest ih =>
    obtain ⟨a, w⟩ := e
    rw [Memory.wfFrom_cons] at h
    by_cases hxa : x < a
    · by_cases hv : v = Config.unwritten
      · simp [Memory.insert, hxa, hv]
      · simp [Memory.insert, hxa, hv, Memory.read, hxy]
    · by_cases hxe : x = a
      · subst hxe
        by_cases hv : v = Config.unwritten
        · simp [Memory.insert, hv, Memory.read, hxy]
        · simp [Memory.insert, hv, Memory.read, hxy]
      · by_cases hay : a = y
        · simp only [Memory.insert, if_neg hxa, if_neg hxe, Memory.read, if_pos hay]
        · simp only [Memory.insert, if_neg hxa, if_neg hxe, Memory.read, if_neg hay]
          exact ih h.2.2.2

/-- A word write keeps the canonical form. -/
theorem Memory.write_wf {m : Memory} (x : Nat) (v : Word) (h : m.wf = true) :
    (m.write x v).wf = true := by
  unfold Memory.write
  split
  · rename_i hx
    exact Memory.insert_wfFrom v h (Nat.zero_le x) hx
  · exact h

/-- A word written in the store reads as written (R1). -/
theorem Memory.read_write_same {m : Memory} {x : Nat} (v : Word) (h : m.wf = true)
    (hx : x < Config.storeWords) : (m.write x v).read x = v := by
  simp only [Memory.write, if_pos hx]
  exact Memory.read_insert_same v h

/-- Every other word reads as before (R1). -/
theorem Memory.read_write_other {m : Memory} {x y : Nat} (v : Word) (h : m.wf = true) (hxy : x ≠ y) :
    (m.write x v).read y = m.read y := by
  unfold Memory.write
  split
  · exact Memory.read_insert_other v h hxy
  · rfl

theorem Memory.wf_nil : Memory.wf [] = true := rfl

@[simp] theorem Memory.read_nil (x : Nat) : Memory.read [] x = 0 := rfl

/-! ## Tables -/

@[simp] theorem entry_put_same {α : Type} {k : Nat} (v : Vector α k) (i : Fin k) (x : α) :
    entry (put v i x) i = x := by
  simp [entry, put]

theorem entry_put_other {α : Type} {k : Nat} (v : Vector α k) (i j : Fin k) (x : α) (h : j ≠ i) :
    entry (put v i x) j = entry v j := by
  have h' : i.val ≠ j.val := fun e => h (Fin.ext e.symm)
  simp [entry, put, h']

theorem entry_put {α : Type} {k : Nat} (v : Vector α k) (i j : Fin k) (x : α) :
    entry (put v i x) j = if j = i then x else entry v j := by
  by_cases h : j = i
  · subst h; simp
  · simp [h, entry_put_other v i j x h]

@[simp] theorem entry_tabulate {α : Type} {k : Nat} (f : Fin k → α) (i : Fin k) :
    entry (tabulate f) i = f i := by
  simp [entry, tabulate]

@[simp] theorem entry_replicate {α : Type} {k : Nat} (x : α) (i : Fin k) :
    entry (Vector.replicate k x) i = x := by
  simp [entry]

theorem table_ext {α : Type} {k : Nat} {v w : Vector α k} (h : ∀ i, entry v i = entry w i) :
    v = w := by
  ext i hi
  exact h ⟨i, hi⟩

/-- Putting what an entry already holds changes nothing. -/
theorem put_entry {α : Type} {k : Nat} (v : Vector α k) (i : Fin k) : put v i (entry v i) = v := by
  apply table_ext
  intro j
  rw [entry_put]
  split
  · rename_i h; rw [h]
  · rfl

theorem mem_allOutputs (n : OutputId) : n ∈ allOutputs := List.mem_finRange n

end Sys2Proof.Machine
end

