-- ==== Sys2Proof/Laws/Keys.lean ====
section
/-! SUPPORT. What each operation of the Key Table, the arbiter of slots and the Output Guard does to the
invariant of the part, and the fields it leaves alone. -/

namespace Sys2Proof.Machine

/-! ## Reading the tables after a change -/

@[simp] theorem setEntry_entry (n : OutputId) (e : KeyEntry) (p : Part) (m : OutputId) :
    entry (setEntry n e p).keys.entries m = if m = n then e else entry p.keys.entries m := by
  simp [setEntry, entry_put]

@[simp] theorem setEntry_queue (n : OutputId) (e : KeyEntry) (p : Part) :
    (setEntry n e p).keys.queue =
      if e.state = .waiting then p.keys.queue else p.keys.queue.filter (· != n) := rfl

@[simp] theorem setEntry_power (n : OutputId) (e : KeyEntry) (p : Part) :
    (setEntry n e p).power = p.power := rfl

@[simp] theorem setAllEntries_entry (f : KeyEntry → KeyEntry) (p : Part) (m : OutputId) :
    entry (setAllEntries f p).keys.entries m = f (entry p.keys.entries m) := by
  simp [setAllEntries]

@[simp] theorem setAllEntries_queue (f : KeyEntry → KeyEntry) (p : Part) :
    (setAllEntries f p).keys.queue = [] := rfl

/-! ## The attention register -/

/-- A latch touches the twelve defined bits alone (R17). -/
theorem latch_mask (c : Condition) : c.mask &&& 0xF000 = 0 := by
  cases c <;> decide

theorem inv_latch {p : Part} (c : Condition) (h : PartInv p) : PartInv (latch c p) := by
  refine ⟨h.queue, h.dead, h.lists, ?_⟩
  have h1 : p.attention &&& 0xF000 = 0 := h.attention
  have h2 := latch_mask c
  have h3 : (p.attention ||| c.mask) &&& 0xF000
      = (p.attention &&& 0xF000) ||| (c.mask &&& 0xF000) := by
    ext i hi
    simp [Bool.and_or_distrib_right]
  show (p.attention ||| c.mask) &&& 0xF000 = 0
  rw [h3, h1, h2]
  rfl

theorem inv_latchIf {p : Part} (b : Bool) (c : Condition) (h : PartInv p) :
    PartInv (latchIf b c p) := by
  unfold latchIf
  split
  · exact inv_latch c h
  · exact h

/-! ## Single entries -/

/-- An output neither OFF nor DISABLED has magnet power behind it (R158). -/
theorem on_of_active {p : Part} (h : PartInv p) (n : OutputId)
    (hs : (entry p.keys.entries n).state.atRest = false) : p.power.on = true := by
  by_contra hoff
  have h0 := (h.dead (by simpa using hoff)).2.2 n
  simp [hs] at h0

theorem inv_setEntry {p : Part} (n : OutputId) (e : KeyEntry) (h : PartInv p)
    (hw : e.state = .waiting → (entry p.keys.entries n).state = .waiting)
    (hp : p.power.on = true ∨ e.state.atRest = true) : PartInv (setEntry n e p) := by
  obtain ⟨hq, hd, hl, ha⟩ := h
  refine ⟨⟨?_, ?_, ?_⟩, ?_, hl, ha⟩
  · intro m
    rw [setEntry_entry, setEntry_queue]
    have hm := hq.1 m
    have hn := hq.1 n
    by_cases hew : e.state = .waiting
    · by_cases hmn : m = n
      · subst hmn
        simp [hew, hn, hw hew]
      · simp [hew, hmn, hm]
    · by_cases hmn : m = n
      · subst hmn
        simp [hew]
      · simp [hew, hmn, hm]
  · rw [setEntry_queue]
    split
    · exact hq.2.1
    · exact hq.2.1.filter _
  · rw [setEntry_queue]
    split
    · exact hq.2.2
    · exact le_trans (List.length_filter_le _ _) hq.2.2
  · intro hoff
    rw [setEntry_power] at hoff
    obtain ⟨h1, h2, h3⟩ := hd hoff
    refine ⟨h1, ?_, ?_⟩
    · rw [setEntry_queue, h2]
      split <;> rfl
    · intro m
      rw [setEntry_entry]
      split
      · rcases hp with hp | hp
        · rw [hoff] at hp; cases hp
        · exact hp
      · exact h3 m

/-- An entry goes OFF. -/
theorem inv_setOff {p : Part} (n : OutputId) (h : PartInv p) :
    PartInv (setEntry n KeyEntry.idle p) :=
  inv_setEntry n _ h (by simp [KeyEntry.idle]) (Or.inr rfl)

theorem inv_setAllEntries {p : Part} (f : KeyEntry → KeyEntry) (h : PartInv p)
    (hw : ∀ e : KeyEntry, (f e).state ≠ .waiting)
    (hr : p.power.on = true ∨ ∀ e : KeyEntry, e.state.atRest = true → (f e).state.atRest = true) :
    PartInv (setAllEntries f p) := by
  obtain ⟨hq, hd, hl, ha⟩ := h
  refine ⟨⟨?_, ?_, ?_⟩, ?_, hl, ha⟩
  · intro m
    rw [setAllEntries_entry, setAllEntries_queue]
    simp [hw]
  · simp
  · simp
  · intro hoff
    obtain ⟨h1, h2, h3⟩ := hd hoff
    refine ⟨h1, rfl, ?_⟩
    intro m
    rw [setAllEntries_entry]
    rcases hr with hr | hr
    · have hoff' : p.power.on = false := hoff
      rw [hoff'] at hr; cases hr
    · exact hr _ (h3 m)

theorem inv_spendFresh {p : Part} (b : Bool) (h : PartInv p) : PartInv (spendFresh b p) := by
  unfold spendFresh
  split
  · exact ⟨h.queue, h.dead, h.lists, h.attention⟩
  · exact h

theorem inv_enterSettle {p : Part} (n : OutputId) (h : PartInv p) (hon : p.power.on = true) :
    PartInv (enterSettle n p) := by
  unfold enterSettle
  exact inv_spendFresh _ (inv_setEntry n _ h (by simp [settled]) (Or.inl hon))

@[simp] theorem spendFresh_power (b : Bool) (p : Part) : (spendFresh b p).power = p.power := by
  unfold spendFresh; split <;> rfl

@[simp] theorem enterSettle_power (n : OutputId) (p : Part) : (enterSettle n p).power = p.power := by
  simp [enterSettle]

/-! ## The queue and grants -/

theorem inv_joinQueue {p : Part} (n : OutputId) (k : OutputKind) (c : Nat) (h : PartInv p)
    (hs : (entry p.keys.entries n).state ≠ .waiting) (hon : p.power.on = true) :
    PartInv (joinQueue n k c p) := by
  unfold joinQueue
  split
  · exact inv_latchIf _ _ (inv_setOff n h)
  · rename_i hfull
    have hlt : p.keys.queue.length < 64 := by
      simp only [Config.pullQueueSize, not_le] at hfull
      exact hfull
    have hn : n ∉ p.keys.queue := fun hm => hs ((h.queue.1 n).1 hm)
    obtain ⟨hq, hd, hl, ha⟩ := h
    refine ⟨⟨?_, ?_, ?_⟩, ?_, hl, ha⟩
    · intro m
      simp only [setEntry_queue, setEntry_entry, if_true, List.mem_append, List.mem_singleton]
      have hm := hq.1 m
      by_cases hmn : m = n
      · simp [hmn]
      · simp [hmn, hm]
    · simp only [setEntry_queue, if_true]
      exact List.Nodup.append hq.2.1 (List.nodup_singleton n) (by simpa using hn)
    · simp only [setEntry_queue, if_true, List.length_append, List.length_singleton]
      omega
    · intro hoff
      have : p.power.on = false := hoff
      rw [hon] at this; cases this

@[simp] theorem latch_power (c : Condition) (p : Part) : (latch c p).power = p.power := rfl

@[simp] theorem latchIf_power (b : Bool) (c : Condition) (p : Part) :
    (latchIf b c p).power = p.power := by
  unfold latchIf; split <;> rfl

@[simp] theorem joinQueue_power (n : OutputId) (k : OutputKind) (c : Nat) (p : Part) :
    (joinQueue n k c p).power = p.power := by
  unfold joinQueue; split <;> simp

/-- The Mask List never holds more than 32 windows (R68). -/
theorem addWindow_length (w : MaskWindow) (ws : List MaskWindow) (h : ws.length ≤ 32) :
    (addWindow w ws).1.length ≤ 32 := by
  unfold addWindow
  have hd : (if Config.maskListSize ≤ ws.length then ws.drop 1 else ws).length + 1 ≤ 32 := by
    split
    · rw [List.length_drop]; simp only [Config.maskListSize] at *; omega
    · simp only [Config.maskListSize] at *; omega
  cases hl : ws.getLast? with
  | none => simpa using hd
  | some x =>
    have hne : 0 < ws.length := by
      cases ws with
      | nil => simp at hl
      | cons a l => simp
    by_cases hm : w.meets x
    · simp only [hm, if_true, List.length_append, List.length_dropLast, List.length_singleton]
      omega
    · simpa [hm] using hd

theorem inv_maskGrant {p : Part} (d : Division) (k : Nat) (h : PartInv p) :
    PartInv (maskGrant d k p) := by
  obtain ⟨hq, hd, hl, ha⟩ := h
  refine ⟨hq, hd, ⟨hl.1, hl.2.1, hl.2.2.1, ?_, ?_⟩, ha⟩
  · simpa [maskGrant] using hl.2.2.2.1
  · exact addWindow_length _ _ hl.2.2.2.2

@[simp] theorem maskGrant_power (d : Division) (k : Nat) (p : Part) :
    (maskGrant d k p).power = p.power := rfl

@[simp] theorem grantOne_power (n : OutputId) (p : Part) : (grantOne n p).power = p.power := by
  unfold grantOne
  simp only
  split
  · rfl
  · split <;> rfl

theorem inv_grantOne {p : Part} (n : OutputId) (h : PartInv p) (hon : p.power.on = true) :
    PartInv (grantOne n p) := by
  unfold grantOne
  simp only
  split
  · exact inv_setEntry n _ h (by simp) (Or.inl hon)
  · have h1 := inv_setEntry n
      { entry p.keys.entries n with
        state := .pull, timer := some (p.time + 1000 * p.setup.pullIn) } h (by simp) (Or.inl hon)
    split
    · exact inv_maskGrant _ _ h1
    · exact h1

@[simp] theorem grantLoop_power (l : List OutputId) (p : Part) :
    (grantLoop l p).power = p.power := by
  induction l generalizing p with
  | nil => rfl
  | cons n rest ih =>
    unfold grantLoop
    split
    · rw [ih, grantOne_power]
    · rfl

theorem inv_grantLoop {p : Part} (l : List OutputId) (h : PartInv p) (hon : p.power.on = true) :
    PartInv (grantLoop l p) := by
  induction l generalizing p with
  | nil => exact h
  | cons n rest ih =>
    unfold grantLoop
    split
    · exact ih (inv_grantOne n h hon) (by simpa using hon)
    · exact h

@[simp] theorem grants_power (p : Part) : (grants p).power = p.power := grantLoop_power _ p

theorem inv_grants {p : Part} (h : PartInv p) : PartInv (grants p) := by
  unfold grants
  cases hon : p.power.on with
  | true => exact inv_grantLoop _ h hon
  | false =>
    rw [(h.dead hon).2.1]
    exact h

theorem inv_setSlotLimit {p : Part} (k : Nat) (h : PartInv p) : PartInv (setSlotLimit k p) := by
  unfold setSlotLimit
  exact inv_grants ⟨h.queue, h.dead, h.lists, h.attention⟩

@[simp] theorem setSlotLimit_power (k : Nat) (p : Part) : (setSlotLimit k p).power = p.power := by
  simp [setSlotLimit]

/-! ## Claims, releases, pulses -/

theorem inv_raiseCount {p : Part} (n : OutputId) (h : PartInv p)
    (hs : (entry p.keys.entries n).state.atRest = false) : PartInv (raiseCount n p).1 := by
  unfold raiseCount
  simp only
  split
  · exact h
  · exact inv_setEntry n _ h (fun hw => hw) (Or.inl (on_of_active h n hs))

theorem inv_claim {p : Part} (n : OutputId) (h : PartInv p) : PartInv (claim n p).1 := by
  have hr (hst : (entry p.keys.entries n).state.atRest = false) : PartInv (raiseCount n p).1 :=
    inv_raiseCount n h hst
  have ho (hst : (entry p.keys.entries n).state = .off) (hon : p.power.on = true) :
      PartInv (grants (joinQueue n .key 1 p)) :=
    inv_grants (inv_joinQueue n _ _ h (by rw [hst]; simp) hon)
  unfold claim
  dsimp only
  generalize hs : (entry p.keys.entries n).state = st at hr ho ⊢
  generalize (entry p.keys.entries n).kind = k
  cases hon : p.power.on <;> cases st <;> cases k <;>
    first
    | exact h
    | exact hr rfl
    | exact ho rfl hon

@[simp] theorem raiseCount_power (n : OutputId) (p : Part) :
    (raiseCount n p).1.power = p.power := by
  unfold raiseCount; simp only; split <;> rfl

@[simp] theorem claim_power (n : OutputId) (p : Part) : (claim n p).1.power = p.power := by
  unfold claim; simp only; split <;> (try split) <;> simp

theorem setEntry_same_inv {p : Part} (n : OutputId) (c : Nat) (h : PartInv p) :
    PartInv (setEntry n { entry p.keys.entries n with count := c } p) := by
  refine inv_setEntry n _ h (fun hw => hw) ?_
  cases hon : p.power.on with
  | true => exact Or.inl rfl
  | false => exact Or.inr ((h.dead hon).2.2 n)

theorem inv_release {p : Part} (n : OutputId) (h : PartInv p) : PartInv (release n p) := by
  unfold release
  simp only
  split
  · exact h
  · split
    · exact setEntry_same_inv n _ h
    · split
      · exact inv_latch _ (inv_setOff n h)
      · rename_i hs
        exact inv_grants (inv_enterSettle n h (on_of_active h n (by simp [hs, KeyState.atRest])))
      · rename_i hs
        exact inv_enterSettle n h (on_of_active h n (by simp [hs, KeyState.atRest]))
      · exact setEntry_same_inv n _ h

@[simp] theorem release_power (n : OutputId) (p : Part) : (release n p).power = p.power := by
  unfold release; simp only; split
  · rfl
  · split
    · rfl
    · split <;> simp

theorem inv_stopPulse {p : Part} (n : OutputId) (h : PartInv p) : PartInv (stopPulse n p) := by
  unfold stopPulse
  split
  · rename_i hc
    exact inv_grants (inv_joinQueue n _ _ h (by simp [hc.1]) hc.2)
  · exact h

/-! ## The Guard's requests -/

theorem inv_disableOutput {p : Part} (n : OutputId) (h : PartInv p) :
    PartInv (disableOutput n p) := by
  unfold disableOutput
  split
  · exact h
  · exact inv_grants (inv_setEntry n _ h (by simp) (Or.inr rfl))

theorem inv_retryOutput {p : Part} (n : OutputId) (h : PartInv p) : PartInv (retryOutput n p) := by
  unfold retryOutput
  simp only
  split
  · rename_i hs
    refine inv_grants (inv_setEntry n _ h (by simp) (Or.inl (on_of_active h n ?_)))
    rcases hs with hs | hs | hs <;> simp [hs, KeyState.atRest]
  · exact h

theorem inv_cipherRelease {p : Part} (n : OutputId) (h : PartInv p) :
    PartInv (cipherRelease n p) := by
  unfold cipherRelease
  simp only
  split
  · rename_i hs
    refine inv_grants (inv_enterSettle n h (on_of_active h n ?_))
    rcases hs with hs | hs <;> simp [hs, KeyState.atRest]
  · exact h

theorem inv_testRelease {p : Part} (n : OutputId) (h : PartInv p) : PartInv (testRelease n p) := by
  unfold testRelease
  simp only
  split
  · rename_i hs
    refine inv_grants (inv_enterSettle n h (on_of_active h n ?_))
    rcases hs with hs | hs | hs <;> simp [hs, KeyState.atRest]
  · exact h

theorem inv_settleCourse {p : Part} (n : OutputId) (h : PartInv p)
    (hs : (entry p.keys.entries n).state = .settle) : PartInv (settleCourse n p) := by
  unfold settleCourse
  have hj (k : OutputKind) (c : Nat) : PartInv (grants (joinQueue n k c p)) :=
    inv_grants (inv_joinQueue n _ _ h (by simp [hs])
      (on_of_active h n (by simp [hs, KeyState.atRest])))
  by_cases hb : (match (entry p.keys.entries n).kind with
    | .key => (entry p.keys.entries n).count != 0
    | .stop => (entry p.keys.entries n).coolOff
    | .none => false) = true
  · exact cast (congrArg PartInv (if_pos hb).symm) (hj _ _)
  · exact cast (congrArg PartInv (if_neg hb).symm) (inv_setOff n h)

/-! ## Switch-off and general release -/

/-- A switch-off leaves every entry OFF or DISABLED (R158). -/
theorem offAtPower_rest (e : KeyEntry) : (offAtPower e).state.atRest = true := by
  unfold offAtPower
  split
  · rename_i h; simp [h, KeyState.atRest]
  · rfl

theorem offAtPower_not_waiting (e : KeyEntry) : (offAtPower e).state ≠ .waiting := by
  intro hw
  have h := offAtPower_rest e
  rw [hw] at h
  cases h

theorem inv_keyGeneralRelease {p : Part} (h : PartInv p) : PartInv (keyGeneralRelease p) := by
  unfold keyGeneralRelease
  refine inv_spendFresh _ (inv_setAllEntries _ h ?_ (Or.inr ?_))
  · intro e
    unfold releasedEntry
    split <;> simp_all [KeyEntry.idle, settled]
  · intro e hr
    unfold releasedEntry
    split <;> simp_all [KeyState.atRest]

theorem inv_enableAll {p : Part} (h : PartInv p) : PartInv (enableAll p) := by
  unfold enableAll
  generalize (allOutputs.filter fun n => (entry p.keys.entries n).state = .disabled) = l
  induction l generalizing p with
  | nil => exact h
  | cons n rest ih => exact ih (inv_setOff n h)

end Sys2Proof.Machine
end

