-- ==== Sys2Proof/Laws/Guard.lean ====
section
/-! SUPPORT. What each operation of the Output Guard does to the invariant of the part. -/

namespace Sys2Proof.Machine

/-- A TEST in progress has magnet power behind it (R178, R180). -/
theorem on_of_test {p : Part} (h : PartInv p) {t : Test} (ht : p.guard.test = some t) :
    p.power.on = true := by
  by_contra hoff
  have h0 := (h.dead (by simpa using hoff)).1
  rw [ht] at h0
  cases h0

/-! ## Requests and records -/

theorem inv_closeSlot {p : Part} (o : SlotOutcome) (d : SlotDetail) (h : PartInv p) :
    PartInv (closeSlot o d p) := ⟨h.queue, h.dead, h.lists, h.attention⟩

theorem inv_recordFault {p : Part} (n : OutputId) (k : FaultKind) (h : PartInv p) :
    PartInv (recordFault n k p) := ⟨h.queue, h.dead, h.lists, h.attention⟩

theorem inv_recordPass {p : Part} (n : OutputId) (h : PartInv p) : PartInv (recordPass n p) :=
  ⟨h.queue, h.dead, h.lists, h.attention⟩

theorem inv_putDetector {p : Part} (n : OutputId) (d : Detector) (h : PartInv p) :
    PartInv (putDetector n d p) := ⟨h.queue, h.dead, h.lists, h.attention⟩

theorem inv_policy {p : Part} (n : OutputId) (h : PartInv p) : PartInv (policy n p) := by
  unfold policy
  dsimp only
  split
  · exact inv_retryOutput n (inv_putDetector n _ h)
  · exact inv_disableOutput n h

/-! ## TEST -/

theorem inv_test_map {p : Part} (f : Test → Test) (h : PartInv p) :
    PartInv { p with guard := { p.guard with test := p.guard.test.map f } } := by
  refine ⟨h.queue, ?_, h.lists, h.attention⟩
  intro hoff
  obtain ⟨h1, h2, h3⟩ := h.dead hoff
  exact ⟨by simp [h1], h2, h3⟩

theorem inv_setTestStage {p : Part} (st : TestStage) (h : PartInv p) :
    PartInv (setTestStage st p) := inv_test_map _ h

theorem inv_testFailure {p : Part} (n : OutputId) (k : FaultKind) (h : PartInv p) :
    PartInv (testFailure n k p) := by
  unfold testFailure
  dsimp only
  have hq := inv_setTestStage .judged (inv_recordFault n k h)
  split
  · exact inv_disableOutput n hq
  · exact inv_testRelease n hq

theorem inv_testPass {p : Part} (n : OutputId) (h : PartInv p) : PartInv (testPass n p) :=
  inv_testRelease n (inv_setTestStage .judged (inv_recordPass n h))

theorem inv_testNoVerdict {p : Part} (n : OutputId) (h : PartInv p) :
    PartInv (testNoVerdict n p) := by
  unfold testNoVerdict
  dsimp only
  split
  · exact inv_disableOutput n (inv_setTestStage .judged h)
  · exact inv_setTestStage .judged h

theorem inv_outputFault {p : Part} (n : OutputId) (k : FaultKind) (h : PartInv p) :
    PartInv (outputFault n k p) := by
  unfold outputFault
  split
  · exact inv_testFailure n k h
  · exact inv_recordFault n k (inv_policy n h)

theorem inv_serviceVerdict {p : Part} (n : OutputId) (v : Verdict) (h : PartInv p) :
    PartInv (serviceVerdict n v p) := by
  cases v
  · exact h
  · exact inv_recordFault n _ h
  · exact inv_outputFault n _ h
  · exact h

theorem inv_testVerdict {p : Part} (n : OutputId) (v : Verdict) (h : PartInv p) :
    PartInv (testVerdict n v p) := by
  cases v
  · exact inv_testPass n h
  · exact inv_testFailure n _ h
  · exact inv_testFailure n _ h
  · exact inv_testNoVerdict n h

theorem inv_anyVerdict {p : Part} (b : Bool) (n : OutputId) (v : Verdict) (h : PartInv p) :
    PartInv (if b then testVerdict n v p else serviceVerdict n v p) := by
  split
  · exact inv_testVerdict n v h
  · exact inv_serviceVerdict n v h

theorem inv_pullInCourse {p : Part} (n : OutputId) (h : PartInv p)
    (hs : (entry p.keys.entries n).state.atRest = false) : PartInv (pullInCourse n p) := by
  unfold pullInCourse
  exact inv_grants (inv_anyVerdict _ n _ (inv_setEntry n _ h (by simp)
    (Or.inl (on_of_active h n hs))))

theorem inv_endPulse {p : Part} (n : OutputId) (h : PartInv p) : PartInv (endPulse n p) := by
  unfold endPulse
  split
  · exact inv_setOff n h
  · exact h

theorem inv_pulseCourse {p : Part} (n : OutputId) (h : PartInv p) : PartInv (pulseCourse n p) := by
  unfold pulseCourse
  exact inv_grants (inv_endPulse n (inv_anyVerdict _ n _ h))

theorem inv_testPull {p : Part} (n : OutputId) (h : PartInv p)
    (hs : (entry p.keys.entries n).state ≠ .waiting) (hon : p.power.on = true) :
    PartInv (testPull n p) := by
  unfold testPull
  dsimp only
  have hq := inv_test_map (fun t => { t with
    marked := (entry p.keys.entries n).state == .disabled, stage := .pulled }) h
  have hj := inv_joinQueue n (mappedKind p.setup n)
    (if mappedKind p.setup n = .key then 1 else 0) hq hs hon
  split
  · exact inv_setTestStage _ hj
  · exact inv_grants hj

theorem atRest_not_waiting {st : KeyState} (h : st.atRest = true) : st ≠ .waiting := by
  rintro rfl
  cases h

theorem inv_takeUpOutput {p : Part} (n last : OutputId) (h : PartInv p)
    (hon : p.power.on = true) : PartInv (takeUpOutput n last p) := by
  unfold takeUpOutput
  dsimp only
  have hq : PartInv { p with guard := { p.guard with
      test := some { last := last, output := n, marked := false, stage := .waiting } } } := by
    refine ⟨h.queue, ?_, h.lists, h.attention⟩
    intro hoff
    have : p.power.on = false := hoff
    rw [hon] at this; cases this
  split
  · rename_i hs
    exact inv_testPull n hq (atRest_not_waiting hs) hon
  · exact hq

theorem inv_noTest {p : Part} (h : PartInv p) :
    PartInv { p with guard := { p.guard with test := none } } := by
  refine ⟨h.queue, ?_, h.lists, h.attention⟩
  intro hoff
  exact ⟨rfl, (h.dead hoff).2⟩

theorem inv_finishTest {p : Part} (o : SlotOutcome) (d : SlotDetail) (h : PartInv p) :
    PartInv (finishTest o d p) := by
  unfold finishTest
  exact inv_setSlotLimit _ (inv_closeSlot o d (inv_noTest h))

theorem inv_testAdvance {p : Part} (t : Test) (h : PartInv p) (hon : p.power.on = true)
    (hs : (entry p.keys.entries t.output).state ≠ .waiting) : PartInv (testAdvance t p) := by
  unfold testAdvance
  split
  · exact inv_testPull _ h hs hon
  · split
    · exact inv_takeUpOutput _ _ h hon
    · exact inv_finishTest _ _ h

theorem inv_haltTest {p : Part} (h : PartInv p) : PartInv (haltTest p) := by
  unfold haltTest
  split
  · exact h
  · dsimp only
    refine inv_finishTest _ _ ?_
    split
    · split
      · split
        · exact inv_disableOutput _ h
        · exact inv_setOff _ h
      · split
        · exact inv_disableOutput _ h
        · exact inv_testRelease _ h
      · split
        · exact inv_disableOutput _ h
        · exact inv_testRelease _ h
      · exact h
    · exact h

theorem inv_powerLostTest {p : Part} (h : PartInv p) : PartInv (powerLostTest p) := by
  unfold powerLostTest
  split
  · exact h
  · refine inv_finishTest _ _ ?_
    split
    · exact inv_disableOutput _ h
    · exact h

/-! ## Good frames -/

theorem inv_foldl {α : Type} (f : Part → α → Part) (hf : ∀ p a, PartInv p → PartInv (f p a))
    (l : List α) {p : Part} (h : PartInv p) : PartInv (l.foldl f p) := by
  induction l generalizing p with
  | nil => exact h
  | cons a rest ih => exact ih (hf p a h)

theorem inv_judgeFrame {p : Part} (b : Nat) (l : List Sense) (h : PartInv p) :
    PartInv (judgeFrame b l p) := by
  unfold judgeFrame
  exact inv_foldl _ (fun p n hp => inv_outputFault n .over hp) _
    ⟨h.queue, h.dead, h.lists, h.attention⟩

/-! ## Magnet power through these operations -/

@[simp] theorem grants_test (p : Part) : (grants p).guard.test = p.guard.test := by
  have one (n : OutputId) (p : Part) : (grantOne n p).guard.test = p.guard.test := by
    unfold grantOne
    dsimp only
    split
    · rfl
    · split <;> rfl
  have loop (l : List OutputId) (p : Part) : (grantLoop l p).guard.test = p.guard.test := by
    induction l generalizing p with
    | nil => rfl
    | cons n rest ih =>
      unfold grantLoop
      split
      · rw [ih, one]
      · rfl
  exact loop _ p

@[simp] theorem finishTest_test (o : SlotOutcome) (d : SlotDetail) (p : Part) :
    (finishTest o d p).guard.test = none := by
  simp [finishTest, setSlotLimit, closeSlot]

end Sys2Proof.Machine
end

