-- ==== Sys2Proof/Laws/Plan.lean ====
section
/-! SUPPORT. What each operation of the Report Writer, the Plan Reader, the Player, the Tempo Follower,
the Listening Unit and the Keying Scheduler does to the invariant of the part. -/

namespace Sys2Proof.Machine

/-! ## Report Writer -/

theorem inv_beginNowWrite {p : Part} (h : PartInv p) : PartInv (beginNowWrite p) :=
  ⟨h.queue, h.dead, h.lists, h.attention⟩

theorem inv_trigger {p : Part} (h : PartInv p) : PartInv (trigger p) := by
  unfold trigger
  split
  · exact inv_beginNowWrite h
  · exact ⟨h.queue, h.dead, h.lists, h.attention⟩

theorem inv_triggerIf {p : Part} (b : Bool) (h : PartInv p) : PartInv (triggerIf b p) := by
  unfold triggerIf
  split
  · exact inv_trigger h
  · exact h

theorem inv_beatTrigger {p : Part} (h : PartInv p) : PartInv (beatTrigger p) :=
  inv_trigger ⟨h.queue, h.dead, h.lists, h.attention⟩

theorem inv_nowWriteServed {p : Part} (h : PartInv p) : PartInv (nowWriteServed p) := by
  unfold nowWriteServed
  split
  · exact inv_beginNowWrite h
  · exact h

theorem inv_placeBoundary {p : Part} (n : Nat) (h : PartInv p) : PartInv (placeBoundary n p) :=
  ⟨h.queue, h.dead, h.lists, h.attention⟩

theorem inv_enterState {p : Part} (st : PlayerState) (h : PartInv p) : PartInv (enterState st p) :=
  inv_trigger ⟨h.queue, h.dead, h.lists, h.attention⟩

/-! ## Listening Unit -/

theorem inv_flushOnsets {p : Part} (h : PartInv p) : PartInv (flushOnsets p) :=
  ⟨h.queue, h.dead, ⟨h.lists.1, h.lists.2.1, h.lists.2.2.1, Nat.zero_le _, h.lists.2.2.2.2⟩,
    h.attention⟩

theorem inv_stopHoldListening {p : Part} (h : PartInv p) : PartInv (stopHoldListening p) :=
  ⟨h.queue, h.dead, h.lists, h.attention⟩

theorem inv_startHoldListening {p : Part} (h : PartInv p) : PartInv (startHoldListening p) :=
  ⟨h.queue, h.dead, h.lists, h.attention⟩

theorem inv_moveTo {p : Part} (st : PlayerState) (h : PartInv p) : PartInv (moveTo st p) := by
  unfold moveTo
  refine inv_enterState st ?_
  split
  · exact h
  · exact inv_flushOnsets h

theorem placeOnset_length (o : Onset) (l : List Onset) :
    (placeOnset o l).length = l.length + 1 := by
  induction l with
  | nil => rfl
  | cons x rest ih =>
    unfold placeOnset
    split
    · simp [ih]
    · simp

/-- The Onset Queue never holds more than 16 entries (R64). -/
theorem mergeOnset_length (su : Setup) (ms : List MaskWindow) (c : ChannelId) (st : Nat) (t : Int)
    (l : List Onset) (h : l.length ≤ 16) : (mergeOnset su ms c st t l).length ≤ 16 := by
  unfold mergeOnset
  dsimp only
  have hnew (o : Onset) :
      (if Config.onsetQueueSize < (placeOnset o l).length then (placeOnset o l).drop 1
        else placeOnset o l).length ≤ 16 := by
    split
    · rw [List.length_drop, placeOnset_length]; omega
    · rename_i hle; simp only [Config.onsetQueueSize] at hle; omega
  cases hl : l.getLast? with
  | none => exact hnew _
  | some x =>
    have hne : 0 < l.length := by
      cases l with
      | nil => simp at hl
      | cons a r => simp
    dsimp only
    split
    · rw [placeOnset_length, List.length_dropLast]; omega
    · exact hnew _

theorem inv_channelFrame {p : Part} (es : Vector Nat 4) (t : Int) (c : ChannelId) (h : PartInv p) :
    PartInv (channelFrame es t c p) := by
  unfold channelFrame
  split
  · exact h
  · obtain ⟨hq, hd, ⟨h1, h2, h3, h4, h5⟩, ha⟩ := h
    refine ⟨hq, hd, ⟨h1, h2, h3, ?_, h5⟩, ha⟩
    dsimp only
    split
    · exact mergeOnset_length _ _ _ _ _ _ h4
    · exact h4

theorem inv_frameEndStep {p : Part} (h : PartInv p) : PartInv (frameEndStep p) := by
  unfold frameEndStep
  dsimp only
  have hq : PartInv { p with listen := cutFrame p.listen } :=
    ⟨h.queue, h.dead, h.lists, h.attention⟩
  split
  · exact hq
  · generalize frameEnergies p.listen = es
    generalize p.now = t
    have hr := inv_foldl (fun acc c => channelFrame es t c acc)
      (fun _ c hp => inv_channelFrame es t c hp) allChannels hq
    generalize List.foldl _ _ _ = r at hr ⊢
    exact ⟨hr.queue, hr.dead, hr.lists, hr.attention⟩

theorem inv_expireMasks {p : Part} (h : PartInv p) : PartInv (expireMasks p) := by
  obtain ⟨hq, hd, ⟨h1, h2, h3, h4, h5⟩, ha⟩ := h
  exact ⟨hq, hd, ⟨h1, h2, h3, h4, le_trans (List.length_filter_le _ _) h5⟩, ha⟩

/-! ## Plan Reader -/

theorem inv_served {p : Part} (r : Requester) (h : PartInv p) : PartInv (served r p) :=
  ⟨h.queue, h.dead, h.lists, h.attention⟩

theorem inv_askReader {p : Part} (a : ReaderAccess) (h : PartInv p) : PartInv (askReader a p) :=
  ⟨h.queue, h.dead, h.lists, h.attention⟩

theorem inv_cutTake {p : Part} (h : PartInv p) : PartInv (cutTake p) :=
  ⟨h.queue, h.dead, h.lists, h.attention⟩

theorem inv_beginTake {p : Part} (q : Nat) (b : Bool) (h : PartInv p) : PartInv (beginTake q b p) :=
  ⟨h.queue, h.dead, h.lists, h.attention⟩

theorem inv_abandonHeld {p : Part} (h : PartInv p) : PartInv (abandonHeld p) :=
  ⟨h.queue, h.dead, h.lists, h.attention⟩

/-! ## Player -/

theorem inv_rewatch {p : Part} (h : PartInv p) : PartInv (rewatch p) :=
  ⟨h.queue, h.dead, h.lists, h.attention⟩

theorem inv_leaveFollower {p : Part} (h : PartInv p) : PartInv (leaveFollower p) :=
  ⟨h.queue, h.dead, h.lists, h.attention⟩

theorem inv_clearFermata {p : Part} (h : PartInv p) : PartInv (clearFermata p) :=
  ⟨h.queue, h.dead, h.lists, h.attention⟩

theorem inv_completeFinishing {p : Part} (h : PartInv p) : PartInv (completeFinishing p) := by
  unfold completeFinishing
  split
  · split
    · exact h
    · split
      · exact ⟨h.queue, h.dead, h.lists, h.attention⟩
      · exact ⟨h.queue, h.dead, h.lists, h.attention⟩
  · exact h

theorem inv_completeCurrent {p : Part} (h : PartInv p) : PartInv (completeCurrent p) := by
  unfold completeCurrent
  split
  · split
    · exact h
    · dsimp only
      split
      · exact ⟨h.queue, h.dead, h.lists, h.attention⟩
      · exact ⟨h.queue, h.dead, h.lists, h.attention⟩
  · exact h

theorem inv_endPlan {p : Part} (h : PartInv p) : PartInv (endPlan p) := by
  unfold endPlan
  obtain ⟨hq, hd, ⟨h1, h2, h3, h4⟩, ha⟩ := h
  exact inv_moveTo _ (inv_latch _ (inv_leaveFollower (inv_stopHoldListening (inv_clearFermata
    ⟨hq, hd, ⟨Nat.zero_le _, Nat.zero_le _, Nat.zero_le _, h4⟩, ha⟩))))

theorem inv_completion {p : Part} (h : PartInv p) : PartInv (completion p) := by
  unfold completion
  dsimp only
  have hq := inv_completeCurrent (inv_completeFinishing h)
  split
  · exact inv_endPlan hq
  · exact hq

theorem inv_whilePlaying {p : Part} (f : Part → Part) (hf : ∀ p, PartInv p → PartInv (f p))
    (h : PartInv p) : PartInv (whilePlaying f p) := by
  unfold whilePlaying
  split
  · exact hf _ h
  · exact h

theorem inv_keyOff {p : Part} (x : Note) (h : PartInv p) : PartInv (keyOff x p) :=
  inv_foldl _ (fun _ n hp => inv_release n hp) _ h

theorem inv_putWindow {p : Part} (w : List Note) (hw : w.length ≤ 48) (h : PartInv p) :
    PartInv (putWindow w p) := by
  obtain ⟨hq, hd, ⟨h1, h2⟩, ha⟩ := h
  exact ⟨hq, hd, ⟨hw, h2⟩, ha⟩

theorem inv_keyOffLoop (sel : Note → Bool) (l : List Note) :
    ∀ (kept : List Note) {p : Part}, kept.length + l.length ≤ 48 → PartInv p →
      PartInv (keyOffLoop sel kept l p) := by
  induction l with
  | nil => intro kept p _ h; exact h
  | cons x rest ih =>
    intro kept p hl h
    simp only [List.length_cons] at hl
    unfold keyOffLoop
    split
    · exact inv_whilePlaying _ (fun _ hp => ih kept (by omega) hp)
        (inv_completion (inv_putWindow _ (by simp only [List.length_append]; omega)
          (inv_keyOff x h)))
    · exact ih (kept ++ [x]) (by simp only [List.length_append, List.length_singleton]; omega) h

theorem inv_keyOffs {p : Part} (sel : Note → Bool) (h : PartInv p) : PartInv (keyOffs sel p) :=
  inv_keyOffLoop sel _ [] (by have := h.lists.1; simp only [List.length_nil]; omega) h

theorem inv_keyOffEndNotes {p : Part} (h : PartInv p) : PartInv (keyOffEndNotes p) :=
  inv_keyOffs _ h

theorem inv_keyOffAt {p : Part} (x : Int) (h : PartInv p) : PartInv (keyOffAt x p) :=
  inv_keyOffs _ h

theorem inv_emptyLists {p : Part} (h : PartInv p) : PartInv (emptyLists p) := by
  obtain ⟨hq, hd, ⟨_, _, _, h4⟩, ha⟩ := h
  exact ⟨hq, hd, ⟨Nat.zero_le _, Nat.zero_le _, Nat.zero_le _, h4⟩, ha⟩

theorem inv_generalRelease {p : Part} (h : PartInv p) : PartInv (generalRelease p) :=
  inv_clearFermata (inv_stopHoldListening (inv_flushOnsets (inv_leaveFollower
    (inv_keyGeneralRelease (inv_emptyLists (inv_abandonHeld h))))))

theorem inv_haltPlayer {p : Part} (h : PartInv p) : PartInv (haltPlayer p) := by
  unfold haltPlayer
  split
  · have hq := inv_generalRelease h
    exact inv_moveTo _ (inv_latch _ ⟨hq.queue, hq.dead, hq.lists, hq.attention⟩)
  · exact h

theorem inv_lockPlayer {p : Part} (why : LockReason) (a : Nat) (h : PartInv p) :
    PartInv (lockPlayer why a p) := by
  unfold lockPlayer
  have hq := inv_generalRelease h
  exact inv_moveTo _ (inv_latch _ ⟨hq.queue, hq.dead, hq.lists, hq.attention⟩)

theorem inv_lockRequest {p : Part} (why : LockReason) (a : Nat) (h : PartInv p) :
    PartInv (lockRequest why a p) := by
  unfold lockRequest
  split
  · exact inv_lockPlayer why a h
  · exact h

theorem inv_enterDraining {p : Part} (why : EndReason) (h : PartInv p) :
    PartInv (enterDraining why p) := by
  unfold enterDraining
  have hq := inv_cutTake h
  exact inv_completion (inv_moveTo _ ⟨hq.queue, hq.dead, hq.lists, hq.attention⟩)

theorem inv_drainStarved {p : Part} (why : EndReason) (h : PartInv p) :
    PartInv (drainStarved why p) := inv_enterDraining why (inv_keyOffEndNotes h)

theorem inv_discardIndex {p : Part} (idx : Nat) (h : PartInv p) : PartInv (discardIndex idx p) := by
  unfold discardIndex
  obtain ⟨hq, hd, ⟨h1, h2, h3, h4⟩, ha⟩ := inv_keyOffs (fun x => x.planIndex == idx) h
  exact inv_rewatch ⟨hq, hd, ⟨le_trans (List.length_filter_le _ _) h1,
    le_trans (List.length_filter_le _ _) h2, le_trans (List.length_filter_le _ _) h3, h4⟩, ha⟩

theorem inv_releaseFollowing {p : Part} (h : PartInv p) : PartInv (releaseFollowing p) := by
  unfold releaseFollowing
  split
  · refine inv_discardIndex _ ?_
    split
    · exact ⟨h.queue, h.dead, h.lists, h.attention⟩
    · exact ⟨h.queue, h.dead, h.lists, h.attention⟩
  · exact h

theorem inv_setStopAtEnd {p : Part} (h : PartInv p) : PartInv (setStopAtEnd p) := by
  unfold setStopAtEnd
  have hq := inv_cutTake h
  exact inv_releaseFollowing ⟨hq.queue, hq.dead, hq.lists, hq.attention⟩

/-! ## Cues -/

theorem inv_takeHold {p : Part} (c : Cue) (h : PartInv p) : PartInv (takeHold c p) := by
  unfold takeHold
  split
  · exact ⟨h.queue, h.dead, h.lists, h.attention⟩
  · exact h

theorem inv_dropHeadCue {p : Part} (h : PartInv p) : PartInv (dropHeadCue p) := by
  obtain ⟨hq, hd, ⟨h1, h2, h3⟩, ha⟩ := h
  refine ⟨hq, hd, ⟨h1, ?_, h3⟩, ha⟩
  show p.sched.cues.tail.length ≤ 16
  rw [List.length_tail]
  omega

theorem consumeOnsets_length (tp : Int) (w : Nat) (c : Option Onset) (l : List Onset) :
    (consumeOnsets tp w c l).length ≤ l.length := by
  unfold consumeOnsets
  dsimp only
  refine le_trans (List.length_filter_le _ _) ?_
  split
  · exact List.length_filter_le _ _
  · exact le_refl _

theorem inv_resolveCue {p : Part} (q : Passage) (c : Cue) (h : PartInv p) :
    PartInv (resolveCue q c p) := by
  unfold resolveCue
  refine inv_triggerIf _ (inv_latchIf _ _ (inv_rewatch (inv_takeHold c (inv_dropHeadCue ?_))))
  obtain ⟨hq, hd, ⟨h1, h2, h3, h4, h5⟩, ha⟩ := h
  exact ⟨hq, hd, ⟨h1, h2, h3, le_trans (consumeOnsets_length _ _ _ _) h4, h5⟩, ha⟩

theorem inv_closeHead {p : Part} (h : PartInv p) : PartInv (closeHead p) := by
  unfold closeHead
  split
  · exact inv_resolveCue _ _ h
  · exact h

theorem inv_runCloses (k : Nat) : ∀ {p : Part}, PartInv p → PartInv (runCloses k p) := by
  induction k with
  | zero => intro p h; exact h
  | succ k ih =>
    intro p h
    unfold runCloses
    split
    · exact ih (inv_closeHead h)
    · exact h

theorem inv_takeCloses {p : Part} (h : PartInv p) : PartInv (takeCloses p) := inv_runCloses _ h

theorem inv_settleCloses {p : Part} (h : PartInv p) : PartInv (settleCloses p) :=
  inv_takeCloses (inv_rewatch h)

theorem inv_cuePassStep {p : Part} (h : PartInv p) : PartInv (cuePassStep p) := by
  unfold cuePassStep
  split
  · exact inv_rewatch (inv_takeHold _ (inv_dropHeadCue h))
  · exact h

/-! ## Looks and entries -/

theorem inv_endFound {p : Part} (h : PartInv p) : PartInv (endFound p) := by
  unfold endFound
  dsimp only
  have hq : PartInv { p with reader := { p.reader with phase := .endFound, lookTimer := none } } :=
    ⟨h.queue, h.dead, h.lists, h.attention⟩
  split
  · exact inv_drainStarved _ hq
  · exact hq

theorem inv_lookStampRead {p : Part} (q : Nat) (w : Word) (h : PartInv p) :
    PartInv (lookStampRead q w p) := by
  unfold lookStampRead
  split
  · exact inv_beginTake q _ h
  · exact h

theorem inv_lookNextRead {p : Part} (w : Word) (f : Nat → Part → Part)
    (hf : ∀ q p, PartInv p → PartInv (f q p)) (h : PartInv p) : PartInv (lookNextRead w f p) := by
  unfold lookNextRead
  split
  · exact h
  · exact inv_endFound h
  · exact inv_lockRequest _ _ h
  · exact hf _ _ h

theorem inv_directLook {p : Part} (mem : Memory) (h : PartInv p) : PartInv (directLook mem p) :=
  inv_lookNextRead _ _ (fun q _ hp => inv_lookStampRead q _ (inv_served _ hp)) (inv_served _ h)

theorem inv_look {p : Part} (mem : Memory) (h : PartInv p) : PartInv (look mem p) := by
  unfold look
  split
  · exact h
  · split
    · exact inv_directLook mem h
    · exact inv_askReader _ h

theorem inv_askLook {p : Part} (h : PartInv p) : PartInv (askLook p) := by
  unfold askLook
  split
  · exact inv_askReader _ h
  · exact h

theorem inv_startLookTimer {p : Part} (h : PartInv p) : PartInv (startLookTimer p) :=
  ⟨h.queue, h.dead, h.lists, h.attention⟩

theorem inv_beginSeeking {p : Part} (h : PartInv p) : PartInv (beginSeeking p) :=
  inv_askLook ⟨h.queue, h.dead, h.lists, h.attention⟩

theorem inv_needTest {p : Part} (h : PartInv p) : PartInv (needTest p) := by
  unfold needTest
  split
  · exact inv_beginSeeking h
  · exact h

theorem inv_enterPassage {p : Part} (b : Buffer) (st : Bool) (t : Int) (h : PartInv p) :
    PartInv (enterPassage b st t p) := by
  unfold enterPassage
  obtain ⟨hq, hd, ⟨h1, h2, h3, h4⟩, ha⟩ := h
  have hl : PartInv { p with
      reader := { p.reader with
        current := some b
        delta := 0
        pass := p.reader.pass.map fun x => x.enter p.reader.delta }
      sched := p.sched.enter p.reader.delta b.planIndex
      follower := p.follower.enter b.passage st t } :=
    ⟨hq, hd, ⟨by simpa [Scheduler.enter] using h1, by simpa [Scheduler.enter] using h2,
      by simpa [Scheduler.enter] using h3, h4⟩, ha⟩
  refine inv_placeBoundary _ ?_
  split
  · exact hl
  · exact inv_flushOnsets hl

theorem inv_enterFollowing {p : Part} (b : Buffer) (t : Int) (h : PartInv p) :
    PartInv (enterFollowing b t p) :=
  inv_enterPassage b false t ⟨h.queue, h.dead, h.lists, h.attention⟩

theorem inv_entryHold {p : Part} (q : Passage) (h : PartInv p) : PartInv (entryHold q p) := by
  unfold entryHold
  split
  · exact inv_moveTo _ ⟨h.queue, h.dead, h.lists, h.attention⟩
  · exact h

/-! ## Streaming -/

theorem inv_putBuffer {p : Part} (a : Bool) (b : Buffer) (h : PartInv p) :
    PartInv (putBuffer a b p) := by
  unfold putBuffer
  split
  · exact ⟨h.queue, h.dead, h.lists, h.attention⟩
  · exact ⟨h.queue, h.dead, h.lists, h.attention⟩

@[simp] theorem putBuffer_sched (a : Bool) (b : Buffer) (p : Part) :
    (putBuffer a b p).sched = p.sched := by
  unfold putBuffer; split <;> rfl

theorem inv_handNote {p : Part} (x : Note) (h : PartInv p) (hr : p.sched.window.length < 48) :
    PartInv (handNote x p) := by
  unfold handNote
  split
  · exact inv_latch _ h
  · obtain ⟨hq, hd, ⟨_, h2⟩, ha⟩ := h
    exact ⟨hq, hd, ⟨by simp only [List.length_append, List.length_singleton]; omega, h2⟩, ha⟩

theorem inv_handCue {p : Part} (x : Cue) (h : PartInv p) (hr : p.sched.cues.length < 16) :
    PartInv (handCue x p) := by
  obtain ⟨hq, hd, ⟨h1, _, h3⟩, ha⟩ := h
  exact inv_settleCloses ⟨hq, hd,
    ⟨h1, by simp only [List.length_append, List.length_singleton]; omega, h3⟩, ha⟩

theorem inv_handStep {p : Part} (x : Step) (h : PartInv p) (hr : p.sched.steps.length < 4) :
    PartInv (handStep x p) := by
  obtain ⟨hq, hd, ⟨h1, h2, _, h4⟩, ha⟩ := h
  exact ⟨hq, hd, ⟨h1, h2, by simp only [handStep, List.length_append, List.length_singleton]; omega,
    h4⟩, ha⟩

theorem inv_streamBase {p : Part} (bound : Int) (a : Bool) (h : PartInv p) :
    PartInv (streamBase bound a p) := by
  unfold streamBase
  split
  · exact h
  · dsimp only
    split
    · exact h
    · rename_i hroom
      have hlen : p.sched.steps.length < 4 := by
        simp [Config.stepListSize] at hroom
        exact Nat.lt_of_not_le (of_decide_eq_false hroom.2)
      exact inv_handStep _ (inv_putBuffer _ _ h) (by rw [putBuffer_sched]; exact hlen)

@[simp] theorem latchIf_sched (b : Bool) (c : Condition) (p : Part) :
    (latchIf b c p).sched = p.sched := by
  unfold latchIf; split <;> rfl

theorem inv_putPass {p : Part} (x : Option Pass) (h : PartInv p) : PartInv (putPass x p) :=
  ⟨h.queue, h.dead, h.lists, h.attention⟩

theorem inv_atStage {p : Part} (bound : Int) (st : Stage) (h : PartInv p) :
    PartInv (atStage bound st p) := by
  unfold atStage
  split
  · exact inv_streamBase _ _ h
  · exact h

theorem inv_seekEntry (bound : Int) (l : List Stage) :
    ∀ {p : Part}, PartInv p → PartInv (seekEntry bound l p) := by
  induction l with
  | nil => intro p h; exact inv_putPass _ h
  | cons st rest ih =>
    intro p h
    unfold seekEntry
    dsimp only
    have hq := inv_atStage bound st h
    split
    · exact inv_putPass _ hq
    · exact ih hq

theorem inv_startPass {p : Part} (h : PartInv p) : PartInv (startPass p) :=
  inv_seekEntry _ _ (inv_needTest h)

theorem inv_requestPass {p : Part} (h : PartInv p) : PartInv (requestPass p) := by
  unfold requestPass
  split
  · exact ⟨h.queue, h.dead, h.lists, h.attention⟩
  · exact inv_startPass h

theorem inv_nextPass {p : Part} (h : PartInv p) : PartInv (nextPass p) := by
  unfold nextPass
  split
  · exact inv_startPass ⟨h.queue, h.dead, h.lists, h.attention⟩
  · exact h

theorem inv_goOn {p : Part} (bound : Int) (l : List Stage) (h : PartInv p) :
    PartInv (goOn bound l p) := inv_nextPass (inv_seekEntry bound l h)

theorem inv_badEntry {p : Part} (a : Nat) (h : PartInv p) : PartInv (badEntry a p) :=
  inv_lockRequest _ _ (inv_putPass _ h)

theorem inv_entryCourse {p : Part} (b : Buffer) (st : Stage) (rest : List Stage) (x : Pass)
    (fate : EntryFate) (pos words : Nat) (past : Cursor) (hand : Part → Part) (h : PartInv p)
    (hh : PartInv (hand (putBuffer st.ahead (b.withCursor st.list past) p))) :
    PartInv (entryCourse b st rest x fate pos words past hand p) := by
  unfold entryCourse
  cases fate <;> dsimp only
  · exact inv_badEntry _ h
  · split
    · exact inv_putPass _ h
    · exact inv_goOn _ _ (inv_putBuffer _ _ h)
  · exact inv_goOn _ _ (inv_putBuffer _ _ h)
  · exact inv_goOn _ _ h
  · split
    · exact inv_putPass _ h
    · exact inv_goOn _ _ hh

/-- A stage with an entry to read has room in the Scheduler's list (R32). -/
theorem stageBuffer_room {st : Stage} {p : Part} {b : Buffer} (h : stageBuffer st p = some b) :
    p.listFull st.list = false := by
  unfold stageBuffer at h
  split at h
  · split at h
    · cases h
    · rename_i hn
      simp only [Bool.or_eq_true, not_or, Bool.not_eq_true] at hn
      exact hn.1.2
  · cases h

theorem inv_handRead {p : Part} (b : Buffer) (d : Int) (pos stored : Nat) (ws : List Word)
    (h : PartInv p) (hr : p.sched.steps.length < 4) : PartInv (handRead b d pos stored ws p) := by
  unfold handRead
  dsimp only
  split
  · exact inv_latchIf _ _ h
  · exact inv_handStep _ (inv_latchIf _ _ h) (by rw [latchIf_sched]; exact hr)

theorem inv_entryRead {p : Part} (b : Buffer) (st : Stage) (rest : List Stage) (x : Pass)
    (h : PartInv p) (hr : p.listFull st.list = false) : PartInv (entryRead b st rest x p) := by
  unfold entryRead
  split
  · rename_i hst
    rw [hst] at hr
    exact inv_entryCourse _ _ _ _ _ _ _ _ _ h (inv_handNote _ (inv_putBuffer _ _ h)
      (by rw [putBuffer_sched]; exact Nat.lt_of_not_le (of_decide_eq_false hr)))
  · rename_i hst
    rw [hst] at hr
    exact inv_entryCourse _ _ _ _ _ _ _ _ _ h (inv_handCue _ (inv_putBuffer _ _ h)
      (by rw [putBuffer_sched]; exact Nat.lt_of_not_le (of_decide_eq_false hr)))
  · rename_i hst
    rw [hst] at hr
    exact inv_entryCourse _ _ _ _ _ _ _ _ _ h (inv_handRead _ _ _ _ _ (inv_putBuffer _ _ h)
      (by rw [putBuffer_sched]; exact Nat.lt_of_not_le (of_decide_eq_false hr)))
  · exact inv_putPass _ h

theorem inv_entryServed {p : Part} (mem : Memory) (h : PartInv p) :
    PartInv (entryServed mem p) := by
  unfold entryServed
  split
  · exact h
  · split
    · exact inv_goOn _ _ h
    · split
      · exact inv_goOn _ _ h
      · rename_i hb
        exact inv_entryRead _ _ _ _ h (stageBuffer_room hb)

theorem inv_streamTick {p : Part} (h : PartInv p) : PartInv (streamTick p) :=
  inv_requestPass ⟨h.queue, h.dead, h.lists, h.attention⟩

/-! ## Takes -/

theorem inv_headNotReady {p : Part} (h : PartInv p) : PartInv (headNotReady p) :=
  ⟨h.queue, h.dead, h.lists, h.attention⟩

theorem inv_afterEntry {p : Part} (q : Passage) (h : PartInv p) : PartInv (afterEntry q p) :=
  inv_requestPass (inv_settleCloses (inv_entryHold q (inv_needTest h)))

theorem inv_headTaken {p : Part} (q : Passage) (h : PartInv p) : PartInv (headTaken q p) := by
  unfold headTaken
  dsimp only
  refine inv_closeSlot _ _ ?_
  have he (b : Buffer) (t : Int) : PartInv (trigger (enterPassage b true t (startTaken { p with
      reader := { p.reader with
        planIndex := 0
        delta := 0
        phase := .waitingForNeed
        streamTimer := some (p.time + Config.streamInterval) }
      player := { p.player with state := .running } }))) :=
    inv_trigger (inv_enterPassage b true t ⟨h.queue, h.dead, h.lists, h.attention⟩)
  split
  · exact inv_afterEntry q (he _ _)
  · exact inv_lockRequest _ _ (he _ _)

theorem inv_headRefused {p : Part} (a : Nat) (h : PartInv p) : PartInv (headRefused a p) :=
  inv_closeSlot _ _ (inv_lockPlayer _ _ ⟨h.queue, h.dead, h.lists, h.attention⟩)

theorem inv_lateTake {p : Part} (b : Buffer) (h : PartInv p) : PartInv (lateTake b p) := by
  unfold lateTake
  have hk := inv_keyOffEndNotes h
  exact inv_afterEntry _ (inv_completion (inv_trigger (inv_enterFollowing b _
    ⟨hk.queue, hk.dead, hk.lists, hk.attention⟩)))

theorem inv_followingTaken {p : Part} (q : Passage) (h : PartInv p) :
    PartInv (followingTaken q p) := by
  unfold followingTaken
  split
  · exact h
  · rename_i cur _
    dsimp only
    have hr : PartInv (holdFollowing cur q p) := ⟨h.queue, h.dead, h.lists, h.attention⟩
    split
    · exact inv_lateTake _ hr
    · exact inv_requestPass hr

theorem inv_takenCourse {p : Part} (t : Take) (h : PartInv p) : PartInv (takenCourse t p) := by
  unfold takenCourse
  split
  · exact inv_headTaken _ h
  · exact inv_followingTaken _ h

theorem inv_refusedCourse {p : Part} (t : Take) (h : PartInv p) :
    PartInv (refusedCourse t p) := by
  unfold refusedCourse
  dsimp only
  split
  · exact inv_headRefused _ (inv_latch _ h)
  · exact inv_lockRequest _ _ (inv_latch _ h)

theorem inv_exchange {p : Part} (t : Take) (mem : Memory) (h : PartInv p) :
    PartInv (exchange t mem p).2 := by
  unfold exchange
  dsimp only
  have hl := inv_latchIf (t.structural && t.skipsBase) .mapping h
  have hq : PartInv (takeOver (latchIf (t.structural && t.skipsBase) .mapping p)) :=
    ⟨hl.queue, hl.dead, hl.lists, hl.attention⟩
  split
  · split
    · exact inv_takenCourse t hq
    · exact inv_refusedCourse t hq
  · dsimp only
    split
    · exact inv_headNotReady hq
    · exact hq

/-! ## Magnet power OFF -/

/-- With an empty Pull-in Queue there is nothing to grant (R152). -/
theorem grants_empty {p : Part} (h : p.keys.queue = []) : grants p = p := by
  unfold grants
  rw [h]
  rfl

theorem inv_powerLost (cause : PowerCause) {p : Part} (h : PartInv p) :
    PartInv (powerLostTest (keyPowerOff { p with power := { on := false, cause := cause } })) := by
  have hq : PartInv { (keyPowerOff { p with power := { on := false, cause := cause } }) with
      guard := { (keyPowerOff { p with power := { on := false, cause := cause } }).guard with
        test := none } } := by
    refine ⟨⟨?_, List.nodup_nil, Nat.zero_le _⟩, ?_, h.lists, h.attention⟩
    · intro n
      show n ∈ (setAllEntries offAtPower _).keys.queue
        ↔ (entry (setAllEntries offAtPower _).keys.entries n).state = .waiting
      rw [setAllEntries_entry, setAllEntries_queue]
      have := offAtPower_not_waiting (entry p.keys.entries n)
      simp [this]
    · intro _
      refine ⟨rfl, rfl, ?_⟩
      intro n
      show (entry (setAllEntries offAtPower _).keys.entries n).state.atRest = true
      rw [setAllEntries_entry]
      exact offAtPower_rest _
  have hempty : (keyPowerOff { p with power := { on := false, cause := cause } }).keys.queue = [] :=
    rfl
  generalize keyPowerOff { p with power := { on := false, cause := cause } } = q at hq hempty
  unfold powerLostTest
  split
  · rename_i hn
    refine ⟨hq.queue, ?_, hq.lists, hq.attention⟩
    intro hoff
    exact ⟨hn, (hq.dead hoff).2⟩
  · rename_i t ht
    unfold finishTest
    refine inv_setSlotLimit _ (inv_closeSlot _ _ ?_)
    split
    · unfold disableOutput
      split
      · exact hq
      · rw [grants_empty (by simp [hempty])]
        exact inv_setEntry t.output { KeyEntry.idle with state := .disabled } hq (by simp)
          (Or.inr rfl)
    · exact hq

theorem inv_powerOff {p : Part} (cause : PowerCause) (h : PartInv p)
    (hs : cause = .softReset → p.guard.test = none) : PartInv (powerOff cause p) := by
  unfold powerOff
  split
  · exact h
  · dsimp only
    refine inv_latchIf _ _ ?_
    have hl := inv_powerLost cause h
    split
    · rename_i hc
      have hn : (keyPowerOff { p with power := { on := false, cause := cause } }).guard.test = none :=
        hs hc
      unfold powerLostTest at hl
      rw [hn] at hl
      exact hl
    · exact inv_lockRequest _ _ hl

/-! ## Boundaries and fermatas -/

theorem inv_passageEndCourse {p : Part} (cur : Buffer) (h : PartInv p) :
    PartInv (passageEndCourse cur p) := by
  unfold passageEndCourse
  dsimp only
  have hd : PartInv (dropCues cur.planIndex
      { p with reader := { p.reader with current := some cur.closed } }) := by
    obtain ⟨hq, hd, ⟨h1, h2, h3⟩, ha⟩ := h
    exact ⟨hq, hd, ⟨h1, le_trans (List.length_filter_le _ _) h2, h3⟩, ha⟩
  have hq : PartInv (rewatch (discardPending (dropCues cur.planIndex
      { p with reader := { p.reader with current := some cur.closed } }))) := by
    refine inv_rewatch ?_
    unfold discardPending
    split
    · exact ⟨hd.queue, hd.dead, hd.lists, hd.attention⟩
    · exact hd
  generalize rewatch (discardPending (dropCues cur.planIndex
      { p with reader := { p.reader with current := some cur.closed } })) = q at hq
  split
  · unfold endFollowing
    exact inv_afterEntry _ (inv_completion (inv_triggerIf _ (inv_enterFollowing _ _ hq)))
  · split
    · exact inv_enterDraining _ hq
    · split
      · exact inv_enterDraining _ hq
      · unfold starve
        dsimp only
        have hr := inv_completion (inv_moveTo .starved (inv_latch .starved
          (p := { q with
            follower := { q.follower with freeze := some (cur.passage.endPos : Int) }
            player := { q.player with starveTimer := some (q.time + 1000000 * q.setup.starveLimit) } })
          ⟨hq.queue, hq.dead, hq.lists, hq.attention⟩))
        split
        · exact inv_beginSeeking hr
        · exact hr

theorem inv_passageEndStep {p : Part} (h : PartInv p) : PartInv (passageEndStep p) := by
  unfold passageEndStep
  split
  · exact inv_passageEndCourse _ h
  · exact h

theorem inv_startHolding {p : Part} (h : PartInv p) : PartInv (startHolding p) := by
  unfold startHolding
  dsimp only
  refine inv_trigger ?_
  split
  · exact ⟨h.queue, h.dead, h.lists, h.attention⟩
  · exact ⟨h.queue, h.dead, h.lists, h.attention⟩

theorem inv_releaseFreeze {p : Part} (q t : Int) (h : PartInv p) : PartInv (releaseFreeze q t p) :=
  ⟨h.queue, h.dead, h.lists, h.attention⟩

theorem inv_endFermata {p : Part} (t : Int) (h : PartInv p) : PartInv (endFermata t p) := by
  unfold endFermata
  have hk := inv_keyOffAt p.player.fermata.holdingPoint h
  exact inv_takeCloses (inv_trigger (inv_releaseFreeze _ _
    ⟨hk.queue, hk.dead, hk.lists, hk.attention⟩))

theorem inv_cutoffStep {p : Part} (h : PartInv p) : PartInv (cutoffStep p) := by
  unfold cutoffStep
  split
  · exact inv_endFermata _ h
  · exact h

theorem inv_holdPlayer {p : Part} (h : PartInv p) : PartInv (holdPlayer p) :=
  inv_moveTo _ ⟨h.queue, h.dead, h.lists, h.attention⟩

theorem inv_resumePlayer {p : Part} (h : PartInv p) : PartInv (resumePlayer p) := by
  unfold resumePlayer
  dsimp only
  refine inv_takeCloses (inv_moveTo _ (inv_releaseFreeze _ _ ?_))
  split
  · exact inv_keyOffAt _ ⟨h.queue, h.dead, h.lists, h.attention⟩
  · exact h

theorem inv_nudgePlayer {p : Part} (x : Int) (h : PartInv p) : PartInv (nudgePlayer x p) :=
  inv_settleCloses ⟨h.queue, h.dead, h.lists, h.attention⟩

theorem inv_saturate {p : Part} (h : PartInv p) : PartInv (saturate p) := by
  unfold saturate
  dsimp only
  split
  · exact inv_whilePlaying _ (fun _ hp => inv_completion hp)
      (inv_keyOffs _ ⟨h.queue, h.dead, h.lists, h.attention⟩)
  · exact inv_lockRequest _ _ ⟨h.queue, h.dead, h.lists, h.attention⟩

/-! ## The slice -/

theorem inv_issueStop {p : Part} (e : StopEntry) (h : PartInv p) : PartInv (issueStop p e) := by
  unfold issueStop
  dsimp only
  split
  · exact h
  · split
    · exact inv_latch _ h
    · exact inv_foldl _ (fun _ n hp => inv_stopPulse n hp) _ ⟨h.queue, h.dead, h.lists, h.attention⟩

theorem inv_issueSteps {p : Part} (d : Step → Bool) (h : PartInv p) : PartInv (issueSteps d p) := by
  unfold issueSteps
  refine inv_foldl _ (fun _ x hp => inv_foldl _ (fun _ e hp => inv_issueStop e hp) _ hp) _ ?_
  obtain ⟨hq, hd, ⟨h1, h2, h3, h4⟩, ha⟩ := h
  exact ⟨hq, hd, ⟨h1, h2, le_trans (List.length_filter_le _ _) h3, h4⟩, ha⟩

theorem inv_claimAll (l : List OutputId) : ∀ {p : Part}, PartInv p → PartInv (claimAll l p).1 := by
  induction l with
  | nil => intro p h; exact h
  | cons n rest ih => intro p h; exact ih (inv_claim n h)

theorem inv_keyOnLoop (due : Note → Bool) (l : List Note) :
    ∀ (kept : List Note) {p : Part}, kept.length + l.length ≤ 48 → PartInv p →
      PartInv (keyOnLoop due kept l p) := by
  induction l with
  | nil => intro kept p _ h; exact h
  | cons x rest ih =>
    intro kept p hl h
    simp only [List.length_cons] at hl
    unfold keyOnLoop
    split
    · split
      · exact inv_whilePlaying _ (fun _ hp => ih kept (by omega) hp)
          (inv_completion (inv_putWindow _ (by simp only [List.length_append]; omega)
            (inv_latch _ h)))
      · refine ih _ (by simp only [List.length_append, List.length_singleton]; omega)
          (inv_putWindow _ (by simp only [List.length_append, List.length_cons]; omega)
            (inv_claimAll _ (inv_latchIf _ _ h)))
    · exact ih (kept ++ [x]) (by simp only [List.length_append, List.length_singleton]; omega) h

theorem inv_keyOns {p : Part} (due : Note → Bool) (h : PartInv p) : PartInv (keyOns due p) :=
  inv_keyOnLoop due _ [] (by have := h.lists.1; simp only [List.length_nil]; omega) h

theorem inv_evaluate {p : Part} (h : PartInv p) : PartInv (evaluate p) :=
  inv_whilePlaying _ (fun _ hp => inv_keyOns _ hp)
    (inv_whilePlaying _ (fun _ hp => inv_issueSteps _ hp) (inv_keyOffs _ h))

theorem inv_sliceStep {p : Part} (h : PartInv p) : PartInv (sliceStep p) :=
  inv_whilePlaying _ (fun _ hp => inv_evaluate hp) ⟨h.queue, h.dead, h.lists, h.attention⟩

end Sys2Proof.Machine
end

