-- ==== Sys2Proof/Laws/Part.lean ====
section
/-! SUPPORT. What each console access, each served access, each service command and each event does to
the invariant of the part, and what reset and a soft reset leave of it. -/

namespace Sys2Proof.Machine

/-! ## Console Port -/

theorem inv_takeAction {p : Part} (h : PartInv p) : PartInv (takeAction p) := by
  unfold takeAction
  split
  · exact inv_latch _ ⟨h.queue, h.dead, h.lists, h.attention⟩
  · exact ⟨h.queue, h.dead, h.lists, h.attention⟩

theorem inv_haltAction {p : Part} (h : PartInv p) : PartInv (haltAction p) := by
  unfold haltAction
  refine inv_haltPlayer ?_
  have hq : PartInv (recordTransfer .accepted p) := ⟨h.queue, h.dead, h.lists, h.attention⟩
  generalize recordTransfer .accepted p = q at hq
  unfold haltSlot
  split
  · exact inv_closeSlot _ _ ⟨hq.queue, hq.dead, hq.lists, hq.attention⟩
  · exact inv_haltTest hq
  · exact hq

theorem softResetSlot_test (p : Part) : (softResetSlot p).guard.test = p.guard.test := by
  unfold softResetSlot
  split <;> rfl

theorem inv_softResetAction {p : Part} (h : PartInv p) : PartInv (softResetAction p) := by
  unfold softResetAction
  have hn := inv_noTest h
  have hq : PartInv (abandonHeld (recordTransfer .accepted
      { p with softReset := true, guard := { p.guard with test := none } })) :=
    ⟨hn.queue, hn.dead, hn.lists, hn.attention⟩
  have hoff : PartInv (powerOff .softReset (softResetSlot (abandonHeld (recordTransfer .accepted
      { p with softReset := true, guard := { p.guard with test := none } })))) := by
    refine inv_powerOff _ ?_ ?_
    · unfold softResetSlot
      split
      · exact hq
      · exact hq
      · exact ⟨hn.queue, hn.dead, hn.lists, hn.attention⟩
      · exact ⟨hn.queue, hn.dead, hn.lists, hn.attention⟩
    · intro _
      rw [softResetSlot_test]
      rfl
  unfold limitAfterTest
  split
  · exact inv_setSlotLimit _ hoff
  · exact hoff

theorem inv_transferWrite {p : Part} (w : Word) (h : PartInv p) : PartInv (transferWrite w p) := by
  unfold transferWrite
  split
  · exact inv_takeAction h
  · exact inv_haltAction h
  · exact inv_softResetAction h
  · exact inv_latch _ ⟨h.queue, h.dead, h.lists, h.attention⟩

theorem inv_attentionStep {p : Part} (h : PartInv p) : PartInv (attentionStep p) :=
  ⟨h.queue, h.dead, h.lists, by show (0 : Word) &&& 0xF000 = 0; rfl⟩

theorem inv_beginAccess {p q : Part} (a : PortAccess) (h : PartInv p)
    (hq : beginAccess a p = some q) : PartInv q := by
  cases a with
  | read _ => cases hq
  | write _ _ => cases hq
  | transfer w =>
    unfold beginAccess at hq
    dsimp only at hq
    split at hq
    · cases hq
    · cases hq
      exact inv_transferWrite w h
  | transferRead => cases hq; exact h
  | attention => cases hq; exact inv_attentionStep h
  | partState _ => cases hq; exact h
  | ignored _ _ => cases hq; exact h

theorem inv_drainPort (l : List PortAccess) :
    ∀ (answered : List Word) {p : Part}, PartInv p → PartInv (drainPort answered l p) := by
  induction l with
  | nil => intro _ p h; exact ⟨h.queue, h.dead, h.lists, h.attention⟩
  | cons a rest ih =>
    intro _ p h
    unfold drainPort
    split
    · rename_i q hq
      exact ih _ (inv_beginAccess a h hq)
    · exact ⟨h.queue, h.dead, h.lists, h.attention⟩

/-- What stands first on the port after its accesses have begun is held on WAIT (R38). -/
theorem drainPort_head (l : List PortAccess) :
    ∀ (answered : List Word) (p : Part) {a : PortAccess} {rest : List PortAccess},
      (drainPort answered l p).port.waiting = a :: rest →
        beginAccess a (drainPort answered l p) = none := by
  induction l with
  | nil => intro _ _ _ _ h; exact absurd h (by simp [drainPort, putPort])
  | cons b more ih =>
    intro answered p a rest h
    unfold drainPort at h ⊢
    split
    · rename_i q hq
      rw [hq] at h
      exact ih _ _ h
    · rename_i hq
      rw [hq] at h
      obtain ⟨rfl, -⟩ := List.cons.inj h
      cases b <;> simp_all [beginAccess, Part.holdsTransfer, putPort]

theorem inv_portGoesOn {p : Part} (h : PartInv p) : PartInv (portGoesOn p) := inv_drainPort _ _ h

theorem inv_present {p : Part} (a : PortAccess) (h : PartInv p) : PartInv (present a p) := by
  unfold present
  split
  · exact inv_drainPort _ _ h
  · exact ⟨h.queue, h.dead, h.lists, h.attention⟩

/-! ## Served accesses -/

theorem inv_serveReader {p : Part} (a : ReaderAccess) (mem : Memory) (h : PartInv p) :
    PartInv (serveReader a mem p).2 := by
  cases a with
  | lookNext =>
    exact inv_lookNextRead _ _ (fun _ _ hp => ⟨hp.queue, hp.dead, hp.lists, hp.attention⟩) h
  | lookStamp q => exact inv_lookStampRead q _ h
  | headStamp q =>
    show PartInv (headStampRead q _ p)
    unfold headStampRead
    split
    · exact inv_beginTake q _ h
    · exact inv_headNotReady h
  | copy =>
    unfold serveReader
    dsimp only
    split
    · dsimp only
      unfold copyWordServed
      split
      · exact ⟨h.queue, h.dead, h.lists, h.attention⟩
      · exact ⟨h.queue, h.dead, h.lists, h.attention⟩
    · exact h
  | exchange =>
    unfold serveReader
    dsimp only
    split
    · exact inv_exchange _ mem h
    · exact h
  | spent q held =>
    unfold serveReader
    dsimp only
    have hl := inv_latch .passage h
    split
    · unfold spentFinishing
      dsimp only
      have hq : PartInv { latch .passage p with
          reader := { (latch .passage p).reader with next := .empty } } :=
        ⟨hl.queue, hl.dead, hl.lists, hl.attention⟩
      split
      · exact inv_askLook ⟨hq.queue, hq.dead, hq.lists, hq.attention⟩
      · exact inv_needTest hq
    · exact hl
  | abandon q => exact inv_latch _ h

theorem inv_setupInForce {p : Part} (h : PartInv p) : PartInv (setupInForce p) :=
  inv_closeSlot _ _ (inv_setSlotLimit _ ⟨h.queue, h.dead, h.lists, h.attention⟩)

theorem inv_boardsRead {p : Part} (w : Word) (h : PartInv p) : PartInv (boardsRead w p) := by
  unfold boardsRead
  split
  · exact inv_closeSlot _ _ h
  · exact ⟨h.queue, h.dead, h.lists, h.attention⟩

theorem inv_serveService {p : Part} (a : SvcAccess) (mem : Memory) (h : PartInv p) :
    PartInv (serveService a mem p).2 := by
  cases a with
  | readCode =>
    show PartInv (codeRead _ p)
    unfold codeRead
    dsimp only
    split
    · exact ⟨h.queue, h.dead, h.lists, h.attention⟩
    · split
      · exact ⟨h.queue, h.dead, h.lists, h.attention⟩
      · exact ⟨h.queue, h.dead, h.lists, h.attention⟩
  | readArg i =>
    show PartInv (argRead i _ p)
    unfold argRead
    dsimp only
    split
    · exact ⟨h.queue, h.dead, h.lists, h.attention⟩
    · exact ⟨h.queue, h.dead, h.lists, h.attention⟩
  | readBoards => exact inv_boardsRead _ h
  | copyWord k =>
    show PartInv (setupWordRead k _ p)
    unfold setupWordRead
    have hq (su : Setup) (b : Bool) : PartInv (latchIf b .mapping { p with setup := su }) :=
      inv_latchIf _ _ ⟨h.queue, h.dead, h.lists, h.attention⟩
    have hr (su : Setup) (b : Bool) (c : SvcAccess) :
        PartInv (askService c (latchIf b .mapping { p with setup := su })) :=
      ⟨(hq su b).queue, (hq su b).dead, (hq su b).lists, (hq su b).attention⟩
    dsimp only
    split
    · exact hr _ _ _
    · exact inv_setupInForce (hq _ _)
  | writeDetail v => exact h
  | writeCode v => exact inv_latch _ ⟨h.queue, h.dead, h.lists, h.attention⟩
  | faultRead r => exact ⟨h.queue, h.dead, h.lists, h.attention⟩
  | faultWord0 r f => exact ⟨h.queue, h.dead, h.lists, h.attention⟩
  | faultWord1 r => exact inv_latchIf _ _ h
  | clearRead n => exact ⟨h.queue, h.dead, h.lists, h.attention⟩
  | clearWrite n f => exact h

theorem inv_serveConsole {p : Part} (a : PortAccess) (rest : List PortAccess) (mem : Memory)
    (h : PartInv p) : PartInv (serveConsole a rest mem p).2 := by
  cases a with
  | read x => exact inv_drainPort _ _ h
  | write x v => exact inv_drainPort _ _ h
  | transfer w => exact h
  | transferRead => exact h
  | attention => exact h
  | partState _ => exact h
  | ignored _ _ => exact h

theorem inv_serveReport {p : Part} (a : Nat) (w : Word) (rest : List (Nat × Word)) (mem : Memory)
    (h : PartInv p) : PartInv (serveReport a w rest mem p).2 := by
  unfold serveReport
  dsimp only
  split
  · exact inv_nowWriteServed ⟨h.queue, h.dead, h.lists, h.attention⟩
  · exact ⟨h.queue, h.dead, h.lists, h.attention⟩

theorem inv_serveRequester {p : Part} (r : Requester) (mem : Memory) (h : PartInv p) :
    PartInv (serveRequester r mem p).2 := by
  unfold serveRequester
  dsimp only
  have hs := inv_served r h
  cases r <;> dsimp only <;> split
  · exact inv_serveConsole _ _ _ hs
  · exact hs
  · exact inv_serveReader _ _ ⟨hs.queue, hs.dead, hs.lists, hs.attention⟩
  · exact inv_entryServed _ hs
  · exact inv_serveReport _ _ _ _ hs
  · exact hs
  · exact inv_serveService _ _ ⟨hs.queue, hs.dead, hs.lists, hs.attention⟩
  · exact hs

theorem inv_arbiterStep {p : Part} (mem : Memory) (h : PartInv p) :
    PartInv (arbiterStep mem p).2 := by
  unfold arbiterStep
  split
  · exact inv_serveRequester _ mem h
  · exact h

theorem inv_arbiterStepIf {p : Part} (b : Bool) (mem : Memory) (h : PartInv p) :
    PartInv (arbiterStepIf b mem p).2 := by
  unfold arbiterStepIf
  split
  · exact inv_arbiterStep mem h
  · exact h

/-! ## Chain and supply -/

theorem inv_beginFrame {p : Part} (h : PartInv p) : PartInv (beginFrame p) := by
  unfold beginFrame
  split
  · exact h
  · exact ⟨h.queue, h.dead, h.lists, h.attention⟩

theorem inv_cadenceCourse {p : Part} (x : Nat) (h : PartInv p) : PartInv (cadenceCourse x p) := by
  unfold cadenceCourse
  have hq := inv_beginFrame h
  exact ⟨hq.queue, hq.dead, hq.lists, hq.attention⟩

theorem inv_frameCompleteStep {p : Part} (e : Option Nat) (l : List Sense) (h : PartInv p) :
    PartInv (frameCompleteStep e l p) := by
  unfold frameCompleteStep
  split
  · rename_i f _
    unfold frameCourse
    split
    · have hq := inv_judgeFrame f.boards l h
      dsimp only
      generalize judgeFrame f.boards l p = q at hq
      exact ⟨hq.queue, hq.dead, hq.lists, hq.attention⟩
    · exact ⟨h.queue, h.dead, h.lists, h.attention⟩
  · exact h

theorem inv_chainFaultStep {p : Part} (h : PartInv p) : PartInv (chainFaultStep p) :=
  inv_powerOff _ ⟨h.queue, h.dead, h.lists, h.attention⟩ (fun hc => by cases hc)

theorem inv_supplyOutStep {p : Part} (h : PartInv p) : PartInv (supplyOutStep p) :=
  inv_powerOff _ ⟨h.queue, h.dead, h.lists, h.attention⟩ (fun hc => by cases hc)

/-! ## Service commands -/

theorem inv_setupCommand {p : Part} (mem : Memory) (h : PartInv p) :
    PartInv (setupCommand mem p) := by
  unfold setupCommand
  dsimp only
  split
  · exact inv_closeSlot _ _ h
  · split
    · exact inv_closeSlot _ _ h
    · split
      · exact inv_boardsRead _ (inv_served _ h)
      · split
        · exact h
        · exact ⟨h.queue, h.dead, h.lists, h.attention⟩

theorem inv_prepareStart {p : Part} (h : PartInv p) : PartInv (prepareStart p) := by
  obtain ⟨hq, hd, ⟨h1, h2, h3, _, _⟩, ha⟩ := h
  exact ⟨hq, hd, ⟨h1, h2, h3, Nat.zero_le _, Nat.zero_le _⟩, ha⟩

theorem inv_startCommand {p : Part} (mem : Memory) (h : PartInv p) :
    PartInv (startCommand mem p) := by
  unfold startCommand
  dsimp only
  split
  · exact inv_closeSlot _ _ h
  · split
    · exact inv_closeSlot _ _ h
    · split
      · exact inv_closeSlot _ _ h
      · split
        · exact inv_closeSlot _ _ h
        · have hq := inv_prepareStart h
          unfold headLook
          split
          · unfold headStampRead
            split
            · exact inv_beginTake _ _ (inv_served _ hq)
            · exact inv_headNotReady (inv_served _ hq)
          · exact inv_askReader _ hq

theorem inv_stopCommand {p : Part} (h : PartInv p) : PartInv (stopCommand p) := by
  unfold stopCommand
  split
  · exact inv_closeSlot _ _ (inv_setStopAtEnd h)
  · exact inv_closeSlot _ _ (inv_setStopAtEnd h)
  · exact inv_closeSlot _ _ (inv_drainStarved _ (inv_setStopAtEnd h))
  · exact inv_closeSlot _ _ h

theorem inv_holdCommand {p : Part} (h : PartInv p) : PartInv (holdCommand p) := by
  unfold holdCommand
  split
  · exact inv_closeSlot _ _ (inv_holdPlayer h)
  · exact inv_closeSlot _ _ h
  · exact inv_closeSlot _ _ h

theorem inv_resumeCommand {p : Part} (h : PartInv p) : PartInv (resumeCommand p) := by
  unfold resumeCommand
  split
  · exact inv_closeSlot _ _ (inv_resumePlayer h)
  · exact inv_closeSlot _ _ h

theorem inv_nudgeCommand {p : Part} (h : PartInv p) : PartInv (nudgeCommand p) := by
  unfold nudgeCommand
  split
  · exact inv_closeSlot _ _ (inv_nudgePlayer _ h)
  · exact inv_closeSlot _ _ (inv_nudgePlayer _ h)
  · exact inv_closeSlot _ _ h

theorem inv_powerOn {p : Part} (h : PartInv p) : PartInv (powerOn p) := by
  unfold powerOn
  split
  · exact h
  · refine ⟨h.queue, ?_, h.lists, h.attention⟩
    intro hoff
    cases hoff

theorem inv_powerCommand {p : Part} (h : PartInv p) : PartInv (powerCommand p) := by
  unfold powerCommand
  split
  · unfold powerOnCommand
    split
    · exact inv_closeSlot _ _ h
    · split
      · exact inv_closeSlot _ _ h
      · split
        · exact inv_closeSlot _ _ h
        · exact inv_closeSlot _ _ (inv_powerOn h)
  · exact inv_closeSlot _ _ (inv_powerOff _ h (fun hc => by cases hc))
  · exact inv_closeSlot _ _ h

theorem inv_testCommand {p : Part} (h : PartInv p) : PartInv (testCommand p) := by
  unfold testCommand
  dsimp only
  split
  · exact inv_closeSlot _ _ h
  · split
    · exact inv_closeSlot _ _ h
    · split
      · exact inv_closeSlot _ _ h
      · rename_i hon
        split
        · exact inv_closeSlot _ _ h
        · unfold beginTest
          split
          · exact inv_closeSlot _ _ h
          · refine inv_setSlotLimit _ ⟨h.queue, ?_, h.lists, h.attention⟩
            intro hoff
            have : p.power.on = false := hoff
            simp [this] at hon

theorem inv_clearCommand {p : Part} (h : PartInv p) : PartInv (clearCommand p) := by
  unfold clearCommand
  have hq := inv_enableAll (p := { p with svcLine := p.svcLine ++ (disabledOutputs p).map .clearRead })
    ⟨h.queue, h.dead, h.lists, h.attention⟩
  dsimp only
  refine inv_closeSlot _ _ ?_
  split
  · exact inv_moveTo _ hq
  · exact hq

/-! ## Events of the outputs -/

theorem inv_cipherStep {p : Part} (n : OutputId) (h : PartInv p) : PartInv (cipherStep n p) :=
  inv_latch _ (inv_recordFault _ _ (inv_cipherRelease n h))

theorem inv_stuckStep {p : Part} (n : OutputId) (h : PartInv p) : PartInv (stuckStep n p) :=
  inv_powerOff _ (inv_recordFault _ _ (inv_putDetector _ _ h)) (fun hc => by cases hc)

theorem inv_openStep {p : Part} (n : OutputId) (h : PartInv p) : PartInv (openStep n p) :=
  inv_outputFault _ _ (inv_putDetector _ _ h)

theorem inv_testNextStep {p : Part} (h : PartInv p) (hd : testAdvanceDue p = true) :
    PartInv (testNextStep p) := by
  unfold testNextStep
  split
  · rename_i t ht
    refine inv_testAdvance t h (on_of_test h ht) ?_
    unfold testAdvanceDue at hd
    rw [ht] at hd
    exact atRest_not_waiting hd
  · exact h

theorem inv_whenDue {p : Part} (b : Bool) (f : Part → Part) (h : PartInv p)
    (hf : b = true → PartInv (f p)) : PartInv (whenDue b f p) := by
  unfold whenDue
  split
  · rename_i hb; exact hf hb
  · exact h

/-! ## Reset and soft reset -/

/-- The reset part keeps the invariant whatever the port and the free values are. -/
theorem inv_reset (q : Part) (hk : q.keys = KeyTable.init) (ht : q.guard.test = none)
    (hs : q.sched.window = [] ∧ q.sched.cues = [] ∧ q.sched.steps = [])
    (hl : q.listen.queue = [] ∧ q.listen.masks = []) (ha : q.attention = 0) : PartInv q := by
  have he (n : OutputId) : entry q.keys.entries n = KeyEntry.idle := by
    rw [hk]; exact entry_replicate _ n
  refine ⟨⟨?_, ?_, ?_⟩, ?_, ⟨?_, ?_, ?_, ?_, ?_⟩, ?_⟩
  · intro n
    rw [he, hk]
    simp [KeyTable.init, KeyEntry.idle]
  · rw [hk]; exact List.nodup_nil
  · rw [hk]; exact Nat.zero_le _
  · intro _
    refine ⟨ht, by rw [hk]; rfl, ?_⟩
    intro n
    rw [he]
    rfl
  · rw [hs.1]; exact Nat.zero_le _
  · rw [hs.2.1]; exact Nat.zero_le _
  · rw [hs.2.2]; exact Nat.zero_le _
  · rw [hl.1]; exact Nat.zero_le _
  · rw [hl.2]; exact Nat.zero_le _
  · show q.attention &&& 0xF000 = 0
    rw [ha]; rfl

theorem inv_softResetCourse (p : Part) : PartInv (softResetCourse p) :=
  inv_portGoesOn (inv_reset _ rfl rfl ⟨rfl, rfl, rfl⟩ ⟨rfl, rfl⟩ rfl)

theorem inv_clearingEndStep {p : Part} (mem : Memory) (h : PartInv p) :
    PartInv (clearingEndStep mem p).2 := by
  unfold clearingEndStep
  split
  · have hq : PartInv (clearingOver p) := ⟨h.queue, h.dead, h.lists, h.attention⟩
    generalize clearingOver p = q at hq
    unfold serveHeld
    split
    · exact inv_serveConsole _ _ _ (inv_served _ hq)
    · exact inv_serveConsole _ _ _ (inv_served _ hq)
    · exact inv_drainPort _ _ hq
  · exact h

end Sys2Proof.Machine
end

