-- ==== Sys2Proof/Laws/Step.lean ====
section
/-! SUPPORT. What the shapes of a step answer, once for all: a step of the part, a step of the part that
reads the store, a step of store and part, an event that may not be due, and the idle step. -/

namespace Sys2Proof.Machine

/-! ## Shapes of a meaning -/

theorem onPart_next {s t : State} {f : Part → Part} (h : s.onPart f = .next t) :
    t = { s with part := f s.part } := (Host.Outcome.next.inj h).symm

theorem onPartMem_next {s t : State} {f : Memory → Part → Part} (h : s.onPartMem f = .next t) :
    t = { s with part := f s.store s.part } := (Host.Outcome.next.inj h).symm

theorem onStore_next {s t : State} {f : Memory → Part → Memory × Part} (h : s.onStore f = .next t) :
    t = { s with store := (f s.store s.part).1, part := (f s.store s.part).2 } :=
  (Host.Outcome.next.inj h).symm

theorem onPart_eq (s : State) (f : Part → Part) :
    s.onPart f = .next { s with part := f s.part } := rfl

theorem onPartMem_eq (s : State) (f : Memory → Part → Part) :
    s.onPartMem f = .next { s with part := f s.store s.part } := rfl

theorem onStore_eq (s : State) (f : Memory → Part → Memory × Part) :
    s.onStore f = .next { s with store := (f s.store s.part).1, part := (f s.store s.part).2 } := rfl

/-- Two parts equal field by field are equal. -/
theorem part_ext {p q : Part}
    (h1 : p.clearing = q.clearing) (h2 : p.clearFor = q.clearFor) (h3 : p.time = q.time)
    (h4 : p.clock = q.clock) (h5 : p.satTaken = q.satTaken) (h6 : p.arb = q.arb)
    (h7 : p.port = q.port) (h8 : p.softReset = q.softReset) (h9 : p.lastTransfer = q.lastTransfer)
    (h10 : p.lastCommand = q.lastCommand) (h11 : p.prevCommand = q.prevCommand)
    (h12 : p.attention = q.attention) (h13 : p.attnEnables = q.attnEnables)
    (h14 : p.slot = q.slot) (h15 : p.svcLine = q.svcLine) (h16 : p.setupLoaded = q.setupLoaded)
    (h17 : p.setup = q.setup) (h18 : p.reader = q.reader) (h19 : p.report = q.report)
    (h20 : p.listen = q.listen) (h21 : p.follower = q.follower) (h22 : p.player = q.player)
    (h23 : p.sched = q.sched) (h24 : p.keys = q.keys) (h25 : p.chain = q.chain)
    (h26 : p.supply = q.supply) (h27 : p.guard = q.guard) (h28 : p.power = q.power)
    (h29 : p.fresh = q.fresh) : p = q := by
  cases p
  cases q
  dsimp only at *
  subst_vars
  rfl

/-! ## Events -/

theorem whenDue_of {due : Bool} (h : due = true) (f : Part → Part) (p : Part) :
    whenDue due f p = f p := if_pos h

theorem whenDue_of_not {due : Bool} (h : due = false) (f : Part → Part) (p : Part) :
    whenDue due f p = p := if_neg (by simp [h])

/-! ## The idle step -/

/-- An idle step leaves the store as it is. -/
theorem idle_store (s : State) : (idle s).store = s.store := by
  unfold idle
  dsimp only
  split
  · rfl
  · rfl
  · split
    · rfl
    · split <;> rfl

/-- An idle step changes the part by a microsecond, by the use of a free value, by both or by neither. -/
theorem idle_part (s : State) :
    (idle s).part = s.part ∨ (idle s).part = spend s.part ∨ (idle s).part = tick s.part
      ∨ (idle s).part = spend (tick s.part) := by
  unfold idle
  dsimp only
  split
  · exact Or.inl rfl
  · exact Or.inr (Or.inl rfl)
  · split
    · exact Or.inr (Or.inr (Or.inl rfl))
    · split
      · exact Or.inr (Or.inl rfl)
      · exact Or.inr (Or.inr (Or.inr rfl))

theorem inv_spend {p : Part} (h : PartInv p) : PartInv (spend p) :=
  ⟨h.queue, h.dead, h.lists, h.attention⟩

theorem inv_tick {p : Part} (h : PartInv p) : PartInv (tick p) := by
  unfold tick
  split
  · exact ⟨h.queue, h.dead, h.lists, h.attention⟩
  · exact ⟨h.queue, h.dead, h.lists, h.attention⟩

theorem inv_idle {s : State} (h : PartInv s.part) : PartInv (idle s).part := by
  rcases idle_part s with e | e | e | e <;> rw [e]
  · exact h
  · exact inv_spend h
  · exact inv_tick h
  · exact inv_spend (inv_tick h)

end Sys2Proof.Machine
end

