-- ==== Sys2Proof/Laws/KeyOffs.lean ====
section
/-! SUPPORT. Key-offs outside DRAINING (R103, R137): the completion test changes nothing but a finishing
passage that is awaited, and the walk takes the selected SOUNDING notes off the window. -/

namespace Sys2Proof.Machine

/-- Outside DRAINING the completion test can touch the next buffer and the reader's line alone, and with
no finishing passage awaited it changes nothing (R103). -/
theorem completion_part {p : Part} (h1 : p.player.state ≠ .draining) :
    ∃ q, q = completion p
      ∧ q = { p with reader := { p.reader with next := q.reader.next, line := q.reader.line } }
      ∧ (p.reader.next.awaited = false → q = p) := by
  have a : ∃ q, q = completeFinishing p
      ∧ q = { p with reader := { p.reader with next := q.reader.next, line := q.reader.line } }
      ∧ (p.reader.next.awaited = false → q = p) := by
    refine ⟨_, rfl, ?_⟩
    unfold completeFinishing
    split
    · rename_i h
      split
      · exact ⟨rfl, fun _ => rfl⟩
      · split
        · exact ⟨rfl, fun h2 => by rw [h] at h2; simp [NextBuffer.awaited] at h2⟩
        · exact ⟨rfl, fun h2 => by rw [h] at h2; simp [NextBuffer.awaited] at h2⟩
    · exact ⟨rfl, fun _ => rfl⟩
  obtain ⟨q, a1, a2, a3⟩ := a
  have hs : q.player.state ≠ .draining := by rw [a2]; exact h1
  have b : completeCurrent q = q := by
    unfold completeCurrent
    split
    · rename_i h _
      exact absurd h hs
    · rfl
  have c : planOver q = false := by
    unfold planOver
    rw [beq_false_of_ne hs]
    rfl
  refine ⟨q, ?_, a2, a3⟩
  unfold completion
  rw [← a1, b]
  simp [c]

/-- The notes a walk of key-offs leaves in the window. -/
def keptNotes (sel : Note → Bool) (l : List Note) : List Note :=
  l.filter fun x => !(x.state == .sounding && sel x)

theorem keptNotes_off {sel : Note → Bool} {x : Note} (l : List Note)
    (h : x.state = .sounding ∧ sel x = true) : keptNotes sel (x :: l) = keptNotes sel l := by
  unfold keptNotes
  rw [List.filter_cons_of_neg]
  simp [h.1, h.2]

theorem keptNotes_on {sel : Note → Bool} {x : Note} (l : List Note)
    (h : ¬(x.state = .sounding ∧ sel x = true)) :
    keptNotes sel (x :: l) = x :: keptNotes sel l := by
  unfold keptNotes
  rw [List.filter_cons_of_pos]
  cases hb : (x.state == .sounding && sel x)
  · rfl
  · rw [Bool.and_eq_true, beq_iff_eq] at hb
    exact absurd hb h

theorem whilePlaying_of {p : Part} (h : p.playing = true) (f : Part → Part) :
    whilePlaying f p = f p := if_pos h

theorem whilePlaying_of_not {p : Part} (h : p.playing = false) (f : Part → Part) :
    whilePlaying f p = p := if_neg (by simp [h])

/-- The walk of key-offs (R133, R137) of a playing Player outside DRAINING. -/
theorem keyOffLoop_part (sel : Note → Bool) (l : List Note) : ∀ (kept : List Note) (p : Part),
    p.player.state ≠ .draining → p.playing = true → p.sched.window = kept ++ l →
    ∃ q, q = keyOffLoop sel kept l p
      ∧ q = { p with
        reader := { p.reader with next := q.reader.next, line := q.reader.line }
        sched := { p.sched with window := kept ++ keptNotes sel l }
        keys := q.keys, guard := q.guard, listen := q.listen, attention := q.attention
        fresh := q.fresh }
      ∧ (p.reader.next.awaited = false → q.reader = p.reader) := by
  induction l with
  | nil =>
    intro kept p _ _ h3
    refine ⟨_, rfl, ?_, fun _ => rfl⟩
    have hk : kept = p.sched.window := by rw [h3, List.append_nil]
    unfold keyOffLoop
    apply part_ext <;> simp [keptNotes]
    rw [hk]
  | cons x rest ih =>
    intro kept p h1 hpl h3
    unfold keyOffLoop
    split
    · rename_i hx
      obtain ⟨c, c1, c2, c3⟩ :=
        completion_part (p := putWindow (kept ++ rest) (keyOff x p)) (by simpa using h1)
      have hc : c.playing = true := by
        rw [c2]
        simpa [Part.playing] using hpl
      rw [← c1, keptNotes_off rest hx, whilePlaying_of hc]
      obtain ⟨q, e1, e2, e3⟩ := ih kept c (by rw [c2]; simpa using h1) hc (by rw [c2]; rfl)
      refine ⟨q, e1, ?_, ?_⟩
      · conv => lhs; rw [e2, c2]
        apply part_ext <;> simp [putWindow]
      · intro h2
        have hc := c3 (by simpa using h2)
        rw [e3 (by rw [hc]; simpa using h2), hc]
        simp
    · rename_i hx
      rw [keptNotes_on rest hx]
      obtain ⟨q, e1, e2, e3⟩ := ih (kept ++ [x]) p h1 hpl (by simpa using h3)
      refine ⟨q, e1, ?_, e3⟩
      conv => lhs; rw [e2]
      apply part_ext <;> simp

/-- Key-offs of a playing Player outside DRAINING: everything they can do. -/
theorem keyOffs_part (sel : Note → Bool) {p : Part} (h1 : p.player.state ≠ .draining)
    (hpl : p.playing = true) :
    ∃ q, q = keyOffs sel p
      ∧ q = { p with
        reader := { p.reader with next := q.reader.next, line := q.reader.line }
        sched := { p.sched with window := keptNotes sel p.sched.window }
        keys := q.keys, guard := q.guard, listen := q.listen, attention := q.attention
        fresh := q.fresh }
      ∧ (p.reader.next.awaited = false → q.reader = p.reader) :=
  keyOffLoop_part sel p.sched.window [] p h1 hpl rfl

end Sys2Proof.Machine
end

