-- ==== Sys2Proof/Laws/Frames.lean ====
section
/-! SUPPORT. What the plan's operations can reach (Chapters 2 and 4 to 9): the arbiter's pointer, reader,
Report Writer, Listening Unit, Follower, Player, Scheduler, Key Table, Guard and latches, and nothing of
the console, the slot, the setup, the time base, the chain, the supply and magnet power. -/

namespace Sys2Proof.Machine

/-- Only the blocks that play a plan have changed. -/
def PlanOnly (p q : Part) : Prop :=
  q = { p with
    arb := q.arb, reader := q.reader, report := q.report, listen := q.listen
    follower := q.follower, player := q.player, sched := q.sched, keys := q.keys
    guard := q.guard, attention := q.attention, fresh := q.fresh }

theorem PlanOnly.refl (p : Part) : PlanOnly p p := rfl

theorem PlanOnly.trans {p q r : Part} (h1 : PlanOnly p q) (h2 : PlanOnly q r) : PlanOnly p r := by
  unfold PlanOnly at *
  conv => lhs; rw [h2, h1]

/-- A conditional step stays within the plan when each course does. -/
theorem PlanOnly.cond {p a b : Part} (c : Prop) [Decidable c] (h1 : PlanOnly p a)
    (h2 : PlanOnly p b) : PlanOnly p (if c then a else b) := by
  split
  · exact h1
  · exact h2

/-! ## Single updates -/

theorem only_latch (c : Condition) (p : Part) : PlanOnly p (latch c p) := rfl

theorem only_latchIf (b : Bool) (c : Condition) (p : Part) : PlanOnly p (latchIf b c p) := by
  cases b
  · exact PlanOnly.refl p
  · exact only_latch c p

theorem only_trigger (p : Part) : PlanOnly p (trigger p) := by
  apply part_ext <;> simp

theorem only_triggerIf (b : Bool) (p : Part) : PlanOnly p (triggerIf b p) := by
  apply part_ext <;> simp

theorem only_beatTrigger (p : Part) : PlanOnly p (beatTrigger p) := by
  apply part_ext <;> simp

theorem only_moveTo (st : PlayerState) (p : Part) : PlanOnly p (moveTo st p) := by
  apply part_ext <;> simp

theorem only_rewatch (p : Part) : PlanOnly p (rewatch p) := rfl

theorem only_served (r : Requester) (p : Part) : PlanOnly p (served r p) := rfl

theorem only_askReader (a : ReaderAccess) (p : Part) : PlanOnly p (askReader a p) := rfl

theorem only_resumeReader (a : ReaderAccess) (p : Part) : PlanOnly p (resumeReader a p) := rfl

theorem only_cutTake (p : Part) : PlanOnly p (cutTake p) := rfl

theorem only_beginTake (q : Nat) (b : Bool) (p : Part) : PlanOnly p (beginTake q b p) := rfl

theorem only_startLookTimer (p : Part) : PlanOnly p (startLookTimer p) := rfl

theorem only_putBuffer (a : Bool) (b : Buffer) (p : Part) : PlanOnly p (putBuffer a b p) := by
  apply part_ext <;> simp

theorem only_handNote (x : Note) (p : Part) : PlanOnly p (handNote x p) := by
  apply part_ext <;> simp

theorem only_handCue (x : Cue) (p : Part) : PlanOnly p (handCue x p) := by
  apply part_ext <;> simp

theorem only_takeCloses (p : Part) : PlanOnly p (takeCloses p) := by
  apply part_ext <;> simp

theorem only_settleCloses (p : Part) : PlanOnly p (settleCloses p) := by
  apply part_ext <;> simp

theorem only_handStep (x : Step) (p : Part) : PlanOnly p (handStep x p) := rfl

theorem only_takeHold (c : Cue) (p : Part) : PlanOnly p (takeHold c p) := by
  apply part_ext <;> simp

theorem only_keyOff (x : Note) (p : Part) : PlanOnly p (keyOff x p) := by
  apply part_ext <;> simp

/-! ## Ends, releases and locks -/

theorem only_completeFinishing (p : Part) : PlanOnly p (completeFinishing p) := by
  unfold completeFinishing
  split
  · split
    · exact PlanOnly.refl p
    · split <;> rfl
  · exact PlanOnly.refl p

theorem only_completeCurrent (p : Part) : PlanOnly p (completeCurrent p) := by
  unfold completeCurrent
  split
  · split
    · exact PlanOnly.refl p
    · dsimp only
      split <;> rfl
  · exact PlanOnly.refl p

theorem only_endPlan (p : Part) : PlanOnly p (endPlan p) := by
  unfold endPlan
  exact PlanOnly.trans (q := latch .ended (leaveFollower (stopHoldListening (clearFermata
    { p with
      reader := { p.reader with
        next := .empty
        phase := .off
        lookTimer := none
        streamTimer := none
        line := p.reader.line.map ReaderAccess.unheld
        pass := none
        passDue := false }
      sched := { p.sched with window := [], cues := [], steps := [] } })))) rfl (only_moveTo _ _)

theorem only_completion (p : Part) : PlanOnly p (completion p) := by
  unfold completion
  have h := (only_completeFinishing p).trans (only_completeCurrent _)
  exact PlanOnly.cond _ (h.trans (only_endPlan _)) h

theorem only_whilePlaying (f : Part → Part) (h : ∀ q, PlanOnly q (f q)) (p : Part) :
    PlanOnly p (whilePlaying f p) := PlanOnly.cond _ (h p) (PlanOnly.refl p)

theorem only_keyOffLoop (sel : Note → Bool) (l : List Note) :
    ∀ (kept : List Note) (p : Part), PlanOnly p (keyOffLoop sel kept l p) := by
  induction l with
  | nil => exact fun _ p => PlanOnly.refl p
  | cons x rest ih =>
    intro kept p
    unfold keyOffLoop
    split
    · have h : PlanOnly p (putWindow (kept ++ rest) (keyOff x p)) :=
        PlanOnly.trans (q := keyOff x p) (only_keyOff x p) rfl
      exact (h.trans (only_completion _)).trans (only_whilePlaying _ (ih kept) _)
    · exact ih _ p

theorem only_keyOffs (sel : Note → Bool) (p : Part) : PlanOnly p (keyOffs sel p) :=
  only_keyOffLoop sel _ [] p

theorem only_generalRelease (p : Part) : PlanOnly p (generalRelease p) := by
  apply part_ext <;> simp [generalRelease]

theorem only_haltPlayer (p : Part) : PlanOnly p (haltPlayer p) := by
  apply part_ext <;> unfold haltPlayer <;> split <;> simp [generalRelease]

theorem only_lockPlayer (why : LockReason) (a : Nat) (p : Part) :
    PlanOnly p (lockPlayer why a p) := by
  apply part_ext <;> simp [lockPlayer, generalRelease]

theorem only_lockRequest (why : LockReason) (a : Nat) (p : Part) :
    PlanOnly p (lockRequest why a p) :=
  PlanOnly.cond _ (only_lockPlayer why a p) (PlanOnly.refl p)

theorem only_enterDraining (why : EndReason) (p : Part) : PlanOnly p (enterDraining why p) := by
  unfold enterDraining
  refine PlanOnly.trans ?_ (only_completion _)
  exact PlanOnly.trans (q := { cutTake p with
    reader := { (cutTake p).reader with
      phase := if (cutTake p).reader.phase = .endFound then .endFound else .off
      lookTimer := none }
    player := { (cutTake p).player with endReason := why, starveTimer := none } })
    rfl (only_moveTo _ _)

theorem only_drainStarved (why : EndReason) (p : Part) : PlanOnly p (drainStarved why p) :=
  (only_keyOffs _ p).trans (only_enterDraining why _)

theorem only_discardIndex (idx : Nat) (p : Part) : PlanOnly p (discardIndex idx p) := by
  unfold discardIndex
  exact (only_keyOffs _ p).trans rfl

theorem only_releaseFollowing (p : Part) : PlanOnly p (releaseFollowing p) := by
  unfold releaseFollowing
  split
  · refine PlanOnly.trans ?_ (only_discardIndex _ _)
    exact PlanOnly.cond _ rfl rfl
  · exact PlanOnly.refl p

theorem only_setStopAtEnd (p : Part) : PlanOnly p (setStopAtEnd p) := by
  unfold setStopAtEnd
  exact PlanOnly.trans (q := { cutTake p with reader := { (cutTake p).reader with
    stopAtEnd := true, phase := .off, lookTimer := none } }) rfl (only_releaseFollowing _)

/-! ## Looks and entries -/

theorem only_endFound (p : Part) : PlanOnly p (endFound p) := by
  unfold endFound
  have h : PlanOnly p { p with reader := { p.reader with phase := .endFound, lookTimer := none } } :=
    rfl
  exact PlanOnly.cond _ (h.trans (only_drainStarved _ _)) h

theorem only_lookStampRead (q : Nat) (w : Word) (p : Part) : PlanOnly p (lookStampRead q w p) :=
  PlanOnly.cond _ (only_beginTake q false p) (PlanOnly.refl p)

theorem only_lookNextRead (w : Word) (stamp : Nat → Part → Part) (p : Part)
    (h : ∀ q r, PlanOnly r (stamp q r)) : PlanOnly p (lookNextRead w stamp p) := by
  unfold lookNextRead
  split
  · exact PlanOnly.refl p
  · exact only_endFound p
  · exact only_lockRequest _ _ p
  · exact h _ p

theorem only_directLook (mem : Memory) (p : Part) : PlanOnly p (directLook mem p) :=
  (only_served _ p).trans
    (only_lookNextRead _ _ _ fun _ r => (only_served _ r).trans (only_lookStampRead _ _ _))

theorem only_look (mem : Memory) (p : Part) : PlanOnly p (look mem p) :=
  PlanOnly.cond _ (PlanOnly.refl p) (PlanOnly.cond _ (only_directLook mem p) (only_askReader _ p))

theorem only_needTest (p : Part) : PlanOnly p (needTest p) := by
  apply part_ext <;> simp

theorem only_enterPassage (b : Buffer) (st : Bool) (t : Int) (p : Part) :
    PlanOnly p (enterPassage b st t p) := by
  unfold enterPassage
  dsimp only
  split <;> rfl

theorem only_enterFollowing (b : Buffer) (t : Int) (p : Part) :
    PlanOnly p (enterFollowing b t p) := by
  unfold enterFollowing
  exact PlanOnly.trans (q := { p with reader := { p.reader with next := passageLeft p } }) rfl
    (only_enterPassage _ _ _ _)

theorem only_entryHold (q : Passage) (p : Part) : PlanOnly p (entryHold q p) := by
  unfold entryHold
  refine PlanOnly.cond _ ?_ (PlanOnly.refl p)
  exact PlanOnly.trans
    (q := { p with follower := { p.follower with freeze := some (q.startPos : Int) } }) rfl
    (only_moveTo _ _)

/-! ## Streaming -/

theorem only_goOn (bound : Int) (l : List Stage) (p : Part) : PlanOnly p (goOn bound l p) := by
  apply part_ext <;> simp

theorem only_requestPass (p : Part) : PlanOnly p (requestPass p) := by
  apply part_ext <;> simp

theorem only_handRead (b : Buffer) (d : Int) (pos stored : Nat) (ws : List Word) (p : Part) :
    PlanOnly p (handRead b d pos stored ws p) := by
  apply part_ext <;> simp

theorem only_entryCourse (b : Buffer) (st : Stage) (rest : List Stage) (x : Pass) (fate : EntryFate)
    (pos words : Nat) (past : Cursor) (hand : Part → Part) (hh : ∀ q, PlanOnly q (hand q))
    (p : Part) : PlanOnly p (entryCourse b st rest x fate pos words past hand p) := by
  unfold entryCourse
  cases fate <;> dsimp only
  · exact PlanOnly.trans (q := putPass none p) rfl (only_lockRequest _ _ _)
  · exact PlanOnly.cond _ rfl ((only_putBuffer _ _ p).trans (only_goOn _ _ _))
  · exact (only_putBuffer _ _ p).trans (only_goOn _ _ _)
  · exact only_goOn _ _ p
  · exact PlanOnly.cond _ rfl (((only_putBuffer _ _ p).trans (hh _)).trans (only_goOn _ _ _))

theorem only_entryRead (b : Buffer) (st : Stage) (rest : List Stage) (x : Pass) (p : Part) :
    PlanOnly p (entryRead b st rest x p) := by
  unfold entryRead
  split
  · exact only_entryCourse _ _ _ _ _ _ _ _ _ (only_handNote _) p
  · exact only_entryCourse _ _ _ _ _ _ _ _ _ (only_handCue _) p
  · exact only_entryCourse _ _ _ _ _ _ _ _ _ (only_handRead _ _ _ _ _) p
  · rfl

theorem only_entryServed (mem : Memory) (p : Part) : PlanOnly p (entryServed mem p) := by
  unfold entryServed
  split
  · exact PlanOnly.refl p
  · split
    · exact only_goOn _ _ p
    · split
      · exact only_goOn _ _ p
      · exact only_entryRead _ _ _ _ p

theorem only_streamTick (p : Part) : PlanOnly p (streamTick p) :=
  PlanOnly.trans (q := { p with reader := { p.reader with
    streamTimer := some (p.time + Config.streamInterval) } }) rfl (only_requestPass _)

theorem only_afterEntry (q : Passage) (p : Part) : PlanOnly p (afterEntry q p) :=
  (((only_needTest p).trans (only_entryHold q _)).trans (only_settleCloses _)).trans
    (only_requestPass _)

/-! ## The boundary, fermatas, cues and slices -/

theorem only_lateTake (b : Buffer) (p : Part) : PlanOnly p (lateTake b p) := by
  unfold lateTake
  refine (((PlanOnly.trans (only_keyOffs (endNote p) p) ?_).trans (only_enterFollowing _ _ _)).trans
    ((only_trigger _).trans (only_completion _))).trans (only_afterEntry _ _)
  rfl

theorem only_followingTaken (q : Passage) (p : Part) : PlanOnly p (followingTaken q p) := by
  unfold followingTaken
  split
  · exact PlanOnly.refl p
  · rename_i cur _
    have h : PlanOnly p (holdFollowing cur q p) := rfl
    exact PlanOnly.cond _ (h.trans (only_lateTake _ _)) (h.trans (only_requestPass _))

theorem only_passageEndStep (p : Part) : PlanOnly p (passageEndStep p) := by
  unfold passageEndStep
  split
  · rename_i cur _
    have hq : PlanOnly p (rewatch (discardPending (dropCues cur.planIndex
        { p with reader := { p.reader with current := some cur.closed } }))) := by
      apply part_ext <;> simp
    unfold passageEndCourse
    dsimp only
    split
    · unfold endFollowing
      exact (hq.trans (only_enterFollowing _ _ _)).trans
        (((only_triggerIf _ _).trans (only_completion _)).trans (only_afterEntry _ _))
    · refine PlanOnly.cond _ (hq.trans (only_enterDraining _ _))
        (PlanOnly.cond _ (hq.trans (only_enterDraining _ _)) (hq.trans ?_))
      generalize rewatch (discardPending (dropCues cur.planIndex
        { p with reader := { p.reader with current := some cur.closed } })) = q
      unfold starve
      have hm : PlanOnly q (completion (moveTo .starved (latch .starved { q with
          follower := { q.follower with freeze := some (cur.passage.endPos : Int) }
          player := { q.player with
            starveTimer := some (q.time + 1000000 * q.setup.starveLimit) } }))) :=
        PlanOnly.trans (q := latch .starved { q with
          follower := { q.follower with freeze := some (cur.passage.endPos : Int) }
          player := { q.player with
            starveTimer := some (q.time + 1000000 * q.setup.starveLimit) } })
          rfl ((only_moveTo _ _).trans (only_completion _))
      refine PlanOnly.cond _ (hm.trans ?_) hm
      apply part_ext <;> simp
  · exact PlanOnly.refl p

theorem only_startHolding (p : Part) : PlanOnly p (startHolding p) := by
  unfold startHolding
  refine PlanOnly.trans ?_ (only_trigger _)
  exact PlanOnly.cond _ rfl rfl

theorem only_endFermata (te : Int) (p : Part) : PlanOnly p (endFermata te p) := by
  unfold endFermata keyOffAt
  refine PlanOnly.trans (PlanOnly.trans (PlanOnly.trans
    (only_keyOffs (fun x => x.release == p.player.fermata.holdingPoint) p) ?_) (only_trigger _))
    (only_takeCloses _)
  rfl

theorem only_holdPlayer (p : Part) : PlanOnly p (holdPlayer p) := by
  unfold holdPlayer
  refine PlanOnly.trans ?_ (only_moveTo _ _)
  rfl

theorem only_releaseFreeze (q tau : Int) (p : Part) : PlanOnly p (releaseFreeze q tau p) := rfl

theorem only_resumePlayer (p : Part) : PlanOnly p (resumePlayer p) := by
  unfold resumePlayer
  refine PlanOnly.trans (PlanOnly.trans (PlanOnly.trans (PlanOnly.cond _ ?_ (PlanOnly.refl p))
    (only_releaseFreeze _ _ _)) (only_moveTo _ _)) (only_takeCloses _)
  unfold keyOffAt
  exact PlanOnly.trans
    (q := { p with player := { p.player with fermata := Fermata.init } }) rfl (only_keyOffs _ _)

theorem only_resolveCue (q : Passage) (c : Cue) (p : Part) : PlanOnly p (resolveCue q c p) := by
  apply part_ext <;> simp [resolveCue]

theorem only_cuePassStep (p : Part) : PlanOnly p (cuePassStep p) := by
  unfold cuePassStep
  split
  · apply part_ext <;> simp
  · exact PlanOnly.refl p

theorem only_stopPulses (l : List OutputId) :
    ∀ p, PlanOnly p (l.foldl (fun acc n => stopPulse n acc) p) := by
  induction l with
  | nil => exact PlanOnly.refl
  | cons n rest ih =>
    intro p
    have h : PlanOnly p (stopPulse n p) := by
      apply part_ext <;> simp
    exact h.trans (ih _)

theorem only_issueStop (p : Part) (e : StopEntry) : PlanOnly p (issueStop p e) := by
  unfold issueStop
  exact PlanOnly.cond _ (PlanOnly.refl p) (PlanOnly.cond _ (only_latch _ p)
    (PlanOnly.trans
      (q := { p with sched := { p.sched with drawn := put p.sched.drawn e.stop e.draw } }) rfl
      (only_stopPulses _ _)))

theorem only_issueStops (l : List StopEntry) : ∀ p, PlanOnly p (l.foldl issueStop p) := by
  induction l with
  | nil => exact PlanOnly.refl
  | cons e rest ih => exact fun p => (only_issueStop p e).trans (ih _)

theorem only_issueAll (l : List Step) :
    ∀ p, PlanOnly p (l.foldl (fun acc x => issueStep x acc) p) := by
  induction l with
  | nil => exact PlanOnly.refl
  | cons x rest ih => exact fun p => (only_issueStops _ p).trans (ih _)

theorem only_issueSteps (due : Step → Bool) (p : Part) : PlanOnly p (issueSteps due p) := by
  unfold issueSteps
  exact PlanOnly.trans
    (q := { p with sched := { p.sched with steps := p.sched.steps.filter fun x => !due x } }) rfl
    (only_issueAll _ _)

theorem only_keyOnLoop (due : Note → Bool) (l : List Note) :
    ∀ (kept : List Note) (p : Part), PlanOnly p (keyOnLoop due kept l p) := by
  induction l with
  | nil => exact fun _ p => PlanOnly.refl p
  | cons x rest ih =>
    intro kept p
    unfold keyOnLoop
    refine PlanOnly.cond _ (PlanOnly.cond _ ?_ ?_) (ih _ p)
    · have h : PlanOnly p (putWindow (kept ++ rest) (latch .late p)) := rfl
      exact (h.trans (only_completion _)).trans (only_whilePlaying _ (ih kept) _)
    · refine PlanOnly.trans ?_ (ih _ _)
      apply part_ext <;> simp

theorem only_sliceStep (p : Part) : PlanOnly p (sliceStep p) := by
  unfold sliceStep
  refine PlanOnly.trans (q := nextSliceSet p) rfl (only_whilePlaying _ (fun q => ?_) _)
  unfold evaluate
  exact ((only_keyOffs _ q).trans (only_whilePlaying _ (fun r => only_issueSteps _ r) _)).trans
    (only_whilePlaying _ (fun r => only_keyOnLoop _ _ [] r) _)

end Sys2Proof.Machine
end

