-- ==== Sys2Proof/Laws/Grants.lean ====
section
/-! SUPPORT. Entries, the queue and the slots through the Key Table's operations (R148-R153): what an
entry put does to the slots in use, when grants do nothing, which entries grants leave alone, what
becomes of each request, and the slots that the end of a TEST brings. -/

namespace Sys2Proof.Machine

/-! ## Putting one entry -/

/-- An output that does not wait is not in the queue, so putting an entry that does not wait either
leaves the queue as it was (R150). -/
theorem queue_without {p : Part} {n : OutputId} (h : QueueExact p.keys)
    (hn : (entry p.keys.entries n).state ≠ .waiting) :
    p.keys.queue.filter (· != n) = p.keys.queue := by
  rw [List.filter_eq_self]
  intro m hm
  simp only [bne_iff_ne, ne_eq]
  rintro rfl
  exact hn ((h.1 m).1 hm)

/-- Slots in use stand when an entry is replaced by one that uses a slot just as it did (R152). -/
theorem slotsInUse_put {v : Vector KeyEntry 256} {n : OutputId} {e : KeyEntry}
    (h : e.state.usesSlot = (entry v n).state.usesSlot) :
    slotsInUse (put v n e) = slotsInUse v := by
  unfold slotsInUse
  congr 1
  apply List.filter_congr
  intro m _
  by_cases hm : m = n
  · subst hm; simp [h]
  · rw [entry_put_other _ _ _ _ hm]

/-- The slot limit stands when no slot is freed (R153). -/
theorem setEntry_slotLimit {p : Part} {n : OutputId} {e : KeyEntry}
    (h : ((entry p.keys.entries n).state.usesSlot && !e.state.usesSlot) = false) :
    (setEntry n e p).keys.slotLimit = p.keys.slotLimit := by
  unfold setEntry lowerLimit
  simp only [h]
  split
  · simp_all; omega
  · rfl

/-! ## Grants -/

/-- With no setup in force or no slot free an event grants nothing (R152). -/
theorem grants_blocked {p : Part}
    (h : p.setupLoaded = false ∨ p.keys.slotLimit ≤ slotsInUse p.keys.entries) : grants p = p := by
  unfold grants
  cases hq : p.keys.queue with
  | nil => rfl
  | cons n rest =>
    unfold grantLoop
    rw [if_neg]
    rcases h with h | h
    · simp [h]
    · simp; intro _; omega

/-- A grant leaves every other entry as it was. -/
theorem grantOne_entry (n : OutputId) (p : Part) {m : OutputId} (h : m ≠ n) :
    entry (grantOne n p).keys.entries m = entry p.keys.entries m := by
  unfold grantOne
  dsimp only
  split
  · simp [h]
  · split <;> simp [maskGrant, h]

/-- A walk of grants leaves the entries of outputs it does not reach as they were. -/
theorem grantLoop_entry (l : List OutputId) : ∀ (p : Part) {m : OutputId}, m ∉ l →
    entry (grantLoop l p).keys.entries m = entry p.keys.entries m := by
  induction l with
  | nil => intro p m _; rfl
  | cons n rest ih =>
    intro p m h
    rw [List.mem_cons, not_or] at h
    unfold grantLoop
    split
    · rw [ih _ h.2, grantOne_entry n p h.1]
    · rfl

/-- Grants leave the entry of an output that does not wait as it was (R152). -/
theorem grants_entry {p : Part} {m : OutputId} (h : m ∉ p.keys.queue) :
    entry (grants p).keys.entries m = entry p.keys.entries m := grantLoop_entry _ _ h

/-- Grants change the Key Table, the Output Guard's detectors and the Listening Unit alone. -/
theorem grants_part (p : Part) : grants p = { p with
    keys := (grants p).keys, guard := (grants p).guard, listen := (grants p).listen } := by
  apply part_ext <;> simp

/-- A walk of grants leaves the detectors of outputs it does not reach as they were. -/
theorem grantLoop_detector (l : List OutputId) : ∀ (p : Part) {m : OutputId}, m ∉ l →
    entry (grantLoop l p).guard.detectors m = entry p.guard.detectors m := by
  induction l with
  | nil => intro p m _; rfl
  | cons n rest ih =>
    intro p m h
    rw [List.mem_cons, not_or] at h
    unfold grantLoop
    split
    · rw [ih _ h.2]
      unfold grantOne
      dsimp only
      split
      · simp [setEntry, entry_put_other _ _ _ _ h.1]
      · split <;> simp [maskGrant, setEntry, entry_put_other _ _ _ _ h.1]
    · rfl

/-- Grants leave the detector of an output that does not wait as it was. -/
theorem grants_detector {p : Part} {m : OutputId} (h : m ∉ p.keys.queue) :
    entry (grants p).guard.detectors m = entry p.guard.detectors m := grantLoop_detector _ _ h

/-- A walk of grants puts no output into the queue. -/
theorem grantLoop_queue (l : List OutputId) : ∀ (p : Part) (m : OutputId), m ∉ p.keys.queue →
    m ∉ (grantLoop l p).keys.queue := by
  induction l with
  | nil => exact fun p m h => h
  | cons n rest ih =>
    intro p m h
    unfold grantLoop
    split
    · apply ih
      unfold grantOne
      dsimp only
      split
      · simp [h]
      · split <;> simp [maskGrant, h]
    · exact h

/-- Grants put no output into the queue (R152). -/
theorem grants_queue {p : Part} {m : OutputId} (h : m ∉ p.keys.queue) : m ∉ (grants p).keys.queue :=
  grantLoop_queue _ p m h

/-! ## What becomes of a request (R152) -/

/-- Putting an entry that uses a slot for one that did not takes one slot more (R152). -/
theorem slotsInUse_put_more {v : Vector KeyEntry 256} {n : OutputId} {e : KeyEntry}
    (h : (entry v n).state.usesSlot = false) (he : e.state.usesSlot = true) :
    slotsInUse (put v n e) = slotsInUse v + 1 := by
  unfold slotsInUse
  have key : ∀ l : List OutputId, l.Nodup →
      (l.filter fun m => (entry (put v n e) m).state.usesSlot).length
        = (l.filter fun m => (entry v m).state.usesSlot).length + if n ∈ l then 1 else 0 := by
    intro l
    induction l with
    | nil => simp
    | cons m rest ih =>
      intro hl
      rw [List.nodup_cons] at hl
      have ih := ih hl.2
      by_cases hm : m = n
      · subst hm
        simp only [List.filter_cons, entry_put_same, he, h, if_true, List.length_cons,
          Bool.false_eq_true, if_false, List.mem_cons, true_or]
        rw [ih, if_neg hl.1]
      · simp only [List.filter_cons, entry_put_other _ _ _ _ hm, List.mem_cons, Ne.symm hm, false_or]
        split
        · simp only [List.length_cons, ih]; omega
        · exact ih
  have := key allOutputs (List.nodup_finRange 256)
  rwa [if_pos (show n ∈ allOutputs from List.mem_finRange n)] at this

/-- A grant puts its entry in PULL or PULSE with its timer running (R152). -/
theorem grantOne_self (n : OutputId) (p : Part) :
    entry (grantOne n p).keys.entries n = (entry p.keys.entries n).granted p.setup p.time := by
  unfold grantOne KeyEntry.granted
  dsimp only
  split
  · rename_i h; simp [h]
  · split <;> simp_all [maskGrant]

/-- A grant of a WAITING output empties its pull-in record (R172) and starts the cipher timer of a KEY
(R176). -/
theorem grantOne_detector (n : OutputId) {p : Part}
    (h : (entry p.keys.entries n).state = .waiting) :
    entry (grantOne n p).guard.detectors n = { entry p.guard.detectors n with
      pullRecord := .empty
      cipher := if (entry p.keys.entries n).kind = .stop then none else some (cipherEnd p) } := by
  unfold grantOne
  dsimp only
  split
  · rename_i hk; simp [setEntry, Detector.follows, h, hk, KeyState.usesSlot]
  · split <;> simp [maskGrant, setEntry, Detector.follows, h, KeyState.usesSlot]

/-- A grant of a WAITING output takes one slot and leaves the slot limit (R152, R153). -/
theorem grantOne_slots (n : OutputId) {p : Part}
    (h : (entry p.keys.entries n).state = .waiting) :
    slotsInUse (grantOne n p).keys.entries = slotsInUse p.keys.entries + 1
      ∧ (grantOne n p).keys.slotLimit = p.keys.slotLimit := by
  have hw : (entry p.keys.entries n).state.usesSlot = false := by rw [h]; rfl
  unfold grantOne
  dsimp only
  split
  · exact ⟨slotsInUse_put_more hw rfl, setEntry_slotLimit (by rw [hw]; rfl)⟩
  · split <;> exact ⟨slotsInUse_put_more hw rfl, setEntry_slotLimit (by rw [hw]; rfl)⟩

/-- What a walk of grants makes of each request: those for which a slot is free are granted in order, the
others wait on (R152). -/
theorem grantLoop_course (l : List OutputId) : ∀ {p : Part}, p.setupLoaded = true → l.Nodup →
    (∀ m ∈ l, (entry p.keys.entries m).state = .waiting) →
    ∀ before m behind, l = before ++ m :: behind →
      entry (grantLoop l p).keys.entries m =
        if slotsInUse p.keys.entries + before.length < p.keys.slotLimit then
          (entry p.keys.entries m).granted p.setup p.time
        else entry p.keys.entries m := by
  induction l with
  | nil => intro p _ _ _ before m behind h; simp at h
  | cons n rest ih =>
    intro p hs hl hw before m behind h
    rw [List.nodup_cons] at hl
    have hn := hw n (by simp)
    obtain ⟨hu, hlim⟩ := grantOne_slots n hn
    unfold grantLoop
    by_cases hfree : slotsInUse p.keys.entries < p.keys.slotLimit
    · rw [if_pos (by simp [hs, hfree])]
      cases before with
      | nil =>
        obtain ⟨rfl, rfl⟩ : n = m ∧ rest = behind := by simpa using h
        rw [grantLoop_entry _ _ hl.1, grantOne_self, if_pos (by simpa using hfree)]
      | cons b before =>
        obtain ⟨rfl, hrest⟩ : n = b ∧ rest = before ++ m :: behind := by simpa using h
        have hm : m ∈ rest := by rw [hrest]; simp
        have hmn : m ≠ n := by rintro rfl; exact hl.1 hm
        have hw' : ∀ x ∈ rest, (entry (grantOne n p).keys.entries x).state = .waiting := by
          intro x hx
          rw [grantOne_entry n p (by rintro rfl; exact hl.1 hx)]
          exact hw x (by simp [hx])
        rw [ih (by simpa using hs) hl.2 hw' before m behind hrest, hu, hlim,
          grantOne_entry n p hmn]
        simp only [grantOne_keeps]
        congr 1
        simp only [List.length_cons, eq_iff_iff]
        omega
    · rw [if_neg (by simp [hfree]), if_neg (by omega)]

/-- What an event's grants make of each request in the queue (R152). -/
theorem grants_course {p : Part} (hq : QueueExact p.keys) (hs : p.setupLoaded = true)
    {before behind : List OutputId} {m : OutputId} (h : p.keys.queue = before ++ m :: behind) :
    entry (grants p).keys.entries m =
      if slotsInUse p.keys.entries + before.length < p.keys.slotLimit then
        (entry p.keys.entries m).granted p.setup p.time
      else entry p.keys.entries m :=
  grantLoop_course _ hs hq.2.1 (fun x hx => (hq.1 x).1 hx) before m behind h

/-- Putting an entry that uses no slot for one that did frees one (R152). -/
theorem slotsInUse_put_less {v : Vector KeyEntry 256} {n : OutputId} {e : KeyEntry}
    (h : (entry v n).state.usesSlot = true) (he : e.state.usesSlot = false) :
    slotsInUse (put v n e) + 1 = slotsInUse v := by
  have back : put (put v n e) n (entry v n) = v := by
    apply Vector.ext
    intro i hi
    simp only [put]
    by_cases hn : n.val = i
    · subst hn; simp [entry]
    · simp [hn]
  have := slotsInUse_put_more (v := put v n e) (n := n) (e := entry v n) (by simp [he]) h
  rw [back] at this
  exact this.symm

/-- How far a walk of grants over the queue goes (R152): it takes requests from the head, a slot for each,
until none waits or no slot is free. -/
theorem grantLoop_drop (l : List OutputId) : ∀ {p : Part}, p.setupLoaded = true → l.Nodup →
    p.keys.queue = l → (∀ m ∈ l, (entry p.keys.entries m).state = .waiting) →
    ∃ k ≤ l.length, (grantLoop l p).keys.queue = l.drop k
      ∧ slotsInUse (grantLoop l p).keys.entries = slotsInUse p.keys.entries + k
      ∧ (grantLoop l p).keys.slotLimit = p.keys.slotLimit
      ∧ (k < l.length → p.keys.slotLimit ≤ slotsInUse p.keys.entries + k)
      ∧ (0 < k → slotsInUse p.keys.entries + k ≤ p.keys.slotLimit) := by
  induction l with
  | nil => intro p _ _ hq _; exact ⟨0, by simp, by simpa [grantLoop] using hq, rfl, rfl, by simp, by simp⟩
  | cons n rest ih =>
    intro p hs hl hq hw
    rw [List.nodup_cons] at hl
    have hn := hw n (by simp)
    obtain ⟨hu, hlim⟩ := grantOne_slots n hn
    unfold grantLoop
    by_cases hfree : slotsInUse p.keys.entries < p.keys.slotLimit
    · rw [if_pos (by simp [hs, hfree])]
      have hq' : (grantOne n p).keys.queue = rest := by
        have : p.keys.queue.filter (· != n) = rest := by
          rw [hq, List.filter_cons_of_neg (by simp), List.filter_eq_self]
          intro m hm
          simp only [bne_iff_ne, ne_eq]
          rintro rfl
          exact hl.1 hm
        unfold grantOne
        dsimp only
        split
        · simpa using this
        · split <;> simpa [maskGrant] using this
      obtain ⟨k, hk, h1, h2, h3, h4, h5⟩ := ih (p := grantOne n p) (by simpa using hs) hl.2 hq' (by
        intro x hx
        rw [grantOne_entry n p (by rintro rfl; exact hl.1 hx)]
        exact hw x (by simp [hx]))
      refine ⟨k + 1, by simpa using hk, by simpa using h1, by rw [h2, hu]; omega, by rw [h3, hlim],
        fun h => ?_, fun _ => ?_⟩
      · have := h4 (by simpa using h)
        omega
      · by_cases h0 : 0 < k
        · have := h5 h0
          omega
        · omega
    · rw [if_neg (by simp [hfree])]
      exact ⟨0, by simp, by simpa using hq, rfl, rfl, fun _ => by omega, by simp⟩

/-- The queue stays exact through an entry put that leaves no request of its output (R150). -/
theorem setEntry_exact {p : Part} (hq : QueueExact p.keys) (n : OutputId) {e : KeyEntry}
    (he : e.state ≠ .waiting) :
    QueueExact (setEntry n e p).keys
      ∧ (setEntry n e p).keys.queue = p.keys.queue.filter (· != n) := by
  have hs : (setEntry n e p).keys.queue = p.keys.queue.filter (· != n) := by
    rw [setEntry_queue, if_neg he]
  refine ⟨⟨fun m => ?_, ?_, ?_⟩, hs⟩
  · rw [hs, setEntry_entry]
    by_cases hm : m = n
    · subst hm; simp [he]
    · simp [hm, hq.1 m]
  · rw [hs]; exact hq.2.1.filter _
  · rw [hs]; exact (List.length_filter_le _ _).trans hq.2.2

/-- A request at a place of the queue is one of those taken by the grants, and leaves the queue, or waits on
behind those before it (R152). -/
theorem grants_place {p : Part} (hq : QueueExact p.keys) (hs : p.setupLoaded = true)
    {before behind : List OutputId} {m : OutputId} (h : p.keys.queue = before ++ m :: behind) :
    ∃ k, slotsInUse (grants p).keys.entries = slotsInUse p.keys.entries + k
      ∧ (before.length < k → m ∉ (grants p).keys.queue
        ∧ slotsInUse p.keys.entries + k ≤ p.keys.slotLimit)
      ∧ (k ≤ before.length → (grants p).keys.queue = before.drop k ++ m :: behind
        ∧ p.keys.slotLimit ≤ slotsInUse p.keys.entries + k) := by
  obtain ⟨k, -, h1, h2, -, h4, h5⟩ :=
    grantLoop_drop p.keys.queue hs hq.2.1 rfl fun x hx => (hq.1 x).1 hx
  change (grants p).keys.queue = _ at h1
  have hnd := hq.2.1
  rw [h] at hnd h1 h4
  refine ⟨k, h2, fun hi => ⟨fun hm => ?_, h5 (by omega)⟩,
    fun hi => ⟨by rw [h1, List.drop_append, Nat.sub_eq_zero_of_le hi, List.drop_zero],
      h4 (by simp; omega)⟩⟩
  obtain ⟨j, hj⟩ : ∃ j, k - before.length = j + 1 := ⟨k - before.length - 1, by omega⟩
  rw [h1, List.drop_append, List.drop_of_length_le (by omega), List.nil_append, hj,
    List.drop_succ_cons] at hm
  exact (List.nodup_cons.1 (List.nodup_append.1 hnd).2.1).1 (List.mem_of_mem_drop hm)

/-- The queue stays exact through an event's grants (R150). -/
theorem grants_exact {p : Part} (hq : QueueExact p.keys) (hs : p.setupLoaded = true) :
    QueueExact (grants p).keys := by
  obtain ⟨k, -, h1, -⟩ := grantLoop_drop p.keys.queue hs hq.2.1 rfl fun x hx => (hq.1 x).1 hx
  change (grants p).keys.queue = _ at h1
  refine ⟨fun m => ?_, by rw [h1]; exact hq.2.1.drop, by rw [h1, List.length_drop]; have := hq.2.2; omega⟩
  by_cases hm : m ∈ p.keys.queue
  · obtain ⟨before, behind, h⟩ := List.append_of_mem hm
    obtain ⟨j, -, h2, h3⟩ := grants_place hq hs h
    have hc := grants_course hq hs h
    by_cases hi : before.length < j
    · rw [hc, if_pos (by have := (h2 hi).2; omega)]
      refine iff_of_false (h2 hi).1 ?_
      unfold KeyEntry.granted
      dsimp only
      split <;> decide
    · have h3 := h3 (by omega)
      rw [hc, if_neg (by omega), h3.1]
      exact iff_of_true (by simp) ((hq.1 m).1 hm)
  · rw [grants_entry hm]
    exact iff_of_false (grants_queue hm) fun hw => hm ((hq.1 m).2 hw)

/-! ## The end of a TEST (R153, R180) -/

/-- What the slots that the end of a TEST brings make of each request: the limit is Pmax again (R153). -/
theorem finishTest_course {p : Part} (hq : QueueExact p.keys) (hs : p.setupLoaded = true)
    (o : SlotOutcome) (d : SlotDetail) {before behind : List OutputId} {m : OutputId}
    (h : p.keys.queue = before ++ m :: behind) :
    entry (finishTest o d p).keys.entries m =
      if slotsInUse p.keys.entries + before.length < p.setup.pmax then
        (entry p.keys.entries m).granted p.setup p.time
      else entry p.keys.entries m := by
  let q : Part := { closeSlot o d { p with guard := { p.guard with test := none } } with
    keys := { p.keys with
      slotTarget := p.setup.pmax
      slotLimit := max p.setup.pmax (slotsInUse p.keys.entries) } }
  refine (grants_course (p := q) hq hs h).trans ?_
  have e : slotsInUse q.keys.entries + before.length < q.keys.slotLimit
      ↔ slotsInUse p.keys.entries + before.length < p.setup.pmax := by
    show slotsInUse p.keys.entries + _ < max p.setup.pmax (slotsInUse p.keys.entries) ↔ _
    omega
  simp only [e]
  rfl

/-- The end of a TEST leaves the entry and the detector of an output that does not wait. -/
theorem finishTest_rest {p : Part} (o : SlotOutcome) (d : SlotDetail) {m : OutputId}
    (h : m ∉ p.keys.queue) :
    entry (finishTest o d p).keys.entries m = entry p.keys.entries m
      ∧ entry (finishTest o d p).guard.detectors m = entry p.guard.detectors m := by
  let q : Part := { closeSlot o d { p with guard := { p.guard with test := none } } with
    keys := { p.keys with
      slotTarget := p.setup.pmax
      slotLimit := max p.setup.pmax (slotsInUse p.keys.entries) } }
  exact ⟨grants_entry (p := q) h, grants_detector (p := q) h⟩

/-- The same after a grant of the slot the output under test has freed, under the limit of a TEST: the two
rounds of grants come to one under Pmax (R153). -/
theorem finishTest_after_grants {p : Part} (hq : QueueExact p.keys) (hs : p.setupLoaded = true)
    (o : SlotOutcome) (d : SlotDetail)
    (hl : p.keys.slotLimit = max 1 (slotsInUse p.keys.entries)) (hp : 1 ≤ p.setup.pmax)
    {before behind : List OutputId} {m : OutputId} (h : p.keys.queue = before ++ m :: behind) :
    entry (finishTest o d (grants p)).keys.entries m =
      if slotsInUse p.keys.entries + before.length < p.setup.pmax then
        (entry p.keys.entries m).granted p.setup p.time
      else entry p.keys.entries m := by
  obtain ⟨k, h1, h2, h3⟩ := grants_place hq hs h
  have hc := grants_course hq hs h
  by_cases hi : before.length < k
  · have h2 := h2 hi
    rw [(finishTest_rest o d h2.1).1, hc, if_pos (by omega), if_pos (by omega)]
  · have h3 := h3 (by omega)
    have e : slotsInUse p.keys.entries + k + (before.drop k).length < p.setup.pmax
        ↔ slotsInUse p.keys.entries + before.length < p.setup.pmax := by
      rw [List.length_drop]; omega
    have hno : ¬slotsInUse p.keys.entries + before.length < p.keys.slotLimit := by omega
    rw [finishTest_course (grants_exact hq hs) (by simpa using hs) o d h3.1, hc, if_neg hno, h1]
    simp only [e, grants_keeps]

end Sys2Proof.Machine
end

