-- ==== Sys2Proof/Laws/PerInstr.lean ====
section
/-! SUPPORT. The rows of spec/opcode_table.json give no bits, so no word spells any command: said of the
command as syntax, one lemma per row. -/

namespace Sys2Proof.Laws.NoWord

/-- No word of any number of bits decodes to the command. -/
def Statement (i : Instr) : Prop := ∀ nbits w : Nat, decodeTableWord nbits w ≠ some i

theorem reset : Statement (.reset) := fun _ _ h => nomatch h
theorem clearingEnd : Statement (.clearingEnd) := fun _ _ h => nomatch h
theorem storeRead (addr : StoreAddr) : Statement (.storeRead addr) := fun _ _ h => nomatch h
theorem storeWrite (addr : StoreAddr) (value : Word) : Statement (.storeWrite addr value) := fun _ _ h => nomatch h
theorem arbiterServe : Statement (.arbiterServe) := fun _ _ h => nomatch h
theorem take : Statement (.take) := fun _ _ h => nomatch h
theorem halt : Statement (.halt) := fun _ _ h => nomatch h
theorem softReset : Statement (.softReset) := fun _ _ h => nomatch h
theorem badKey (value : Word) : Statement (.badKey value) := fun _ _ h => nomatch h
theorem registerWriteIgnored (reg : ReadOnlyReg) (value : Word) : Statement (.registerWriteIgnored reg value) := fun _ _ h => nomatch h
theorem attentionRead : Statement (.attentionRead) := fun _ _ h => nomatch h
theorem setup : Statement (.setup) := fun _ _ h => nomatch h
theorem setupCopyComplete : Statement (.setupCopyComplete) := fun _ _ h => nomatch h
theorem start : Statement (.start) := fun _ _ h => nomatch h
theorem stop : Statement (.stop) := fun _ _ h => nomatch h
theorem hold : Statement (.hold) := fun _ _ h => nomatch h
theorem resume : Statement (.resume) := fun _ _ h => nomatch h
theorem nudge : Statement (.nudge) := fun _ _ h => nomatch h
theorem power : Statement (.power) := fun _ _ h => nomatch h
theorem test : Statement (.test) := fun _ _ h => nomatch h
theorem clear : Statement (.clear) := fun _ _ h => nomatch h
theorem unknown : Statement (.unknown) := fun _ _ h => nomatch h
theorem closingComplete : Statement (.closingComplete) := fun _ _ h => nomatch h
theorem softResetSecondStage : Statement (.softResetSecondStage) := fun _ _ h => nomatch h
theorem lookTimerExpiry : Statement (.lookTimerExpiry) := fun _ _ h => nomatch h
theorem streamPass : Statement (.streamPass) := fun _ _ h => nomatch h
theorem stampExchange : Statement (.stampExchange) := fun _ _ h => nomatch h
theorem passageEnd : Statement (.passageEnd) := fun _ _ h => nomatch h
theorem beatBoundary : Statement (.beatBoundary) := fun _ _ h => nomatch h
theorem nowWriteComplete : Statement (.nowWriteComplete) := fun _ _ h => nomatch h
theorem audioSample (channel : ChannelId) (width : Nat) (word : Nat) : Statement (.audioSample channel width word) := fun _ _ h => nomatch h
theorem frameEnd : Statement (.frameEnd) := fun _ _ h => nomatch h
theorem cutoff : Statement (.cutoff) := fun _ _ h => nomatch h
theorem maskExpiry : Statement (.maskExpiry) := fun _ _ h => nomatch h
theorem cueClose : Statement (.cueClose) := fun _ _ h => nomatch h
theorem cuePass : Statement (.cuePass) := fun _ _ h => nomatch h
theorem fermataHoldingStart : Statement (.fermataHoldingStart) := fun _ _ h => nomatch h
theorem maxHoldExpiry : Statement (.maxHoldExpiry) := fun _ _ h => nomatch h
theorem leadExpiry : Statement (.leadExpiry) := fun _ _ h => nomatch h
theorem starveTimerExpiry : Statement (.starveTimerExpiry) := fun _ _ h => nomatch h
theorem clockSaturation : Statement (.clockSaturation) := fun _ _ h => nomatch h
theorem slice : Statement (.slice) := fun _ _ h => nomatch h
theorem pullInEnd (n : OutputId) : Statement (.pullInEnd n) := fun _ _ h => nomatch h
theorem pulseEnd (n : OutputId) : Statement (.pulseEnd n) := fun _ _ h => nomatch h
theorem settleEnd (n : OutputId) : Statement (.settleEnd n) := fun _ _ h => nomatch h
theorem cipherTimerExpiry (n : OutputId) : Statement (.cipherTimerExpiry n) := fun _ _ h => nomatch h
theorem cadencePoint (sample : Nat) : Statement (.cadencePoint sample) := fun _ _ h => nomatch h
theorem frameComplete (echo : Option Nat) (senses : List Sense) : Statement (.frameComplete echo senses) := fun _ _ h => nomatch h
theorem chainFault : Statement (.chainFault) := fun _ _ h => nomatch h
theorem chainFaultClear : Statement (.chainFaultClear) := fun _ _ h => nomatch h
theorem supplyOutOfRange : Statement (.supplyOutOfRange) := fun _ _ h => nomatch h
theorem stuck (n : OutputId) : Statement (.stuck n) := fun _ _ h => nomatch h
theorem openInHold (n : OutputId) : Statement (.openInHold n) := fun _ _ h => nomatch h
theorem testNextOutput : Statement (.testNextOutput) := fun _ _ h => nomatch h
theorem faultRecordWritten : Statement (.faultRecordWritten) := fun _ _ h => nomatch h

end Sys2Proof.Laws.NoWord
end

