-- ==== Sys2Proof/Laws/Power.lean ====
section
/-! SUPPORT. What a lock and a switch-off do, once for all (R120, R122, R123, R158, R178, R180). -/

namespace Sys2Proof.Machine

/-! ## A lock (R123) -/

theorem lockPlayer_keys (why : LockReason) (addr : Nat) (p : Part) :
    (lockPlayer why addr p).keys = (keyGeneralRelease (emptyLists (abandonHeld p))).keys := by
  simp [lockPlayer, generalRelease]

theorem lockPlayer_slot (why : LockReason) (addr : Nat) (p : Part) :
    (lockPlayer why addr p).slot = p.slot := by simp [lockPlayer, generalRelease]

theorem lockPlayer_svcLine (why : LockReason) (addr : Nat) (p : Part) :
    (lockPlayer why addr p).svcLine = p.svcLine := by simp [lockPlayer, generalRelease]

theorem lockPlayer_power (why : LockReason) (addr : Nat) (p : Part) :
    (lockPlayer why addr p).power = p.power := by simp [lockPlayer, generalRelease]

theorem lockPlayer_queue (why : LockReason) (addr : Nat) (p : Part) :
    (lockPlayer why addr p).keys.queue = [] := by
  rw [lockPlayer_keys]
  simp [keyGeneralRelease, setAllEntries]

theorem lockPlayer_test (why : LockReason) (addr : Nat) (p : Part) :
    (lockPlayer why addr p).guard.test = p.guard.test := by
  have h : (lockPlayer why addr p).guard
      = (keyGeneralRelease (emptyLists (abandonHeld p))).guard := by
    simp [lockPlayer, generalRelease]
  rw [h]
  simp [keyGeneralRelease, setAllEntries]

/-- The general release leaves an entry at rest as it is (R159). -/
theorem lockPlayer_entry (why : LockReason) (addr : Nat) (p : Part) (n : OutputId)
    (h : (entry p.keys.entries n).state.atRest = true) :
    entry (lockPlayer why addr p).keys.entries n = entry p.keys.entries n := by
  have hk : (emptyLists (abandonHeld p)).keys = p.keys := by simp
  rw [lockPlayer_keys]
  simp only [keyGeneralRelease, spendFresh_keeps, setAllEntries, entry_tabulate]
  rw [hk]
  unfold releasedEntry
  split <;> simp_all [KeyState.atRest]

/-- A lock taken leaves the part locked (R120, R123). -/
theorem lockPlayer_locked (why : LockReason) (addr : Nat) (p : Part) :
    Locked why addr p (lockPlayer why addr p) := by
  have hl : Condition.mask .locked = 16 := by decide
  have hns : ∀ q, (moveTo .locked q).listen = { q.listen with queue := [] } := by
    intro q
    unfold moveTo
    simp [flushOnsets]
  have hg : (generalRelease p).reader = (abandonHeld p).reader := by
    simp [generalRelease, emptyLists]
  refine ⟨⟨?_, ?_, ?_, ?_, ?_, ?_, ?_, ?_, ?_⟩, ?_, ?_, ?_⟩
  all_goals simp [lockPlayer, hns, hg]
  all_goals simp [generalRelease, keyGeneralRelease, stopHoldListening, abandonHeld, emptyLists,
    setAllEntries, clearFermata, flushOnsets, leaveFollower, Follower.leave, Fermata.init]
  unfold Part.latched
  simp [Condition.bit, hl]

theorem lockRequest_ignored {why : LockReason} {p : Part} (addr : Nat)
    (h : lockTaken why p.player.state = false) : lockRequest why addr p = p := by
  unfold lockRequest
  rw [h]
  rfl

theorem lockRequest_taken {why : LockReason} {p : Part} (addr : Nat)
    (h : lockTaken why p.player.state = true) : lockRequest why addr p = lockPlayer why addr p := by
  unfold lockRequest
  rw [h]
  rfl

theorem lockTaken_power (p : Part) : lockTaken .power p.player.state = p.playing := by
  unfold Part.playing
  cases p.player.state <;> rfl

/-- The lock of a part is the lock of any other with its reader, lists, follower, seen after latching. -/
theorem Locked.of_same {why : LockReason} {addr : Nat} {p r q : Part} (c : Condition) (b : Bool)
    (h1 : r.reader = p.reader) (h2 : r.sched = p.sched) (h3 : r.follower = p.follower)
    (h : Locked why addr r q) : Locked why addr p (latchIf b c q) := by
  obtain ⟨⟨l1, l2, l3, l4, l5, l6, l7, l8, l9⟩, l10, l11, l12⟩ := h
  rw [h1] at l5
  rw [h2] at l6
  rw [h3] at l7
  refine ⟨⟨by simpa using l1, by simpa using l2, by simpa using l3, by simpa using l4,
    by simpa using l5, by simpa using l6, by simpa using l7, by simpa using l8,
    by simpa using l9⟩, by simpa using l10, by simpa using l11, ?_⟩
  unfold Part.latched at l12 ⊢
  unfold latchIf latch
  split
  · simp [l12]
  · exact l12

/-! ## A switch-off (R158, R178, R180) -/

/-- The part between the Key Table's switch-off and the lock request. -/
structure PowerGone (cause : PowerCause) (p r : Part) : Prop where
  queue : r.keys.queue = []
  rest : ∀ n, (entry r.keys.entries n).state.atRest = true
  entries : p.guard.test = none → ∀ n,
    entry r.keys.entries n = offAtPower (entry p.keys.entries n)
  test : r.guard.test = none
  slot : p.guard.test = none → r.slot = p.slot
  closing : p.guard.test ≠ none → r.slot.phase = .closing
  power : r.power = { on := false, cause := cause }
  same : r.player = p.player ∧ r.reader = p.reader ∧ r.sched = p.sched ∧ r.follower = p.follower
    ∧ r.listen = p.listen

theorem finishTest_empty (o : SlotOutcome) (d : SlotDetail) {x : Part} (h : x.keys.queue = []) :
    finishTest o d x =
      { closeSlot o d { x with guard := { x.guard with test := none } } with
        keys := { x.keys with
          slotTarget := x.setup.pmax
          slotLimit := max x.setup.pmax (slotsInUse x.keys.entries) } } := by
  unfold finishTest setSlotLimit
  rw [grants_empty (by exact h)]
  rfl

theorem powerGone (cause : PowerCause) (p : Part) :
    PowerGone cause p
      (powerLostTest (keyPowerOff { p with power := { on := false, cause := cause } })) := by
  generalize hq : keyPowerOff { p with power := { on := false, cause := cause } } = q
  have hqk : q.keys.queue = []
      ∧ (∀ n, entry q.keys.entries n = offAtPower (entry p.keys.entries n))
      ∧ q.guard.test = p.guard.test ∧ q.slot = p.slot
      ∧ q.power = { on := false, cause := cause }
      ∧ q.player = p.player ∧ q.reader = p.reader ∧ q.sched = p.sched ∧ q.follower = p.follower
      ∧ q.listen = p.listen := by
    subst hq
    simp [keyPowerOff, setAllEntries]
  obtain ⟨c1, c2, c3, c4, c5, c6⟩ := hqk
  have hrest : ∀ n, (entry q.keys.entries n).state.atRest = true := by
    intro n
    rw [c2]
    exact offAtPower_rest _
  unfold powerLostTest
  split
  · rename_i h
    rw [c3] at h
    exact ⟨c1, hrest, fun _ => c2, by rw [c3, h], fun _ => c4, fun h2 => absurd h h2, c5, c6⟩
  · rename_i t h
    rw [c3] at h
    have hne : p.guard.test ≠ none := by
      rw [h]
      exact fun h2 => nomatch h2
    have hd : ∃ x, x = (if (decide (t.stage = .pulled) && t.marked) = true
          then disableOutput t.output q else q)
        ∧ x.keys.queue = [] ∧ (∀ n, (entry x.keys.entries n).state.atRest = true)
        ∧ x.power = q.power ∧ x.player = q.player ∧ x.reader = q.reader ∧ x.sched = q.sched
        ∧ x.follower = q.follower ∧ x.listen = q.listen := by
      refine ⟨_, rfl, ?_⟩
      split
      · unfold disableOutput
        split
        · exact ⟨c1, hrest, rfl, rfl, rfl, rfl, rfl, rfl⟩
        · have he : (setEntry t.output { KeyEntry.idle with state := .disabled } q).keys.queue
              = [] := by simp [setEntry, c1]
          rw [grants_empty he]
          refine ⟨he, ?_, by simp, by simp, by simp, by simp, by simp, by simp⟩
          intro n
          simp only [setEntry, entry_put]
          split
          · rfl
          · exact hrest n
      · exact ⟨c1, hrest, rfl, rfl, rfl, rfl, rfl, rfl⟩
    obtain ⟨x, x0, x1, x2, x3, x4, x5, x6, x7, x8⟩ := hd
    obtain ⟨d1, d2, d3, d4, d5⟩ := c6
    rw [← x0, finishTest_empty _ _ x1]
    exact ⟨x1, x2, fun h2 => absurd h2 hne, rfl, fun h2 => absurd h2 hne, fun _ => rfl,
      x3.trans c5, x4.trans d1, x5.trans d2, x6.trans d3, x7.trans d4, x8.trans d5⟩

/-- A request for OFF that finds magnet power ON switches it off (R178). -/
theorem switchedOff {cause : PowerCause} {p : Part} (hc : cause ≠ .softReset)
    (ho : p.power.on = true) : SwitchedOff cause p (powerOff cause p) := by
  have hg := powerGone cause p
  generalize hr : powerLostTest (keyPowerOff { p with power := { on := false, cause := cause } })
    = r at hg
  obtain ⟨g1, g2, g3, g4, g5, g6, g7, g8, g9, g10, g11, g12⟩ := hg
  have hp : powerOff cause p = latchIf (cause != .command) .power (lockRequest .power 0 r) := by
    unfold powerOff
    simp [ho, hr, hc]
  have hlat : ∀ x : Part, cause ≠ .command →
      (latchIf (cause != .command) .power x).latched .power = true := by
    intro x hx
    have hb : (cause != .command) = true := by simpa [bne_iff_ne] using hx
    rw [hb]
    unfold Part.latched
    simp [Condition.bit, Condition.mask]
  have hplay : r.playing = p.playing := by
    unfold Part.playing
    rw [g8]
  rw [hp]
  cases hb : p.playing
  · rw [lockRequest_ignored 0 (by rw [lockTaken_power, hplay, hb])]
    refine ⟨by simpa using g7, by simpa using g1, ?_, by simpa using g4, ⟨?_, ?_⟩,
      fun h => absurd h (by simp [hb]), fun _ => ?_, hlat r⟩
    · intro ht n
      simp only [latchIf_keeps]
      exact g3 ht n
    · intro ht
      simp only [latchIf_keeps]
      exact g5 ht
    · intro ht
      simp only [latchIf_keeps]
      exact g6 ht
    · simp [g8, g9, g10, g11, g12]
  · rw [lockRequest_taken 0 (by rw [lockTaken_power, hplay, hb])]
    refine ⟨by simp [lockPlayer_power, g7], by simp [lockPlayer_queue], ?_,
      by simp [lockPlayer_test, g4], ⟨?_, ?_⟩, fun _ => ?_,
      fun h => absurd h (by simp [hb]), hlat _⟩
    · intro ht n
      simp only [latchIf_keeps]
      rw [lockPlayer_entry _ _ _ _ (g2 n)]
      exact g3 ht n
    · intro ht
      simp only [latchIf_keeps]
      rw [lockPlayer_slot, g5 ht]
    · intro ht
      simp only [latchIf_keeps]
      rw [lockPlayer_slot, g6 ht]
    · exact (lockPlayer_locked .power 0 r).of_same .power _ g9 g10 g11

/-- A request for OFF that finds magnet power OFF changes nothing (R178). -/
theorem powerOff_off (cause : PowerCause) {p : Part} (h : p.power.on = false) :
    powerOff cause p = p := by
  unfold powerOff
  rw [h]
  rfl

end Sys2Proof.Machine
end

