-- ==== Sys2Proof/Laws/Serve.lean ====
section
/-! SUPPORT. What a served access does to the store: each writes one word or none, so the canonical form
stands. -/

namespace Sys2Proof.Machine

theorem wf_exchange {mem : Memory} (t : Take) (p : Part) (h : mem.wf = true) :
    (exchange t mem p).1.wf = true := by
  unfold exchange
  dsimp only
  split
  · split
    · exact Memory.write_wf _ _ h
    · exact Memory.write_wf _ _ h
  · exact h

theorem wf_serveReader {mem : Memory} (a : ReaderAccess) (p : Part) (h : mem.wf = true) :
    (serveReader a mem p).1.wf = true := by
  unfold serveReader
  cases a <;> dsimp only
  · exact h
  · exact h
  · exact h
  · split <;> exact h
  · split
    · exact wf_exchange _ p h
    · exact h
  · exact Memory.write_wf _ _ h
  · exact Memory.write_wf _ _ h

theorem wf_serveService {mem : Memory} (a : SvcAccess) (p : Part) (h : mem.wf = true) :
    (serveService a mem p).1.wf = true := by
  unfold serveService
  cases a <;> dsimp only <;> first | exact h | exact Memory.write_wf _ _ h

theorem wf_serveConsole {mem : Memory} (a : PortAccess) (rest : List PortAccess) (p : Part)
    (h : mem.wf = true) : (serveConsole a rest mem p).1.wf = true := by
  unfold serveConsole
  cases a <;> dsimp only <;> first | exact h | exact Memory.write_wf _ _ h

theorem wf_serveRequester {mem : Memory} (r : Requester) (p : Part) (h : mem.wf = true) :
    (serveRequester r mem p).1.wf = true := by
  unfold serveRequester
  cases r <;> dsimp only <;> split
  · exact wf_serveConsole _ _ _ h
  · exact h
  · exact wf_serveReader _ _ h
  · exact h
  · exact Memory.write_wf _ _ h
  · exact h
  · exact wf_serveService _ _ h
  · exact h

theorem wf_arbiterStep {mem : Memory} (p : Part) (h : mem.wf = true) :
    (arbiterStep mem p).1.wf = true := by
  unfold arbiterStep
  split
  · exact wf_serveRequester _ p h
  · exact h

theorem wf_arbiterStepIf {mem : Memory} (b : Bool) (p : Part) (h : mem.wf = true) :
    (arbiterStepIf b mem p).1.wf = true := by
  unfold arbiterStepIf
  split
  · exact wf_arbiterStep p h
  · exact h

theorem wf_clearingEndStep {mem : Memory} (p : Part) (h : mem.wf = true) :
    (clearingEndStep mem p).1.wf = true := by
  unfold clearingEndStep
  split
  · unfold serveHeld
    split
    · exact wf_serveConsole _ _ _ h
    · exact wf_serveConsole _ _ _ h
    · exact h
  · exact h

/-! ## One access at a time -/

/-- The arbiter serves the requester next in turn (R39). -/
theorem arbiterStep_of {mem : Memory} {p : Part} {r : Requester} (h : nextRequester p = some r) :
    arbiterStep mem p = serveRequester r mem p := by
  unfold arbiterStep
  rw [h]

/-- The Plan Reader's access at the head of its line is served (R39). -/
theorem arbiterStep_reader {mem : Memory} {p : Part} {a : ReaderAccess} {rest : List ReaderAccess}
    (h : p.readerNext a rest) :
    arbiterStep mem p = serveReader a mem
      { p with arb := .planReader, reader := { p.reader with line := rest } } := by
  rw [arbiterStep_of h.1]
  unfold serveRequester
  have h2 : (served .planReader p).reader.line = a :: rest := h.2
  dsimp only
  rw [h2]
  rfl

/-- The Service Unit's access at the head of its line is served (R39). -/
theorem arbiterStep_service {mem : Memory} {p : Part} {a : SvcAccess} {rest : List SvcAccess}
    (h : p.serviceNext a rest) :
    arbiterStep mem p = serveService a mem { p with arb := .serviceUnit, svcLine := rest } := by
  rw [arbiterStep_of h.1]
  unfold serveRequester
  have h2 : (served .serviceUnit p).svcLine = a :: rest := h.2
  dsimp only
  rw [h2]
  rfl

end Sys2Proof.Machine
end

