-- ==== Sys2Proof/Laws/Slice.lean ====
section
/-! SUPPORT. The slice outside DRAINING (R133, R135, R136, R142): what the walks of steps and of key-ons
can do. -/

namespace Sys2Proof.Machine

/-! ## Steps -/

/-- The stop entries of a step, issued (R143). -/
theorem issueStops_part (l : List StopEntry) : ∀ p : Part, ∃ q, q = l.foldl issueStop p
    ∧ q = { p with
      sched := { p.sched with drawn := q.sched.drawn }
      keys := q.keys, guard := q.guard, listen := q.listen, attention := q.attention } := by
  have pulses : ∀ (ns : List OutputId) (p : Part), ∃ q, q = ns.foldl (fun acc n => stopPulse n acc) p
      ∧ q = { p with
        keys := q.keys, guard := q.guard, listen := q.listen, attention := q.attention } := by
    intro ns
    induction ns with
    | nil => exact fun p => ⟨p, rfl, rfl⟩
    | cons n rest ih =>
      intro p
      obtain ⟨q, e1, e2⟩ := ih (stopPulse n p)
      refine ⟨q, e1, ?_⟩
      conv => lhs; rw [e2]
      apply part_ext <;> simp
  induction l with
  | nil => exact fun p => ⟨p, rfl, rfl⟩
  | cons e rest ih =>
    intro p
    obtain ⟨q, e1, e2⟩ := ih (issueStop p e)
    refine ⟨q, e1, ?_⟩
    have h : ∃ r, r = issueStop p e ∧ r = { p with
        sched := { p.sched with drawn := r.sched.drawn }
        keys := r.keys, guard := r.guard, listen := r.listen, attention := r.attention } := by
      refine ⟨_, rfl, ?_⟩
      unfold issueStop
      dsimp only
      split
      · rfl
      · split
        · rfl
        · obtain ⟨r, r1, r2⟩ := pulses (outputsWith p.setup.outputMap (coilEntry e))
            { p with sched := { p.sched with drawn := put p.sched.drawn e.stop e.draw } }
          rw [← r1]
          conv => lhs; rw [r2]
          apply part_ext <;> simp
          rw [r2]
    obtain ⟨r, r1, r2⟩ := h
    rw [← r1] at e2
    conv => lhs; rw [e2, r2]

/-- The due steps, issued (R133, R142): the Step List keeps the others. -/
theorem issueSteps_part (due : Step → Bool) (p : Part) : ∃ q, q = issueSteps due p
    ∧ q = { p with
      sched := { p.sched with
        steps := p.sched.steps.filter fun x => !due x, drawn := q.sched.drawn }
      keys := q.keys, guard := q.guard, listen := q.listen, attention := q.attention } := by
  have all : ∀ (l : List Step) (p : Part), ∃ q, q = l.foldl (fun acc x => issueStep x acc) p
      ∧ q = { p with
        sched := { p.sched with drawn := q.sched.drawn }
        keys := q.keys, guard := q.guard, listen := q.listen, attention := q.attention } := by
    intro l
    induction l with
    | nil => exact fun p => ⟨p, rfl, rfl⟩
    | cons x rest ih =>
      intro p
      obtain ⟨q, e1, e2⟩ := ih (issueStep x p)
      obtain ⟨r, r1, r2⟩ := issueStops_part x.entries p
      refine ⟨q, e1, ?_⟩
      have hr : issueStep x p = r := r1.symm
      rw [hr] at e2
      conv => lhs; rw [e2, r2]
  obtain ⟨q, e1, e2⟩ := all (p.sched.steps.filter due)
    { p with sched := { p.sched with steps := p.sched.steps.filter fun x => !due x } }
  exact ⟨q, e1, e2⟩

/-! ## Key-ons -/

/-- A note without its claimed flags, which the answers of R148 set. -/
def Note.bare (x : Note) : Note := { x with claimed := [] }

/-- A note after the walk of key-ons. -/
def Note.keyed (due : Note → Bool) (x : Note) : Note :=
  { x with claimed := [], state := if due x then .sounding else x.state }

/-- A latch leaves a latched condition latched (R52). -/
theorem latched_or (c : Condition) (a m : Word) (h : a.getLsbD c.bit = true) :
    (a ||| m).getLsbD c.bit = true := by rw [BitVec.getLsbD_or, h, Bool.true_or]

/-- LATE stays latched through a claim (R52, R148). -/
theorem claim_late (n : OutputId) {p : Part} (h : p.latched .late = true) :
    (claim n p).1.latched .late = true := by
  have k : (claim n p).1.attention = p.attention
      ∨ (claim n p).1.attention = p.attention ||| Condition.late.mask := by
    have j : (grants (joinQueue n .key 1 p)).attention = p.attention
        ∨ (grants (joinQueue n .key 1 p)).attention = p.attention ||| Condition.late.mask := by
      rw [(grants_keeps _).2.2.2.2.2.2.2.2.2.2.2.1]
      unfold joinQueue latchIf
      split
      · right; simp
      · left; simp
    unfold claim
    dsimp only
    split
    · split
      · exact j
      · exact .inl rfl
    all_goals simp
  unfold Part.latched at *
  rcases k with k | k
  · rw [k]; exact h
  · rw [k]; exact latched_or _ _ _ h

/-- LATE stays latched through the claims of a note. -/
theorem claimAll_late (l : List OutputId) : ∀ {p : Part}, p.latched .late = true →
    (claimAll l p).1.latched .late = true := by
  induction l with
  | nil => exact id
  | cons n rest ih => exact fun h => ih (claim_late n h)

/-- The walk of key-ons (R135, R136) of a playing Player outside DRAINING. -/
theorem keyOnLoop_part (due : Note → Bool) (l : List Note) : ∀ (kept : List Note) (p : Part),
    p.player.state ≠ .draining → p.playing = true → p.sched.window = kept ++ l →
    ∃ q, q = keyOnLoop due kept l p
      ∧ q = { p with
        reader := { p.reader with next := q.reader.next, line := q.reader.line }
        sched := { p.sched with window := q.sched.window }
        keys := q.keys, guard := q.guard, listen := q.listen, attention := q.attention }
      ∧ q.sched.window.map Note.bare = kept.map Note.bare
        ++ (l.filter fun x => !(due x && dropsNote p x)).map (Note.keyed due)
      ∧ (p.latched .late = true → q.latched .late = true)
      ∧ ((∃ x ∈ l, due x = true ∧ (dropsNote p x = true ∨ lateNote p x = true)) →
        q.latched .late = true) := by
  induction l with
  | nil =>
    intro kept p _ _ h3
    refine ⟨p, rfl, rfl, ?_, id, ?_⟩
    · rw [h3]; simp
    · rintro ⟨x, hx, _⟩; exact absurd hx List.not_mem_nil
  | cons x rest ih =>
    intro kept p h1 hpl h3
    unfold keyOnLoop
    by_cases hd : due x = true
    · rw [if_pos hd]
      by_cases hp : dropsNote p x = true
      · rw [if_pos hp]
        obtain ⟨c, c1, c2, _⟩ :=
          completion_part (p := putWindow (kept ++ rest) (latch .late p)) h1
        have hc : c.playing = true := by rw [c2]; exact hpl
        rw [← c1, whilePlaying_of hc]
        obtain ⟨q, e1, e2, e3, e4, _⟩ := ih kept c (by rw [c2]; exact h1) hc (by rw [c2]; rfl)
        have hl : c.latched .late = true := by
          rw [c2]
          simp [Part.latched, putWindow, latch, Condition.mask, Condition.bit]
        have hdrop : ∀ y, dropsNote c y = dropsNote p y := by intro y; rw [c2]; rfl
        refine ⟨q, e1, ?_, ?_, fun _ => e4 hl, fun _ => e4 hl⟩
        · conv => lhs; rw [e2, c2]
          rfl
        · rw [e3, List.filter_cons_of_neg (by simp [hd, hp])]
          simp only [hdrop]
      · rw [if_neg hp]
        dsimp only
        generalize hr : claimAll x.outputs (latchIf (lateNote p x) .late p) = r
        generalize hy : ({ x with claimed := r.2, state := .sounding } : Note) = y
        have k := claimAll_keeps x.outputs (latchIf (lateNote p x) .late p)
        rw [hr] at k
        obtain ⟨q, e1, e2, e3, e4, e5⟩ := ih (kept ++ [y]) (putWindow (kept ++ y :: rest) r.1)
          (by show r.1.player.state ≠ .draining; simpa [k] using h1)
          (by show r.1.playing = true; simpa [Part.playing, k] using hpl)
          (by simp [putWindow])
        have hdrop : ∀ z, dropsNote (putWindow (kept ++ y :: rest) r.1) z = dropsNote p z := by
          intro z
          unfold dropsNote releaseTime keyingTime Part.now putWindow
          simp [k]
        have hlate : ∀ z, lateNote (putWindow (kept ++ y :: rest) r.1) z = lateNote p z := by
          intro z
          unfold lateNote keyingTime Part.now putWindow
          simp [k]
        have hkeep : p.latched .late = true → r.1.latched .late = true := by
          intro h
          rw [← hr]
          apply claimAll_late
          unfold latchIf
          split
          · exact latched_or _ _ _ h
          · exact h
        refine ⟨q, e1, ?_, ?_, fun h => e4 (hkeep h), ?_⟩
        · conv => lhs; rw [e2]
          apply part_ext <;> simp [putWindow, k]
        · rw [e3, List.filter_cons_of_pos (by simp [hp])]
          simp only [hdrop]
          rw [← hy]
          simp [Note.bare, Note.keyed, hd]
        · rintro ⟨z, hz, hdz, hor⟩
          rcases List.mem_cons.1 hz with rfl | hz
          · apply e4
            show r.1.latched .late = true
            rw [← hr]
            apply claimAll_late
            rcases hor with h | h
            · exact absurd h hp
            · rw [h]
              simp [Part.latched, latchIf, latch, Condition.mask, Condition.bit]
          · exact e5 ⟨z, hz, hdz, by rw [hdrop, hlate]; exact hor⟩
    · rw [if_neg hd]
      obtain ⟨q, e1, e2, e3, e4, e5⟩ := ih (kept ++ [x]) p h1 hpl (by simpa using h3)
      refine ⟨q, e1, e2, ?_, e4, ?_⟩
      · rw [e3, List.filter_cons_of_pos (by simp [hd])]
        simp [Note.bare, Note.keyed, hd]
      · rintro ⟨z, hz, hdz, hor⟩
        rcases List.mem_cons.1 hz with rfl | hz
        · exact absurd hdz hd
        · exact e5 ⟨z, hz, hdz, hor⟩

end Sys2Proof.Machine
end

