-- ==== Sys2Proof/Laws/Stream.lean ====
section
/-! SUPPORT. What a stream pass can do (R21, R28-R34): the need test, the base steps handed on its way over
the lists, where it stands, and what it does with an entry read. -/

namespace Sys2Proof.Machine

/-! ## The need test (R21) -/

theorem needed_iff (p : Part) : p.needed = true ↔ p.needs := by
  unfold Part.needed Part.needs Part.seekState
  cases hc : p.reader.current with
  | none => simp
  | some b =>
    simp only [Bool.and_eq_true, Bool.or_eq_true, beq_iff_eq, decide_eq_true_eq, Option.some.injEq,
      exists_eq_left']
    unfold Part.needFrozen Part.fermataHeld
    cases p.reader.next <;> cases p.player.state <;>
      simp [NextBuffer.isEmpty, and_assoc]

/-- A look may be made with nothing of it under way and the next buffer empty. -/
theorem mayLook_of {p : Part} {b : Buffer} (hb : p.reader.current = some b)
    (hn : p.reader.next = .empty) : p.mayLook = !p.reader.looking := by
  simp [Part.mayLook, hb, hn, NextBuffer.isFinishing]

/-- The need test, once for all callers. -/
theorem needTest_tested (p : Part) : NeedTested p (needTest p) := by
  constructor
  · intro h
    rw [needTest, if_pos ((needed_iff p).mpr h)]
    obtain ⟨_, hn, _, b, hb, _⟩ := h
    unfold beginSeeking askLook
    generalize hq : startLookTimer _ = q
    have hl : q.reader.looking = p.reader.looking := by rw [← hq]; rfl
    have hm : q.mayLook = !p.reader.looking := by
      rw [← hl]; exact mayLook_of (by rw [← hq]; exact hb) (by rw [← hq]; exact hn)
    rw [hm, ← hq]
    cases p.reader.looking <;> rfl
  · intro h
    rw [needTest, if_neg (by rwa [needed_iff])]

/-! ## Streams and base steps (R28, R31) -/

theorem stageBuffer_iff (st : Stage) (p : Part) (b : Buffer) :
    stageBuffer st p = some b ↔ p.streams st b := by
  obtain ⟨ahead, list⟩ := st
  unfold stageBuffer Part.streams Reader.bufferAt Reader.mayStream Part.listFull
  cases ahead <;> cases hc : p.reader.current <;> cases hn : p.reader.next <;> cases list <;>
    simp [Buffer.cursor, Buffer.listDone, Config.windowSize, Config.cueListSize,
      Config.stepListSize] <;> grind

theorem stageBuffer_none (st : Stage) (p : Part) :
    stageBuffer st p = none ↔ ∀ b, ¬p.streams st b := by
  simp only [← stageBuffer_iff]
  cases stageBuffer st p <;> simp

theorem SameLists.refl (b : Buffer) : SameLists b b := ⟨rfl, id⟩

theorem SameLists.trans {a b c : Buffer} (h1 : SameLists a b) (h2 : SameLists b c) :
    SameLists a c := by
  refine ⟨?_, fun h => h2.2 (h1.2 h)⟩
  rw [h2.1, h1.1]

/-- A buffer keeps its passage, its plan index and its lists. -/
theorem SameLists.fields {b c : Buffer} (h : SameLists b c) :
    c.passage = b.passage ∧ c.planIndex = b.planIndex ∧ c.notes = b.notes ∧ c.cues = b.cues
      ∧ c.steps = b.steps := by
  rw [h.1]
  exact ⟨rfl, rfl, rfl, rfl, rfl⟩

theorem SameLists.base {b c : Buffer} (h : SameLists b c) (d : Int) : c.base d = b.base d := by
  rw [h.1]
  rfl

namespace BasesHanded

theorem refl (bound : Int) (p : Part) : BasesHanded bound p p := by
  refine ⟨⟨[], by simp, by simp, ?_⟩, ?_, ?_, rfl⟩
  · intro x
    simp only [List.not_mem_nil, false_iff]
    rintro ⟨a, b, c, h1, h2, h3, h4, _⟩
    rw [h1] at h2
    simp_all
  · cases h : p.reader.current with
    | none => exact Or.inl ⟨rfl, rfl⟩
    | some b => exact Or.inr ⟨b, b, rfl, rfl, SameLists.refl b⟩
  · cases h : p.reader.next with
    | following b => exact Or.inr ⟨b, b, rfl, rfl, SameLists.refl b⟩
    | empty => exact Or.inl ⟨rfl, rfl⟩
    | finishing _ _ _ => exact Or.inl ⟨rfl, rfl⟩

/-- The buffers answer to each other. -/
theorem bufferAt {bound : Int} {p q : Part} (h : BasesHanded bound p q) (ahead : Bool) :
    (p.reader.bufferAt ahead = none ∧ q.reader.bufferAt ahead = none)
      ∨ ∃ b c, p.reader.bufferAt ahead = some b ∧ q.reader.bufferAt ahead = some c
        ∧ SameLists b c := by
  cases ahead
  · exact h.current
  · unfold Reader.bufferAt
    rcases h.next with ⟨h1, h2⟩ | ⟨b, c, h1, h2, h3⟩
    · left
      rw [h2]
      cases hn : p.reader.next <;> simp_all [NextBuffer.isFollowing]
    · right
      exact ⟨b, c, by simp [h1], by simp [h2], h3⟩

theorem delta {bound : Int} {p q : Part} (h : BasesHanded bound p q) :
    q.reader.delta = p.reader.delta := by
  rw [h.same]

theorem trans {bound : Int} {p q r : Part} (h1 : BasesHanded bound p q)
    (h2 : BasesHanded bound q r) : BasesHanded bound p r := by
  obtain ⟨n1, a1, b1, c1⟩ := h1.steps
  obtain ⟨n2, a2, b2, c2⟩ := h2.steps
  refine ⟨⟨n1 ++ n2, by rw [a2, a1, List.append_assoc], ?_, ?_⟩, ?_, ?_, ?_⟩
  · intro x hx
    rcases List.mem_append.mp hx with h | h
    · exact b1 x h
    · exact b2 x h
  · intro x
    rw [List.mem_append]
    constructor
    · rintro (hx | hx)
      · obtain ⟨ahead, b, c, e1, e2, e3, e4, e5⟩ := (c1 x).mp hx
        rcases h2.bufferAt ahead with ⟨f1, f2⟩ | ⟨c', d, f1, f2, f3⟩
        · rw [e2] at f1; exact nomatch f1
        · rw [e2] at f1
          cases f1
          exact ⟨ahead, b, d, e1, f2, e3, f3.2 e4, e5⟩
      · obtain ⟨ahead, b, c, e1, e2, e3, e4, e5⟩ := (c2 x).mp hx
        rcases h1.bufferAt ahead with ⟨f1, f2⟩ | ⟨a, b', f1, f2, f3⟩
        · rw [e1] at f2; exact nomatch f2
        · rw [e1] at f2
          cases f2
          refine ⟨ahead, a, c, f1, e2, ?_, e4, ?_⟩
          · cases h : a.baseDone
            · rfl
            · rw [f3.2 h] at e3; exact nomatch e3
          · rw [e5, h1.delta, f3.base]
    · rintro ⟨ahead, a, c, e1, e2, e3, e4, e5⟩
      rcases h1.bufferAt ahead with ⟨f1, f2⟩ | ⟨a', b, f1, f2, f3⟩
      · rw [e1] at f1; exact nomatch f1
      · rw [e1] at f1
        cases f1
        cases hb : b.baseDone
        · exact Or.inr ((c2 x).mpr ⟨ahead, b, c, f2, e2, hb, e4, by rw [e5, h1.delta, f3.base]⟩)
        · exact Or.inl ((c1 x).mpr ⟨ahead, a, b, e1, f2, e3, hb, e5⟩)
  · rcases h1.current with ⟨x, y⟩ | ⟨b, c, x, y, z⟩
    · rcases h2.current with ⟨x', y'⟩ | ⟨b', c', x', y', z'⟩
      · exact Or.inl ⟨x, y'⟩
      · rw [y] at x'; exact nomatch x'
    · rcases h2.current with ⟨x', y'⟩ | ⟨b', c', x', y', z'⟩
      · rw [y] at x'; exact nomatch x'
      · rw [y] at x'
        cases x'
        exact Or.inr ⟨b, c', x, y', z.trans z'⟩
  · rcases h1.next with ⟨x, y⟩ | ⟨b, c, x, y, z⟩
    · rcases h2.next with ⟨x', y'⟩ | ⟨b', c', x', y', z'⟩
      · exact Or.inl ⟨x, by rw [y', y]⟩
      · rw [← y, x'] at x; exact nomatch x
    · rcases h2.next with ⟨x', y'⟩ | ⟨b', c', x', y', z'⟩
      · rw [y] at x'; exact nomatch x'
      · rw [y] at x'
        cases x'
        exact Or.inr ⟨b, c', x, y', z.trans z'⟩
  · conv => lhs; rw [h2.same, h1.same]

/-- What a list is streamed from further on, it was streamed from before; but a list of steps ahead may
have waited for the base step of the current passage. -/
theorem streams {bound : Int} {p q : Part} (h : BasesHanded bound p q) {st : Stage} {c : Buffer}
    (hs : q.streams st c) (hl : st.list ≠ .steps) : ∃ b, p.streams st b := by
  obtain ⟨ahead, list⟩ := st
  obtain ⟨h1, h2, h3⟩ := hs
  have hw : q.sched.window = p.sched.window := by rw [h.same]
  have hcu : q.sched.cues = p.sched.cues := by rw [h.same]
  cases ahead
  · have hc := h1 rfl
    rcases h.current with ⟨_, y⟩ | ⟨b, c', x, y, z⟩
    · rw [y] at hc; exact nomatch hc
    · rw [y] at hc
      cases hc
      have f := z.fields
      refine ⟨b, fun _ => x, nofun, ?_⟩
      cases list <;> simp_all
  · obtain ⟨hn, cur, hcur, hd⟩ := h2 rfl
    rcases h.next with ⟨x, y⟩ | ⟨b, c', x, y, z⟩
    · rw [← y, hn] at x; exact nomatch x
    · rw [hn] at y
      cases y
      rcases h.current with ⟨_, y'⟩ | ⟨a, a', x', y', z'⟩
      · rw [y'] at hcur; exact nomatch hcur
      · rw [y'] at hcur
        cases hcur
        have f := z.fields
        have f' := z'.fields
        refine ⟨b, nofun, fun _ => ⟨x, a, x', ?_⟩, ?_⟩
        · cases list <;> simp_all
        · cases list <;> simp_all

end BasesHanded

/-! ## The course of a pass (R28) -/

theorem putPass_handed (bound : Int) (x : Option Pass) (p : Part) :
    BasesHanded bound p (putPass x p) := by
  have h := BasesHanded.refl bound p
  exact ⟨h.steps, h.current, h.next, rfl⟩

theorem putPass_streams (x : Option Pass) (p : Part) (st : Stage) (b : Buffer) :
    (putPass x p).streams st b ↔ p.streams st b := Iff.rfl

/-- The base step at the steps of a buffer: handed, or it was handed before, lies beyond the bound, or
finds the Step List full. -/
theorem streamBase_handed (bound : Int) (ahead : Bool) (p : Part) :
    BasesHanded bound p (streamBase bound ahead p)
      ∧ ∀ b, (streamBase bound ahead p).reader.bufferAt ahead = some b → b.baseDone = true
        ∨ bound < b.passage.startPos + (if ahead then p.reader.delta else 0)
        ∨ 4 ≤ (streamBase bound ahead p).sched.steps.length := by
  unfold streamBase
  split
  · rename_i h
    exact ⟨BasesHanded.refl _ _, fun b hb => by rw [h] at hb; exact nomatch hb⟩
  · rename_i b hb
    dsimp only
    split
    · rename_i h
      refine ⟨BasesHanded.refl _ _, fun c hc => ?_⟩
      rw [hb] at hc
      cases hc
      simp only [Bool.or_eq_true, decide_eq_true_eq, Config.stepListSize] at h
      rcases h with (h | h) | h
      · exact Or.inl h
      · exact Or.inr (Or.inl h)
      · exact Or.inr (Or.inr (of_decide_eq_true h))
    · rename_i h
      simp only [Bool.or_eq_true, decide_eq_true_eq, not_or, Int.not_lt, Bool.not_eq_true] at h
      obtain ⟨⟨hd, hle⟩, _⟩ := h
      have hst : SameLists b { b with baseDone := true } := ⟨rfl, fun _ => rfl⟩
      have hx : baseStep b (p.reader.offset ahead)
          = b.base (if ahead then p.reader.delta else 0) := rfl
      cases ahead
      · have hc : p.reader.current = some b := hb
        refine ⟨⟨⟨[b.base 0], rfl, ?_, ?_⟩, Or.inr ⟨b, _, hc, rfl, hst⟩, ?_, rfl⟩, ?_⟩
        · intro x hx
          rw [List.mem_singleton.mp hx]
          exact hle
        · intro x
          rw [List.mem_singleton]
          constructor
          · intro h
            exact ⟨false, b, _, hc, rfl, hd, rfl, h⟩
          · rintro ⟨a, b', c, e1, e2, e3, e4, e5⟩
            cases a
            · have : p.reader.current = some b' := e1
              rw [hc] at this
              cases this
              exact e5
            · have e2' : p.reader.bufferAt true = some c := e2
              rw [e1] at e2'
              cases e2'
              rw [e3] at e4
              exact nomatch e4
        · exact (BasesHanded.refl bound p).next
        · intro c h
          left
          have h' : some ({ b with baseDone := true } : Buffer) = some c := h
          cases h'
          rfl
      · have hn : p.reader.next = .following b := by
          simp only [Reader.bufferAt, if_true] at hb
          split at hb
          · rename_i x h
            rw [h, Option.some.inj hb]
          · exact nomatch hb
        refine ⟨⟨⟨[b.base p.reader.delta], rfl, ?_, ?_⟩, ?_, Or.inr ⟨b, _, hn, rfl, hst⟩, rfl⟩, ?_⟩
        · intro x hx
          rw [List.mem_singleton.mp hx]
          exact hle
        · intro x
          rw [List.mem_singleton]
          constructor
          · intro h
            exact ⟨true, b, _, hb, rfl, hd, rfl, h⟩
          · rintro ⟨a, b', c, e1, e2, e3, e4, e5⟩
            cases a
            · have e2' : p.reader.bufferAt false = some c := e2
              rw [e1] at e2'
              cases e2'
              rw [e3] at e4
              exact nomatch e4
            · rw [hb] at e1
              cases e1
              exact e5
        · exact (BasesHanded.refl bound p).current
        · intro c h
          left
          have h' : some ({ b with baseDone := true } : Buffer) = some c := h
          cases h'
          rfl

theorem atStage_handed (bound : Int) (st : Stage) (p : Part) :
    BasesHanded bound p (atStage bound st p) := by
  unfold atStage
  split
  · exact (streamBase_handed _ _ _).1
  · exact BasesHanded.refl _ _

/-- A pass goes over its stages to where it stands. -/
theorem seekEntry_stands (bound : Int) (left : List Stage) :
    ∀ p, PassStands bound left p (seekEntry bound left p) := by
  induction left with
  | nil =>
    intro p
    refine ⟨putPass_handed _ _ _, [], [], rfl, ?_, ?_, ?_, rfl, ?_, ?_⟩ <;> simp
  | cons st rest ih =>
    intro p
    unfold seekEntry
    have h1 := atStage_handed bound st p
    generalize hq : atStage bound st p = q at h1
    have hbase : st = ⟨false, .steps⟩ → ∀ b, q.reader.current = some b →
        b.baseDone = true ∨ bound < b.passage.startPos ∨ 4 ≤ q.sched.steps.length := by
      rintro rfl b hb
      rw [← hq, atStage, if_pos ⟨rfl, rfl⟩] at hb ⊢
      have := (streamBase_handed bound false p).2 b hb
      simpa using this
    have hnext : st = ⟨true, .steps⟩ → ∀ b c, q.reader.current = some b → b.baseDone = true →
        b.steps.finished = true → q.reader.next = .following c →
        c.baseDone = true ∨ bound < c.passage.startPos + p.reader.delta
          ∨ 4 ≤ q.sched.steps.length := by
      rintro rfl b c hb hd hf hc
      have hm : p.reader.mayStream ⟨true, .steps⟩ = true := by
        rcases h1.current with ⟨_, y⟩ | ⟨a, a', x, y, z⟩
        · rw [y] at hb; exact nomatch hb
        · rw [y] at hb
          cases hb
          by_cases ha : a.baseDone = true
          · simp [Reader.mayStream, x, Buffer.listDone, ha, ← z.fields.2.2.2.2, hf]
          · exfalso
            rw [← hq, atStage] at y
            split at y
            · rename_i h
              simp [Reader.mayStream, x, Buffer.listDone, ha] at h
            · rw [y] at x
              cases x
              exact ha hd
      rw [← hq, atStage, if_pos ⟨rfl, hm⟩] at hc ⊢
      have := (streamBase_handed bound true p).2 c (by simp [Reader.bufferAt, hc])
      simpa using this
    dsimp only
    split
    · rename_i b hb
      rw [stageBuffer_iff] at hb
      refine ⟨h1.trans (putPass_handed _ _ _), [], st :: rest, rfl, by simp, by simp, ?_, rfl, ?_,
        by simp⟩
      · intro x hx
        cases Option.some.inj hx
        exact ⟨b, hb⟩
      · rintro (h | h)
        · exact nomatch h
        · exact hbase (Option.some.inj h)
    · rename_i hb
      rw [stageBuffer_none] at hb
      have h2 := ih q
      generalize hr : seekEntry bound rest q = r at h2
      obtain ⟨h2, passed, more, e1, e2, e3, e4, e5, e6, e7⟩ := h2
      have hlen : q.sched.steps.length ≤ r.sched.steps.length := by
        obtain ⟨new, e, _⟩ := h2.steps
        rw [e, List.length_append]
        omega
      have hcur : ∀ b, r.reader.current = some b → ∃ a, q.reader.current = some a
          ∧ SameLists a b := by
        intro b hb
        rcases h2.current with ⟨_, y⟩ | ⟨a, a', x, y, z⟩
        · rw [y] at hb; exact nomatch hb
        · rw [y] at hb
          cases hb
          exact ⟨a, x, z⟩
      have hb0 : st = ⟨false, .steps⟩ → ∀ b, r.reader.current = some b →
          b.baseDone = true ∨ bound < b.passage.startPos ∨ 4 ≤ r.sched.steps.length := by
        intro hst b hb'
        obtain ⟨a, ha, hab⟩ := hcur b hb'
        rcases hbase hst a ha with h | h | h
        · exact Or.inl (hab.2 h)
        · exact Or.inr (Or.inl (by rw [hab.fields.1]; exact h))
        · exact Or.inr (Or.inr (by omega))
      refine ⟨h1.trans h2, st :: passed, more, by rw [e1]; rfl, ?_, ?_, e4, e5, ?_, ?_⟩
      · intro x hx hne b hs
        rcases List.mem_cons.mp hx with rfl | hx
        · by_cases hl : x.list = .steps
          · obtain ⟨ahead, list⟩ := x
            cases hl
            cases ahead
            · obtain ⟨c1, _, c2, c3, c4⟩ := hs
              have c1 := c1 rfl
              obtain ⟨a, ha, hab⟩ := hcur b c1
              by_cases had : a.baseDone = true
              · refine hb a ⟨fun _ => ha, nofun, ?_, had, ?_⟩
                · rw [← hab.fields.2.2.2.2]; exact c2
                · exact Nat.lt_of_le_of_lt hlen c4
              · obtain ⟨new, hn, hle, hiff⟩ := h2.steps
                rcases hbase rfl a ha with h | h | h
                · exact had h
                · have := hle _ ((hiff _).mpr ⟨false, a, b, ha, c1, by simpa using had, c3, rfl⟩)
                  simp [Buffer.base] at this
                  omega
                · omega
            · exact hne rfl
          · obtain ⟨b', h⟩ := h2.streams hs hl
            exact hb b' h
        · exact e2 x hx hne b hs
      · intro x hm hx
        cases passed with
        | nil =>
          cases Option.some.inj hx
          intro b hs
          rw [hm] at e1
          cases e1
          rw [← hr] at hs
          cases Option.some.inj hx
          exact hb b hs
        | cons y ys =>
          exact e3 x hm (by simpa using hx)
      · rintro (h | h)
        · rcases List.mem_cons.mp h with h | h
          · exact hb0 h.symm
          · exact e6 (Or.inl h)
        · exact e6 (Or.inr h)
      · intro hm hx
        cases passed with
        | nil =>
          rw [hm] at e1
          cases e1
          rw [← hr]
          exact hnext (Option.some.inj hx)
        | cons y ys =>
          have := e7 hm (by simpa using hx)
          rw [h1.delta] at this
          exact this

/-- A pass begins. -/
theorem startPass_begun (p : Part) : PassBegun p (startPass p) :=
  ⟨needTest p, needTest_tested p, seekEntry_stands _ _ _⟩

/-- A pass is asked for. -/
theorem requestPass_asked (p : Part) : PassAsked p (requestPass p) := by
  unfold requestPass
  constructor
  · intro h
    rw [h]
    exact startPass_begun p
  · intro h
    rw [if_pos (Option.isSome_iff_ne_none.mpr h)]

/-- A pass goes on, and one that fell due meanwhile follows it. -/
theorem goOn_goes (bound : Int) (left : List Stage) (p : Part) :
    PassGoesOn bound left p (goOn bound left p) := by
  have h := seekEntry_stands bound left p
  have hd : (seekEntry bound left p).reader.passDue = p.reader.passDue := by rw [h.handed.same]
  refine ⟨_, h, ?_, ?_⟩
  · intro hx
    unfold goOn nextPass
    rw [if_neg]
    rw [hd]
    rintro hy
    simp only [Bool.and_eq_true, Option.isNone_iff_eq_none] at hy
    rcases hx with hx | hx
    · exact hx hy.1
    · rw [hx] at hy
      exact nomatch hy.2
  · intro hx hy
    unfold goOn nextPass
    rw [hd, hx, hy]
    exact startPass_begun _

/-! ## Closes taken at once (R80) -/

/-- The closes past at a state are the ones CUE_CLOSE takes there. -/
theorem takeCloses_taken (p : Part) : ClosesTaken p (takeCloses p) := by
  intro s
  change Host.Outcome.next { s with part := if cueCloseDue p = true then takeCloses p else p } = _
  split
  · rfl
  · rename_i h
    have : takeCloses p = p := by
      unfold takeCloses
      cases hk : p.sched.cues.length with
      | zero => rfl
      | succ k => rw [runCloses, if_neg h]
    rw [this]

/-- With no cue listed nothing closes. -/
theorem takeCloses_nil {p : Part} (h : p.sched.cues = []) : takeCloses p = p := by
  rw [takeCloses, h]
  rfl

/-! ## Entries read (R28-R31, R34) -/

/-- An entry word read on at the stage at which the pass stands. -/
theorem entryServed_reads {mem : Memory} {p : Part} {x : Pass} {st : Stage} {rest : List Stage}
    {b : Buffer} (hp : p.reader.pass = some x) (hl : x.left = st :: rest) (hs : p.streams st b) :
    entryServed mem p = entryRead b st rest
      { x with got := x.got ++ [mem.read ((b.cursor st.list).addr + x.got.length)] } p := by
  unfold entryServed
  rw [hp]
  dsimp only
  rw [hl]
  dsimp only
  rw [(stageBuffer_iff st p b).mpr hs]

/-- The service of an entry word. -/
theorem exec_arbiterServe_entry {s : State} {x : Pass} {st : Stage} {rest : List Stage} {b : Buffer}
    (hr : nextRequester s.part = some .planReader) (hn : s.part.reader.line = [])
    (hp : s.part.reader.pass = some x) (hl : x.left = st :: rest) (hs : s.part.streams st b) :
    exec .arbiterServe s = .next { s with part := (entryRead b st rest
      { x with got := x.got ++ [s.store.read ((b.cursor st.list).addr + x.got.length)] }
      { s.part with arb := .planReader }) } := by
  change Host.Outcome.next (s.withResult (arbiterStep s.store s.part)) = _
  unfold arbiterStep serveRequester
  rw [hr]
  dsimp only [served]
  rw [hn]
  dsimp only
  rw [entryServed_reads (p := { s.part with arb := .planReader }) hp hl hs]
  rfl

/-- The course of an entry out of order: a lock of a playing Player. -/
theorem badEntry_locks (addr : Nat) {p : Part} (h : p.playing = true) :
    badEntry addr p = lockPlayer .badBlock addr (putPass none p) := by
  unfold badEntry lockRequest
  rw [if_pos]
  change lockTaken .badBlock p.player.state = true
  unfold Part.playing at h
  cases hs : p.player.state <;> simp_all [lockTaken]

/-- The fate of an entry, case by case (R29-R31, R34). -/
structure FateOf (b : Buffer) (kind : ListKind) (wrong : Bool) (pos : Nat) (d bound : Int)
    (fate : EntryFate) : Prop where
  bad : (∃ m, (b.cursor kind).prev = some m ∧ pos < m) ∨ wrong = true → fate = .bad
  before : ¬((∃ m, (b.cursor kind).prev = some m ∧ pos < m) ∨ wrong = true) →
    pos < b.passage.startPos → fate = .before
  beyond : ¬((∃ m, (b.cursor kind).prev = some m ∧ pos < m) ∨ wrong = true) →
    b.passage.startPos ≤ pos →
    b.passage.endPos < pos ∨ b.passage.endPos = pos ∧ kind ≠ .steps → fate = .beyond
  later : ¬((∃ m, (b.cursor kind).prev = some m ∧ pos < m) ∨ wrong = true) →
    b.passage.startPos ≤ pos →
    ¬(b.passage.endPos < pos ∨ b.passage.endPos = pos ∧ kind ≠ .steps) →
    bound < (pos : Int) + d → fate = .later
  handed : ¬((∃ m, (b.cursor kind).prev = some m ∧ pos < m) ∨ wrong = true) →
    b.passage.startPos ≤ pos →
    ¬(b.passage.endPos < pos ∨ b.passage.endPos = pos ∧ kind ≠ .steps) →
    (pos : Int) + d ≤ bound → fate = .handed

theorem entryFate_spec (b : Buffer) (kind : ListKind) (wrong : Bool) (pos : Nat) (d bound : Int) :
    FateOf b kind wrong pos d bound (entryFate b kind wrong pos d bound) := by
  have h : ((b.cursor kind).outOfOrder pos || wrong) = true
      ↔ (∃ m, (b.cursor kind).prev = some m ∧ pos < m) ∨ wrong = true := by
    unfold Cursor.outOfOrder
    cases (b.cursor kind).prev <;> simp
  have h2 : (b.passage.endPos ≤ pos ∧ (kind ≠ .steps ∨ b.passage.endPos < pos))
      ↔ (b.passage.endPos < pos ∨ b.passage.endPos = pos ∧ kind ≠ .steps) := by
    constructor
    · rintro ⟨h1, h2 | h2⟩ <;> by_cases h3 : b.passage.endPos = pos <;>
        first | exact Or.inl (by omega) | exact Or.inr ⟨h3, h2⟩
    · rintro (h1 | ⟨h1, h2⟩)
      · exact ⟨by omega, Or.inr h1⟩
      · exact ⟨by omega, Or.inl h2⟩
  unfold entryFate
  simp only [h, h2]
  constructor
  · intro a
    rw [if_pos a]
  · intro a c
    rw [if_neg a, if_pos c]
  · intro a c e
    rw [if_neg a, if_neg (by omega), if_pos e]
  · intro a c e g
    rw [if_neg a, if_neg (by omega), if_neg e, if_pos g]
  · intro a c e g
    rw [if_neg a, if_neg (by omega), if_neg e, if_neg (by omega)]

/-! ## The entry into a passage and the completion beside it (R27, R93, R98, R103) -/

/-- The watched cue is the head of the Cue List. -/
theorem rewatch_watches (p : Part) : WatchesHead (rewatch p) := by
  unfold WatchesHead rewatch
  cases p.reader.current <;> cases p.sched.cues <;>
    simp [Follower.closeOf, Follower.predict, Follower.halfWidth]

/-- Everything an entry into a passage does. -/
theorem enterPassage_eq (b : Buffer) (atStart : Bool) (tau : Int) (p : Part) :
    enterPassage b atStart tau p = { p with
      reader := { p.reader with
        current := some b, delta := 0, pass := p.reader.pass.map fun x => x.enter p.reader.delta }
      sched := p.sched.enter p.reader.delta b.planIndex
      follower := p.follower.enter b.passage atStart tau
      listen := { p.listen with queue := if b.passage.follow then p.listen.queue else [] }
      report := { p.report with
        boundary := some (beatAtOrAbove b.passage.startPos), beatPending := false } } := by
  unfold enterPassage placeBoundary flushOnsets
  cases b.passage.follow <;> rfl

/-- A note left is one of the window, where the clock has not saturated in a DRAINING. -/
theorem noteLeft_iff {p : Part} (h : p.drainsSaturated = false) (idx : Nat) :
    p.noteLeft idx = true ↔ ∃ x ∈ p.sched.window, x.planIndex = idx := by
  simp [Part.noteLeft, Part.neverKeyed, h]

/-- The completion test while no passage drains (R103): the finishing passage completes where none of its
notes is left. -/
theorem completion_playing {p : Part} {q idx : Nat} (hs : p.player.state ≠ .draining)
    (hn : p.reader.next = .finishing q idx false) :
    completion p =
      if p.noteLeft idx then p
      else if p.reader.currentPtr = some q then
        { p with reader := { p.reader with next := .empty } }
      else
        askReader (.spent q true)
          { p with reader := { p.reader with next := .finishing q idx true } } := by
  have hc : ∀ r : Part, r.player.state ≠ .draining →
      (if planOver (completeCurrent r) then endPlan (completeCurrent r) else completeCurrent r)
        = r := by
    intro r hr
    have : completeCurrent r = r := by
      unfold completeCurrent
      split
      · rename_i h _
        exact absurd h hr
      · rfl
    rw [this, if_neg]
    simp [planOver, hr]
  unfold completion
  dsimp only
  rw [hc]
  · unfold completeFinishing
    rw [hn]
  · unfold completeFinishing
    rw [hn]
    dsimp only
    split
    · exact hs
    · split <;> exact hs

/-- A trigger begins a Now write or stands pending (R56). -/
theorem trigger_triggered (p : Part) : Triggered p (trigger p) := by
  unfold trigger
  constructor
  · intro h1 h2
    rw [if_pos (by simp [h1, h2])]
    exact ⟨rfl, by simp [beginNowWrite, nowWrites]⟩
  · intro h
    rw [if_neg (by simp [h])]
    exact ⟨rfl, rfl⟩

/-- A trigger with no beat waiting leaves the next boundary. -/
theorem trigger_boundary {p : Part} (h : p.report.beatPending = false) :
    (trigger p).report.boundary = p.report.boundary
      ∧ (trigger p).report.beatPending = false := by
  unfold trigger beginNowWrite
  split <;> simp [h]

theorem triggerIf_boundary (b : Bool) {p : Part} (h : p.report.beatPending = false) :
    (triggerIf b p).report.boundary = p.report.boundary
      ∧ (triggerIf b p).report.beatPending = false := by
  cases b
  · exact ⟨rfl, h⟩
  · exact trigger_boundary h

/-- The entry hold, with the watched cue read off the list anew. -/
theorem entryHold_held (n : Passage) (p : Part) : EntryHeld n p (rewatch (entryHold n p)) := by
  have hr : ∀ q : Part, rewatch q = { q with follower := { q.follower with
      watched := (rewatch q).follower.watched } } := by
    intro q
    unfold rewatch
    cases q.reader.current <;> cases q.sched.cues <;> rfl
  have hh : n.holdAtEntry = true → entryHold n p = trigger { p with
      player := { p.player with state := .held }
      follower := { p.follower with freeze := some (n.startPos : Int) }
      listen := { p.listen with queue := [] } } := by
    intro h
    unfold entryHold
    rw [if_pos h]
    rfl
  have hf : n.holdAtEntry = false → entryHold n p = p := by
    intro h
    unfold entryHold
    rw [if_neg (by simp [h])]
  refine ⟨fun h => ?_, fun hb => ?_, fun h => ?_, rewatch_watches _⟩
  · have ht : ∀ q : Part, trigger q = { q with report := (trigger q).report } := by
      intro q
      unfold trigger beginNowWrite
      split <;> rfl
    rw [hr]
    dsimp only
    rw [hh h, ht]
  · have e : (rewatch (entryHold n p)).report = (entryHold n p).report := by rw [hr]
    rw [e]
    cases h : n.holdAtEntry
    · rw [hf h]
    · rw [hh h]
      exact (trigger_boundary (p := { p with
        player := { p.player with state := .held }
        follower := { p.follower with freeze := some (n.startPos : Int) }
        listen := { p.listen with queue := [] } }) hb).1
  · rw [hr]
    dsimp only
    rw [hf h]

/-- What follows the entry into a passage, once for all entries. -/
theorem afterEntry_goesOn (n : Passage) (p : Part) : EntryGoesOn n p (afterEntry n p) :=
  ⟨needTest p, rewatch (entryHold n (needTest p)), settleCloses (entryHold n (needTest p)),
    needTest_tested p, entryHold_held n _, takeCloses_taken _, requestPass_asked _⟩

end Sys2Proof.Machine
end

