-- ==== Sys2Proof/Tests/Slice0.lean ====
section
/-! SUPPORT. The model's own tests: ill-formed commands that the checks refuse, single steps on small
states, and for every statement with hypotheses states that meet them, clause by clause. -/

namespace Sys2Proof.Tests

open Sys2Proof.Machine

/-! ## The checks on operands -/

/-- A correct key with a defined action is no bad Transfer write (R40). -/
theorem test_badKey_refused : wellFormed (.badKey 0xB401) = false := by decide

/-- A one-bit word holds no 2; a word has at least one bit (R58). -/
theorem test_audioSample_refused :
    wellFormed (.audioSample 0 1 2) = false ∧ wellFormed (.audioSample 0 0 0) = false := by decide

/-- An echo is 0 to 15, senses come in whole boards (R162, R164). -/
theorem test_frameComplete_refused :
    wellFormed (.frameComplete (some 16) []) = false
      ∧ wellFormed (.frameComplete none [.none]) = false := by decide

/-- The boundary values are well formed. -/
theorem test_wellFormed_boundary :
    wellFormed (.badKey 0xB404) = true ∧ wellFormed (.badKey 0x0001) = true
      ∧ wellFormed (.audioSample 3 24 0xFFFFFF) = true
      ∧ wellFormed (.frameComplete (some 15) []) = true := by decide

/-! ## Small states -/

/-- The part with clearing over. -/
def p0 : Part := { Part.reset with clearing := false }

/-- A part with a setup of one board, power on and two slots. -/
def lit : Part := { p0 with
  setupLoaded := true
  setup := { Setup.unconfigured with
    boards := 1, settle := 20, pullIn := 20, stopPulse := 100, pmax := 2, horizon := 96 }
  power := { on := true, cause := .reset }
  keys := { p0.keys with slotLimit := 2, slotTarget := 2 } }

/-- A part alone, over a store. -/
def over_ (m : Memory) (p : Part) : State := { pending := [], store := m, part := p }

/-- A part over the empty store. -/
def alone (p : Part) : State := over_ [] p

/-- A player state. -/
def inState (st : PlayerState) (p : Part) : Part := { p with player := { p.player with
  state := st } }

/-- The entry of one output replaced, with no other effect. -/
def withEntry (n : OutputId) (e : KeyEntry) (p : Part) : Part :=
  { p with keys := { p.keys with entries := put p.keys.entries n e } }

/-- The detector of one output replaced. -/
def withDetector (n : OutputId) (d : Detector) (p : Part) : Part :=
  { p with guard := { p.guard with detectors := put p.guard.detectors n d } }

/-- The map entry of one output replaced. -/
def withMap (n : OutputId) (e : MapEntry) (p : Part) : Part :=
  { p with setup := { p.setup with outputMap := put p.setup.outputMap n e } }

/-- A KEY entry with a state, a count and a timer that has expired. -/
def keyIn (st : KeyState) (count : Nat) : KeyEntry :=
  { state := st, count := count, kind := .key, timer := some 0, coolOff := false }

/-- A command at its owner. -/
def owned (code : Nat) (args : List Word) (p : Part) : Part :=
  { p with slot := { phase := .applying, command := code, args := args } }

/-- A slot phase. -/
def inPhase (ph : SlotPhase) (p : Part) : Part := { p with slot := { p.slot with phase := ph } }

/-- One access alone in the Service Unit's line. -/
def serving (a : SvcAccess) (p : Part) : Part := { p with svcLine := [a] }

/-- One access alone in the Plan Reader's line. -/
def reading (a : ReaderAccess) (p : Part) : Part :=
  { p with reader := { p.reader with line := [a] } }

/-- Accesses on the console port. -/
def held (l : List PortAccess) (p : Part) : Part := { p with port := { p.port with waiting := l } }

/-- A passage of one beat in console space. -/
def hymn (follow : Bool) : Passage where
  ptr := 0x300
  next := 0
  sequence := 1
  kind := 0
  follow := follow
  block := 0x400
  startPos := 0
  endPos := 96
  tn := 500000
  band := 10
  window := 32
  phaseGain := 128
  periodGain := 64
  missLimit := 3
  entryGap := 0
  leadAdjust := 0
  holdAtEntry := false
  baseCount := 0
  baseReg := []
  blockLength := 96
  noteCount := 0
  cueCount := 0
  stepCount := 0
  notePtr := 0
  cuePtr := 0
  stepPtr := 0

/-- The passage in a buffer. -/
def hymnBuffer (follow : Bool) (idx : Nat) : Buffer := (hymn follow).buffer idx

/-- The passage is current, in a player state. -/
def sounding (follow : Bool) (st : PlayerState) : Part :=
  inState st { lit with reader := { lit.reader with current := some (hymnBuffer follow 0) } }

/-- The same with a look phase and a look timer that has expired. -/
def seeking (st : PlayerState) : Part :=
  let p := sounding false st
  { p with reader := { p.reader with phase := .seeking, lookTimer := some 0 } }

/-- A passage that follows is held. -/
def followed (p : Part) : Part :=
  { p with reader := { p.reader with next := .following (hymnBuffer true 1) } }

/-- A fermata at a position, in a phase. -/
def withFermata (ph : FermataPhase) (pf : Int) (p : Part) : Part :=
  { p with player := { p.player with fermata := { Fermata.init with phase := ph, pf := pf } } }

/-- A take of a whole record whose words pass, or fail, the structural tests. -/
def taken (head good : Bool) : Take :=
  { ptr := 0x280, head := head, got := [(4, 0x300), (7, if good then 96 else 0), (100, 96)] }

/-- The stamp exchange next, of a take. -/
def exchanging (t : Take) (p : Part) : Part :=
  reading .exchange { p with reader := { p.reader with take := some t } }

/-- A frame in progress with a sequence number. -/
def frameOf (seq : Nat) : ChainFrame :=
  { seq := seq, boards := 1, drive := Vector.replicate 256 .off, duty := Vector.replicate 8 0 }

/-- A cue of a kind at a position. -/
def cueAt (kind : CueKind) (pos : Int) : Cue :=
  { position := pos, kind := kind, cls := .strong, hf := 0, maxHold := 1, breath := 0,
    planIndex := 0 }

/-- An onset at a time. -/
def onsetAt (t : Int) (masked : Bool) : Onset :=
  { time := t, members := [(0, 1)], strength := 1, masked := masked }

/-- A note of the passage, claiming output 0. -/
def noteIn (st : NoteState) (position release : Int) : Note where
  position := position
  release := release
  division := 0
  key := 0
  outputs := [0]
  planIndex := 0
  holdAtEntry := false
  keyingLead := 0
  releaseLead := 0
  claimed := []
  state := st

/-- A record to be written of an output. -/
def recordOf (n : OutputId) (passed : Bool) : FaultRecord :=
  { output := n, kind := .open, retries := 3, clock := 65535, passed := passed }

/-- A TEST of an output not found DISABLED, in a stage. -/
def testOf (n last : OutputId) (st : TestStage) : Option Test :=
  some { last := last, output := n, marked := false, stage := st }

/-- A TEST at an output, in a stage. -/
def testing (n last : OutputId) (st : TestStage) (p : Part) : Part := { p with
  guard := { p.guard with
  test := some { last := last, output := n, marked := false, stage := st } } }

/-- A part whose queue is empty and no entry of which is in WAITING. -/
theorem exact_of {p : Part} (h : p.keys.queue = [])
    (w : (allOutputs.all fun n => (entry p.keys.entries n).state != .waiting) = true) :
    QueueExact p.keys := by
  refine ⟨fun n => ?_, by rw [h]; exact List.nodup_nil, by rw [h]; decide⟩
  have a := List.all_eq_true.1 w n (List.mem_finRange n)
  rw [h]
  simpa using a

/-- Every output of `lit` is OFF. -/
theorem lit_off : ∀ n : OutputId, (entry lit.keys.entries n).state = .off := by decide +kernel

/-- The queue of `lit` is exact. -/
theorem lit_exact : QueueExact lit.keys := exact_of rfl (by decide +kernel)

/-- So it is with one entry replaced by one not in WAITING. -/
theorem exact_with (n : OutputId) (e : KeyEntry) {p : Part} (k : p.keys = (withEntry n e lit).keys)
    (h : e.state ≠ .waiting) : QueueExact p.keys := by
  rw [k]
  refine ⟨fun m => ?_, List.nodup_nil, Nat.zero_le _⟩
  have a : entry (withEntry n e lit).keys.entries m =
      if m = n then e else entry lit.keys.entries m := entry_put _ _ _ _
  have b : (withEntry n e lit).keys.queue = [] := rfl
  rw [a, b]
  split
  · simpa using h
  · simp [lit_off m]

/-! ## Single steps -/

/-- An accepted TAKE asks for the command code. -/
theorem test_take_step :
    ∃ t, step { alone lit with pending := [.take] } = .next t ∧ t.part.svcLine = [.readCode] :=
  ⟨_, rfl, rfl⟩

/-- A write served at the last address of the store is read back (R1). -/
theorem test_storeWrite_served :
    ∃ t, exec .arbiterServe (alone (held [.write 0x7FFF 5] lit)) = .next t
      ∧ t.store.read 0x7FFF = 5 :=
  ⟨_, rfl, rfl⟩

/-- A position half a beat on: t is rounded half up (R76). -/
theorem test_predict_half_up : ({ Follower.init with period := 250001 } : Follower).predict 48
    = 125001 := by decide

/-! ## States that meet the hypotheses: reset, port, slot -/

theorem test_met_idle :
    (alone lit).pending = [] := by decide

theorem test_met_storeInvariant :
    StoreOk (alone lit)
      ∧ ∃ t, step (alone lit) = .next t := ⟨rfl, _, rfl⟩

theorem test_met_partInvariant :
    PartInv (alone lit).part
      ∧ ∃ t, step (alone lit) = .next t :=
  ⟨⟨lit_exact, fun h => Bool.noConfusion h, by unfold ListsFit; decide,
    by unfold AttentionOk; decide⟩, _, rfl⟩

theorem test_met_clearingEnd :
    (let p := Part.reset;
        p.clearing = true ∧ p.port.waiting = [])
      ∧ (let p := held [.read 0x7FFF] Part.reset;
        p.clearing = true ∧ p.port.waiting = [.read 0x7FFF])
      ∧ (let p := held [.write 0 1] Part.reset;
        p.clearing = true ∧ p.port.waiting = [.write 0 1] ∧ StoreOk (alone p))
      ∧ (let p := held [.transfer 0xB401] Part.reset;
        p.clearing = true ∧ p.port.waiting = [.transfer 0xB401] ∧ p.slot.phase = .free
          ∧ p.softReset = false) := by decide

theorem test_met_consoleAccess :
    (let p := held [.read 0] lit;
        nextRequester p = some .console ∧ p.port.waiting = [.read 0])
      ∧ (let p := held [.write 0x7FFF 1] lit;
        nextRequester p = some .console ∧ p.port.waiting = [.write 0x7FFF 1]
          ∧ StoreOk (alone p)) := by decide

theorem test_met_arbiter :
    nextRequester (serving .readCode lit) = some .serviceUnit
      ∧ nextRequester (held [.read 0] (serving .readCode lit)) = some .console
      ∧ nextRequester lit = none
      ∧ (∀ r, lit.waits r = false) :=
  ⟨rfl, rfl, rfl, fun r => by cases r <;> rfl⟩

theorem test_met_take :
    (let p := lit;
        p.portOpen ∧ p.slot.phase = .free)
      ∧ (let p := inPhase .closing lit;
        p.portOpen ∧ p.slot.phase ≠ .free)
      ∧ (let p := Part.reset;
        p.port.waiting = [] ∧ p.clearing = true)
      ∧ (let p := ({ lit with softReset := true } : Part);
        p.port.waiting = [] ∧ p.softReset = true) := by decide

theorem test_met_badTransfer :
    (isBadTransfer 0xB400 = true ∧ lit.portOpen)
      ∧ (isBadTransfer 0xB404 = true ∧ lit.portOpen)
      ∧ (isBadTransfer 0xB301 = true ∧ Part.reset.port.waiting = []
        ∧ Part.reset.clearing = true) := by decide

theorem test_met_registers :
    lit.port.waiting = []
      ∧ (held [.read 0] lit).port.waiting ≠ [] := by decide

theorem test_met_partState :
    (let p := ({ lit with lastCommand := 15, prevCommand := 15 } : Part);
        p.lastCommand < 16 ∧ p.prevCommand < 16) := by decide

theorem test_met_haltPlan :
    (let p := sounding true .running;
        p.portOpen ∧ p.playing = true ∧ p.slot.phase = .free)
      ∧ (let p := inPhase .applying (sounding true .draining);
        p.portOpen ∧ p.playing = true ∧ p.slot.phase = .applying) := by decide

theorem test_met_haltSlot :
    (let p := lit;
        p.portOpen ∧ p.player.state = .idle ∧ p.slot.phase = .free)
      ∧ (let p := inPhase .copying (inState .locked lit);
        p.portOpen ∧ p.player.state = .locked ∧ p.slot.phase = .copying)
      ∧ (let p := testing 0 255 .pulled (inPhase .testing lit);
        p.portOpen ∧ p.player.state = .idle ∧ p.slot.phase = .testing
          ∧ p.guard.test = testOf 0 255 .pulled) := by decide

theorem test_met_softReset :
    (let p := lit;
        p.portOpen ∧ p.power.on = true ∧ p.slot.phase = .free)
      ∧ (let p := inPhase .reading lit;
        p.portOpen ∧ p.slot.phase ≠ .free ∧ p.slot.phase ≠ .closing)
      ∧ (let p := ({ lit with softReset := true } : Part);
        softResetReady p = true ∧ p.port.waiting = []) := by decide

/-- A Transfer write of each kind held on WAIT through a soft reset, alone and with a store access behind it;
a store access at the head. -/
theorem test_met_softResetHeld :
    (∀ (w : Word) (rest : List PortAccess),
        let p := held (.transfer w :: rest) { lit with softReset := true }
        softResetReady p = true ∧ p.port.waiting = .transfer w :: rest)
      ∧ isBadTransfer 0xB404 = true
      ∧ softResetReady (held [.write 0 1] { lit with softReset := true }) = true :=
  ⟨fun _ _ => ⟨rfl, rfl⟩, by decide, rfl⟩

/-- The boundary codes of each group: 0 and 10 undefined, 3 and 9 without arguments, 1 and 8
  with. -/
theorem test_met_commandCode :
    (serving .readCode lit).serviceNext .readCode []
      ∧ (over_ [] lit).store.read 0 = 0
      ∧ (over_ [(0, 10)] lit).store.read 0 = 10
      ∧ (over_ [(0, 3)] lit).store.read 0 = 3
      ∧ (over_ [(0, 9)] lit).store.read 0 = 9
      ∧ (over_ [(0, 1)] lit).store.read 0 = 1
      ∧ (over_ [(0, 8)] lit).store.read 0 = 8
      ∧ (serving (.readArg 4) lit).serviceNext (.readArg 4) [] := by decide

theorem test_met_closing :
    StoreOk (alone lit)
      ∧ (serving (.writeDetail 0) lit).serviceNext (.writeDetail 0) []
      ∧ (serving (.writeCode 1) lit).serviceNext (.writeCode 1) [] := by decide

/-! ## States that meet the hypotheses: service commands -/

theorem test_met_failedSetup :
    (let p := owned 1 [0x240] (sounding true .running);
        p.atOwner 1 ∧ p.player.state ≠ .idle)
      ∧ (let p := owned 1 [0x23F] lit;
        p.atOwner 1 ∧ p.player.state = .idle ∧ (p.slot.arg 1).toNat < 0x240)
      ∧ (let p := owned 1 [0x7EB7] lit;
        p.atOwner 1 ∧ p.player.state = .idle ∧ 0x7EB6 < (p.slot.arg 1).toNat)
      ∧ (let p := owned 1 [0x7EB6] lit;
        p.atOwner 1 ∧ p.player.state = .idle ∧ (p.slot.arg 1).toNat = 0x7EB6
          ∧ (alone p).store.read 0x7EB6 = 0) := by decide

theorem test_met_failedStart :
    (let p := owned 2 [0x240] p0;
        p.atOwner 2 ∧ p.setupLoaded = false)
      ∧ (let p := owned 2 [0x240] (sounding true .running);
        p.atOwner 2 ∧ p.setupLoaded = true ∧ p.player.state ≠ .idle)
      ∧ (let p := owned 2 [0x240] { lit with power := p0.power };
        p.atOwner 2 ∧ p.setupLoaded = true ∧ p.player.state = .idle ∧ p.power.on = false)
      ∧ (let p := owned 2 [0x23F] lit;
        p.atOwner 2 ∧ p.setupLoaded = true ∧ p.player.state = .idle ∧ p.power.on = true
          ∧ (p.slot.arg 1).toNat < 0x240)
      ∧ (let p := owned 2 [0x8000] lit;
        p.atOwner 2 ∧ p.power.on = true ∧ 0x7FFF < (p.slot.arg 1).toNat) := by decide

theorem test_met_failedPlayer :
    (let p := owned 3 [] lit;
        p.atOwner 3 ∧ p.player.state = .idle)
      ∧ (let p := owned 3 [] (sounding true .draining);
        p.atOwner 3 ∧ p.player.state = .draining)
      ∧ (let p := owned 4 [] (sounding true .starved);
        p.atOwner 4 ∧ p.player.state ≠ .running ∧ p.player.state ≠ .held)
      ∧ (let p := owned 5 [] (sounding true .running);
        p.atOwner 5 ∧ p.player.state ≠ .held)
      ∧ (let p := owned 6 [1] lit;
        p.atOwner 6 ∧ p.player.state ≠ .running ∧ p.player.state ≠ .held) := by decide

/-- The supply one step below the working range. -/
theorem test_met_failedPower :
    (let p := owned 7 [2] lit;
        p.atOwner 7 ∧ 1 < (p.slot.arg 1).toNat)
      ∧ (let p := owned 7 [1] p0;
        p.atOwner 7 ∧ (p.slot.arg 1).toNat = 1 ∧ p.setupLoaded = false)
      ∧ (let p := owned 7 [1] { lit with chain := { lit.chain with fault := true } };
        p.atOwner 7 ∧ p.setupLoaded = true ∧ p.chain.fault = true)
      ∧ (let p := owned 7 [1] { lit with supply := { lit.supply with vcut := 1 } };
        p.atOwner 7 ∧ p.setupLoaded = true ∧ p.chain.fault = false
          ∧ p.supply.vs < p.supply.vcut) := by decide

theorem test_met_failedTest :
    (let p := owned 8 [0, 1] p0;
        p.atOwner 8 ∧ p.setupLoaded = false)
      ∧ (let p := owned 8 [0, 1] (sounding true .running);
        p.atOwner 8 ∧ p.setupLoaded = true ∧ p.player.state ≠ .idle)
      ∧ (let p := owned 8 [0, 1] { lit with power := p0.power };
        p.atOwner 8 ∧ p.setupLoaded = true ∧ p.player.state = .idle ∧ p.power.on = false)
      ∧ (let p := owned 8 [255, 254] lit;
        p.atOwner 8 ∧ p.power.on = true
          ∧ min (p.slot.arg 2).toNat 255 < min (p.slot.arg 1).toNat 255) := by decide

theorem test_met_setup :
    (let p := owned 1 [0x7EB6] lit;
        p.atOwner 1 ∧ p.player.state = .idle ∧ (p.slot.arg 1).toNat = 0x7EB6
          ∧ (over_ [(0x7EB6, 9)] p).store.read 0x7EB6 ≠ 0 ∧ p.chain.length ≠ some 8)
      ∧ (let p := owned 1 [0x240] { lit with chain := { lit.chain with length := some 8 } };
        p.atOwner 1 ∧ (p.slot.arg 1).toNat = 0x240 ∧ p.chain.length = some 8) := by decide

/-- Words 1 and 328; the boards present at their edge; a key at, and above, its range; a fifth
  output. -/
theorem test_met_setupWords :
    (serving (.copyWord 1) lit).serviceNext (.copyWord 1) []
      ∧ (serving (.copyWord 328) lit).serviceNext (.copyWord 328) []
      ∧ 32 * lit.setup.boards ≤ (32 : OutputId).val
      ∧ (31 : OutputId).val < 32 * lit.setup.boards
      ∧ rawMapEntry 0x103C = .key 0 60
      ∧ 60 ≤ maxKey 0
      ∧ (keyOutputs lit.setup.outputMap 0 60).length < 4
      ∧ rawMapEntry 0x103D = .key 0 61
      ∧ maxKey 0 < 61
      ∧ rawMapEntry 0x1320 = .key 3 32
      ∧ maxKey 3 < 32
      ∧ 4 ≤ (keyOutputs (withMap 3 (.key 0 1) (withMap 2 (.key 0 1) (withMap 1 (.key 0 1)
          (withMap 0 (.key 0 1) lit)))).setup.outputMap 0 1).length
      ∧ rawMapEntry 0x203F = .stopOn 63 := by decide +kernel

theorem test_met_setupComplete :
    (serving (.copyWord 329) lit).serviceNext (.copyWord 329) []
      ∧ lit.keys.queue = [] := by decide

theorem test_met_start :
    (let p := owned 2 [0x7FFF] (held [.read 0] lit);
        p.atOwner 2 ∧ p.setupLoaded = true ∧ p.player.state = .idle ∧ p.power.on = true
          ∧ (p.slot.arg 1).toNat = 0x7FFF ∧ p.storeFree = false)
      ∧ (let p := owned 2 [0x240] lit;
        p.atOwner 2 ∧ p.setupLoaded = true ∧ p.player.state = .idle ∧ p.power.on = true
          ∧ (p.slot.arg 1).toNat = 0x240 ∧ p.storeFree = true
          ∧ (over_ [(0x240, 1)] p).store.read 0x240 = 1
          ∧ (alone p).store.read 0x240 ≠ 1) := by decide

theorem test_met_stop :
    (let p := owned 3 [] (sounding true .running);
        p.atOwner 3 ∧ p.player.state = .running ∧ p.reader.next.isFollowing = false)
      ∧ (let p := owned 3 [] (followed (sounding true .held));
        p.atOwner 3 ∧ p.player.state = .held ∧ p.reader.next = .following (hymnBuffer true 1))
      ∧ (let p := owned 3 [] (sounding true .starved);
        p.atOwner 3 ∧ p.player.state = .starved) := by decide

theorem test_met_holdResumeNudge :
    (let p := owned 4 [] (sounding true .running);
        p.atOwner 4 ∧ p.player.state = .running)
      ∧ (let p := owned 4 [] (sounding true .held);
        p.atOwner 4 ∧ p.player.state = .held)
      ∧ (let p := owned 5 [] (sounding true .held);
        p.atOwner 5 ∧ p.player.state = .held ∧ p.player.fermata.phase ≠ .deferred)
      ∧ (let p := owned 5 [] (withFermata .deferred 0 (sounding true .held));
        p.atOwner 5 ∧ p.player.fermata.phase = .deferred)
      ∧ (let p := owned 6 [0xFFF5] (sounding true .running);
        p.atOwner 6 ∧ p.player.state = .running)
      ∧ (let p := owned 6 [11] (sounding true .held);
        p.atOwner 6 ∧ p.player.state = .held) := by decide

theorem test_met_power :
    (let p := owned 7 [1] lit;
        p.atOwner 7 ∧ p.slot.arg 1 = 1 ∧ p.setupLoaded = true ∧ p.chain.fault = false
          ∧ p.supply.vcut ≤ p.supply.vs ∧ p.supply.vs ≤ p.supply.vmax ∧ p.power.on = true)
      ∧ (let p := owned 7 [1] { lit with power := p0.power };
        p.atOwner 7 ∧ p.slot.arg 1 = 1 ∧ p.setupLoaded = true ∧ p.power.on = false)
      ∧ (let p := owned 7 [0] lit;
        p.atOwner 7 ∧ p.slot.arg 1 = 0 ∧ p.power.on = true ∧ p.guard.test = none)
      ∧ (let p := owned 7 [0] p0;
        p.atOwner 7 ∧ p.slot.arg 1 = 0 ∧ p.power.on = false) := by decide

theorem test_met_test :
    (let p := owned 8 [0, 0xFFFF] lit;
        p.atOwner 8 ∧ p.setupLoaded = true ∧ p.player.state = .idle ∧ p.power.on = true
          ∧ min (p.slot.arg 1).toNat 255 = 0 ∧ min (p.slot.arg 2).toNat 255 = 255
          ∧ (∀ n : OutputId, entry p.setup.outputMap n = .unused))
      ∧ (let p := owned 8 [0, 255] (withMap 255 (.key 0 0) lit);
        p.atOwner 8 ∧ min (p.slot.arg 2).toNat 255 = (255 : OutputId).val
          ∧ entry p.setup.outputMap 255 ≠ .unused
          ∧ (∀ x : OutputId, x < 255 → entry p.setup.outputMap x = .unused)
          ∧ p.keys.queue = []) := by decide +kernel

/-- An output DISABLED, with the Player unlocked and locked. -/
theorem test_met_clear :
    (let p := owned 9 [] (withEntry 255 (keyIn .disabled 0) lit);
        p.atOwner 9 ∧ QueueExact p.keys ∧ p.player.state ≠ .locked
          ∧ (entry p.keys.entries 255).state = .disabled)
      ∧ (let p := owned 9 [] (inState .locked (withEntry 255 (keyIn .disabled 0) lit));
        p.atOwner 9 ∧ QueueExact p.keys ∧ p.player.state = .locked) :=
  ⟨⟨by decide, exact_with 255 (keyIn .disabled 0) rfl (by decide), by decide, by decide⟩,
    ⟨by decide, exact_with 255 (keyIn .disabled 0) rfl (by decide), rfl⟩⟩

/-! ## States that meet the hypotheses: the Plan Reader -/

theorem test_met_look :
    (let p := reading .lookNext (seeking .running);
        p.reader.current = some (hymnBuffer false 0) ∧ p.reader.phase = .seeking
          ∧ p.reader.lookTimer = some 0 ∧ 0 ≤ p.time ∧ p.reader.looking = true)
      ∧ (let p := held [.read 0] (seeking .running);
        p.reader.current = some (hymnBuffer false 0) ∧ p.reader.phase = .seeking
          ∧ p.reader.lookTimer = some 0 ∧ 0 ≤ p.time ∧ p.reader.looking = false
          ∧ p.player.state ≠ .starved ∧ p.storeFree = false)
      ∧ (let p := seeking .running;
        p.reader.current = some (hymnBuffer false 0) ∧ p.reader.phase = .seeking
          ∧ p.reader.lookTimer = some 0 ∧ 0 ≤ p.time ∧ p.reader.looking = false
          ∧ p.storeFree = true ∧ p.player.state ≠ .starved ∧ p.seekState = true
          ∧ (alone p).store.read 0x301 = 0
          ∧ (over_ [(0x301, 0xFFFF)] p).store.read 0x301 = 0xFFFF
          ∧ ((over_ [(0x301, 0x23F)] p).store.read 0x301).toNat < 0x240
          ∧ 0x7FFF < ((over_ [(0x301, 0x8000)] p).store.read 0x301).toNat
          ∧ ((over_ [(0x240, 1), (0x301, 0x240)] p).store.read 0x301).toNat = 0x240
          ∧ (over_ [(0x240, 1), (0x301, 0x240)] p).store.read 0x240 = 1
          ∧ ((over_ [(0x301, 0x7FFF)] p).store.read 0x301).toNat = 0x7FFF
          ∧ (over_ [(0x301, 0x7FFF)] p).store.read 0x7FFF ≠ 1)
      ∧ (let p := seeking .starved;
        p.reader.current = some (hymnBuffer false 0) ∧ p.reader.phase = .seeking
          ∧ p.reader.lookTimer = some 0 ∧ 0 ≤ p.time ∧ p.player.state = .starved
          ∧ p.reader.looking = false ∧ p.reader.next.isFinishing = false
          ∧ p.storeFree = true) := by decide

theorem test_met_takeCopy :
    (let p := reading .lookNext (sounding true .running);
        p.readerNext .lookNext [] ∧ p.reader.current = some (hymnBuffer true 0)
          ∧ (alone p).store.read 0x301 = 0
          ∧ ((over_ [(0x301, 0x240)] p).store.read 0x301).toNat = 0x240)
      ∧ (let p := reading (.lookStamp 0x7FFE) (sounding true .running);
        p.readerNext (if false then .headStamp 0x7FFE else .lookStamp 0x7FFE) []
          ∧ (over_ [(0x7FFE, 1)] p).store.read 0x7FFE = 1 ∧ (alone p).store.read 0x7FFE ≠ 1)
      ∧ (let p := reading (.headStamp 0x240) lit;
        p.readerNext (.headStamp 0x240) [] ∧ (alone p).store.read 0x240 ≠ 1
          ∧ (over_ [(0x240, 1)] p).store.read 0x240 = 1)
      ∧ (let p := reading .copy { lit with reader := { lit.reader with
        take := some { ptr := 0x240, head := true, got := [] } } };
        p.readerNext .copy [] ∧ p.reader.take = some { ptr := 0x240, head := true, got := [] }
          ∧ ({ ptr := 0x240, head := true, got := [] } : Take).nextPlace = some
          (1, 0x241)) := by decide

theorem test_met_exchange :
    (let p := exchanging (taken false true) (sounding true .running);
        p.readerNext .exchange [] ∧ p.reader.take = some (taken false true)
          ∧ (alone p).store.read 0x280 ≠ 1 ∧ (taken false true).structural = true
          ∧ (over_ [(0x280, 1)] p).store.read 0x280 = 1 ∧ StoreOk (over_ [(0x280, 1)] p)
          ∧ p.reader.current = some (hymnBuffer true 0) ∧ p.player.state = .running)
      ∧ (let p := exchanging (taken false false) (sounding true .running);
        p.readerNext .exchange [] ∧ p.reader.take = some (taken false false)
          ∧ (taken false false).structural = false ∧ p.playing = true)
      ∧ (let p := exchanging (taken false false) lit;
        p.readerNext .exchange [] ∧ p.playing = false)
      ∧ (let p := exchanging (taken true true) lit;
        p.readerNext .exchange [] ∧ p.reader.take = some (taken true true)
          ∧ (taken true true).structural = true ∧ (over_ [(0x280, 1)] p).store.read 0x280 = 1
          ∧ p.power.on = true ∧ (taken true true).ptr < 0x8000)
      ∧ (let p := exchanging (taken true true) p0;
        p.readerNext .exchange [] ∧ p.reader.take = some (taken true true)
          ∧ (over_ [(0x280, 1)] p).store.read 0x280 = 1 ∧ p.power.on = false)
      ∧ (let p := exchanging (taken true false) lit;
        p.readerNext .exchange [] ∧ p.reader.take = some (taken true false)
          ∧ (taken true false).structural = false)
      ∧ (let p := exchanging (taken false true) (sounding true .starved);
        p.readerNext .exchange [] ∧ p.reader.take = some (taken false true)
          ∧ (over_ [(0x280, 1)] p).store.read 0x280 = 1
          ∧ p.reader.current = some (hymnBuffer true 0) ∧ p.player.state = .starved) := by decide

theorem test_met_returned :
    (let p := reading (.abandon 0x7FFF) (sounding true .running);
        p.readerNext (.abandon 0x7FFF) [] ∧ StoreOk (alone p))
      ∧ (let p := reading (.spent 0x7FFF false) (sounding true .running);
        p.readerNext (.spent 0x7FFF false) [] ∧ StoreOk (alone p))
      ∧ (let p := reading (.spent 0x7FFF true) (sounding true .running);
        p.readerNext (.spent 0x7FFF true) [] ∧ p.reader.phase ≠ .waitingForNeed
          ∧ p.player.state ≠ .starved) := by decide

/-- A pass with the need found at the edge of the horizon, and one in STARVED without. -/
theorem test_met_streamPass :
    (let p := ({ sounding true .running with reader := { (sounding true .running).reader with
      streamTimer := some 0, phase := .waitingForNeed } } : Part);
        p.reader.current = some (hymnBuffer true 0) ∧ p.reader.streamTimer = some 0
          ∧ 0 ≤ p.time ∧ p.playing = true ∧ p.player.state ≠ .starved ∧ p.reader.next = .empty
          ∧ p.seekState = true ∧ ((hymn true).endPos : Int) - p.setup.horizon = p.position)
      ∧ (let p := ({ sounding true .starved with reader := { (sounding true .starved).reader with
        streamTimer := some 0 } } : Part);
        p.reader.current = some (hymnBuffer true 0) ∧ p.reader.streamTimer = some 0
          ∧ p.playing = true ∧ p.reader.phase ≠ .waitingForNeed) := by decide

/-! ## States that meet the hypotheses: boundaries, reports, listening, cues -/

/-- A part at a clock at which the position has reached the passage's end, 96. -/
def atEnd (p : Part) : Part := { p with clock := 500000 }

/-- A part in another look phase. -/
def lookPhase (ph : LookPhase) (p : Part) : Part := { p with reader := { p.reader with
  phase := ph } }

theorem test_met_passageEnd :
    (let p := lookPhase .endFound (atEnd (sounding true .running));
        p.reader.current = some (hymnBuffer true 0) ∧ p.player.state = .running
          ∧ p.follower.freeze = none ∧ ((hymn true).endPos : Int) = p.position
          ∧ p.player.fermata.phase = .none ∧ p.reader.next.isFollowing = false
          ∧ p.reader.phase = .endFound)
      ∧ (let p := ({ atEnd (sounding true .running) with
        reader := { (sounding true .running).reader with stopAtEnd := true } } : Part);
        p.reader.current = some (hymnBuffer true 0) ∧ p.player.state = .running
          ∧ p.follower.freeze = none ∧ ((hymn true).endPos : Int) = p.position
          ∧ p.player.fermata.phase = .none ∧ p.reader.next.isFollowing = false
          ∧ p.reader.phase ≠ .endFound ∧ p.reader.stopAtEnd = true)
      ∧ (let p := atEnd (sounding true .running);
        p.reader.current = some (hymnBuffer true 0) ∧ p.player.state = .running
          ∧ p.follower.freeze = none ∧ ((hymn true).endPos : Int) = p.position
          ∧ p.player.fermata.phase = .none ∧ p.reader.next.isFollowing = false
          ∧ p.reader.phase ≠ .endFound ∧ p.reader.phase ≠ .waitingForNeed
          ∧ p.reader.stopAtEnd = false)
      ∧ (let p := lookPhase .waitingForNeed (atEnd (sounding true .running));
        p.reader.current = some (hymnBuffer true 0) ∧ p.player.state = .running
          ∧ p.follower.freeze = none ∧ ((hymn true).endPos : Int) = p.position
          ∧ p.player.fermata.phase = .none ∧ p.reader.next.isFollowing = false
          ∧ p.reader.phase = .waitingForNeed ∧ p.reader.stopAtEnd = false)
      ∧ (let p := followed (atEnd (sounding true .running));
        p.reader.current = some (hymnBuffer true 0) ∧ p.player.state = .running
          ∧ p.follower.freeze = none ∧ ((hymn true).endPos : Int) = p.position
          ∧ p.player.fermata.phase = .none
          ∧ p.reader.next = .following (hymnBuffer true 1)) := by decide

/-- A position past the end, 96, and past the holding point of a PENDING fermata beyond it: the end and the
start of holding are both due, and the one taken first decides (log 57). -/
theorem test_met_holdingBeyondEnd :
    (let p := withFermata .pending 97 ({ sounding true .running with clock := 510000 } : Part);
        p.reader.current = some (hymnBuffer true 0) ∧ p.follower.freeze = none
          ∧ (hymn true).endPos < p.player.fermata.holdingPoint
          ∧ p.player.fermata.holdingPoint ≤ p.position
          ∧ passageEndDue p = true ∧ holdingDue p = true
          ∧ (passageEndStep p).player.fermata.phase = .none
          ∧ (startHolding p).position = 97 ∧ passageEndDue (startHolding p) = false) := by decide

/-- A Now-record write with the words still to be served. -/
def writingNow (l : List (Nat × Word)) (p : Part) : Part :=
  { p with report := { p.report with writing := l } }

/-- The next beat boundary. -/
def beatAt (b : Nat) (p : Part) : Part := { p with report := { p.report with boundary := some b } }

theorem test_met_nowRecord :
    (let p := beatAt 96 (atEnd (sounding true .running));
        p.report.boundary = some 96 ∧ p.reader.current = some (hymnBuffer true 0)
          ∧ p.player.state = .running ∧ p.player.fermata.phase ≠ .holding
          ∧ p.report.beatPending = false ∧ 96 ≤ (hymn true).endPos
          ∧ p.follower.predict 96 ≤ p.clock ∧ p.report.writing = [] ∧ p.softReset = false)
      ∧ (let p := beatAt 96 (writingNow [(0x2F, 1)] (atEnd (sounding true .running)));
        p.report.boundary = some 96 ∧ p.reader.current = some (hymnBuffer true 0)
          ∧ p.player.state = .running ∧ p.player.fermata.phase ≠ .holding
          ∧ p.report.beatPending = false ∧ 96 ≤ (hymn true).endPos
          ∧ p.follower.predict 96 ≤ p.clock ∧ p.report.writing ≠ [])
      ∧ (let p := writingNow [(0x10, 1), (0x2F, 1)] lit;
        nextRequester p = some .reportWriter ∧ p.report.writing = [(0x10, 1), (0x2F, 1)]
          ∧ StoreOk (alone p))
      ∧ (let p := writingNow [(0x2F, 1)] lit;
        nextRequester p = some .reportWriter ∧ p.report.writing = [(0x2F, 1)]
          ∧ p.report.pending = false)
      ∧ (let p := writingNow [(0x2F, 1)] { lit with report := { lit.report with pending := true } };
        nextRequester p = some .reportWriter ∧ p.report.pending = true
          ∧ p.softReset = false) := by decide

theorem test_met_sample :
    (1 ≤ 1 ∧ 1 < 2 ^ 1 ∧ lit.clearing = false)
      ∧ (1 ≤ 32 ∧ 0xFFFFFFFF < 2 ^ 32 ∧ Part.reset.clearing = true) := by decide

/-- A part with one whole frame of each channel. -/
def framed (p : Part) : Part := { p with listen := { p.listen with
  filters := Vector.replicate 4 { prevIn := 0, prevOut := 0, samples := List.replicate 240 256 } } }

/-- A part with every channel enabled and its floors set. -/
def miked (p : Part) : Part := { p with
  setup := { p.setup with channels := Vector.replicate 4 { enabled := true, weight := 16, delay
    := 0 } }
  listen := { p.listen with
    floors := Vector.replicate 4 { level := 1, resetPending := false, refractoryEnd := 0 } } }

theorem test_met_frameEnd :
    (let p := framed lit;
        (∀ c, 240 ≤ (entry p.listen.filters c).samples.length) ∧ p.playing = false)
      ∧ (let p := framed (sounding false .running);
        (∀ c, 240 ≤ (entry p.listen.filters c).samples.length) ∧ p.playing = true
          ∧ (entry p.setup.channels 3).enabled = false ∧ p.followMode = false
          ∧ p.listen.hold.active = false)
      ∧ (let p := framed (miked (sounding true .held));
        (∀ c, 240 ≤ (entry p.listen.filters c).samples.length) ∧ p.playing = true
          ∧ (entry p.setup.channels 3).enabled = true
          ∧ (entry p.listen.floors 3).resetPending = false
          ∧ p.player.state ≠ .running) := by decide +kernel

theorem test_met_fermata :
    (let p := withFermata .pending 0 (sounding true .running);
        p.player.state = .running ∧ p.player.fermata.phase = .pending
          ∧ p.player.fermata.pf + p.player.fermata.hf ≤ p.position)
      ∧ (let p := ({ withFermata .holding 0 (sounding true .running) with
        listen := { lit.listen with hold := { lit.listen.hold with cutoff := some 0 } } } : Part);
        p.player.state = .running ∧ p.player.fermata.phase = .holding
          ∧ p.listen.hold.cutoff = some 0)
      ∧ (let p := withFermata .holding 0 (sounding true .running);
        p.player.state = .running ∧ p.player.fermata.phase = .holding
          ∧ p.follower.predict p.player.fermata.pf +
          (p.player.fermata.maxHold * p.follower.period : Nat) ≤ p.clock)
      ∧ (let p := ({ withFermata .holding 0 (sounding false .running) with
        clock := 1000000 } : Part);
        p.player.state = .running ∧ p.player.fermata.phase = .holding
          ∧ p.player.fermata.follow = false
          ∧ p.follower.predict p.player.fermata.pf +
          (p.player.fermata.hf * p.follower.period / 96 : Nat)
            + 2 * p.follower.period ≤ p.clock) := by decide

/-- A watched cue at its close, with an Onset Queue. -/
def closing (queue : List Onset) : Part :=
  let p := sounding true .running
  { p with
    sched := { p.sched with cues := [cueAt .hold 0] }
    follower := { p.follower with watched := some 0 }
    listen := { p.listen with queue := queue } }

/-- MISS; MASKED at the window's end; MATCH at its start. -/
theorem test_met_cueClose :
    (let p := closing [];
        p.reader.current = some (hymnBuffer true 0) ∧ p.sched.cues = [cueAt .hold 0]
          ∧ p.player.state = .running ∧ p.player.fermata.phase ≠ .holding
          ∧ p.follower.watched = some 0 ∧ 0 ≤ p.clock ∧ p.listen.queue = []
          ∧ (hymn true).follow = true ∧ p.follower.predict 0 = 0
          ∧ p.follower.period * (hymn true).window / 256 = 62500)
      ∧ (let p := closing [onsetAt 62500 true];
        p.reader.current = some (hymnBuffer true 0) ∧ p.sched.cues = [cueAt .hold 0]
          ∧ p.player.state = .running ∧ p.player.fermata.phase ≠ .holding
          ∧ p.follower.watched = some 0 ∧ 0 ≤ p.clock ∧ p.listen.queue = [onsetAt 62500 true])
      ∧ (let p := closing [onsetAt (-62500) false];
        p.reader.current = some (hymnBuffer true 0) ∧ p.sched.cues = [cueAt .hold 0]
          ∧ p.player.state = .running ∧ p.player.fermata.phase ≠ .holding
          ∧ p.follower.watched = some 0 ∧ 0 ≤ p.clock
          ∧ p.listen.queue = [onsetAt (-62500) false]) := by decide

theorem test_met_cuePass :
    (let p := ({ sounding false .running with sched := { lit.sched with
      cues := [cueAt .attack 0] } } : Part);
        p.reader.current = some (hymnBuffer false 0) ∧ (hymn false).follow = false
          ∧ p.sched.cues = [cueAt .attack 0] ∧ p.player.state = .running
          ∧ p.player.fermata.phase ≠ .holding ∧ p.follower.predict 0 ≤ p.clock) := by decide

/-! ## States that meet the hypotheses: timers and the slice -/

theorem test_met_starving :
    (let p := ({ sounding true .starved with player := { (sounding true .starved).player with
      starveTimer := some 0 } } : Part);
        p.player.state = .starved ∧ p.player.starveTimer = some 0 ∧ 0 ≤ p.time)
      ∧ (let p := ({ sounding true .held with clock := 4294967295 } : Part);
        4294967295 ≤ p.clock ∧ p.satTaken = false ∧ p.player.state = .held)
      ∧ (let p := ({ sounding true .draining with clock := 4294967295 } : Part);
        4294967295 ≤ p.clock ∧ p.satTaken = false ∧ p.player.state = .draining)
      ∧ (let p := ({ lit with clock := 4294967295 } : Part);
        4294967295 ≤ p.clock ∧ p.satTaken = false ∧ p.player.state = .idle) := by decide

/-- A note to sound at its keying time with one to be dropped; and no plan playing. -/
theorem test_met_slice :
    (let p := ({ atEnd (sounding true .running) with time := 250, sched := { lit.sched with
      window := [noteIn .pending 96 97, noteIn .pending 0 1] } } : Part);
        p.clearing = false ∧ p.sched.nextSlice = p.time ∧ p.playing = true
          ∧ p.player.state ≠ .draining
          ∧ keyingTime p.follower (noteIn .pending 96 97) = p.clock
          ∧ releaseTime p.follower (noteIn .pending 0 1) ≤ p.clock)
      ∧ (let p := ({ lit with time := 250 } : Part);
        p.clearing = false ∧ p.sched.nextSlice ≤ p.time ∧ p.playing = false) := by decide

/-! ## States that meet the hypotheses: Key Table and Output Guard -/

/-- A full queue: outputs 1 to 64 wait, output 0 in SETTLE with a claim, no slot. -/
def full : Part := { lit with keys := { lit.keys with
  entries := tabulate fun n =>
    if n = 0 then keyIn .settle 1 else if n.val ≤ 64 then keyIn .waiting 1 else KeyEntry.idle
  queue := allOutputs.filter fun n => decide (n ≠ 0 ∧ n.val ≤ 64)
  slotLimit := 0 } }

theorem test_met_queueFull :
    QueueExact full.keys
      ∧ full.keys.queue.length = 64
      ∧ (entry full.keys.entries 0).count = 1
      ∧ full.keys.slotLimit ≤ slotsInUse full.keys.entries
      ∧ entry full.keys.entries 0 = keyIn .settle 1
      ∧ entry full.keys.entries 64 = keyIn .waiting 1 := by
  refine ⟨⟨fun n => ?_, List.Nodup.filter _ (List.nodup_finRange 256), by decide +kernel⟩,
    by decide +kernel, by decide +kernel, Nat.zero_le _, by decide +kernel, by decide +kernel⟩
  by_cases h : n = 0
  · subst h; decide +kernel
  · by_cases h2 : n.val ≤ 64 <;>
      simp [full, allOutputs, h, h2, keyIn, KeyEntry.idle]

theorem test_met_claims :
    QueueExact lit.keys
      ∧ (entry lit.keys.entries 0).state = .off
      ∧ lit.power.on = true
      ∧ lit.keys.queue = []
      ∧ slotsInUse lit.keys.entries < lit.keys.slotLimit
      ∧ p0.power.on = false
      ∧ (let p := { lit with setupLoaded := false }; QueueExact p.keys ∧ p.setupLoaded = false)
      ∧ QueueExact (withEntry 0 (keyIn .hold 7) lit).keys
      ∧ entry (withEntry 0 (keyIn .hold 7) lit).keys.entries 0 = keyIn .hold 7
      ∧ entry (withEntry 0 (keyIn .pull 6) lit).keys.entries 0 = keyIn .pull 6
      ∧ QueueExact (withEntry 0 (keyIn .disabled 0) lit).keys
      ∧ QueueExact (withEntry 0 (keyIn .hold 1) lit).keys
      ∧ QueueExact (withEntry 0 (keyIn .pull 1) lit).keys :=
  ⟨lit_exact, by decide, rfl, rfl, by decide +kernel, rfl, ⟨lit_exact, rfl⟩,
    exact_with 0 _ rfl (by decide), by decide, by decide, exact_with 0 _ rfl (by decide),
    exact_with 0 _ rfl (by decide), exact_with 0 _ rfl (by decide)⟩

/-- An OFF output with a full queue and no slot free; with a slot free and the queue empty. -/
theorem test_met_claimsAtOnce :
    QueueExact full.keys ∧ (entry full.keys.entries 255).state = .off ∧ full.power.on = true
      ∧ 64 ≤ full.keys.queue.length
      ∧ (full.setupLoaded = false ∨ full.keys.slotLimit ≤ slotsInUse full.keys.entries)
      ∧ (let p := withMap 0 (.key 0 63) lit;
        QueueExact p.keys ∧ (entry p.keys.entries 0).state = .off ∧ p.power.on = true
          ∧ p.keys.queue = [] ∧ entry p.setup.outputMap 0 = .key 0 63
          ∧ ¬(p.setupLoaded = false ∨ p.keys.slotLimit ≤ slotsInUse p.keys.entries)) :=
  ⟨test_met_queueFull.1, by decide +kernel, by decide +kernel, by decide +kernel, by decide +kernel,
    lit_exact, by decide, rfl, rfl, by decide, by decide +kernel⟩

theorem test_met_settleEnd :
    (let p := withEntry 255 (keyIn .settle 0) lit;
        QueueExact p.keys ∧ (entry p.keys.entries 255).state = .settle
          ∧ (entry p.keys.entries 255).timer = some 0 ∧ 0 ≤ p.time
          ∧ (entry p.keys.entries 255).count = 0)
      ∧ (let p := withEntry 255 (keyIn .settle 1) lit;
        QueueExact p.keys ∧ (entry p.keys.entries 255).count = 1 ∧ p.keys.queue = []
          ∧ p.setupLoaded = true ∧ slotsInUse p.keys.entries < p.keys.slotLimit) :=
  ⟨⟨exact_with 255 _ rfl (by decide), by decide, by decide, by decide, by decide⟩,
    ⟨exact_with 255 _ rfl (by decide), by decide, rfl, rfl, by decide +kernel⟩⟩

theorem test_met_pullAndPulse :
    (let p := withEntry 255 (keyIn .pull 1) lit;
        QueueExact p.keys ∧ (entry p.keys.entries 255).timer = some 0 ∧ 0 ≤ p.time
          ∧ p.guard.tests 255 = false ∧ (entry p.keys.entries 255).state = .pull
          ∧ (entry p.guard.detectors 255).pullRecord = .empty)
      ∧ (let p := withDetector 255 { Detector.idle with
        pullRecord := .none, retryCount := 3 } (withEntry 255 (keyIn .pulse 0) lit);
        QueueExact p.keys ∧ (entry p.keys.entries 255).timer = some 0
          ∧ p.guard.tests 255 = false ∧ (entry p.keys.entries 255).state = .pulse
          ∧ (entry p.guard.detectors 255).pullRecord = .none
          ∧ (entry p.guard.detectors 255).retryCount = 3) :=
  ⟨⟨exact_with 255 _ rfl (by decide), by decide, by decide, rfl, by decide, by decide⟩,
    ⟨exact_of rfl (by decide +kernel), by decide, rfl, by decide, by decide, by decide⟩⟩

theorem test_met_cipherAndOpen :
    (let p := withDetector 255 { Detector.idle with
      cipher := some 0, holdCount := 3 } (withEntry 255 (keyIn .hold 1) lit);
        QueueExact p.keys ∧ (entry p.guard.detectors 255).cipher = some 0 ∧ 0 ≤ p.time
          ∧ (entry p.keys.entries 255).state = .hold ∧ p.setupLoaded = true
          ∧ (entry p.guard.detectors 255).holdCount = 3 ∧ p.guard.tests 255 = false) :=
  ⟨exact_of rfl (by decide +kernel), by decide, by decide, by decide, rfl, by decide, rfl⟩

theorem test_met_testWalk :
    (let p := testing 0 255 .waiting { lit with keys := { lit.keys with slotLimit := 0 } };
        p.guard.test = testOf 0 255 .waiting ∧ QueueExact p.keys
          ∧ (entry p.keys.entries 0).state.atRest = true ∧ p.keys.queue.length < 64
          ∧ p.keys.slotLimit ≤ slotsInUse p.keys.entries)
      ∧ (let p := testing 255 255 .judged lit;
        p.guard.test = testOf 255 255 .judged ∧ QueueExact p.keys
          ∧ (entry p.keys.entries 255).state.atRest = true
          ∧ (∀ m : OutputId, (255 : OutputId).val < m.val → m.val < 256 →
          entry p.setup.outputMap m = .unused))
      ∧ (let p := testing 0 255 .judged (withMap 1 (.key 0 0) lit);
        p.guard.test = testOf 0 255 .judged ∧ QueueExact p.keys
          ∧ (entry p.keys.entries 0).state.atRest = true ∧ (0 : OutputId) < 1
          ∧ entry p.setup.outputMap 1 ≠ .unused)
      ∧ (let p := testing 0 0 .pulled (withDetector 0 { Detector.idle with
        pullRecord := .pullOk } (withEntry 0 (keyIn .pull 1) lit));
        p.guard.test = testOf 0 0 .pulled ∧ QueueExact p.keys
          ∧ (entry p.keys.entries 0).state = .pull ∧ (entry p.keys.entries 0).timer = some 0
          ∧ 0 ≤ p.time ∧ p.setupLoaded = true ∧ (entry p.guard.detectors 0).pullRecord = .pullOk) :=
  ⟨⟨rfl, lit_exact, by decide, by decide, Nat.zero_le _⟩,
    ⟨rfl, lit_exact, by decide, fun m _ _ => by omega⟩,
    ⟨rfl, lit_exact, by decide, by decide, by decide⟩,
    ⟨rfl, exact_with 0 _ rfl (by decide), by decide, by decide, by decide, rfl, by decide⟩⟩

theorem test_met_faultRecords :
    StoreOk (alone lit)
      ∧ (serving (.faultRead (recordOf 255 false)) lit).serviceNext (.faultRead
        (recordOf 255 false)) []
      ∧ (serving (.faultWord0 (recordOf 255 true) 0xFFFF) lit).serviceNext
          (.faultWord0 (recordOf 255 true) 0xFFFF) []
      ∧ (recordOf 255 false).retries < 4
      ∧ (serving (.faultWord1 (recordOf 255 false)) lit).serviceNext
          (.faultWord1 (recordOf 255 false)) []
      ∧ (serving (.clearWrite 255 8) lit).serviceNext (.clearWrite 255 8) [] :=
  ⟨rfl, ⟨rfl, rfl⟩, ⟨rfl, rfl⟩, by decide, ⟨rfl, rfl⟩, ⟨rfl, rfl⟩⟩

/-! ## States that meet the hypotheses: chain, supply, power, the line -/

/-- A part with a chain of eight boards, and a supply found too low nine times. -/
def powered : Part := { lit with
  chain := { lit.chain with length := some 8 }
  supply := { lit.supply with vhold := 1, below := 9, vcut := 1 } }

theorem test_met_cadence :
    (let p := ({ lit with time := 1000 } : Part);
        p.clearing = false ∧ p.chain.frame = none ∧ p.chain.nextCadence = p.time
          ∧ p.chain.length = none ∧ p.supply.vhold = 0)
      ∧ (let p := ({ powered with time := 1000 } : Part);
        p.clearing = false ∧ p.chain.frame = none ∧ p.chain.nextCadence = p.time
          ∧ p.chain.length = some 8 ∧ 0 < p.supply.vhold ∧ p.supply.below = 9) := by decide

theorem test_met_frameComplete :
    lit.chain.frame = none
      ∧ ({ lit.chain with frame := some (frameOf 15) } : Chain).frame = some (frameOf 15)
      ∧ (some 15 : Option Nat) = some (frameOf 15).seq
      ∧ (none : Option Nat) ≠ some (frameOf 15).seq
      ∧ (∀ n : OutputId, ([] : List Sense).getD n.val .none ≠ .over)
      ∧ (31 : OutputId).val < 32 * (frameOf 15).boards
      ∧ (keyIn .pull 1).state.usesSlot = true :=
  ⟨rfl, rfl, rfl, by decide, by decide +kernel, by decide, rfl⟩

theorem test_met_powerFaults :
    (let p := ({ lit with chain := { lit.chain with faultDue := true, clearDue := true } } : Part);
        p.chain.faultDue = true ∧ p.chain.clearDue = true ∧ p.power.on = true)
      ∧ (let p := ({ p0 with chain := { p0.chain with faultDue := true } } : Part);
        p.chain.faultDue = true ∧ p.power.on = false)
      ∧ (let p := ({ lit with supply := { lit.supply with outDue := true } } : Part);
        p.supply.outDue = true ∧ p.power.on = true)
      ∧ (let p := ({ p0 with supply := { p0.supply with outDue := true } } : Part);
        p.supply.outDue = true ∧ p.power.on = false)
      ∧ (let p := withDetector 255 { Detector.idle with stuckDue := true } lit;
        (entry p.guard.detectors 255).stuckDue = true ∧ p.power.on = true)
      ∧ (let p := withDetector 255 { Detector.idle with stuckDue := true } p0;
        (entry p.guard.detectors 255).stuckDue = true ∧ p.power.on = false) := by decide

/-- The anchor itself, and the other side of it. -/
theorem test_met_prediction :
    Follower.init.aPos ≤ 0
      ∧ (-1 : Int) < Follower.init.aPos := by decide

/-! ## States that meet the hypotheses: idle steps, the arbiter and the port -/

/-- An event due; one that may come about; time alone. -/
theorem test_met_idleCourses :
    (let p := ({ lit with time := 250 } : Part);
        (alone p).pending = [] ∧ dueEvents p ≠ [])
      ∧ (let p := serving .readCode lit;
        (alone p).pending = [] ∧ dueEvents p = [] ∧ openEvents p = [.arbiterServe])
      ∧ (let p := lit;
        (alone p).pending = [] ∧ dueEvents p = [] ∧ openEvents p = []) := by decide +kernel

theorem test_met_portGoesOn :
    (let p := held [.read 0, .attention, .partState true] lit;
        nextRequester p = some .console ∧ p.port.waiting = [.read 0, .attention, .partState true])
      ∧ (let p := held [.read 0, .attention, .read 1, .transfer 0xB401] lit;
        nextRequester p = some .console
          ∧ p.port.waiting = .read 0 :: .attention :: .read 1 :: [.transfer 0xB401]) := by decide

/-- Reads behind a served read are answered in its event, and WAIT falls with them (R38). -/
theorem test_answers :
    ∃ t, exec .arbiterServe (alone { held [.read 0, .attention] lit with attention := 5 }) = .next t
      ∧ t.part.port.answers = [0, 5] ∧ t.part.wait = false :=
  ⟨_, rfl, rfl, rfl⟩

/-- Each pointer value, the requester served with those passed over. -/
theorem test_met_arbiterOrders :
    (let p := ({ serving .readCode lit with arb := .console } : Part);
        p.waits .serviceUnit = true
          ∧ (∀ x ∈ [Requester.planReader, .reportWriter], p.waits x = false))
      ∧ (let p := ({ held [.read 0] lit with arb := .planReader } : Part);
        p.waits .console = true ∧ (∀ x ∈ [Requester.reportWriter, .serviceUnit], p.waits x = false))
      ∧ (let p := ({ reading .lookNext lit with arb := .reportWriter } : Part);
        p.waits .planReader = true ∧ (∀ x ∈ [Requester.serviceUnit, .console], p.waits x = false))
      ∧ (let p := ({ reading .lookNext lit with arb := .serviceUnit } : Part);
        p.waits .planReader = true ∧ (∀ x ∈ [Requester.console], p.waits x = false)) := by decide

/-! ## States that meet the hypotheses: the service slot -/

/-- The boards word read at once, asked for, standing in the line, and served, 0 or not. -/
theorem test_met_setupBoards :
    (let p := owned 1 [0x7EB6] lit;
        p.atOwner 1 ∧ p.storeFree = true ∧ (alone p).store.read 0x7EB6 = 0
          ∧ (over_ [(0x7EB6, 9)] p).store.read 0x7EB6 ≠ 0)
      ∧ (let p := owned 1 [0x7EB6] (serving .readCode lit);
        p.atOwner 1 ∧ p.storeFree = false ∧ .readBoards ∉ p.svcLine)
      ∧ (let p := owned 1 [0x7EB6] (serving .readBoards lit);
        p.atOwner 1 ∧ p.storeFree = false ∧ .readBoards ∈ p.svcLine)
      ∧ (let p := owned 1 [0x7EB6] (serving .readBoards lit);
        p.serviceNext .readBoards [] ∧ (p.slot.arg 1).toNat = 0x7EB6
          ∧ (alone p).store.read 0x7EB6 = 0
          ∧ (over_ [(0x7EB6, 9)] p).store.read 0x7EB6 ≠ 0) := by decide

/-- The first and the last word of each group of the setup record. -/
theorem test_met_setupWordRanges :
    (∀ k ∈ [1, 256, 257, 288, 289, 292, 293, 294, 297, 298, 299, 304, 305, 306, 307, 308, 324, 328],
        1 ≤ k ∧ k < 329 ∧ (serving (.copyWord k) lit).serviceNext (.copyWord k) [])
      ∧ (∀ e ∈ setupClamps, 257 ≤ e.1 ∧ e.1 < 329 ∧ e.2.1 ≤ e.2.2.1)
      ∧ 304 = 298 + 2 * (3 : ChannelId).val
      ∧ 305 = 299 + 2 * (3 : ChannelId).val
      ∧ 288 = 257 + (31 : Fin 32).val
      ∧ 292 = 289 + (3 : Division).val
      ∧ 297 = 294 + (3 : Division).val := by decide

/-- A TEST of output 0 in a stage, marked as found DISABLED or not, the output in a state. -/
def tested (st : KeyState) (marked : Bool) (stage : TestStage) (p : Part) : Part :=
  withEntry 0 (keyIn st 1) { p with guard := { p.guard with
    test := some { last := 0, output := 0, marked := marked, stage := stage } } }

/-- The same waiting in the queue. -/
def testWaiting (marked : Bool) : Part :=
  let p := tested .waiting marked .pulled (inPhase .testing lit)
  { p with keys := { p.keys with queue := [0] } }

/-- Its queue is exact. -/
theorem testWaiting_exact (m : Bool) : QueueExact (testWaiting m).keys := by
  have b : (testWaiting m).keys.queue = [0] := rfl
  refine ⟨fun n => ?_, by simp [b], by simp [b]⟩
  have a : entry (testWaiting m).keys.entries n =
      if n = 0 then keyIn .waiting 1 else entry lit.keys.entries n := entry_put _ _ _ _
  rw [a, b]
  by_cases h : n = 0
  · simp [h, keyIn]
  · simp [h, lit_off n]

theorem test_met_haltTest :
    (∀ m, let p := testWaiting m; p.portOpen ∧ p.player.state = .idle ∧ p.slot.phase = .testing
      ∧ QueueExact p.keys ∧ p.setupLoaded = true ∧ (entry p.keys.entries 0).state = .waiting
      ∧ p.guard.test = some { last := 0, output := 0, marked := m, stage := .pulled })
    ∧ (∀ st ∈ [KeyState.pull, .pulse, .settle, .hold], ∀ m,
      let p := tested st m .pulled (inPhase .testing lit)
      p.portOpen ∧ p.player.state = .idle ∧ p.slot.phase = .testing ∧ QueueExact p.keys
      ∧ p.setupLoaded = true ∧ (entry p.keys.entries 0).state = st
      ∧ p.guard.test = some { last := 0, output := 0, marked := m, stage := .pulled }) := by
  refine ⟨fun m => ⟨⟨rfl, rfl, rfl⟩, rfl, rfl, testWaiting_exact m, rfl, ?_, rfl⟩,
    fun st h m => ⟨⟨rfl, rfl, rfl⟩, rfl, rfl, exact_with 0 _ rfl ?_, rfl, ?_, rfl⟩⟩
  · cases m <;> decide
  · revert st; decide
  · cases m <;> revert st <;> decide

/-- Output 1 waits behind a TEST of output 0, which stands in a state of its own. -/
def queued (st : KeyState) (marked : Bool) (stage : TestStage) : Part :=
  let p := withEntry 1 (keyIn .waiting 1) (tested st marked stage (inPhase .testing lit))
  { p with keys := { p.keys with queue := [1], slotLimit := 1, slotTarget := 1 } }

/-- Its queue is exact. -/
theorem queued_exact {st : KeyState} (h : st ≠ .waiting) (marked : Bool) (stage : TestStage) :
    QueueExact (queued st marked stage).keys := by
  have b : (queued st marked stage).keys.queue = [1] := rfl
  refine ⟨fun n => ?_, by simp [b], by simp [b]⟩
  have a : entry (queued st marked stage).keys.entries n =
      if n = 1 then keyIn .waiting 1 else if n = 0 then keyIn st 1 else entry lit.keys.entries n := by
    show entry (put (put lit.keys.entries 0 (keyIn st 1)) 1 (keyIn .waiting 1)) n = _
    by_cases h1 : n = 1
    · subst h1; simp
    · rw [entry_put_other _ _ _ _ h1, if_neg h1]
      by_cases h0 : n = 0
      · subst h0; simp
      · rw [entry_put_other _ _ _ _ h0, if_neg h0]
  rw [a, b]
  by_cases h1 : n = 1
  · simp [h1, keyIn]
  · by_cases h0 : n = 0
    · simp [h0, keyIn, h]
    · simp [h1, h0, lit_off n]

/-- Output 0 alone can use a slot. -/
theorem queued_slots (st : KeyState) (marked : Bool) (stage : TestStage) :
    slotsInUse (queued st marked stage).keys.entries ≤ 1 := by
  have h0 : slotsInUse lit.keys.entries = 0 := by decide +kernel
  have hu : (entry lit.keys.entries 0).state.usesSlot = false := by rw [lit_off]; rfl
  have h1 : entry (put lit.keys.entries 0 (keyIn st 1)) 1 = entry lit.keys.entries 1 :=
    entry_put_other _ _ _ _ (by decide)
  show slotsInUse (put (put lit.keys.entries 0 (keyIn st 1)) 1 (keyIn .waiting 1)) ≤ 1
  rw [slotsInUse_put (by rw [h1, lit_off]; rfl)]
  cases h : st.usesSlot
  · rw [slotsInUse_put (by rw [hu]; exact h), h0]
    exact Nat.zero_le 1
  · rw [slotsInUse_put_more hu h, h0]

/-- A TEST with a request waiting: its output pulled in any state that HALT meets or leaves, marked and not
marked, or not yet pulled; with two requests and the output under test one of them. -/
theorem test_met_haltTestQueued :
    (∀ st ∈ [KeyState.pull, .pulse, .settle, .hold, .off, .disabled], ∀ m,
      ∀ stage ∈ [TestStage.waiting, .pulled, .judged], let p := queued st m stage
      p.portOpen ∧ p.player.state = .idle ∧ p.slot.phase = .testing ∧ QueueExact p.keys
      ∧ p.setupLoaded = true ∧ (entry p.keys.entries 0).state = st
      ∧ p.guard.test = some { last := 0, output := 0, marked := m, stage := stage }
      ∧ p.keys.queue = [] ++ 1 :: [] ∧ p.keys.queue.filter (· != 0) = [] ++ 1 :: []
      ∧ p.keys.slotTarget = 1 ∧ p.keys.slotLimit = max 1 (slotsInUse p.keys.entries)
      ∧ 1 ≤ p.setup.pmax)
    ∧ (∀ m, let p := testWaiting m
      let t : Test := { last := 0, output := 0, marked := m, stage := .waiting }
      let q := { p with guard := { p.guard with test := some t } }
      QueueExact q.keys ∧ q.keys.queue = [] ++ 0 :: []) := by
  refine ⟨fun st h m stage _ => ⟨⟨rfl, rfl, rfl⟩, rfl, rfl, queued_exact ?_ m stage, rfl, ?_, rfl, rfl,
    rfl, rfl, ?_, ?_⟩, fun m => ⟨testWaiting_exact m, rfl⟩⟩
  · revert st; decide
  · show (entry (put (put lit.keys.entries 0 (keyIn st 1)) 1 (keyIn .waiting 1)) 0).state = st
    rw [entry_put_other _ _ _ _ (by decide), entry_put_same]
    rfl
  · have := queued_slots st m stage
    show 1 = max 1 _
    omega
  · show 1 ≤ 2
    decide

/-- A need is found in RUNNING, and none while the position is frozen, in HELD and in a held fermata (R21). -/
theorem test_need_frozen :
    (let p := sounding true .running
      let near (q : Part) : Part := { q with reader := { q.reader with phase := .waitingForNeed } }
      (near p).needed = true ∧ (near (inState .held p)).needed = false
        ∧ (near { p with player := { p.player with fermata :=
            { p.player.fermata with phase := .holding } } }).needed = false) := by decide

/-- The need of a passage no longer than the horizon is found at its entry, before its entry hold (R21, R100,
log 51). -/
theorem test_need_at_entry :
    (let p := sounding true .running
      let q := afterEntry { hymn true with holdAtEntry := true }
        { p with reader := { p.reader with phase := .waitingForNeed } }
      q.reader.phase = .seeking ∧ q.player.state = .held) := by decide +kernel

/-! ## States that meet the hypotheses: the stream -/

/-- A passage from position 1 on, with three entries of each kind, its cursor of one list given. -/
def listed (l : ListKind) (c : Cursor) : Buffer :=
  (({ hymn true with startPos := 1, noteCount := 3, cueCount := 3, stepCount := 3 } :
    Passage).buffer 0).withCursor l c

/-- A pass that reads that list, with the words read so far and the bound given. -/
def reads_ (l : ListKind) (c : Cursor) (x : Pass) : Part :=
  let p := sounding true .running
  { p with reader := { p.reader with
    current := some (listed l c), pass := some { x with left := [⟨false, l⟩] } } }

/-- Whatever the list, the cursor, the words and the bound, an entry word is read. -/
theorem test_met_entryWord (l : ListKind) (i a : Nat) (prev : Option Nat) (x : Pass) :
    let c : Cursor := ⟨i, a, prev, false⟩
    let p := reads_ l c x
    nextRequester p = some .planReader ∧ p.reader.line = []
      ∧ p.reader.pass = some { x with left := [⟨false, l⟩] }
      ∧ p.streams ⟨false, l⟩ (listed l c) ∧ p.playing = true := by
  refine ⟨rfl, rfl, rfl, ?_, rfl⟩
  cases l <;>
    exact ⟨fun _ => rfl, fun h => Bool.noConfusion h, by
      simp [listed, Buffer.withCursor, Passage.buffer, reads_, sounding, inState, lit, hymn]
      try decide⟩

/-- A list of the following passage is read where that of the current one is at its end. -/
theorem test_met_entryAhead : ∃ p : Part, p.streams ⟨true, .notes⟩
  (listed .notes ⟨0, 0x500, none, false⟩)
    ∧ p.playing = true :=
  ⟨{ sounding true .running with reader := { (sounding true .running).reader with
      next := .following (listed .notes ⟨0, 0x500, none, false⟩) } },
    ⟨fun h => Bool.noConfusion h, fun _ => ⟨rfl, _, rfl, rfl⟩, rfl, by decide⟩, rfl⟩

/-- The third word of a note entry is read: the note is handed where its key has an output, and
  skipped
with MAPPING where it has none (R29). -/
theorem test_note_read :
    (∃ t, exec .arbiterServe (over_ [(0x502, 4)] (withMap 0 (.key 0 0)
        (reads_ .notes ⟨0, 0x500, none, false⟩ { bound := 96, left := [], got := [1, 0] })))
          = .next t
        ∧ t.part.sched.window.map (fun x => (x.position, x.release, x.outputs)) = [(1, 5, [0])])
      ∧ ∃ t, exec .arbiterServe (over_ [(0x502, 4)]
          (reads_ .notes ⟨0, 0x500, none, false⟩ { bound := 96, left := [], got := [1, 0] }))
            = .next t
          ∧ t.part.sched.window = [] ∧ t.part.latched .mapping = true :=
  ⟨⟨_, rfl, by decide +kernel⟩, ⟨_, rfl, by decide +kernel, by decide +kernel⟩⟩

/-- A close that is past at a NUDGE resolves in it (R80, R95). -/
theorem test_nudge_takes_close :
    ∃ t, exec .nudge (alone (owned 6 [0] { closing [] with clock := 62501 })) = .next t
      ∧ t.part.sched.cues = [] ∧ t.part.follower.lastOutcome = .miss :=
  ⟨_, rfl, by decide +kernel, by decide +kernel⟩

/-- Words that put an entry out of order, without its extension, past the store, at the span's
  end and
beyond, before its start and at it, past the bound and at it; a key at and above its range; 17
  and 16
stop entries; entries dropped and kept. -/
theorem test_met_entryFates :
    ((3 : Word).toNat + 65536 * ((0 : Word).toNat % 256) = 3 ∧ 3 < 4)
      ∧ ((0x100 : Word).toNat / 256 % 2 = 1 ∧ 3 ≤ 2 + 1)
      ∧ 0x7FFF < 0x7FFF + 1 + (0 : Word).toNat / 256
      ∧ ((96 : Word).toNat = (listed .notes ⟨0, 0, none, false⟩).passage.endPos)
      ∧ ((listed .steps ⟨0, 0, none, false⟩).passage.endPos < (97 : Word).toNat)
      ∧ ((0 : Word).toNat < (listed .cues ⟨0, 0, none, false⟩).passage.startPos)
      ∧ ((1 : Word).toNat = (listed .cues ⟨0, 0, none, false⟩).passage.startPos)
      ∧ ((94 : Int) < (95 : Word).toNat)
      ∧ ((96 : Int) ≤ 96)
      ∧ (((0xF401 : Word).toNat / 1024 = 61 ∧ 60 < 61) ∧ (0xF001 : Word).toNat / 1024 = 60)
      ∧ (16 < (0x1100 : Word).toNat / 256 ∧ (0x1000 : Word).toNat / 256 = 16)
      ∧ (stopEntry 0x0040 = none ∧ stopEntry 0x0200 = none
        ∧ stopEntry 0x013F = some ⟨63, true⟩) := by decide

/-! ## States that meet the hypotheses: ends of passages -/

/-- A part with notes in its Lookahead Window. -/
def withNotes (w : List Note) (p : Part) : Part := { p with sched := { p.sched with window := w } }

/-- Another passage follows. -/
def followedBy (ptr : Nat) (p : Part) : Part := { p with reader := { p.reader with
  next := .following (({ hymn true with ptr := ptr } : Passage).buffer 1) } }

/-- Stop-at-end is set. -/
def stopping (p : Part) : Part := { p with reader := { p.reader with stopAtEnd := true } }

/-- Ends with notes left and none, of another passage and of the same. -/
theorem test_met_passageEndCases :
    (let p := withNotes [noteIn .sounding 0 96] (lookPhase .endFound (atEnd
      (sounding true .running)));
        p.reader.current = some (hymnBuffer true 0) ∧ p.player.state = .running
          ∧ p.follower.freeze = none ∧ ((hymn true).endPos : Int) = p.position
          ∧ p.player.fermata.phase = .none ∧ p.reader.next = .empty ∧ p.satTaken = false
          ∧ p.softReset = false ∧ p.reader.phase = .endFound
          ∧ (∃ x ∈ p.sched.window, x.planIndex = 0))
      ∧ (let p := lookPhase .endFound (atEnd (sounding true .running));
        p.reader.current = some (hymnBuffer true 0) ∧ p.player.state = .running
          ∧ p.follower.freeze = none ∧ ((hymn true).endPos : Int) = p.position
          ∧ p.player.fermata.phase = .none ∧ p.reader.next = .empty ∧ p.satTaken = false
          ∧ p.softReset = false ∧ p.reader.phase = .endFound
          ∧ (¬∃ x ∈ p.sched.window, x.planIndex = 0))
      ∧ (let p := stopping (atEnd (sounding true .running));
        p.reader.current = some (hymnBuffer true 0) ∧ p.player.state = .running
          ∧ p.follower.freeze = none ∧ ((hymn true).endPos : Int) = p.position
          ∧ p.player.fermata.phase = .none ∧ p.reader.next = .empty ∧ p.satTaken = false
          ∧ p.softReset = false ∧ p.reader.stopAtEnd = true
          ∧ (¬∃ x ∈ p.sched.window, x.planIndex = 0))
      ∧ (let p := withNotes [noteIn .sounding 0 96] (followedBy 0x380 (atEnd
        (sounding true .running)));
        p.reader.current = some (hymnBuffer true 0) ∧ p.player.state = .running
          ∧ p.follower.freeze = none ∧ ((hymn true).endPos : Int) = p.position
          ∧ p.player.fermata.phase = .none ∧ p.reader.next.isFollowing = true
          ∧ p.reader.next.ptr ≠ p.reader.currentPtr ∧ (∃ x ∈ p.sched.window, x.planIndex = 0))
      ∧ (let p := followedBy 0x380 (atEnd (sounding true .running));
        p.reader.current = some (hymnBuffer true 0) ∧ p.player.state = .running
          ∧ p.follower.freeze = none ∧ ((hymn true).endPos : Int) = p.position
          ∧ p.player.fermata.phase = .none ∧ p.reader.next.isFollowing = true
          ∧ p.reader.next.ptr ≠ p.reader.currentPtr ∧ p.sched.window = [])
      ∧ (let p := followedBy 0x300 (atEnd (sounding true .running));
        p.reader.current = some (hymnBuffer true 0) ∧ p.player.state = .running
          ∧ p.follower.freeze = none ∧ ((hymn true).endPos : Int) = p.position
          ∧ p.player.fermata.phase = .none ∧ p.reader.next.isFollowing = true
          ∧ p.reader.next.ptr = p.reader.currentPtr ∧ p.sched.window = []) := by decide

theorem test_met_triggers :
    (let p := owned 4 [] (sounding true .running);
        p.atOwner 4 ∧ p.player.state = .running ∧ p.report.writing = [] ∧ p.softReset = false)
      ∧ (let p := writingNow [(0x2F, 1)] (withFermata .pending 0 (sounding true .running));
        p.player.state = .running ∧ p.player.fermata.phase = .pending
          ∧ p.player.fermata.holdingPoint ≤ p.position ∧ p.report.writing ≠ [])
      ∧ (let p := ({ closing [] with follower := { (closing []).follower with
        state := .track } } : Part);
        p.reader.current = some (hymnBuffer true 0) ∧ p.sched.cues = [cueAt .hold 0]
          ∧ p.player.state = .running ∧ p.player.fermata.phase ≠ .holding
          ∧ p.follower.watched = some 0 ∧ 0 ≤ p.clock ∧ p.listen.queue = []
          ∧ p.follower.state = .track) := by decide

/-! ## States that meet the hypotheses: onsets, masks and hold listening -/

/-- Channel 3 alone enabled, a loud frame of it, and onsets in the queue. -/
def heard (queue : List Onset) : Part :=
  let p := sounding true .running
  { p with
    setup := { p.setup with
      ratio := 24, mergeSpan := 5
      channels := put p.setup.channels 3 { enabled := true, weight := 16, delay := 0 } }
    listen := { p.listen with
      queue := queue
      hold := { HoldListening.inactive with active := true }
      floors := Vector.replicate 4 { level := 1, resetPending := false, refractoryEnd := 0 }
      filters := Vector.replicate 4
        { prevIn := 0, prevOut := 0, samples := List.replicate 240 65536 } } }

/-- An onset alone, one that joins at the edge of the merge span, and one just past it. -/
theorem test_met_onsets :
    (let p := heard [];
        (∀ c, 240 ≤ (entry p.listen.filters c).samples.length) ∧ p.playing = true
          ∧ p.player.state = .running ∧ p.followMode = true ∧ p.listen.hold.active = true
          ∧ p.listen.hold.cutoff = none ∧ (entry p.setup.channels 3).enabled = true
          ∧ (∀ x : ChannelId, x ≠ 3 → (entry p.setup.channels x).enabled = false)
          ∧ (entry p.listen.floors 3).resetPending = false
          ∧ (entry p.listen.floors 3).refractoryEnd ≤ p.clock
          ∧ frameEnergy ((entry p.listen.filters 3).samples.take 240) = 61440
          ∧ p.setup.emin ≤ 61440 ∧ (entry p.listen.floors 3).level * p.setup.ratio ≤ 61440 * 16
          ∧ p.listen.queue = [])
      ∧ (let p := heard [onsetAt (-7500) false];
        (∀ c, 240 ≤ (entry p.listen.filters c).samples.length) ∧ p.playing = true
          ∧ p.player.state = .running ∧ p.followMode = true ∧ p.listen.hold.active = true
          ∧ p.listen.hold.cutoff = none ∧ (entry p.setup.channels 3).enabled = true
          ∧ (∀ x : ChannelId, x ≠ 3 → (entry p.setup.channels x).enabled = false)
          ∧ (entry p.listen.floors 3).resetPending = false
          ∧ (entry p.listen.floors 3).refractoryEnd ≤ p.clock
          ∧ frameEnergy ((entry p.listen.filters 3).samples.take 240) = 61440
          ∧ p.setup.emin ≤ 61440 ∧ (entry p.listen.floors 3).level * p.setup.ratio ≤ 61440 * 16
          ∧ ((-7500 : Int) - (-2500)).natAbs ≤ p.setup.mergeSpan * 1000
          ∧ (∀ x ∈ (onsetAt (-7500) false).members, x.1 ≠ 3))
      ∧ (let p := heard [onsetAt (-7501) false];
        ¬((-7501 : Int) - (-2500)).natAbs ≤ p.setup.mergeSpan * 1000) := by decide +kernel

/-- A window of the Mask List. -/
def windowOf (a b : Int) : MaskWindow := { start := a, stop := b }

/-- A part with windows in its Mask List. -/
def masked (l : List MaskWindow) (p : Part) : Part := { p with listen := { p.listen with
  masks := l } }

/-- No window; one that touches at 0; one that does not; a full list; a claim granted at once. -/
theorem test_met_maskGrants :
    lit.listen.masks = []
      ∧ (let p := masked [windowOf (-9) 0] lit;
        p.listen.masks = [] ++ [windowOf (-9) 0] ∧ grantWindow p.setup 0 0 p.clock = windowOf 0 0)
      ∧ (let p := masked [windowOf (-9) (-1)] lit;
        ¬((0 : Int) ≤ (windowOf (-9) (-1)).stop) ∧ p.listen.masks.length < 32)
      ∧ (let p := masked (List.replicate 32 (windowOf (-9) (-1))) lit;
        p.listen.masks = List.replicate 31 (windowOf (-9) (-1)) ++ [windowOf (-9) (-1)]
          ∧ 32 ≤ p.listen.masks.length)
      ∧ (let p := withMap 255 (.key 0 0) lit;
        entry p.setup.outputMap 255 = .key 0 0 ∧ p.setupLoaded = true ∧ p.power.on = true
          ∧ (entry p.keys.entries 255).state = .off ∧ p.keys.queue = []
          ∧ slotsInUse p.keys.entries < p.keys.slotLimit) := by decide +kernel

theorem test_met_maskExpiry :
    (let p := masked [windowOf 0 0, windowOf 0 1] { lit with clock := 1 };
        maskDue p = true ∧ (p.listen.masks.filter fun w => decide
          ((p.clock : Int) ≤ w.stop)) = [windowOf 0 1]) := by decide

/-! ## States that meet the hypotheses: the slice and the end of a plan -/

/-- A player state with a clock, and a starve timer that has expired. -/
def at_ (clock : Nat) (st : PlayerState) : Part :=
  let p := sounding true st
  { p with clock := clock, time := 250, player := { p.player with starveTimer := some 0 } }

/-- DRAINING at the clock's last value with notes. -/
def ebbing (w : List Note) : Part := withNotes w (at_ 4294967295 .draining)

/-- STARVED with a note left and with an end note alone; the last clock value with
  a note awaited and with
one never keyed. -/
theorem test_met_planEnds :
    (let p := withNotes [noteIn .sounding 0 95] (at_ 0 .starved);
        p.player.state = .starved ∧ p.player.starveTimer = some 0 ∧ 0 ≤ p.time
          ∧ p.reader.current = some (hymnBuffer true 0) ∧ p.reader.next = .empty
          ∧ p.satTaken = false ∧ p.softReset = false ∧ (∃ x ∈ p.sched.window, x.planIndex = 0)
          ∧ (hymn true).endPos = 96)
      ∧ (let p := withNotes [noteIn .sounding 0 96] (at_ 0 .starved);
        p.player.state = .starved ∧ p.player.starveTimer = some 0 ∧ 0 ≤ p.time
          ∧ p.reader.current = some (hymnBuffer true 0) ∧ p.reader.next = .empty
          ∧ p.satTaken = false ∧ p.softReset = false
          ∧ (noteIn .sounding 0 96).release = ((hymn true).endPos : Int))
      ∧ (let p := ebbing [noteIn .pending 0 96, noteIn .sounding 0 96];
        4294967295 ≤ p.clock ∧ p.satTaken = false ∧ p.player.state = .draining
          ∧ p.reader.current = some (hymnBuffer true 0) ∧ p.reader.next = .empty
          ∧ p.softReset = false
          ∧ (∀ x ∈ p.sched.window, x.planIndex = (hymnBuffer true 0).planIndex)
          ∧ p.follower.predict 0 - (noteIn .pending 0 96).keyingLead ≤ p.clock)
      ∧ (let p := ebbing [noteIn .sounding 0 96, noteIn .pending 900000 900001];
        4294967295 ≤ p.clock ∧ p.satTaken = false ∧ p.player.state = .draining
          ∧ p.reader.current = some (hymnBuffer true 0) ∧ p.reader.next = .empty
          ∧ p.softReset = false
          ∧ (∀ x ∈ p.sched.window, x.planIndex = (hymnBuffer true 0).planIndex)
          ∧ (p.clock : Int) < p.follower.predict 900000 -
          (noteIn .pending 900000 900001).keyingLead) := by decide

/-- A finishing passage with
  its last note, HOLD_AT_ENTRY set, PENDING past its times in a DRAINING. -/
def lingering (clock : Nat) : Part :=
  let p := withNotes [{ noteIn .pending 0 1 with planIndex := 65535, holdAtEntry := true }]
    (at_ clock .draining)
  { p with reader := { p.reader with current := none, next := .finishing 0x380 65535 false } }

/-- Such a note is dropped at the next slice, also with
  the clock saturated, and the plan ends (R124,
R134, R136). -/
theorem test_lingering_ends :
    ∃ t, exec .slice (alone { lingering 4294967295 with satTaken := true }) = .next t
      ∧ t.part.player.state = .idle ∧ t.part.reader.line = [.spent 0x380 false] :=
  ⟨_, rfl, by decide +kernel, by decide +kernel⟩

/-- A note due with one left, and the last note due at its release time. -/
theorem test_met_sliceDraining :
    (let p := withNotes [noteIn .sounding 0 96, noteIn .sounding 0 999] (at_ 500000 .draining);
        p.clearing = false ∧ p.sched.nextSlice ≤ p.time ∧ p.playing = true ∧ p.bar = none
          ∧ p.satTaken = false ∧ (p.clock : Int) < p.follower.predict 999
          ∧ releaseTime p.follower (noteIn .sounding 0 96) = p.clock)
      ∧ (let p := withNotes [noteIn .sounding 0 96] (at_ 500000 .draining);
        p.clearing = false ∧ p.sched.nextSlice ≤ p.time ∧ p.playing = true ∧ p.bar = none
          ∧ p.reader.next = .empty ∧ p.satTaken = false ∧ p.softReset = false
          ∧ p.reader.current = some (hymnBuffer true 0) ∧ p.sched.window ≠ []
          ∧ releaseTime p.follower (noteIn .sounding 0 96) = p.clock
          ∧ p.courseSettled = true) := by decide

theorem test_met_sliceDrops :
    (let p := lingering 500000;
        p.clearing = false ∧ p.sched.nextSlice ≤ p.time ∧ p.playing = true ∧ p.bar = none
          ∧ p.player.state = .draining ∧ p.reader.current = none
          ∧ p.reader.next = .finishing 0x380 65535 false ∧ p.softReset = false
          ∧ p.sched.window = [{ noteIn .pending 0 1 with
          planIndex := 65535, holdAtEntry := true }]
          ∧ releaseTime p.follower (noteIn .pending 0 1) ≤ p.clock
          ∧ p.sched.curIndex ≠ 65535) := by decide

/-- A key-on in time and one late by a microsecond; a key-off. -/
theorem test_met_sliceOneNote :
    (let p := withNotes [noteIn .pending 0 96] (at_ 20000 .running);
        p.clearing = false ∧ p.sched.nextSlice ≤ p.time ∧ p.playing = true ∧ p.bar = none
          ∧ p.sched.steps = [] ∧ keyingTime p.follower (noteIn .pending 0 96) = 0
          ∧ (p.clock : Int) < releaseTime p.follower (noteIn .pending 0 96) ∧ p.sched.curIndex = 0)
      ∧ (let p := withNotes [noteIn .pending 0 96] (at_ 20001 .running);
        p.clearing = false ∧ p.sched.nextSlice ≤ p.time ∧ p.playing = true ∧ p.bar = none
          ∧ (20000 : Int) < p.clock - keyingTime p.follower (noteIn .pending 0 96))
      ∧ (let p := withNotes [noteIn .sounding 0 1] (at_ 500000 .running);
        p.clearing = false ∧ p.sched.nextSlice ≤ p.time ∧ p.playing = true ∧ p.bar = none
          ∧ p.player.state ≠ .draining ∧ p.reader.next.awaited = false ∧ p.sched.steps = []
          ∧ releaseTime p.follower (noteIn .sounding 0 1) ≤ p.clock) := by decide

/-- A step of one stop entry due at its position. -/
def stepping (draw : Bool) : Part :=
  let p := at_ 0 .running
  { p with sched := { p.sched with steps :=
    [{ position := 0, entries := [⟨63, draw⟩], planIndex := 0, holdAtEntry := false }] } }

/-- A stop already so drawn; one with no coil; one with a coil. -/
theorem test_met_sliceOneStep :
    (let p := stepping false;
        p.clearing = false ∧ p.sched.nextSlice ≤ p.time ∧ p.playing = true ∧ p.bar = none
          ∧ p.sched.window = []
          ∧ stepTime p.setup p.follower ⟨0, [⟨63, false⟩], 0, false⟩ = p.clock
          ∧ entry p.sched.drawn 63 = false)
      ∧ (let p := stepping true;
        p.clearing = false ∧ p.sched.nextSlice ≤ p.time ∧ p.playing = true ∧ p.bar = none
          ∧ p.sched.window = [] ∧ entry p.sched.drawn 63 ≠ true
          ∧ (allOutputs.filter fun n => entry p.setup.outputMap n = .stopOn 63) = [])
      ∧ (let p := withMap 255 (.stopOn 63) (stepping true);
        p.clearing = false ∧ p.sched.nextSlice ≤ p.time ∧ p.playing = true ∧ p.bar = none
          ∧ entry p.sched.drawn 63 ≠ true
          ∧ (allOutputs.filter fun n => entry p.setup.outputMap n = .stopOn 63) = [255]) := by
          decide +kernel

theorem test_met_stopPulses :
    p0.power.on = false
      ∧ (entry (withEntry 0 (keyIn .pull 1) lit).keys.entries 0).state ≠ .off
      ∧ (let p := ({ lit with setupLoaded := false } : Part);
        QueueExact p.keys ∧ p.power.on = true ∧ (entry p.keys.entries 0).state = .off
          ∧ p.keys.queue.length < 64 ∧ p.setupLoaded = false) :=
  ⟨rfl, by decide, lit_exact, rfl, by decide, by decide, rfl⟩

/-! ## States that meet the hypotheses: TEST, frames and power -/

/-- A slot free for a key and for a stop coil; a full queue. -/
theorem test_met_testPulls :
    (let p := testing 0 255 .waiting (withMap 0 (.key 0 0) lit);
        QueueExact p.keys ∧ (entry p.keys.entries 0).state.atRest = true ∧ p.keys.queue = []
          ∧ p.setupLoaded = true ∧ slotsInUse p.keys.entries < p.keys.slotLimit
          ∧ entry p.setup.outputMap 0 = .key 0 0)
      ∧ (let p := testing 0 255 .waiting (withMap 0 (.stopOff 63) lit);
        QueueExact p.keys ∧ entry p.setup.outputMap 0 = .stopOff 63)
      ∧ (let p := testing 255 255 .waiting full;
        QueueExact p.keys ∧ (entry p.keys.entries 255).state.atRest = true
          ∧ 64 ≤ p.keys.queue.length) :=
  ⟨⟨lit_exact, by decide, rfl, rfl, by decide +kernel, by decide⟩, ⟨lit_exact, by decide⟩,
    ⟨test_met_queueFull.1, by decide +kernel, by decide +kernel⟩⟩

/-- A test pull at its end with each record that is no pass, of an output marked and not marked. -/
theorem test_met_testFails : ∀ r ∈ [PullRecord.holdOk, .none, .empty], ∀ m,
    let p := withDetector 0 { Detector.idle with pullRecord := r } (tested .pull m .pulled lit)
    QueueExact p.keys ∧ (entry p.keys.entries 0).state = .pull
      ∧ (entry p.keys.entries 0).timer = some 0 ∧ 0 ≤ p.time ∧ p.setupLoaded = true
      ∧ p.guard.test = some { last := 0, output := 0, marked := m, stage := .pulled }
      ∧ (entry p.guard.detectors 0).pullRecord = r := by
  intro r h m
  refine ⟨exact_with 0 _ rfl (by decide), ?_, ?_, Nat.zero_le _, rfl, rfl, ?_⟩
  · revert r; cases m <;> decide
  · revert r; cases m <;> decide
  · revert r; cases m <;> decide

/-- A pulse of the output under test at its end with each record, marked and not marked. -/
theorem test_met_testPulses : ∀ r ∈ [PullRecord.pullOk, .holdOk, .none, .empty], ∀ m,
    let p := withDetector 0 { Detector.idle with pullRecord := r } (tested .pulse m .pulled lit)
    QueueExact p.keys ∧ (entry p.keys.entries 0).state = .pulse
      ∧ (entry p.keys.entries 0).timer = some 0 ∧ 0 ≤ p.time ∧ p.setupLoaded = true
      ∧ p.guard.test = some { last := 0, output := 0, marked := m, stage := .pulled }
      ∧ (entry p.guard.detectors 0).pullRecord = r := by
  intro r h m
  refine ⟨exact_with 0 _ rfl (by decide), ?_, ?_, Nat.zero_le _, rfl, rfl, ?_⟩
  · revert r; cases m <;> decide
  · revert r; cases m <;> decide
  · revert r; cases m <;> decide

/-- A frame completing during a test pull and a test pulse, its one trip the output under test. -/
theorem test_met_testOver : ∀ st ∈ [KeyState.pull, .pulse], ∀ m,
    let p := { tested st m .pulled lit with chain := { lit.chain with
      frame := some (frameOf 15), lastDrive := Vector.replicate 256 .pull } }
    p.chain.frame = some (frameOf 15) ∧ QueueExact p.keys ∧ p.setupLoaded = true
      ∧ p.guard.test = some { last := 0, output := 0, marked := m, stage := .pulled }
      ∧ (entry p.keys.entries 0).state = st ∧ entry p.chain.lastDrive 0 ≠ .off
      ∧ (0 : OutputId).val < 32 * (frameOf 15).boards ∧ [Sense.over].getD 0 .none = .over
      ∧ ∀ n : OutputId, n ≠ 0 → [Sense.over].getD n.val .none ≠ .over := by
  intro st h m
  refine ⟨rfl, exact_with 0 _ rfl ?_, rfl, rfl, ?_, ?_, by decide, rfl, ?_⟩
  · revert st; decide
  · cases m <;> revert st <;> decide
  · show entry (Vector.replicate 256 Drive.pull) (0 : OutputId) ≠ .off
    decide +kernel
  · decide +kernel

/-- A frame completing on output 31, with a state, a detector and the drive of the frame before. -/
def framing (st : KeyState) (d : Detector) (drive : Drive) : Part :=
  let p := withDetector 31 d (withEntry 31 (keyIn st 1) lit)
  { p with chain := { p.chain with
    frame := some (frameOf 15), lastDrive := Vector.replicate 256 drive
    lastDuty := Vector.replicate 8 1 } }

/-- A hold count of 2; a stuck count of 2 with a current in every output of the board. -/
theorem test_met_frameCounts :
    (let p := framing .hold { Detector.idle with holdCount := 2 } .hold;
        p.chain.frame = some (frameOf 15) ∧ (31 : OutputId).val < 32 * (frameOf 15).boards
          ∧ (entry p.keys.entries 31).state = .hold ∧ entry p.chain.lastDrive 31 = .hold
          ∧ entry p.chain.lastDuty (Fin.ofNat 8 (31 / 32)) ≠ 0
          ∧ (entry p.guard.detectors 31).holdCount < 3)
      ∧ (let p := framing .off { Detector.idle with stuckCount := 2 } .off;
        (entry p.keys.entries 31).state = .off ∧ entry p.chain.lastDrive 31 = .off
          ∧ (List.replicate 32 Sense.holdOk).getD 31 .none ≠ .none
          ∧ (∀ n : OutputId, (List.replicate 32 Sense.holdOk).getD n.val .none ≠ .over)
          ∧ (entry p.guard.detectors 31).stuckCount = 2) := by decide +kernel

/-- Senses in which output 31 alone trips. -/
def overAt31 : List Sense := List.replicate 31 .none ++ [.over]

/-- OVER on a driven output, on one released since, and on one not driven in the frame before. -/
theorem test_met_frameOver :
    (overAt31.getD 31 .none = .over ∧ ∀ m : OutputId, m ≠ 31 → overAt31.getD m.val .none ≠ .over)
      ∧ (let p := framing .pull Detector.idle .pull;
        QueueExact p.keys ∧ (entry p.keys.entries 31).state = .pull
          ∧ entry p.chain.lastDrive 31 ≠ .off ∧ p.guard.tests 31 = false)
      ∧ (let p := framing .settle Detector.idle .pull;
        QueueExact p.keys ∧ (entry p.keys.entries 31).state = .settle)
      ∧ (let p := framing .pull Detector.idle .off;
        QueueExact p.keys ∧ entry p.chain.lastDrive 31 = .off) :=
  ⟨by decide +kernel, ⟨exact_with 31 _ rfl (by decide), by decide, by decide +kernel, rfl⟩,
    ⟨exact_with 31 _ rfl (by decide), by decide⟩,
    ⟨exact_with 31 _ rfl (by decide), by decide +kernel⟩⟩

theorem test_met_powerLostInTest :
    (let p := ({ tested .pull true .pulled lit with chain := { lit.chain with
      faultDue := true } } : Part);
        p.chain.faultDue = true ∧ p.power.on = true
          ∧ p.guard.test = some { last := 0, output := 0, marked := true, stage := .pulled }
          ∧ (entry p.keys.entries 0).state ≠ .disabled)
      ∧ (let p := ({ tested .pull true .pulled lit with supply := { lit.supply with
        outDue := true } } : Part);
        p.supply.outDue = true ∧ p.power.on = true
          ∧ p.guard.test = some { last := 0, output := 0, marked := true, stage := .pulled }) :=
          by decide

end Sys2Proof.Tests
end

section
/-! SUPPORT. How a command completes, and what the arbiter's rows answer: the shapes the proofs about
the shared store go through. -/

open Sys2Proof

namespace Sys2Proof.Machine

/-! ## Completing -/

/-- A command that changes the part alone completes with what holds of the new part. -/
theorem completes_of_exec {c : Instr} {s : State} {q : Part} {Q : Part → Prop}
    (h : exec c s = .next { s with part := q }) (hq : Q q) : Completes c s Q :=
  ⟨_, h, rfl, rfl, hq⟩

/-- A command that changes store and part completes with what holds of the two. -/
theorem completesStoring_of_exec {c : Instr} {s : State} {r : Memory × Part}
    {Q : Memory → Part → Prop} (h : exec c s = .next (s.withResult r)) (hq : Q r.1 r.2) :
    CompletesStoring c s Q :=
  ⟨_, h, rfl, hq⟩

/-- A word write in the store is the write of that word and of no other (R1). -/
theorem wordWritten_write {m : Memory} {a : Nat} (v : Word) (h : m.wf = true)
    (ha : a < Config.storeWords) : WordWritten m (m.write a v) a v :=
  ⟨Memory.read_write_same v h ha, fun _ hb => Memory.read_write_other v h hb.symm⟩

/-! ## The arbiter's rows (R39) -/

/-- ARBITER_SERVE makes one step of the arbiter. -/
theorem exec_arbiterServe (s : State) :
    exec .arbiterServe s = .next (s.withResult (arbiterStep s.store s.part)) := rfl

/-- The row of an awaited completion makes the arbiter's step. -/
theorem arbiterStepIf_of {awaited : Bool} (h : awaited = true) (mem : Memory) (p : Part) :
    arbiterStepIf awaited mem p = arbiterStep mem p := if_pos h

/-- Whether the Service Unit's next access is of a kind is read off that access. -/
theorem nextIsService_of {p : Part} {a : SvcAccess} {rest : List SvcAccess}
    (h : p.serviceNext a rest) (kind : SvcAccess → Bool) : nextIsService p kind = kind a := by
  obtain ⟨hnext, hline⟩ := h
  unfold nextIsService
  rw [hnext, hline]
  rfl

/-- ARBITER_SERVE with the Service Unit next serves the head of its line. -/
theorem exec_arbiterServe_service {s : State} {a : SvcAccess} {rest : List SvcAccess}
    (h : s.part.serviceNext a rest) :
    exec .arbiterServe s = .next (s.withResult (serveService a s.store
      { s.part with arb := .serviceUnit, svcLine := rest })) := by
  rw [exec_arbiterServe, arbiterStep_service h]

/-- The console's access at the head of its port is served (R38, R39). -/
theorem arbiterStep_console {mem : Memory} {p : Part} {a : PortAccess} {rest : List PortAccess}
    (h : nextRequester p = some .console) (hw : p.port.waiting = a :: rest) :
    arbiterStep mem p = serveConsole a rest mem { p with arb := .console } := by
  rw [arbiterStep_of h]
  unfold serveRequester
  have hport : (served .console p).port.waiting = a :: rest := hw
  dsimp only
  rw [hport]
  rfl

/-- The Report Writer's next word is served (R39, R57). -/
theorem arbiterStep_report {mem : Memory} {p : Part} {a : Nat} {w : Word}
    {rest : List (Nat × Word)} (h : nextRequester p = some .reportWriter)
    (hw : p.report.writing = (a, w) :: rest) :
    arbiterStep mem p = serveReport a w rest mem { p with arb := .reportWriter } := by
  rw [arbiterStep_of h]
  unfold serveRequester
  have hreport : (served .reportWriter p).report.writing = (a, w) :: rest := hw
  dsimp only
  rw [hreport]
  rfl

/-! ## The canonical store -/

/-- Two answers of a next state that are equal hold the same store. -/
theorem next_store {s t : State} (h : (.next s : Result) = .next t) : s.store = t.store :=
  congrArg State.store (Host.Outcome.next.inj h)

/-- What a command can do to the store: leave it, clear it whole (R2), or pass it through the end of
clearing or through one step of the arbiter. -/
theorem exec_store_cases {c : Instr} {s t : State} (h : exec c s = .next t) :
    t.store = s.store ∨ t.store = [] ∨ t.store = (clearingEndStep s.store s.part).1
      ∨ ∃ awaited, t.store = (arbiterStepIf awaited s.store s.part).1 := by
  cases c with
  | reset => exact .inr (.inl (next_store h).symm)
  | clearingEnd => exact .inr (.inr (.inl (next_store h).symm))
  | arbiterServe => exact .inr (.inr (.inr ⟨true, (next_store h).symm⟩))
  | setupCopyComplete | unknown | closingComplete | stampExchange | nowWriteComplete
  | faultRecordWritten => exact .inr (.inr (.inr ⟨_, (next_store h).symm⟩))
  | _ => exact .inl (next_store h).symm

/-- Every command keeps the canonical form. -/
theorem exec_storeOk {c : Instr} {s t : State} (hs : StoreOk s) (h : exec c s = .next t) :
    StoreOk t := by
  unfold StoreOk
  rcases exec_store_cases h with hstore | hstore | hstore | ⟨awaited, hstore⟩ <;> rw [hstore]
  · exact hs
  · exact Memory.wf_nil
  · exact wf_clearingEndStep s.part hs
  · exact wf_arbiterStepIf awaited s.part hs

end Sys2Proof.Machine

open Sys2Proof Sys2Proof.Machine

/-- Settles O4: a step runs a command, which leaves, clears or writes the store word by word, or is
idle, which leaves it. -/
theorem storeStaysCanonical : Obligations.StoreStaysCanonical := by
  intro s t hs h
  unfold step at h
  split at h
  case h_1 c rest _ =>
    have hrest : StoreOk { s with pending := rest } := hs
    exact exec_storeOk hrest h
  case h_2 =>
    unfold StoreOk
    rw [← next_store h, idle_store]
    exact hs

/-- Settles O6, with the invariant of a part in its reset state. -/
theorem resetStateMeetsTheInvariants : Obligations.ResetStateMeetsTheInvariants :=
  ⟨Memory.wf_nil, inv_reset Part.reset rfl rfl ⟨rfl, rfl, rfl⟩ ⟨rfl, rfl⟩ rfl⟩

/-- Settles O7: each block of the reset part is its own reset value, and a table of reset entries holds
the reset entry at every index. -/
theorem resetPutsEveryBlockInItsResetState : Obligations.ResetPutsEveryBlockInItsResetState := by
  intro s
  have hmap (n : OutputId) : entry Part.reset.setup.outputMap n = .unused :=
    entry_replicate MapEntry.unused n
  have hkeys (n : OutputId) : entry Part.reset.keys.entries n = KeyEntry.idle :=
    entry_replicate KeyEntry.idle n
  have hdrawn (i : StopId) : entry Part.reset.sched.drawn i = false := entry_replicate false i
  have hguard (n : OutputId) : entry Part.reset.guard.detectors n = Detector.idle :=
    entry_replicate Detector.idle n
  exact ⟨rfl, Memory.read_nil, rfl, rfl, rfl, rfl, rfl, rfl, rfl, rfl, hmap, rfl, rfl, rfl, rfl, rfl,
    rfl, rfl, hkeys, rfl, hdrawn, rfl, rfl, hguard, rfl⟩
end

section
/-! SUPPORT. The Console Port as its accesses are served and begin (R38, R52), the end of clearing (R2),
and the bits of Part State (R17, R55). -/

open Sys2Proof

namespace Sys2Proof.Machine

/-! ## Accesses that begin -/

theorem drainPort_nil (answered : List Word) (p : Part) :
    drainPort answered [] p = putPort answered [] p := rfl

/-- A read of Attention answers what is latched and clears it (R52). -/
theorem drainPort_attention (answered : List Word) (rest : List PortAccess) (p : Part) :
    drainPort answered (.attention :: rest) p
      = drainPort (answered ++ [p.attention]) rest { p with attention := 0 } := rfl

/-- A read of Part State answers its word and changes nothing (R38). -/
theorem drainPort_partState (answered : List Word) (second : Bool) (rest : List PortAccess)
    (p : Part) :
    drainPort answered (.partState second :: rest) p
      = drainPort (answered ++ [if second then p.partState1 else p.partState0]) rest p := rfl

/-- A store read stands on WAIT, with what is behind it (R38). -/
theorem drainPort_read (answered : List Word) (y : StoreAddr) (rest : List PortAccess) (p : Part) :
    drainPort answered (.read y :: rest) p = putPort answered (.read y :: rest) p := rfl

/-- A Transfer write held by nothing is judged as it begins (R40). -/
theorem drainPort_transfer (answered : List Word) (w : Word) (rest : List PortAccess) {p : Part}
    (h : p.holdsTransfer = false) :
    drainPort answered (.transfer w :: rest) p = drainPort answered rest (transferWrite w p) := by
  have hbegin : beginAccess (.transfer w) p = some (transferWrite w p) := if_neg (by simp [h])
  have hanswer : (PortAccess.transfer w).answer p = [] := rfl
  rw [drainPort, hbegin, hanswer, List.append_nil]

/-- An event that answers no word leaves the words answered before (log 11). -/
theorem putPort_none (l : List PortAccess) (p : Part) :
    putPort [] l p = { p with port := { p.port with waiting := l } } := rfl

/-- An event that answers leaves its words on the port (log 11). -/
theorem putPort_cons (w : Word) (more : List Word) (l : List PortAccess) (p : Part) :
    putPort (w :: more) l p = { p with port := { waiting := l, answers := w :: more } } := rfl

/-- Putting back what stands on the port, with no word answered, changes nothing. -/
theorem putPort_same {p : Part} {l : List PortAccess} (h : p.port.waiting = l) :
    putPort [] l p = p := by
  subst h
  rfl

/-- An access presented to a port on which none stands begins (R38). -/
theorem present_open {a : PortAccess} {p : Part} (h : p.port.waiting = []) :
    present a p = drainPort [] [a] p := by
  unfold present
  rw [h]
  rfl

/-! ## Console accesses served (R38) -/

/-- A served read answers the word as it stands. -/
theorem serveConsole_read (x : StoreAddr) (rest : List PortAccess) (mem : Memory) (p : Part) :
    serveConsole (.read x) rest mem p = (mem, drainPort [mem.read x.toNat] rest p) := rfl

/-- A served write puts its word. -/
theorem serveConsole_write (x : StoreAddr) (v : Word) (rest : List PortAccess) (mem : Memory)
    (p : Part) :
    serveConsole (.write x v) rest mem p = (mem.write x.toNat v, drainPort [] rest p) := rfl

/-- ARBITER_SERVE with the console next serves the access at the head of its port. -/
theorem exec_arbiterServe_console {s : State} {a : PortAccess} {rest : List PortAccess}
    (h : nextRequester s.part = some .console) (hw : s.part.port.waiting = a :: rest) :
    exec .arbiterServe s = .next (s.withResult (serveConsole a rest s.store
      { s.part with arb := .console })) := by
  rw [exec_arbiterServe, arbiterStep_console h hw]

/-- A store address of the console is an address of the store (R1). -/
theorem storeAddr_lt (x : StoreAddr) : x.toNat < Config.storeWords := x.isLt

/-! ## The end of clearing (R2) -/

/-- CLEARING_END while the store is cleared: the clock and the cadences begin, and what is held on WAIT is
served. -/
theorem exec_clearingEnd {s : State} (h : s.part.clearing = true) :
    exec .clearingEnd s = .next (s.withResult (serveHeld s.store (clearingOver s.part))) := by
  have hstep : clearingEndStep s.store s.part = serveHeld s.store (clearingOver s.part) := if_pos h
  rw [← hstep]
  rfl

/-- A read held on WAIT is served at the end of clearing. -/
theorem serveHeld_read {p : Part} {x : StoreAddr} {rest : List PortAccess} (mem : Memory)
    (h : p.port.waiting = .read x :: rest) :
    serveHeld mem p = serveConsole (.read x) rest mem (served .console p) := by
  unfold serveHeld
  rw [h]

/-- A write held on WAIT is served at the end of clearing. -/
theorem serveHeld_write {p : Part} {x : StoreAddr} {v : Word} {rest : List PortAccess}
    (mem : Memory) (h : p.port.waiting = .write x v :: rest) :
    serveHeld mem p = serveConsole (.write x v) rest mem (served .console p) := by
  unfold serveHeld
  rw [h]

/-- A Transfer write held on WAIT begins at the end of clearing. -/
theorem serveHeld_transfer {p : Part} {w : Word} {rest : List PortAccess} (mem : Memory)
    (h : p.port.waiting = .transfer w :: rest) :
    serveHeld mem p = (mem, drainPort [] (.transfer w :: rest) p) := by
  unfold serveHeld
  rw [h]

/-- With nothing held the end of clearing serves nothing. -/
theorem serveHeld_nil {p : Part} (mem : Memory) (h : p.port.waiting = []) :
    serveHeld mem p = (mem, p) := by
  unfold serveHeld
  rw [h]
  exact congrArg (Prod.mk mem) (putPort_same h)

/-- The clock and the cadences begin whatever stands on the port. -/
theorem clearingOver_port (p : Part) : (clearingOver p).port = p.port := rfl

/-- A TAKE with the slot free begins the service request (R40, R41). -/
theorem transferWrite_take {p : Part} (h : p.slot.phase = .free) :
    transferWrite 0xB401 p = { p with
      lastTransfer := .accepted
      slot := { phase := .reading, command := 0, args := [] }
      svcLine := p.svcLine ++ [.readCode] } := by
  have hkind : transferKind 0xB401 = .take := rfl
  have hbusy : p.slotBusy = false := by simp [Part.slotBusy, h]
  unfold transferWrite takeAction
  rw [hkind, hbusy]
  rfl

/-! ## The bits of Part State (R17) -/

/-- A bit of a word is a flag where the word's quotient there is odd as the flag. -/
theorem getLsbD_of_field {w : Word} {i : Nat} {b : Bool} (h : w.toNat / 2 ^ i % 2 = b.toNat) :
    w.getLsbD i = b := by
  rw [← BitVec.testBit_toNat, Nat.testBit_eq_decide_div_mod_eq, h]
  cases b <;> rfl

theorem PlayerState.code_lt (st : PlayerState) : st.code < 6 := by cases st <;> decide
theorem FollowState.code_lt (st : FollowState) : st.code < 4 := by cases st <;> decide
theorem TransferResult.code_lt (r : TransferResult) : r.code < 4 := by cases r <;> decide
theorem LockReason.code_lt (r : LockReason) : r.code < 5 := by cases r <;> decide
theorem FaultKind.code_lt (k : FaultKind) : k.code < 6 := by cases k <;> decide

theorem wordOf_toNat {n : Nat} (h : n < 65536) : (wordOf n).toNat = n := by
  unfold wordOf
  rw [BitVec.toNat_ofNat]
  exact Nat.mod_eq_of_lt h

/-- Each field of Part State word 0 fits the bits R17 gives it. -/
theorem partState0_bounds (p : Part) :
    p.player.state.code < 6 ∧ p.fermataHeld.toNat < 2 ∧ p.follower.state.code < 4
      ∧ p.power.on.toNat < 2 ∧ p.slotBusy.toNat < 2 ∧ p.setupLoaded.toNat < 2
      ∧ p.clearing.toNat < 2 ∧ p.lastTransfer.code < 4 ∧ p.chain.fault.toNat < 2
      ∧ p.supply.undervolt.toNat < 2 :=
  ⟨PlayerState.code_lt _, Bool.toNat_lt _, FollowState.code_lt _, Bool.toNat_lt _, Bool.toNat_lt _,
    Bool.toNat_lt _, Bool.toNat_lt _, TransferResult.code_lt _, Bool.toNat_lt _, Bool.toNat_lt _⟩

/-- Part State word 0 is the sum of its fields, none of which carries (R17). -/
theorem partState0_toNat (p : Part) : p.partState0.toNat =
    p.player.state.code + 8 * p.fermataHeld.toNat + 16 * p.follower.state.code
      + 64 * p.power.on.toNat + 128 * p.slotBusy.toNat + 256 * p.setupLoaded.toNat
      + 512 * p.clearing.toNat + 1024 * p.lastTransfer.code + 4096 * p.chain.fault.toNat
      + 8192 * p.supply.undervolt.toNat := by
  refine wordOf_toNat ?_
  have hbounds := partState0_bounds p
  omega

/-- Part State word 1 is the sum of its fields, where the recorded commands are (R17). -/
theorem partState1_toNat {p : Part} (hlast : p.lastCommand < 16) (hprev : p.prevCommand < 16) :
    p.partState1.toNat = p.lastCommand + 16 * p.prevCommand + 256 * p.player.lockReason.code := by
  refine wordOf_toNat ?_
  have := p.player.lockReason.code_lt
  omega

/-- ATTN is asserted while some latched condition has its enable set (R54). -/
theorem attn_iff (p : Part) :
    p.attn = true ↔ ∃ i, p.attention.getLsbD i = true ∧ p.attnEnables.getLsbD i = true := by
  have hbit (i : Nat) : (p.attention &&& p.attnEnables).getLsbD i = true
      ↔ p.attention.getLsbD i = true ∧ p.attnEnables.getLsbD i = true := by
    rw [BitVec.getLsbD_and, Bool.and_eq_true]
  unfold Part.attn
  rw [bne_iff_ne]
  constructor
  · intro hne
    by_contra hnone
    refine hne (BitVec.eq_of_getLsbD_eq fun i _ => ?_)
    have hclear : (p.attention &&& p.attnEnables).getLsbD i = false :=
      Bool.eq_false_iff.2 fun hi => hnone ⟨i, (hbit i).1 hi⟩
    simp [hclear]
  · rintro ⟨i, hi⟩ hzero
    have hset := (hbit i).2 hi
    simp [hzero] at hset

end Sys2Proof.Machine

open Sys2Proof Sys2Proof.Machine

/-- Settles O8: each kind of held access is served on the part whose clearing is over. -/
theorem clearingEndReleasesTheHeldAccess : Obligations.ClearingEndReleasesTheHeldAccess := by
  intro s hclearing
  have hexec := exec_clearingEnd hclearing
  have hport := clearingOver_port s.part
  refine ⟨?none, ?read, ?write, ?take⟩
  case none =>
    intro hw
    rw [hexec, serveHeld_nil s.store (hport ▸ hw)]
    rfl
  case read =>
    intro x hw
    rw [serveHeld_read s.store (hport ▸ hw), serveConsole_read] at hexec
    exact completes_of_exec hexec ⟨rfl, rfl, rfl, rfl⟩
  case write =>
    intro x v hw hs
    rw [serveHeld_write s.store (hport ▸ hw), serveConsole_write] at hexec
    exact completesStoring_of_exec hexec ⟨wordWritten_write v hs (storeAddr_lt x), rfl, rfl, rfl⟩
  case take =>
    intro hw hfree hsoft
    have hholds : (clearingOver s.part).holdsTransfer = false := hsoft
    have hslot : (clearingOver s.part).slot.phase = .free := hfree
    rw [serveHeld_transfer s.store (hport ▸ hw), drainPort_transfer [] _ _ hholds,
      transferWrite_take hslot, drainPort_nil] at hexec
    exact completes_of_exec hexec ⟨rfl, rfl, rfl, rfl, rfl⟩

/-- Settles O10: the head of the port is served, and the accesses behind it begin one by one. -/
theorem consoleAccessIsServed : Obligations.ConsoleAccessIsServed := by
  intro s x v hnext
  refine ⟨?read, ?write, ?registers, ?held⟩
  case read =>
    intro hw
    rw [exec_arbiterServe_console hnext hw, serveConsole_read, drainPort_nil, putPort_cons]
    rfl
  case write =>
    intro hw hs
    have hexec := exec_arbiterServe_console hnext hw
    rw [serveConsole_write, drainPort_nil, putPort_none] at hexec
    exact completesStoring_of_exec hexec ⟨wordWritten_write v hs (storeAddr_lt x), rfl⟩
  case registers =>
    intro b hw
    rw [exec_arbiterServe_console hnext hw, serveConsole_read, drainPort_attention,
      drainPort_partState, drainPort_nil]
    rfl
  case held =>
    intro y rest hw
    rw [exec_arbiterServe_console hnext hw, serveConsole_read, drainPort_attention, drainPort_read]
    rfl

/-- Settles O15: a field is a quotient and remainder of the sum that is the word. -/
theorem partStateShowsItsFields : Obligations.PartStateShowsItsFields := by
  intro p hlast hprev
  have hword0 := partState0_toNat p
  have hword1 := partState1_toNat hlast hprev
  have hbounds := partState0_bounds p
  refine ⟨by omega, getLsbD_of_field (by omega), by omega, getLsbD_of_field (by omega),
    getLsbD_of_field (by omega), getLsbD_of_field (by omega), getLsbD_of_field (by omega), by omega,
    getLsbD_of_field (by omega), getLsbD_of_field (by omega), by omega, by omega, by omega, by omega,
    ?_, attn_iff p⟩
  intro hopen
  rw [present_open hopen, present_open hopen, present_open hopen]
  exact ⟨rfl, rfl, rfl⟩
end

section
/-! SUPPORT. The Service Unit's reads and writes: the command code and its arguments (R41), Fault Table
records (R16, R177), and the words of the setup record (R12, R13, R48, R49). -/

open Sys2Proof

namespace Sys2Proof.Machine

/-! ## Reads of the command in flight (R39, R41, R50) -/

theorem serveService_readCode (mem : Memory) (p : Part) :
    serveService .readCode mem p = (mem, codeRead (mem.read 0) p) := rfl

theorem serveService_readArg (i : Nat) (mem : Memory) (p : Part) :
    serveService (.readArg i) mem p = (mem, argRead i (mem.read i) p) := rfl

theorem serveService_copyWord (k : Nat) (mem : Memory) (p : Part) :
    serveService (.copyWord k) mem p
      = (mem, setupWordRead k (mem.read ((p.slot.arg 1).toNat + k)) p) := rfl

/-! ## The command code and its arguments (R14, R41) -/

theorem definedCommand_iff (code : Nat) : definedCommand code = true ↔ 1 ≤ code ∧ code ≤ 9 := by
  simp [definedCommand]

/-- An undefined code is recorded as 15 and ends the command with UNKNOWN and NONE. -/
theorem codeRead_undefined {w : Word} (h : definedCommand w.toNat = false) (p : Part) :
    codeRead w p = closeSlot .unknown .none { p with
      prevCommand := p.lastCommand, lastCommand := 15
      slot := { p.slot with command := w.toNat, args := [] } } := by
  simp [codeRead, h]

/-- A defined code without arguments stands with its owner. -/
theorem codeRead_noArgs {w : Word} (h : definedCommand w.toNat = true) (ha : argCount w.toNat = 0)
    (p : Part) :
    codeRead w p = { p with
      prevCommand := p.lastCommand, lastCommand := w.toNat
      slot := { phase := .applying, command := w.toNat, args := [] } } := by
  simp [codeRead, h, ha, slotPhase]

/-- A defined code with arguments asks for the first of them. -/
theorem codeRead_args {w : Word} (h : definedCommand w.toNat = true) (ha : argCount w.toNat ≠ 0)
    (p : Part) :
    codeRead w p = { p with
      prevCommand := p.lastCommand, lastCommand := w.toNat
      slot := { p.slot with command := w.toNat, args := [] }
      svcLine := p.svcLine ++ [.readArg 1] } := by
  simp [codeRead, h, ha, askService]

/-- An argument read is kept behind those before it; after the last the command stands with its owner. -/
theorem argRead_eq (i : Nat) (w : Word) (p : Part) :
    argRead i w p = { p with
      slot := { p.slot with
        phase := if i < argCount p.slot.command then p.slot.phase else .applying
        args := p.slot.args ++ [w] }
      svcLine := if i < argCount p.slot.command then p.svcLine ++ [.readArg (i + 1)]
        else p.svcLine } := by
  unfold argRead
  split <;> rfl

/-- UNKNOWN with the read of an undefined code next serves that read (R41). -/
theorem exec_unknown {s : State} {rest : List SvcAccess} (h : s.part.serviceNext .readCode rest)
    (hcode : definedCommand (s.store.read 0).toNat = false) :
    exec .unknown s = exec .arbiterServe s := by
  have hnext : nextIsService s.part (unknownCode s.store) = true := by
    rw [nextIsService_of h]
    simp [unknownCode, hcode]
  rw [exec_arbiterServe, ← arbiterStepIf_of hnext]
  rfl

/-! ## Fault Table records (R16, R177) -/

/-- Both words of an output's Fault Table entry are words of the store. -/
theorem faultAddr_lt (n : OutputId) : faultAddr n + 1 < Config.storeWords := by
  have := n.isLt
  simp only [faultAddr, Config.storeWords]
  omega

/-- Word 0 of a pass keeps the count found (R179). -/
theorem faultWord_pass (p : Part) {r : FaultRecord} (found : Word) (h : r.passed = true) :
    (faultWord p r found).toNat = found.toNat / 256 * 256 := by
  have hfound := found.isLt
  unfold faultWord
  rw [if_pos h, wordOf_toNat (by omega)]
  omega

/-- Word 0 of a fault takes the kind, the disabled flag, the retries and the count raised by 1. -/
theorem faultWord_fault (p : Part) {r : FaultRecord} (found : Word) (h : r.passed = false)
    (hretries : r.retries < 4) :
    (faultWord p r found).toNat = r.kind.code
      + (if (entry p.keys.entries r.output).state = .disabled then 8 else 0)
      + 16 * r.retries + 256 * min 255 (found.toNat / 256 + 1) := by
  have hkind := r.kind.code_lt
  unfold faultWord
  rw [if_neg (by simp [h])]
  refine wordOf_toNat ?_
  unfold disabledFlag
  split <;> omega

/-- FAULT_RECORD_WRITTEN with the write of word 1 next serves that write (R177). -/
theorem exec_faultRecordWritten {s : State} {r : FaultRecord} {rest : List SvcAccess}
    (h : s.part.serviceNext (.faultWord1 r) rest) :
    exec .faultRecordWritten s = exec .arbiterServe s := by
  have hnext : nextIsService s.part SvcAccess.recordEnd = true := nextIsService_of h _
  rw [exec_arbiterServe, ← arbiterStepIf_of hnext]
  rfl

/-- A condition latched unless something holds is its bit set unless it does (R52). -/
theorem latchIf_not (b : Bool) (c : Condition) (p : Part) :
    latchIf (!b) c p
      = { p with attention := if b then p.attention else p.attention ||| c.mask } := by
  cases b <;> rfl

/-! ## The words of the setup record (R12, R13, R48) -/

/-- "Clamped into" a range is the greater of its low end and the lesser of the value and its high end. -/
theorem clampNat_eq {lo hi : Nat} (h : lo ≤ hi) (x : Nat) :
    clampNat lo hi x = max lo (min x hi) := by
  unfold clampNat
  split
  · omega
  · split <;> omega

/-- Each row of the single words is a range. -/
theorem setupClamps_ranges : ∀ e ∈ setupClamps, e.2.1 ≤ e.2.2.1 := by decide

/-- Each row of the single words is the word of that number; one whose range begins at 0 is only held to
its high end. -/
theorem loadSetupWord_row (w : Word) (su : Setup) : ∀ e ∈ setupClamps,
    loadSetupWord e.1 w su = (e.2.2.2 su (if e.2.1 = 0 then min w.toNat e.2.2.1
      else clampNat e.2.1 e.2.2.1 w.toNat), false) := by
  unfold setupClamps
  simp only [List.forall_mem_cons]
  exact ⟨rfl, rfl, rfl, rfl, rfl, rfl, rfl, rfl, rfl, rfl, rfl, rfl, rfl, rfl, rfl, rfl, rfl, rfl, rfl,
    rfl, rfl, by simp⟩

/-- The single words clamped into a range are loaded so, each into its own field. -/
theorem loadSetupWord_clamped (w : Word) (su : Setup) : ∀ e ∈ setupClamps,
    loadSetupWord e.1 w su = (e.2.2.2 su (max e.2.1 (min w.toNat e.2.2.1)), false) := by
  intro e he
  rw [loadSetupWord_row w su e he, clampNat_eq (setupClamps_ranges e he)]
  by_cases hzero : e.2.1 = 0
  · rw [if_pos hzero, hzero, Nat.zero_max]
  · rw [if_neg hzero]

/-- Word 1 to 256: the entry of one output of the Output Map, as R49 says. -/
theorem loadSetupWord_map (n : OutputId) (w : Word) (su : Setup) :
    loadSetupWord (n.val + 1) w su =
      ({ su with outputMap := put su.outputMap n (loadMapEntry su.boards su.outputMap n w).1 },
        (loadMapEntry su.boards su.outputMap n w).2) := by
  have hk : 1 ≤ n.val + 1 ∧ n.val + 1 ≤ 256 := ⟨by omega, n.isLt⟩
  have hn : Fin.ofNat 256 (n.val + 1 - 1) = n := Fin.ext (Nat.mod_eq_of_lt n.isLt)
  unfold loadSetupWord
  rw [if_pos hk, hn]

/-- Word 257 to 288: one on-lead, at most 1,023. -/
theorem loadSetupWord_onLead (j : Fin 32) (w : Word) (su : Setup) :
    loadSetupWord (257 + j.val) w su =
      ({ su with onLead := put su.onLead j (min w.toNat 1023) }, false) := by
  have hj := j.isLt
  have hk : Fin.ofNat 32 (257 + j.val - 257) = j := Fin.ext (by simp)
  unfold loadSetupWord
  rw [if_neg (by omega), if_pos (by omega), hk]

/-- Word 289 to 292: one release lead, at most 1,023. -/
theorem loadSetupWord_releaseLead (j : Division) (w : Word) (su : Setup) :
    loadSetupWord (289 + j.val) w su =
      ({ su with releaseLead := put su.releaseLead j (min w.toNat 1023) }, false) := by
  have hj := j.isLt
  have hk : Fin.ofNat 4 (289 + j.val - 289) = j := Fin.ext (by simp)
  unfold loadSetupWord
  rw [if_neg (by omega), if_neg (by omega), if_pos (by omega), hk]

/-- Word 294 to 297: one organ-to-microphone delay, at most 255. -/
theorem loadSetupWord_micDelay (j : Division) (w : Word) (su : Setup) :
    loadSetupWord (294 + j.val) w su =
      ({ su with micDelay := put su.micDelay j (min w.toNat 255) }, false) := by
  have hj := j.isLt
  have hk : Fin.ofNat 4 (294 + j.val - 294) = j := Fin.ext (by simp)
  unfold loadSetupWord
  rw [if_neg (by omega), if_neg (by omega), if_neg (by omega), if_neg (by omega), if_pos (by omega),
    hk]

/-- The first word of a channel: enabled and weight (R13). -/
theorem loadSetupWord_channelFirst (c : ChannelId) (w : Word) (su : Setup) :
    loadSetupWord (298 + 2 * c.val) w su =
      ({ su with channels := put su.channels c (loadChannel w (entry su.channels c)) }, false) := by
  have hc := c.isLt
  have hk : Fin.ofNat 4 ((298 + 2 * c.val - 298) / 2) = c := Fin.ext (by simp)
  unfold loadSetupWord
  rw [if_neg (by omega), if_neg (by omega), if_neg (by omega), if_neg (by omega), if_neg (by omega),
    if_pos (by omega), hk]
  dsimp only
  rw [if_pos (by omega)]

/-- The second word of a channel: its delay (R13). -/
theorem loadSetupWord_channelSecond (c : ChannelId) (w : Word) (su : Setup) :
    loadSetupWord (299 + 2 * c.val) w su =
      ({ su with channels := put su.channels c { entry su.channels c with delay := w.toNat } },
        false) := by
  have hc := c.isLt
  have hk : Fin.ofNat 4 ((299 + 2 * c.val - 298) / 2) = c :=
    Fin.ext (by simp [Fin.ofNat]; omega)
  unfold loadSetupWord
  rw [if_neg (by omega), if_neg (by omega), if_neg (by omega), if_neg (by omega), if_neg (by omega),
    if_pos (by omega), hk]
  dsimp only
  rw [if_neg (by omega)]

/-- The first word of a channel holds the enable in bit 15 (R13). -/
theorem loadChannel_eq (w : Word) (c : Channel) :
    loadChannel w c = { c with enabled := w.getLsbD 15, weight := w.toNat % 32 } := by
  have hw := w.isLt
  have hbit : w.getLsbD 15 = decide (32768 ≤ w.toNat) := by
    refine getLsbD_of_field ?_
    by_cases h : 32768 ≤ w.toNat
    · simp only [h, decide_true, Bool.toNat_true]; omega
    · simp only [h, decide_false, Bool.toNat_false]; omega
  rw [hbit]
  rfl

/-- From word 257 on no word latches MAPPING. -/
theorem loadSetupWord_mapping {k : Nat} (h : 257 ≤ k) (w : Word) (su : Setup) :
    (loadSetupWord k w su).2 = false := by
  unfold loadSetupWord
  rw [if_neg (by omega)]
  simp only [apply_ite Prod.snd, ite_self]

/-- A number in a range is its base and an index. -/
theorem exists_index {m base k : Nat} (hlow : base ≤ k) (hhigh : k < base + m) :
    ∃ j : Fin m, k = base + j.val :=
  ⟨⟨k - base, by omega⟩, by show k = base + (k - base); omega⟩

/-- A table loaded at the index a word's number gives, entry by entry. -/
theorem entry_put_numbered {α : Type} {m : Nat} (base : Nat) (v : Vector α m) (i j : Fin m) (x : α) :
    entry (put v j x) i = if base + j.val = base + i.val then x else entry v i := by
  rw [entry_put]
  by_cases hij : i = j
  · rw [if_pos hij, if_pos (by rw [hij])]
  · have hval := Fin.val_ne_of_ne hij
    rw [if_neg hij, if_neg (by omega)]

/-- The two words of each channel are its own: the first at 298 + 2c, the second at 299 + 2c (R12). -/
theorem exists_channel {k : Nat} (hlow : 298 ≤ k) (hhigh : k ≤ 305) :
    ∃ c : ChannelId, k = 298 + 2 * c.val ∨ k = 299 + 2 * c.val :=
  ⟨⟨(k - 298) / 2, by omega⟩, by
    show k = 298 + 2 * ((k - 298) / 2) ∨ k = 299 + 2 * ((k - 298) / 2)
    omega⟩

/-- A word before the last of the setup record: the setup loaded, MAPPING where it says, the next word
asked for (R50). -/
theorem setupWordRead_next {k : Nat} (h : k < 329) (w : Word) (p : Part) :
    setupWordRead k w p = { p with
      setup := (loadSetupWord k w p.setup).1
      attention := if (loadSetupWord k w p.setup).2 then p.attention ||| 0x800 else p.attention
      svcLine := p.svcLine ++ [.copyWord (k + 1)] } := by
  unfold setupWordRead
  dsimp only
  rw [if_pos h]
  cases (loadSetupWord k w p.setup).2 <;> rfl

/-! ## An Output Map word (R49) -/

theorem loadMapEntry_absent {boards : Nat} {n : OutputId} (h : 32 * boards ≤ n.val)
    (map : Vector MapEntry 256) (w : Word) : loadMapEntry boards map n w = (.unused, false) :=
  if_pos h

theorem loadMapEntry_badKey {boards : Nat} {map : Vector MapEntry 256} {n : OutputId} {w : Word}
    {d : Division} {key : Nat} (h : n.val < 32 * boards) (hw : rawMapEntry w = .key d key)
    (hbad : maxKey d < key ∨ 4 ≤ (keyOutputs map d key).length) :
    loadMapEntry boards map n w = (.unused, true) := by
  unfold loadMapEntry
  rw [if_neg (by omega), hw]
  dsimp only
  by_cases hkey : maxKey d < key
  · rw [if_pos hkey]
  · rw [if_neg hkey, if_pos (hbad.resolve_left hkey)]

theorem loadMapEntry_key {boards : Nat} {map : Vector MapEntry 256} {n : OutputId} {w : Word}
    {d : Division} {key : Nat} (h : n.val < 32 * boards) (hw : rawMapEntry w = .key d key)
    (hkey : key ≤ maxKey d) (hroom : (keyOutputs map d key).length < 4) :
    loadMapEntry boards map n w = (.key d key, false) := by
  unfold loadMapEntry
  rw [if_neg (by omega), hw]
  dsimp only
  rw [if_neg (by omega), if_neg (by omega)]

theorem loadMapEntry_other {boards : Nat} {n : OutputId} {w : Word} (map : Vector MapEntry 256)
    (h : n.val < 32 * boards) (hw : ∀ d key, rawMapEntry w ≠ .key d key) :
    loadMapEntry boards map n w = (rawMapEntry w, false) := by
  unfold loadMapEntry
  rw [if_neg (by omega)]
  split
  case h_1 d key heq => exact absurd heq (hw d key)
  case h_2 => rfl

end Sys2Proof.Machine

open Sys2Proof Sys2Proof.Machine

/-- Settles O20: the code read splits by whether it is defined and has arguments. -/
theorem commandCodeAndArgumentsAreRead : Obligations.CommandCodeAndArgumentsAreRead := by
  intro s rest
  refine ⟨fun hnext => ⟨?undefined, ?noArgs, ?args⟩, ?argument⟩
  case undefined =>
    intro hcode c hc
    have hundef : definedCommand (s.store.read 0).toNat = false := by
      rw [← Bool.not_eq_true, definedCommand_iff]
      omega
    have hserve : exec c s = exec .arbiterServe s := by
      rcases List.mem_pair.1 hc with rfl | rfl
      · exact exec_unknown hnext hundef
      · rfl
    rw [hserve, exec_arbiterServe_service hnext, serveService_readCode, codeRead_undefined hundef]
    rfl
  case noArgs =>
    intro hcode
    have hdef := (definedCommand_iff (s.store.read 0).toNat).2 (by omega)
    have hargs : argCount (s.store.read 0).toNat = 0 := by
      rcases hcode with h | h | h | h <;> rw [h] <;> rfl
    rw [exec_arbiterServe_service hnext, serveService_readCode, codeRead_noArgs hdef hargs]
    rfl
  case args =>
    intro hcode
    have hdef := (definedCommand_iff (s.store.read 0).toNat).2 (by omega)
    have hargs : argCount (s.store.read 0).toNat ≠ 0 := by
      rcases hcode with h | h | h | h | h <;> rw [h] <;> decide
    rw [exec_arbiterServe_service hnext, serveService_readCode, codeRead_args hdef hargs]
    rfl
  case argument =>
    intro i hnext
    rw [exec_arbiterServe_service hnext, serveService_readArg, argRead_eq]
    rfl

/-- Settles O55: each access of a record, or of a CLEAR, writes its own word of the entry. -/
theorem faultRecordsAreWritten : Obligations.FaultRecordsAreWritten := by
  intro s r rest hs
  refine ⟨?found, ?word0, ?word1, ?clear⟩
  case found =>
    intro hnext
    rw [exec_arbiterServe_service hnext]
    rfl
  case word0 =>
    intro found hnext hretries
    refine completesStoring_of_exec (exec_arbiterServe_service hnext) ⟨rfl, _,
      wordWritten_write _ hs (Nat.lt_of_succ_lt (faultAddr_lt r.output)),
      faultWord_pass _ found, fun hfault => faultWord_fault _ found hfault hretries⟩
  case word1 =>
    intro hnext c hc
    have hserve : exec c s = exec .arbiterServe s := by
      rcases List.mem_pair.1 hc with rfl | rfl
      · exact exec_faultRecordWritten hnext
      · rfl
    exact completesStoring_of_exec (hserve.trans (exec_arbiterServe_service hnext))
      ⟨wordWritten_write _ hs (faultAddr_lt r.output), latchIf_not r.passed .fault _⟩
  case clear =>
    intro n found hnext
    exact completesStoring_of_exec (exec_arbiterServe_service hnext)
      ⟨wordWritten_write _ hs (Nat.lt_of_succ_lt (faultAddr_lt n)), rfl⟩

/-- Settles O24: a word's number says which field it loads, and `loadSetupWord` loads that one. -/
theorem setupWordsAreLoadedClamped : Obligations.SetupWordsAreLoadedClamped := by
  intro s k rest hnext hlow hhigh w v su map
  have hexec := exec_arbiterServe_service hnext
  rw [serveService_copyWord, setupWordRead_next hhigh] at hexec
  refine completes_of_exec hexec ⟨rfl, ?map, ?mapping, ?clamps, ?onLead, ?releaseLead, ?micDelay,
    ?channels, ?eminLow, ?eminHigh, ?policy, ?entries⟩
  case map =>
    intro hk
    obtain ⟨n, rfl⟩ : ∃ n : OutputId, k = 1 + n.val := exists_index hlow (by omega)
    dsimp only
    rw [Nat.add_comm 1, loadSetupWord_map]
  case mapping =>
    intro hk
    dsimp only
    rw [loadSetupWord_mapping hk]
    rfl
  case clamps =>
    rintro e he rfl
    exact congrArg Prod.fst (loadSetupWord_clamped w su e he)
  case onLead =>
    intro hk hk'
    obtain ⟨j, rfl⟩ : ∃ j : Fin 32, k = 257 + j.val := exists_index hk (by omega)
    dsimp only
    rw [loadSetupWord_onLead]
    exact ⟨rfl, fun i => entry_put_numbered 257 su.onLead i j _⟩
  case releaseLead =>
    intro hk hk'
    obtain ⟨j, rfl⟩ : ∃ j : Division, k = 289 + j.val := exists_index hk (by omega)
    dsimp only
    rw [loadSetupWord_releaseLead]
    exact ⟨rfl, fun i => entry_put_numbered 289 su.releaseLead i j _⟩
  case micDelay =>
    intro hk hk'
    obtain ⟨j, rfl⟩ : ∃ j : Division, k = 294 + j.val := exists_index hk (by omega)
    dsimp only
    rw [loadSetupWord_micDelay]
    exact ⟨rfl, fun i => entry_put_numbered 294 su.micDelay i j _⟩
  case channels =>
    intro hk hk'
    obtain ⟨c, rfl | rfl⟩ := exists_channel hk hk'
    · dsimp only
      rw [loadSetupWord_channelFirst]
      refine ⟨rfl, fun i => ?_⟩
      dsimp only
      rw [entry_put]
      by_cases hi : i = c
      · rw [if_pos hi, if_pos (by rw [hi]), hi, loadChannel_eq]
      · have hval := Fin.val_ne_of_ne hi
        rw [if_neg hi, if_neg (by omega), if_neg (by omega)]
    · dsimp only
      rw [loadSetupWord_channelSecond]
      refine ⟨rfl, fun i => ?_⟩
      dsimp only
      rw [entry_put]
      by_cases hi : i = c
      · rw [if_pos hi, if_neg (by omega), if_pos (by rw [hi]), hi]
      · have hval := Fin.val_ne_of_ne hi
        rw [if_neg hi, if_neg (by omega), if_neg (by omega)]
  case eminLow => rintro rfl; rfl
  case eminHigh => rintro rfl; rfl
  case policy => rintro rfl; rfl
  case entries =>
    rintro n rfl
    dsimp only
    rw [loadSetupWord_map]
    dsimp only
    rw [entry_put_same]
    refine ⟨fun x hx => entry_put_other _ n x _ hx, ?absent, ?key, ?other⟩
    case absent =>
      intro habsent
      rw [loadMapEntry_absent habsent]
      exact ⟨rfl, rfl⟩
    case key =>
      intro hpresent d key hw
      refine ⟨fun hbad => ?_, fun hkey hroom => ?_⟩
      · rw [loadMapEntry_badKey hpresent hw hbad]
        exact ⟨rfl, rfl⟩
      · rw [loadMapEntry_key hpresent hw hkey hroom]
        exact ⟨rfl, rfl⟩
    case other =>
      intro hpresent hw
      rw [loadMapEntry_other _ hpresent hw]
      exact ⟨rfl, rfl⟩
end

section
/-! SUPPORT. The Now record: the words of one write, the boundary's move, and the triggers (R15, R56,
R57). -/

open Sys2Proof

namespace Sys2Proof.Machine

/-! ## The words of one write (R15, R57) -/

/-- A signed value clamped is the greater of the low end and the lesser of the value and the high end. -/
theorem clampInt_eq {lo hi : Int} (h : lo ≤ hi) (x : Int) :
    clampInt lo hi x = max lo (min x hi) := by
  unfold clampInt
  split
  · omega
  · split <;> omega

theorem signed32_eq (x : Int) :
    signed32 x = ((max (-2147483648) (min x 2147483647)) % 4294967296).toNat := by
  unfold signed32
  rw [clampInt_eq (by decide)]

/-- The addresses of a list numbered from one rise by 1. -/
theorem addressed_addresses (l : List Word) : ∀ a : Nat,
    (addressed a l).map Prod.fst = (List.range l.length).map fun i => a + i := by
  induction l with
  | nil => intro a; rfl
  | cons w rest ih =>
    intro a
    rw [addressed, List.map_cons, ih, List.length_cons, List.range_succ_eq_map, List.map_cons,
      List.map_map]
    refine congrArg (a :: ·) (List.map_congr_left fun i _ => ?_)
    show a + 1 + i = a + (i + 1)
    omega

/-- Numbering leaves the words. -/
theorem addressed_words (l : List Word) : ∀ a : Nat, (addressed a l).map Prod.snd = l := by
  induction l with
  | nil => intro a; rfl
  | cons w rest ih => intro a; rw [addressed, List.map_cons, ih]

/-- A write is the open sequence, as many body words in rising order, and the close sequence (R57). -/
theorem nowWrites_addresses (seq : Word) (body : List Word) :
    (nowWrites seq body).map Prod.fst
      = 0x10 :: ((List.range body.length).map fun i => 0x11 + i) ++ [0x2F] := by
  unfold nowWrites
  rw [List.map_append, List.map_cons, addressed_addresses]
  rfl

theorem nowWrites_open (seq : Word) (body : List Word) :
    (nowWrites seq body).head? = some (0x10, seq) := rfl

theorem nowWrites_close (seq : Word) (body : List Word) :
    (nowWrites seq body).getLast? = some (0x2F, seq) := by
  unfold nowWrites
  rw [List.getLast?_append]
  rfl

/-- The words between the open and the close sequence are the body. -/
theorem nowWrites_body (seq : Word) (body : List Word) :
    (((nowWrites seq body).drop 1).take body.length).map Prod.snd = body := by
  have hlength : (addressed 0x11 body).length = body.length := by
    rw [← List.length_map (f := Prod.snd), addressed_words]
  have hdrop : (nowWrites seq body).drop 1 = addressed 0x11 body ++ [(0x2F, seq)] := rfl
  rw [hdrop, List.take_left' hlength, addressed_words]

/-- No write begins with nothing to write. -/
theorem nowWrites_ne_nil (seq : Word) (body : List Word) : nowWrites seq body ≠ [] :=
  List.cons_ne_nil _ _

/-! ## The boundary (R56) -/

/-- The boundary moves to the least multiple of 96 above itself and the position. -/
theorem beatAbove_least (b : Nat) (pos : Int) :
    beatAbove b pos % 96 = 0 ∧ b < beatAbove b pos ∧ pos < beatAbove b pos
      ∧ (beatAbove b pos ≤ b + 96 ∨ (beatAbove b pos : Int) ≤ pos + 96) := by
  unfold beatAbove
  omega

/-! ## Triggers (R56) -/

/-- A trigger with no write in progress, and no soft reset, begins one. -/
theorem trigger_begins {p : Part} (hw : p.report.writing = []) (hsoft : p.softReset = false) :
    trigger p = beginNowWrite p := by
  unfold trigger
  rw [hw, hsoft]
  rfl

/-- A trigger with a write in progress stands pending. -/
theorem trigger_pends {p : Part} (hw : p.report.writing ≠ []) :
    trigger p = { p with report.pending := true } := by
  unfold trigger
  rw [List.isEmpty_eq_false_iff.2 hw]
  rfl

/-- A trigger made where the report still stands as before has come about. -/
theorem triggered_trigger {p m : Part} (hreport : m.report = p.report)
    (hsoft : m.softReset = p.softReset) : Triggered p (trigger m) where
  begun hw hs := by
    rw [trigger_begins (hreport ▸ hw) (hsoft ▸ hs), ← hreport]
    exact ⟨rfl, nowWrites_ne_nil _ _⟩
  pending hw := by
    rw [trigger_pends (hreport ▸ hw), ← hreport]
    exact ⟨rfl, rfl⟩

/-- Whether a trigger has come about is read off the report. -/
theorem Triggered.of_report {p q r : Part} (h : Triggered p q) (hr : r.report = q.report) :
    Triggered p r where
  begun hw hs := hr ▸ h.begun hw hs
  pending hw := hr ▸ h.pending hw

/-- BEAT_BOUNDARY where a beat boundary has been reached (R56). -/
theorem beatDue_of {p : Part} {b : Nat} {buf : Buffer} (hb : p.report.boundary = some b)
    (hbuf : p.reader.current = some buf) (hrun : p.player.state = .running)
    (hfree : p.player.fermata.phase ≠ .holding) (hbeat : p.report.beatPending = false)
    (hend : b ≤ buf.passage.endPos) (hclock : p.follower.predict b ≤ p.clock) :
    beatDue p = true := by
  have hnow : p.follower.predict b ≤ p.now := hclock
  unfold beatDue
  rw [hb, hbuf]
  simp [hrun, hfree, hbeat, hend, hnow]

/-- NOW_WRITE_COMPLETE with the last word of a write next serves it (R56). -/
theorem exec_nowWriteComplete {s : State} {e : Nat × Word}
    (h : nextRequester s.part = some .reportWriter) (hw : s.part.report.writing = [e]) :
    exec .nowWriteComplete s = exec .arbiterServe s := by
  have hnext : nextIsNowClose s.part = true := by
    unfold nextIsNowClose
    rw [h, hw]
    rfl
  rw [exec_arbiterServe, ← arbiterStepIf_of hnext]
  rfl

/-- ARBITER_SERVE with the Report Writer next serves the next word of its write. -/
theorem exec_arbiterServe_report {s : State} {a : Nat} {w : Word} {rest : List (Nat × Word)}
    (h : nextRequester s.part = some .reportWriter) (hw : s.part.report.writing = (a, w) :: rest) :
    exec .arbiterServe s = .next (s.withResult (serveReport a w rest s.store
      { s.part with arb := .reportWriter })) := by
  rw [exec_arbiterServe, arbiterStep_report h hw]

/-- A word of a write with more behind it. -/
theorem serveReport_more {rest : List (Nat × Word)} (h : rest ≠ []) (a : Nat) (w : Word)
    (mem : Memory) (p : Part) :
    serveReport a w rest mem p
      = (mem.write a w, { p with report := { p.report with writing := rest } }) := by
  unfold serveReport
  rw [List.isEmpty_eq_false_iff.2 h]
  rfl

/-- The part when the last word of a Now-record write has been served and no further write has begun. -/
def Part.writeOver (p : Part) : Part :=
  { p with arb := .reportWriter, report := { p.report with writing := [] } }

/-- ARBITER_SERVE with the last word of a write next: the write is over, and a pending trigger begins the
next (R56). -/
theorem exec_arbiterServe_reportLast {s : State} {a : Nat} {w : Word}
    (h : nextRequester s.part = some .reportWriter) (hw : s.part.report.writing = [(a, w)]) :
    exec .arbiterServe s
      = .next (s.withResult (s.store.write a w, nowWriteServed s.part.writeOver)) := by
  rw [exec_arbiterServe_report h hw]
  rfl

/-- A write's end changes the report alone. -/
theorem nowWriteServed_part (p : Part) :
    nowWriteServed p = { p with report := (nowWriteServed p).report } := by
  unfold nowWriteServed
  split <;> rfl

/-- A write's end with no trigger pending, or in a soft reset, begins no other (R56, log 26). -/
theorem nowWriteServed_idle {p : Part} (h : p.report.pending = false ∨ p.softReset = true) :
    nowWriteServed p = p := by
  unfold nowWriteServed
  rcases h with h | h <;> simp [h]

/-- A write's end with a trigger pending begins the next (R56). -/
theorem nowWriteServed_begins {p : Part} (h : p.report.pending = true) (hsoft : p.softReset = false) :
    nowWriteServed p = beginNowWrite p := by
  unfold nowWriteServed
  rw [h, hsoft]
  rfl

/-! ## The changes that trigger (R56) -/

/-- HOLD stands with its owner in RUNNING: the freeze, HELD, and OK (R111). -/
theorem exec_hold {s : State} (h : s.part.atOwner cmdHold) (hrun : s.part.player.state = .running) :
    exec .hold s = .next { s with part := commandOk (holdPlayer s.part) } := by
  obtain ⟨hphase, hcommand, hstarting⟩ := h
  have hdue : commandDue cmdHold s.part = true := by
    simp [commandDue, hphase, hcommand, hstarting]
  have hcourse : holdCommand s.part = commandOk (holdPlayer s.part) := by
    unfold holdCommand
    rw [hrun]
  rw [← hcourse, ← whenDue_of hdue holdCommand]
  rfl

/-- HOLD's way into HELD is a trigger. -/
theorem holdPlayer_triggered (p : Part) : Triggered p (holdPlayer p) := by
  unfold holdPlayer moveTo enterState
  exact triggered_trigger rfl rfl

/-- The start of holding is a trigger. -/
theorem startHolding_triggered (p : Part) : Triggered p (startHolding p) := by
  unfold startHolding
  refine triggered_trigger ?_ ?_
  · split <;> rfl
  · split <;> rfl

/-- FERMATA_HOLDING_START where the position has reached the holding point (R106). -/
theorem holdingDue_of {p : Part} (hrun : p.player.state = .running)
    (hpending : p.player.fermata.phase = .pending)
    (hpos : p.player.fermata.holdingPoint ≤ p.position) : holdingDue p = true := by
  simp [holdingDue, hrun, hpending, hpos]

/-! ## A cue that resolves as a MISS (R82, R89) -/

/-- With an empty Onset Queue a cue is a MISS (R82). -/
theorem judgeCue_empty (tp : Int) (w : Nat) : judgeCue tp w [] = (.miss, none) := rfl

/-- A MISS leaves TRACK (R89). -/
theorem missUpdate_leaves (f : Follower) (q : Passage) : (f.missUpdate q).state ≠ .track := by
  unfold Follower.missUpdate
  dsimp only
  split
  · decide
  · split <;> decide

/-- The follow state after a cue is the one its outcome gives (R82). -/
theorem resolveCue_state (q : Passage) (c : Cue) (p : Part) :
    (resolveCue q c p).follower.state = (p.follower.resolve q c (judgeCue
      (p.follower.predict c.position) (p.follower.halfWidth q) p.listen.queue)).state := by
  unfold resolveCue
  simp [rewatch]

/-- A cue whose outcome changes the follow state is a trigger (R56). -/
theorem resolveCue_triggered {q : Passage} {c : Cue} {p : Part}
    (h : (resolveCue q c p).follower.state ≠ p.follower.state) : Triggered p (resolveCue q c p) := by
  rw [resolveCue_state] at h
  unfold resolveCue
  dsimp only
  rw [bne_iff_ne.2 h]
  exact triggered_trigger (by simp) (by simp)

/-- A cue resolved in TRACK on an empty Onset Queue leaves TRACK. -/
theorem resolveCue_miss_leaves {q : Passage} {c : Cue} {p : Part} (hqueue : p.listen.queue = []) :
    (resolveCue q c p).follower.state ≠ .track := by
  rw [resolveCue_state, hqueue, judgeCue_empty]
  exact missUpdate_leaves p.follower q

/-- CUE_CLOSE where the clock has reached the close of the watched cue (R81). -/
theorem cueCloseDue_of {p : Part} {b : Buffer} {close : Int} (hb : p.reader.current = some b)
    (hfollow : b.passage.follow = true) (hcues : p.sched.cues ≠ [])
    (hrun : p.player.state = .running) (hfree : p.player.fermata.phase ≠ .holding)
    (hwatched : p.follower.watched = some close) (hclose : close ≤ p.clock) :
    cueCloseDue p = true := by
  have hnow : close ≤ p.now := hclose
  simp [cueCloseDue, Part.takesCues, Part.followMode, hb, hfollow, hcues, hrun, hfree, hwatched, hnow]

/-- The one cue listed, its close past, resolves alone (R80). -/
theorem takeCloses_one {p : Part} {b : Buffer} {c : Cue} (hdue : cueCloseDue p = true)
    (hb : p.reader.current = some b) (hcues : p.sched.cues = [c]) :
    takeCloses p = resolveCue b.passage c p := by
  have hhead : closeHead p = resolveCue b.passage c p := by
    unfold closeHead
    rw [hb, hcues]
  unfold takeCloses
  rw [hcues]
  show runCloses 1 p = _
  rw [runCloses, if_pos hdue, runCloses, hhead]

end Sys2Proof.Machine

open Sys2Proof Sys2Proof.Machine

/-- Settles O41: a write begins with the captured body between two equal sequence words, is served word by
word, and each of the changes named makes a trigger. -/
theorem nowRecordIsWrittenWhole : Obligations.NowRecordIsWrittenWhole := by
  intro s p r opens low high signed body
  have hopens (seq : Word) (q : Part) : opens seq (nowWrites seq (nowBody q)) :=
    ⟨nowWrites_addresses seq (nowBody q), nowWrites_open _ _, nowWrites_close _ _⟩
  have hwords (seq : Word) (q : Part) :
      (((nowWrites seq (nowBody q)).drop 1).take 19).map Prod.snd = nowBody q :=
    nowWrites_body seq (nowBody q)
  have hsigned (x : Int) : signed32 x = signed x := signed32_eq x
  have hflag (b : Bool) (k : Nat) : k * b.toNat = if b then k else 0 := by cases b <;> simp
  have hbody : nowBody p = body p.reader.current := by
    unfold nowBody
    cases p.reader.current with
    | none =>
      simp only [hsigned, ← hflag, Nat.one_mul, body]
      rfl
    | some b =>
      simp only [hsigned, ← hflag, Nat.one_mul, body, Option.isSome_some, if_true]
      rfl
  refine ⟨?beat, ?served, ?hold, ?holding, ?miss⟩
  case beat =>
    intro b buf hb hbuf hrun hfree hbeat hend hclock
    have hdue := beatDue_of hb hbuf hrun hfree hbeat hend hclock
    have hexec : exec .beatBoundary s = .next { s with part := beatTrigger p } := by
      rw [← whenDue_of hdue beatTrigger]
      rfl
    refine ⟨fun hw hsoft => ?begins, fun hw => ?pends⟩
    case begins =>
      have hcourse : beatTrigger p = beginNowWrite { p with report.beatPending := true } :=
        trigger_begins hw hsoft
      have hboundary : (beatTrigger p).report.boundary = some (beatAbove b p.position) := by
        rw [hcourse]
        exact congrArg (Option.map fun x => beatAbove x p.position) hb
      have hbuffer : nowBody { p with report.beatPending := true } = body (some buf) :=
        hbody.trans (congrArg body hbuf)
      refine completes_of_exec hexec ?_
      rw [hcourse] at hboundary ⊢
      exact ⟨rfl, rfl, hopens _ _, rfl, (hwords _ _).trans hbuffer, rfl, _, hboundary,
        beatAbove_least b p.position⟩
    case pends =>
      have hcourse : beatTrigger p
          = { p with report := { r with pending := true, beatPending := true } } :=
        trigger_pends hw
      rw [hexec, hcourse]
  case served =>
    intro a w rest hnext hw ha hs
    refine ⟨?more, ?last⟩
    case more =>
      intro hrest
      have hexec := exec_arbiterServe_report hnext hw
      rw [serveReport_more hrest] at hexec
      exact completesStoring_of_exec hexec ⟨wordWritten_write w hs ha, rfl⟩
    case last =>
      rintro rfl c hc
      have hserve : exec c s = exec .arbiterServe s := by
        rcases List.mem_pair.1 hc with rfl | rfl
        · exact exec_nowWriteComplete hnext hw
        · rfl
      have hexec := hserve.trans (exec_arbiterServe_reportLast hnext hw)
      refine completesStoring_of_exec hexec ⟨wordWritten_write w hs ha,
        nowWriteServed_part p.writeOver, fun hidle => ?_, fun hpending hsoft => ?_⟩
      · exact congrArg Part.report (nowWriteServed_idle (p := p.writeOver) hidle)
      · have hcourse := nowWriteServed_begins (p := p.writeOver) hpending hsoft
        dsimp only
        rw [hcourse]
        exact ⟨rfl, hopens _ _, (hwords _ _).trans hbody, rfl⟩
  case hold =>
    intro howner hrun
    exact completes_of_exec (exec_hold howner hrun) ((holdPlayer_triggered p).of_report rfl)
  case holding =>
    intro hrun hpending hpos
    have hexec : exec .fermataHoldingStart s = .next { s with part := startHolding p } := by
      rw [← whenDue_of (holdingDue_of hrun hpending hpos) startHolding]
      rfl
    exact completes_of_exec hexec (startHolding_triggered p)
  case miss =>
    intro b c close hb hfollow hcues hrun hfree hwatched hclose hqueue htrack
    have hdue := cueCloseDue_of hb hfollow (by rw [hcues]; exact List.cons_ne_nil _ _) hrun hfree
      hwatched hclose
    have hleaves := resolveCue_miss_leaves (q := b.passage) (c := c) hqueue
    have hexec : exec .cueClose s = .next { s with part := resolveCue b.passage c p } := by
      rw [← takeCloses_one hdue hb hcues, ← whenDue_of hdue takeCloses]
      rfl
    exact completes_of_exec hexec ⟨hleaves, resolveCue_triggered (htrack ▸ hleaves)⟩
end

section
/-! SUPPORT. The Plan Reader's looks, takes and stamp writes as they are served (R19, R20, R22, R33,
R36, R39), and what START prepares (R117). -/

open Sys2Proof

namespace Sys2Proof.Machine

/-! ## Accesses of the Plan Reader (R39) -/

/-- The part as an access of the Plan Reader is served, `rest` left of its line (R39). -/
def Part.readerServed (p : Part) (rest : List ReaderAccess) : Part :=
  { p with arb := .planReader, reader := { p.reader with line := rest } }

/-- ARBITER_SERVE with the Plan Reader next serves the head of its line. -/
theorem exec_arbiterServe_reader {s : State} {a : ReaderAccess} {rest : List ReaderAccess}
    (h : s.part.readerNext a rest) :
    exec .arbiterServe s
      = .next (s.withResult (serveReader a s.store (s.part.readerServed rest))) := by
  rw [exec_arbiterServe, arbiterStep_reader h]
  rfl

/-- A served access that leaves the store changes the part alone. -/
theorem exec_arbiterServe_readerPart {s : State} {a : ReaderAccess} {rest : List ReaderAccess}
    {q : Part} (h : s.part.readerNext a rest)
    (hq : serveReader a s.store (s.part.readerServed rest) = (s.store, q)) :
    exec .arbiterServe s = .next { s with part := q } := by
  rw [exec_arbiterServe_reader h, hq]
  rfl

/-! ## Stamp writes (R33, R36) -/

theorem serveReader_abandon (x : Nat) (mem : Memory) (p : Part) :
    serveReader (.abandon x) mem p = (mem.write x 4, latch .passage p) := rfl

theorem serveReader_spent (x : Nat) (mem : Memory) (p : Part) :
    serveReader (.spent x false) mem p = (mem.write x 3, latch .passage p) := rfl

theorem serveReader_spentHeld (x : Nat) (mem : Memory) (p : Part) :
    serveReader (.spent x true) mem p = (mem.write x 3, spentFinishing (latch .passage p)) := rfl

/-- A condition is latched once its bit is set. -/
theorem latched_latch (c : Condition) (p : Part) : (latch c p).latched c = true := by
  cases c <;> simp [Part.latched, Condition.bit, Condition.mask]

/-- Where the reader does not wait for need, the need test finds none (R21). -/
theorem needTest_idle {p : Part} (h : p.reader.phase ≠ .waitingForNeed) : needTest p = p :=
  (needTest_tested p).none fun hneeds => h hneeds.1

theorem needTest_next (p : Part) : (needTest p).reader.next = p.reader.next := by
  by_cases h : p.needs
  · rw [(needTest_tested p).found h]
  · rw [(needTest_tested p).none h]

theorem askLook_next (p : Part) : (askLook p).reader.next = p.reader.next := by
  unfold askLook
  split <;> rfl

/-- The next buffer is empty once the finishing passage has its SPENT. -/
theorem spentFinishing_next (p : Part) : (spentFinishing p).reader.next = .empty := by
  unfold spentFinishing
  dsimp only
  split
  · exact askLook_next _
  · exact needTest_next _

theorem spentFinishing_attention (p : Part) : (spentFinishing p).attention = p.attention := by
  unfold spentFinishing
  dsimp only
  split <;> simp

/-- Outside STARVED, and with no need to be found, the return of a finishing passage empties the next
buffer and does nothing else. -/
theorem spentFinishing_idle {p : Part} (hphase : p.reader.phase ≠ .waitingForNeed)
    (hstate : p.player.state ≠ .starved) :
    spentFinishing p = { p with reader := { p.reader with next := .empty } } := by
  unfold spentFinishing
  dsimp only
  rw [if_neg fun h => hstate h.1]
  exact needTest_idle hphase

end Sys2Proof.Machine

open Sys2Proof Sys2Proof.Machine

/-- Settles O37: a stamp write is one word written; what the return of a held passage brings beside it
touches neither the latches nor, outside a look or need, the reader. -/
theorem passagesAreReturnedToTheConsole : Obligations.PassagesAreReturnedToTheConsole := by
  intro s x rest hs hx p after
  refine ⟨fun hnext => ?abandon, fun hnext => ?spent, fun hnext => ?held⟩
  case abandon =>
    exact completesStoring_of_exec (exec_arbiterServe_reader hnext) ⟨wordWritten_write 4 hs hx, rfl⟩
  case spent =>
    exact completesStoring_of_exec (exec_arbiterServe_reader hnext) ⟨wordWritten_write 3 hs hx, rfl⟩
  case held =>
    have hexec := exec_arbiterServe_reader hnext
    rw [serveReader_spentHeld] at hexec
    refine completesStoring_of_exec hexec ⟨wordWritten_write 3 hs hx, ?_, spentFinishing_next _,
      fun hphase hstate => ?_⟩
    · unfold Part.latched
      rw [spentFinishing_attention]
      exact latched_latch .passage _
    · exact spentFinishing_idle (p := latch .passage (p.readerServed rest)) hphase hstate
end

section
/-! SUPPORT. What a take copies (R22) and what a look finds (R19, R20). -/

open Sys2Proof

namespace Sys2Proof.Machine

/-! ## The places of a take (R22) -/

/-- The places of the record: words 1 to 19, then the base registration entries. -/
def Take.recordPlaces (t : Take) : List (Nat × Nat) :=
  ((List.range 19).map fun i => (i + 1, t.ptr + i + 1))
    ++ (List.range t.baseCount).map fun i => (i + 20, t.ptr + i + 20)

/-- The places of the header of the Music Block, where the block pointer is valid. -/
def Take.headerPlaces (t : Take) : List (Nat × Nat) :=
  if inConsoleSpace t.block then (List.range 8).map fun i => (i + 100, t.block + i) else []

theorem Take.places_eq (t : Take) :
    t.places = (t.recordPlaces ++ t.headerPlaces).filter fun e => e.2 < Config.storeWords := rfl

theorem inConsoleSpace_iff (a : Nat) : inConsoleSpace a = true ↔ 0x240 ≤ a ∧ a ≤ 0x7FFF := by
  simp [inConsoleSpace]

/-- Places numbered from one on rise. -/
theorem pairwise_numbered (n base : Nat) (f : Nat → Nat) :
    (((List.range n).map fun i => (i + base, f i)).map Prod.fst).Pairwise (· < ·) := by
  rw [List.map_map, List.pairwise_map]
  exact List.pairwise_lt_range.imp fun h => Nat.add_lt_add_right h base

theorem Take.mem_recordPlaces (t : Take) (k a : Nat) :
    (k, a) ∈ t.recordPlaces ↔ 1 ≤ k ∧ k < 20 + t.baseCount ∧ a = t.ptr + k := by
  simp only [Take.recordPlaces, List.mem_append, List.mem_map, List.mem_range, Prod.mk.injEq]
  constructor
  · rintro (⟨i, hi, rfl, rfl⟩ | ⟨i, hi, rfl, rfl⟩) <;> omega
  · rintro ⟨hlow, hhigh, rfl⟩
    by_cases hk : k ≤ 19
    · exact .inl ⟨k - 1, by omega, by omega, by omega⟩
    · exact .inr ⟨k - 20, by omega, by omega, by omega⟩

theorem Take.mem_headerPlaces (t : Take) (k a : Nat) :
    (k, a) ∈ t.headerPlaces
      ↔ (0x240 ≤ t.block ∧ t.block ≤ 0x7FFF) ∧ 100 ≤ k ∧ k < 108 ∧ a + 100 = t.block + k := by
  rw [← inConsoleSpace_iff, Take.headerPlaces]
  split
  case isFalse h => simp [h]
  case isTrue h =>
    simp only [h, true_and, List.mem_map, List.mem_range, Prod.mk.injEq]
    constructor
    · rintro ⟨i, hi, rfl, rfl⟩
      omega
    · rintro ⟨hlow, hhigh, ha⟩
      exact ⟨k - 100, by omega, by omega, by omega⟩

theorem Take.baseCount_le (t : Take) : t.baseCount ≤ 16 := Nat.min_le_right _ _

/-- The places of a take rise: the record, the base registration behind it, the header above both. -/
theorem Take.places_rise (t : Take) : (t.places.map Prod.fst).Pairwise (· < ·) := by
  have hbase := t.baseCount_le
  have hheader : (t.headerPlaces.map Prod.fst).Pairwise (· < ·) := by
    unfold Take.headerPlaces
    split
    · exact pairwise_numbered 8 100 _
    · exact List.Pairwise.nil
  have hrecord : (t.recordPlaces.map Prod.fst).Pairwise (· < ·) := by
    unfold Take.recordPlaces
    rw [List.map_append, List.pairwise_append]
    refine ⟨pairwise_numbered 19 1 _, pairwise_numbered _ 20 _, fun k hk l hl => ?_⟩
    simp only [List.mem_map, List.mem_range] at hk hl
    obtain ⟨_, ⟨i, hi, rfl⟩, rfl⟩ := hk
    obtain ⟨_, ⟨j, hj, rfl⟩, rfl⟩ := hl
    dsimp only
    omega
  have hall : ((t.recordPlaces ++ t.headerPlaces).map Prod.fst).Pairwise (· < ·) := by
    rw [List.map_append, List.pairwise_append]
    refine ⟨hrecord, hheader, fun k hk l hl => ?_⟩
    rw [List.mem_map] at hk hl
    obtain ⟨⟨k, a⟩, hka, rfl⟩ := hk
    obtain ⟨⟨l, c⟩, hlc, rfl⟩ := hl
    rw [t.mem_recordPlaces] at hka
    rw [t.mem_headerPlaces] at hlc
    dsimp only
    omega
  rw [t.places_eq]
  exact hall.sublist (List.filter_sublist.map _)

theorem Take.mem_places (t : Take) (k a : Nat) :
    (k, a) ∈ t.places ↔ a < 0x8000
      ∧ ((k, a) ∈ t.recordPlaces ∨ (k, a) ∈ t.headerPlaces) := by
  rw [t.places_eq, List.mem_filter, List.mem_append, decide_eq_true_iff, And.comm]
  rfl

/-! ## A take begins and goes on (R22) -/

/-- A take below the store's last word begins with a word to copy. -/
theorem access_begun {x : Nat} (head : Bool) (h : x < 0x7FFF) :
    Take.access { ptr := x, head := head, got := [] } = .copy := by
  have hmem : (1, x + 1) ∈ Take.places { ptr := x, head := head, got := [] } :=
    (Take.mem_places _ 1 (x + 1)).2
      ⟨by omega, .inl ((Take.mem_recordPlaces _ 1 (x + 1)).2 ⟨le_rfl, by omega, rfl⟩)⟩
  unfold Take.access Take.nextPlace
  cases hp : Take.places { ptr := x, head := head, got := [] } with
  | nil => rw [hp] at hmem; exact absurd hmem List.not_mem_nil
  | cons e rest => rfl

/-- The next access of a take is the copy of a word while a place is left. -/
theorem access_eq (t : Take) : t.access = if t.nextPlace.isSome then .copy else .exchange := by
  unfold Take.access
  cases t.nextPlace <;> rfl

/-- A word of a take is copied to its place, and the take goes on. -/
theorem serveReader_copy {t : Take} {k a : Nat} {p : Part} (mem : Memory)
    (ht : p.reader.take = some t) (hplace : t.nextPlace = some (k, a)) :
    serveReader .copy mem p = (mem, resumeReader
      (Take.access { t with got := t.got ++ [(k, mem.read a)] })
      { p with reader := { p.reader with
        take := some { t with got := t.got ++ [(k, mem.read a)] } } }) := by
  unfold serveReader
  dsimp only
  rw [ht]
  dsimp only [copyWordServed]
  rw [hplace]

/-! ## What a look finds (R19) -/

theorem nextField_notLinked {w : Word} (h : w = 0) : nextField w = .notLinked := by
  subst h
  rfl

theorem nextField_endOfPlan {w : Word} (h : w = 0xFFFF) : nextField w = .endOfPlan := by
  subst h
  rfl

theorem nextField_passage {w : Word} (hlow : 0x240 ≤ w.toNat) (hhigh : w.toNat ≤ 0x7FFF) :
    nextField w = .passage w.toNat := by
  unfold nextField
  rw [if_neg (by omega), if_neg (by omega), if_pos ((inConsoleSpace_iff _).2 ⟨hlow, hhigh⟩)]

theorem nextField_invalid {w : Word} (hzero : w ≠ 0) (hend : w ≠ 0xFFFF)
    (h : w.toNat < 0x240 ∨ 0x7FFF < w.toNat) : nextField w = .invalid := by
  have hzero' : w.toNat ≠ 0 := fun e => hzero (BitVec.eq_of_toNat_eq e)
  have hend' : w.toNat ≠ 0xFFFF := fun e => hend (BitVec.eq_of_toNat_eq e)
  unfold nextField
  rw [if_neg hzero', if_neg hend', if_neg]
  rw [inConsoleSpace_iff]
  omega

/-- A look reads word 1 of the current passage's record. -/
theorem nextFieldAddr_of {r : Reader} {b : Buffer} (h : r.current = some b) :
    r.nextFieldAddr = b.passage.ptr + 1 := by
  unfold Reader.nextFieldAddr Reader.currentPtr
  rw [h]
  rfl

section
variable {stamp : Nat → Part → Part} {w : Word} (p : Part)

theorem lookNextRead_notLinked (h : w = 0) : lookNextRead w stamp p = p := by
  unfold lookNextRead
  rw [nextField_notLinked h]

theorem lookNextRead_endOfPlan (h : w = 0xFFFF) : lookNextRead w stamp p = endFound p := by
  unfold lookNextRead
  rw [nextField_endOfPlan h]

theorem lookNextRead_passage (hlow : 0x240 ≤ w.toNat) (hhigh : w.toNat ≤ 0x7FFF) :
    lookNextRead w stamp p = stamp w.toNat p := by
  unfold lookNextRead
  rw [nextField_passage hlow hhigh]

theorem lookNextRead_invalid (hzero : w ≠ 0) (hend : w ≠ 0xFFFF)
    (h : w.toNat < 0x240 ∨ 0x7FFF < w.toNat) :
    lookNextRead w stamp p = lockRequest .badPassage (p.reader.currentPtr.getD 0) p := by
  unfold lookNextRead
  rw [nextField_invalid hzero hend h]

end

theorem lookStampRead_ready (q : Nat) (p : Part) : lookStampRead q 1 p = beginTake q false p := rfl

theorem lookStampRead_other (q : Nat) {stamp : Word} (h : stamp ≠ 1) (p : Part) :
    lookStampRead q stamp p = p := if_neg h

theorem headStampRead_ready (q : Nat) (p : Part) : headStampRead q 1 p = beginTake q true p := rfl

theorem headStampRead_other (q : Nat) {stamp : Word} (h : stamp ≠ 1) (p : Part) :
    headStampRead q stamp p = headNotReady p := if_neg h

end Sys2Proof.Machine

open Sys2Proof Sys2Proof.Machine

/-- Settles O35: the places are the record's, the base registration's and the header's, each below
8000h, and each access of a look or take is served by its own rule. -/
theorem takeCopiesWordByWord : Obligations.TakeCopiesWordByWord := by
  refine ⟨fun t => ⟨t.places_rise, fun k a => ?places, rfl⟩, fun s rest =>
    ⟨fun b hnext hb => ⟨fun hw => ?waits, fun hlow hhigh => ?linked⟩, fun x hnext hstamp => ?look,
      fun x hnext hstamp => ?head, fun x head hnext hstamp hx => ?begins,
      fun t k a hnext ht hplace => ?copy⟩⟩
  case places =>
    have hbase : t.baseCount = min (t.word 19).toNat 16 := rfl
    have hblock : t.block = (t.word 4).toNat := rfl
    rw [t.mem_places, t.mem_recordPlaces, t.mem_headerPlaces]
    omega
  case waits =>
    refine exec_arbiterServe_readerPart hnext (congrArg (Prod.mk s.store) ?_)
    rw [nextFieldAddr_of (r := (s.part.readerServed rest).reader) hb, lookNextRead_notLinked _ hw]
    rfl
  case linked =>
    refine exec_arbiterServe_readerPart hnext (congrArg (Prod.mk s.store) ?_)
    rw [nextFieldAddr_of (r := (s.part.readerServed rest).reader) hb,
      lookNextRead_passage _ hlow hhigh]
    rfl
  case look =>
    exact exec_arbiterServe_readerPart hnext
      (congrArg (Prod.mk s.store) (lookStampRead_other x hstamp _))
  case head =>
    exact exec_arbiterServe_readerPart hnext
      (congrArg (Prod.mk s.store) (headStampRead_other x hstamp _))
  case begins =>
    have haccess := access_begun head hx
    cases head
    · refine exec_arbiterServe_readerPart hnext (congrArg (Prod.mk s.store) ?_)
      rw [hstamp, lookStampRead_ready, beginTake]
      dsimp only
      rw [haccess]
      rfl
    · refine exec_arbiterServe_readerPart hnext (congrArg (Prod.mk s.store) ?_)
      rw [hstamp, headStampRead_ready, beginTake]
      dsimp only
      rw [haccess]
      rfl
  case copy =>
    refine exec_arbiterServe_readerPart hnext ?_
    rw [serveReader_copy (p := s.part.readerServed rest) s.store ht hplace, access_eq]
    rfl
end

section
/-! SUPPORT. The completion test and the end of a plan, with what DRAINING comes to (R103, R104, R114,
R127). -/

open Sys2Proof

namespace Sys2Proof.Machine

/-! ## Triggers and changes of player state (R56, R116) -/

/-- A trigger changes the report alone. -/
theorem trigger_report (p : Part) : trigger p = { p with report := (trigger p).report } := by
  unfold trigger beginNowWrite
  split <;> rfl

theorem triggerIf_report (b : Bool) (p : Part) :
    triggerIf b p = { p with report := (triggerIf b p).report } := by
  cases b
  · rfl
  · exact trigger_report p

/-- The Player leaves RUNNING, or stays outside it: its state changes, the Onset Queue is emptied (R65). -/
theorem moveTo_leaves {st : PlayerState} (h : st ≠ .running) (p : Part) :
    moveTo st p = { p with
      player := { p.player with state := st }
      listen := { p.listen with queue := [] }
      report := (moveTo st p).report } := by
  unfold moveTo
  rw [if_neg h]
  exact trigger_report _

/-! ## The completion test (R103, R104) -/

/-- The completion of a finishing passage reaches the next buffer and the line. -/
theorem completeFinishing_part (p : Part) : ∃ next line,
    completeFinishing p = { p with reader := { p.reader with next := next, line := line } } := by
  unfold completeFinishing
  split
  · split
    · exact ⟨_, _, rfl⟩
    · split <;> exact ⟨_, _, rfl⟩
  · exact ⟨_, _, rfl⟩

/-- The completion of the current passage reaches its buffer, the stream timer and the line. -/
theorem completeCurrent_part (p : Part) : ∃ current streamTimer line,
    completeCurrent p = { p with reader := { p.reader with
      current := current, streamTimer := streamTimer, line := line } } := by
  unfold completeCurrent
  split
  · split
    · exact ⟨_, _, _, rfl⟩
    · dsimp only
      split <;> exact ⟨_, _, _, rfl⟩
  · exact ⟨_, _, _, rfl⟩

/-- A finishing passage that is not awaited does not complete again. -/
theorem completeFinishing_none {p : Part} (h : p.reader.next.awaited = false) :
    completeFinishing p = p := by
  unfold completeFinishing
  split
  case h_1 hnext => rw [hnext] at h; exact nomatch h
  case h_2 => rfl

/-- The current passage is held while one of its notes is left. -/
theorem completeCurrent_left {p : Part} {b : Buffer} (hb : p.reader.current = some b)
    (hleft : p.noteLeft b.planIndex = true) : completeCurrent p = p := by
  unfold completeCurrent
  rw [hb]
  split
  case h_1 b' _ heq =>
    cases heq
    rw [if_pos hleft]
  case h_2 => rfl

/-- The current passage of a DRAINING has completed, with the next buffer empty: its SPENT write stands. -/
theorem completeCurrent_done {p : Part} {b : Buffer} (hdrain : p.player.state = .draining)
    (hb : p.reader.current = some b) (hleft : p.noteLeft b.planIndex = false)
    (hnext : p.reader.next = .empty) :
    completeCurrent p = askReader (.spent b.passage.ptr false)
      { p with reader := { p.reader with current := none, streamTimer := none } } := by
  unfold completeCurrent
  rw [hdrain, hb]
  dsimp only
  rw [hleft, hnext]
  rfl

/-- A plan with a current passage is not over. -/
theorem planOver_current {p : Part} {b : Buffer} (hb : p.reader.current = some b) :
    planOver p = false := by
  unfold planOver
  rw [hb]
  simp

theorem completion_ends {p : Part} (h : planOver (completeCurrent (completeFinishing p)) = true) :
    completion p = endPlan (completeCurrent (completeFinishing p)) := if_pos h

theorem completion_stands {p : Part}
    (h : planOver (completeCurrent (completeFinishing p)) = false) :
    completion p = completeCurrent (completeFinishing p) := if_neg (by simp [h])

/-- The part at the end of a plan before the Player is IDLE (R94, R127). -/
def planEnding (p : Part) : Part :=
  { p with
    attention := p.attention ||| Condition.mask .ended
    reader := { p.reader with
      next := .empty, phase := .off, lookTimer := none, streamTimer := none
      line := p.reader.line.map ReaderAccess.unheld, pass := none, passDue := false }
    sched := { p.sched with window := [], cues := [], steps := [] }
    player := { p.player with fermata := Fermata.init, starveTimer := none }
    follower := p.follower.leave
    listen := { p.listen with hold := HoldListening.inactive } }

theorem endPlan_eq (p : Part) : endPlan p = moveTo .idle (planEnding p) := rfl

/-- Everything the end of a plan does. -/
theorem endPlan_part (p : Part) : endPlan p = { planEnding p with
    player := { (planEnding p).player with state := .idle }
    listen := { (planEnding p).listen with queue := [] }
    report := (endPlan p).report } := by
  rw [endPlan_eq]
  exact moveTo_leaves (by decide) (planEnding p)

/-- What the completion test can do: the buffers, the line and the stream timer, and with them the end of
the plan. -/
theorem completion_cases (p : Part) : ∃ current next streamTimer line, ∃ r : Part,
    r = { p with reader := { p.reader with
      current := current, next := next, streamTimer := streamTimer, line := line } }
    ∧ (completion p = r ∨ completion p = endPlan r) := by
  obtain ⟨next, line, hfin⟩ := completeFinishing_part p
  obtain ⟨current, streamTimer, line', hcur⟩ := completeCurrent_part (completeFinishing p)
  refine ⟨current, next, streamTimer, line', _, rfl, ?_⟩
  have hboth : completeCurrent (completeFinishing p) = { p with reader := { p.reader with
      current := current, next := next, streamTimer := streamTimer, line := line' } } := by
    rw [hcur, hfin]
  rw [← hboth]
  cases h : planOver (completeCurrent (completeFinishing p))
  · exact .inl (completion_stands h)
  · exact .inr (completion_ends h)

/-! ## DRAINING (R104, R114) -/

/-- The Player drains with a reason, or the plan has ended with it at once; nothing is sought, taken or
timed any more. -/
structure Drained (why : EndReason) (q : Part) : Prop where
  state : q.player.state = .draining ∨ q.player.state = .idle
  reason : q.player.endReason = why
  starveTimer : q.player.starveTimer = none
  take : q.reader.take = none
  lookTimer : q.reader.lookTimer = none

/-- The part in DRAINING before the completion test is made (R22, R104). -/
def drainBegun (why : EndReason) (p : Part) : Part :=
  moveTo .draining { p with
    reader := { p.reader with
      phase := if p.reader.phase = .endFound then .endFound else .off
      lookTimer := none, take := none
      line := p.reader.line.filter fun a => !a.looks }
    player := { p.player with endReason := why, starveTimer := none } }

theorem enterDraining_eq (why : EndReason) (p : Part) :
    enterDraining why p = completion (drainBegun why p) := rfl

/-- Everything the beginning of a DRAINING does. -/
theorem drainBegun_part (why : EndReason) (p : Part) : drainBegun why p = { p with
    reader := { p.reader with
      phase := if p.reader.phase = .endFound then .endFound else .off
      lookTimer := none, take := none
      line := p.reader.line.filter fun a => !a.looks }
    player := { p.player with state := .draining, endReason := why, starveTimer := none }
    listen := { p.listen with queue := [] }
    report := (drainBegun why p).report } :=
  moveTo_leaves (by decide) _

theorem drainBegun_drained (why : EndReason) (p : Part) : Drained why (drainBegun why p) := by
  rw [drainBegun_part]
  exact ⟨.inl rfl, rfl, rfl, rfl, rfl⟩

theorem Drained.completion {why : EndReason} {p : Part} (h : Drained why p) :
    Drained why (completion p) := by
  obtain ⟨hstate, hreason, hstarve, htake, hlook⟩ := h
  obtain ⟨current, next, streamTimer, line, r, hr, hcase | hcase⟩ := completion_cases p
  · rw [hcase, hr]
    exact ⟨hstate, hreason, hstarve, htake, hlook⟩
  · rw [hcase, endPlan_part, hr]
    exact ⟨.inr rfl, hreason, rfl, htake, rfl⟩

theorem enterDraining_drained (why : EndReason) (p : Part) : Drained why (enterDraining why p) :=
  (drainBegun_drained why p).completion

theorem drainStarved_drained (why : EndReason) (p : Part) : Drained why (drainStarved why p) :=
  enterDraining_drained why (keyOffEndNotes p)

end Sys2Proof.Machine
end

section
/-! SUPPORT. Looks of the look timer (R19, R21), START's look at its head (R20, R117) and STOP (R119). -/

open Sys2Proof

namespace Sys2Proof.Machine

/-! ## Locks from playing states (R122) -/

/-- A lock is seen from any part whose line, held passages, lists and follower are those it found. -/
theorem Locked.of_held {why : LockReason} {addr : Nat} {p r q : Part}
    (hline : r.reader.line = p.reader.line) (hheld : r.reader.heldPtrs = p.reader.heldPtrs)
    (hsched : r.sched = p.sched) (hfollower : r.follower = p.follower) (h : Locked why addr r q) :
    Locked why addr p q := by
  obtain ⟨hletGo, hstate, hreason, hlatched⟩ := h
  obtain ⟨hcur, hnext, htake, hphase, hlineq, hlists, hfol, hlisten, hfermata⟩ := hletGo
  exact ⟨⟨hcur, hnext, htake, hphase, by rw [hlineq, hline, hheld], by rw [hlists, hsched],
    by rw [hfol, hfollower], hlisten, hfermata⟩, hstate, hreason, hlatched⟩

theorem lockTaken_badPassage (p : Part) : lockTaken .badPassage p.player.state = p.playing := by
  unfold Part.playing
  cases p.player.state <;> rfl

/-- The states in which the Plan Reader looks are states of play (R21). -/
theorem playing_of_seekState {p : Part} (h : p.seekState = true) : p.playing = true := by
  unfold Part.seekState at h
  unfold Part.playing
  rw [h]
  rfl

/-! ## Looks of the look timer (R19, R21) -/

theorem mayLook_iff {p : Part} {b : Buffer} (hb : p.reader.current = some b) :
    p.mayLook = true ↔ p.reader.looking = false
      ∧ ¬(p.player.state = .starved ∧ p.reader.next.isFinishing = true) := by
  by_cases hstarved : p.player.state = .starved <;> simp [Part.mayLook, hb, hstarved]

/-- LOOK_TIMER_EXPIRY in SEEKING with the timer at its end makes a further look. -/
theorem exec_lookTimerExpiry {s : State} {e : Nat} (hphase : s.part.reader.phase = .seeking)
    (htimer : s.part.reader.lookTimer = some e) (he : e ≤ s.part.time) :
    exec .lookTimerExpiry s = .next { s with part := look s.store (startLookTimer s.part) } := by
  have hdue : lookTimerDue s.part = true := by simp [lookTimerDue, hphase, htimer, expired, he]
  show s.onPartMem (fun mem p => whenDue (lookTimerDue p) (lookTimerStep mem) p) = _
  rw [onPartMem_eq, whenDue_of hdue]
  rfl

theorem look_none {p : Part} (mem : Memory) (h : p.mayLook = false) : look mem p = p := by
  simp [look, h]

theorem look_waits {p : Part} (mem : Memory) (h : p.mayLook = true) (hfree : p.storeFree = false) :
    look mem p = askReader .lookNext p := by
  simp [look, h, hfree]

theorem look_direct {p : Part} (mem : Memory) (h : p.mayLook = true) (hfree : p.storeFree = true) :
    look mem p = directLook mem p := by
  simp [look, h, hfree]

/-- The end of the plan is found outside STARVED (R19). -/
theorem endFound_seeking {p : Part} (h : p.player.state ≠ .starved) :
    endFound p = { p with reader := { p.reader with phase := .endFound, lookTimer := none } } :=
  if_neg h

/-- The end of the plan is found in STARVED: the plan drains with COMPLETE (R114). -/
theorem endFound_starved {p : Part} (h : p.player.state = .starved) :
    Drained .complete (endFound p) := by
  have hcourse : endFound p = drainStarved .complete
      { p with reader := { p.reader with phase := .endFound, lookTimer := none } } := if_pos h
  rw [hcourse]
  exact drainStarved_drained _ _

/-- A direct look reads the next field, then, where it links a passage, its stamp (R19). -/
theorem directLook_of {mem : Memory} {p : Part} {b : Buffer} (hb : p.reader.current = some b) :
    directLook mem p = lookNextRead (mem.read (b.passage.ptr + 1))
      (fun q acc => lookStampRead q (mem.read q) (served .planReader acc))
      (served .planReader p) := by
  unfold directLook
  rw [nextFieldAddr_of hb]

/-! ## START (R20, R117) -/

theorem commandDue_of {p : Part} {code : Nat} (h : p.atOwner code) : commandDue code p = true := by
  obtain ⟨hphase, hcommand, hstarting⟩ := h
  simp [commandDue, hphase, hcommand, hstarting]

/-- START that passes its checks prepares and looks at its head. -/
theorem exec_start {s : State} (howner : s.part.atOwner cmdStart)
    (hloaded : s.part.setupLoaded = true) (hidle : s.part.player.state = .idle)
    (hpower : s.part.power.on = true) (hlow : 0x240 ≤ (s.part.slot.arg 1).toNat)
    (hhigh : (s.part.slot.arg 1).toNat ≤ 0x7FFF) :
    exec .start s = .next { s with
      part := headLook (s.part.slot.arg 1).toNat s.store (prepareStart s.part) } := by
  have hcourse : startCommand s.store s.part
      = headLook (s.part.slot.arg 1).toNat s.store (prepareStart s.part) := by
    simp [startCommand, hloaded, hidle, hpower, (inConsoleSpace_iff _).2 ⟨hlow, hhigh⟩]
  show s.onPartMem (fun mem p => whenDue (commandDue cmdStart p) (startCommand mem) p) = _
  rw [onPartMem_eq, whenDue_of (commandDue_of howner), hcourse]

/-- START's preparation leaves who waits for the store. -/
theorem prepareStart_storeFree (p : Part) : (prepareStart p).storeFree = p.storeFree := rfl

theorem headLook_waits {ptr : Nat} {mem : Memory} {p : Part} (h : p.storeFree = false) :
    headLook ptr mem p = askReader (.headStamp ptr) p := by
  simp [headLook, h]

theorem headLook_ready {ptr : Nat} {mem : Memory} {p : Part} (h : p.storeFree = true)
    (hstamp : mem.read ptr = 1) : headLook ptr mem p = beginTake ptr true (served .planReader p) := by
  unfold headLook
  rw [if_pos h, hstamp, headStampRead_ready]

theorem headLook_other {ptr : Nat} {mem : Memory} {p : Part} (h : p.storeFree = true)
    (hstamp : mem.read ptr ≠ 1) : headLook ptr mem p = headNotReady (served .planReader p) := by
  unfold headLook
  rw [if_pos h, headStampRead_other ptr hstamp]

/-- Each floor is to be set anew at the next frame, its refractory time over (R117). -/
theorem prepareStart_floor (p : Part) (c : ChannelId) :
    entry (prepareStart p).listen.floors c
      = { entry p.listen.floors c with resetPending := true, refractoryEnd := 0 } :=
  entry_tabulate _ c

/-! ## STOP (R35, R119, R140) -/

/-- STOP stands with its owner in a state: its course is that of `stopCommand`. -/
theorem exec_stop {s : State} (howner : s.part.atOwner cmdStop) :
    exec .stop s = .next { s with part := stopCommand s.part } := by
  show s.onPart (fun p => whenDue (commandDue cmdStop p) stopCommand p) = _
  rw [onPart_eq, whenDue_of (commandDue_of howner)]

theorem stopCommand_plays {p : Part} (h : p.player.state = .running ∨ p.player.state = .held) :
    stopCommand p = commandOk (setStopAtEnd p) := by
  unfold stopCommand
  rcases h with h | h <;> rw [h]

theorem stopCommand_starved {p : Part} (h : p.player.state = .starved) :
    stopCommand p = commandOk (drainStarved .stopped (setStopAtEnd p)) := by
  unfold stopCommand
  rw [h]

/-- Stop-at-end is set, SEEKING ends and a take is cut, before the following passage is released (R35). -/
def Part.stopping (p : Part) : Part :=
  { p with reader := { p.reader with
    stopAtEnd := true, phase := .off, lookTimer := none, take := none
    line := p.reader.line.filter fun a => !a.looks } }

theorem setStopAtEnd_eq (p : Part) : setStopAtEnd p = releaseFollowing p.stopping := rfl

theorem releaseFollowing_none {p : Part} (h : p.reader.next.isFollowing = false) :
    releaseFollowing p = p := by
  unfold releaseFollowing
  split
  case h_1 hnext => rw [hnext] at h; exact nomatch h
  case h_2 => rfl

/-- The following passage let go, ABANDONED asked for but where the current passage has its pointer. -/
def Part.followingDropped (p : Part) (b : Buffer) : Part :=
  { p with reader := { p.reader with
    next := .empty, delta := 0
    line := if p.reader.currentPtr = some b.passage.ptr then p.reader.line
      else p.reader.line ++ [.abandon b.passage.ptr] } }

theorem releaseFollowing_some {p : Part} {b : Buffer} (h : p.reader.next = .following b) :
    releaseFollowing p = discardIndex b.planIndex (p.followingDropped b) := by
  unfold releaseFollowing Part.followingDropped
  rw [h]
  dsimp only
  by_cases hptr : p.reader.currentPtr = some b.passage.ptr
  · rw [if_pos hptr, if_pos (show _ = _ from hptr)]
  · rw [if_neg hptr, if_neg (show ¬_ = _ from hptr)]
    rfl

/-- Notes keyed off by plan index are notes the plan index discards. -/
theorem keptNotes_discarded (idx : Nat) (l : List Note) :
    (keptNotes (fun x => x.planIndex == idx) l).filter (fun x => x.planIndex != idx)
      = l.filter fun x => x.planIndex != idx := by
  unfold keptNotes
  rw [List.filter_filter]
  refine List.filter_congr fun x _ => ?_
  by_cases hx : x.planIndex = idx <;> simp [hx]

/-- What the Scheduler discards of a plan index while the Player plays and no passage finishes (R140). -/
theorem discardIndex_part {p : Part} (idx : Nat) (hdrain : p.player.state ≠ .draining)
    (hplay : p.playing = true) (hnext : p.reader.next.awaited = false) :
    ∃ keys guard listen attention fresh, discardIndex idx p = rewatch { p with
      sched := { p.sched with
        window := p.sched.window.filter fun x => x.planIndex != idx
        cues := p.sched.cues.filter fun x => x.planIndex != idx
        steps := p.sched.steps.filter fun x => x.planIndex != idx }
      keys := keys, guard := guard, listen := listen, attention := attention, fresh := fresh } := by
  obtain ⟨q, hq, hpart, hreader⟩ := keyOffs_part (fun x => x.planIndex == idx) hdrain hplay
  refine ⟨q.keys, q.guard, q.listen, q.attention, q.fresh, ?_⟩
  unfold discardIndex
  rw [← hq, ← keptNotes_discarded]
  rw [hreader hnext] at hpart
  conv => lhs; rw [hpart]

/-- The watched cue after a plan index has been discarded is the head of the list left. -/
theorem discardIndex_watches (idx : Nat) (p : Part) : WatchesHead (discardIndex idx p) :=
  rewatch_watches _

end Sys2Proof.Machine

open Sys2Proof Sys2Proof.Machine

/-- Settles O34: the expiry restarts the timer and looks; what the look does is read off the next field,
and off the stamp where that links a passage. -/
theorem lookActsOnTheNextField : Obligations.LookActsOnTheNextField := by
  intro s b e hb hphase htimer he p later looked w may
  have hexec := exec_lookTimerExpiry hphase htimer he
  have hmay : later.mayLook = true ↔ may := mayLook_iff (p := later) hb
  refine ⟨fun hnot => ?none, fun hlook hbusy => ?waits, fun hlook hfree => ?direct⟩
  case none =>
    have hno : later.mayLook = false := Bool.eq_false_iff.2 fun h => hnot (hmay.1 h)
    exact hexec.trans (by rw [show startLookTimer s.part = later from rfl, look_none _ hno])
  case waits =>
    rw [hexec, show startLookTimer s.part = later from rfl, look_waits _ (hmay.2 hlook) hbusy]
    rfl
  case direct =>
    have hcourse : exec .lookTimerExpiry s = .next { s with part := (lookNextRead w
        (fun q acc => lookStampRead q (s.store.read q) (served .planReader acc)) looked) } := by
      rw [hexec, show startLookTimer s.part = later from rfl,
        look_direct _ (hmay.2 hlook) hfree, directLook_of (p := later) hb]
      rfl
    refine ⟨fun hw => ?zero, fun hw hstate => ?end_, fun hw hstate => ?drains,
      fun hzero hend hout hseek => ?locks, fun hlow hhigh => ⟨fun hstamp => ?other,
      fun hstamp => ?ready⟩⟩
    case zero => rw [hcourse, lookNextRead_notLinked _ hw]
    case end_ =>
      rw [hcourse, lookNextRead_endOfPlan _ hw, endFound_seeking (p := looked) hstate]
    case drains =>
      rw [lookNextRead_endOfPlan _ hw] at hcourse
      have hdrained := endFound_starved (p := looked) hstate
      exact completes_of_exec hcourse ⟨hdrained.state, hdrained.reason⟩
    case locks =>
      have hptr : looked.reader.currentPtr.getD 0 = b.passage.ptr := by
        rw [show looked.reader.currentPtr = some b.passage.ptr from congrArg (Option.map _) hb]
        rfl
      have htaken : lockTaken .badPassage looked.player.state = true :=
        (lockTaken_badPassage p).trans (playing_of_seekState hseek)
      rw [lookNextRead_invalid _ hzero hend hout, hptr, lockRequest_taken _ htaken] at hcourse
      exact completes_of_exec hcourse
        (Locked.of_held (r := looked) rfl rfl rfl rfl (lockPlayer_locked _ _ looked))
    case other =>
      rw [hcourse, lookNextRead_passage _ hlow hhigh, lookStampRead_other _ hstamp]
      rfl
    case ready =>
      refine ⟨_, access_begun false, ?_⟩
      rw [hcourse, lookNextRead_passage _ hlow hhigh, hstamp, lookStampRead_ready]
      rfl

/-- Settles O26: the preparation is one update of the part, and the look at the head waits, begins the
head take, or ends START. -/
theorem startPreparesAndLooksAtTheHead : Obligations.StartPreparesAndLooksAtTheHead := by
  intro s howner hloaded hidle hpower p ptr hlow hhigh
  have hexec := exec_start howner hloaded hidle hpower hlow hhigh
  cases hfree : p.storeFree
  case false =>
    rw [headLook_waits ((prepareStart_storeFree p).trans hfree)] at hexec
    exact completes_of_exec hexec ⟨rfl, prepareStart_floor p,
      fun _ => ⟨rfl, rfl, rfl, rfl, rfl, rfl⟩, nofun, nofun, nofun⟩
  case true =>
    by_cases hstamp : s.store.read ptr = 1
    · rw [headLook_ready ((prepareStart_storeFree p).trans hfree) hstamp] at hexec
      refine completes_of_exec hexec ⟨rfl, prepareStart_floor p, nofun, fun _ => rfl,
        fun _ _ => ⟨rfl, rfl, rfl, rfl, fun hptr => ?_⟩, fun _ hother => absurd hstamp hother⟩
      exact congrArg (· :: p.reader.line) (access_begun true hptr)
    · rw [headLook_other ((prepareStart_storeFree p).trans hfree) hstamp] at hexec
      exact completes_of_exec hexec ⟨rfl, prepareStart_floor p, nofun, fun _ => rfl,
        fun _ hready => absurd hready hstamp, fun _ _ => ⟨rfl, ⟨rfl, rfl⟩, rfl, rfl⟩⟩

/-- Settles O27: in RUNNING and HELD stop-at-end is set and the following passage, where there is one,
discarded by its plan index; in STARVED the plan drains. -/
theorem stopSetsStopAtEnd : Obligations.StopSetsStopAtEnd := by
  intro s howner p kept
  have hexec := exec_stop howner
  refine ⟨fun hstate hnone => ?alone, fun b hstate hnext => ?following, fun hstate => ?starved⟩
  case alone =>
    rw [hexec, stopCommand_plays hstate, setStopAtEnd_eq, releaseFollowing_none (p := p.stopping) hnone]
    rfl
  case following =>
    have hdrain : p.player.state ≠ .draining := by
      rcases hstate with h | h <;> rw [h] <;> decide
    have hplay : p.playing = true := by
      rcases hstate with h | h <;> simp [Part.playing, h]
    obtain ⟨keys, guard, listen, attention, fresh, hpart⟩ :=
      discardIndex_part (p := p.stopping.followingDropped b) b.planIndex hdrain hplay rfl
    have hwatches := discardIndex_watches b.planIndex (p.stopping.followingDropped b)
    rw [stopCommand_plays hstate, setStopAtEnd_eq,
      releaseFollowing_some (p := p.stopping) hnext] at hexec
    rw [hpart] at hexec hwatches
    exact completes_of_exec hexec ⟨rfl, hwatches⟩
  case starved =>
    rw [stopCommand_starved hstate] at hexec
    have hdrained := drainStarved_drained .stopped (setStopAtEnd p)
    have honly := (only_setStopAtEnd p).trans (only_drainStarved .stopped (setStopAtEnd p))
    have hslot := congrArg Part.slot honly
    have hline := congrArg Part.svcLine honly
    have hpower := congrArg Part.power honly
    have hchain := congrArg Part.chain honly
    refine completes_of_exec hexec ⟨hdrained.state, hdrained.reason, hdrained.starveTimer,
      hdrained.take, hdrained.lookTimer, ⟨?_, ?_⟩, hpower, hchain⟩
    · exact congrArg (fun x : Slot => { x with phase := .closing }) hslot
    · exact congrArg (· ++ [SvcAccess.writeDetail 0, .writeCode 1]) hline
end

section
/-! SUPPORT. The end of a passage (R102) and the entry of the one that follows (R98), with what becomes of
the passage left (R103). -/

open Sys2Proof

namespace Sys2Proof.Machine

/-! ## The end of a passage (R102) -/

/-- PASSAGE_END where the position has reached the end of the current passage. -/
theorem exec_passageEnd {s : State} {b : Buffer} (hb : s.part.reader.current = some b)
    (hrun : s.part.player.state = .running) (hfree : s.part.follower.freeze = none)
    (hend : (b.passage.endPos : Int) ≤ s.part.position)
    (hpending : ¬(s.part.player.fermata.phase = .pending
      ∧ s.part.player.fermata.holdingPoint ≤ b.passage.endPos)) :
    exec .passageEnd s = .next { s with part := passageEndCourse b s.part } := by
  have hheld : (s.part.player.fermata.phase == .pending
      && decide (s.part.player.fermata.holdingPoint ≤ b.passage.endPos)) = false :=
    Bool.eq_false_iff.2 fun h => hpending (by simpa using h)
  have hdue : passageEndDue s.part = true := by
    unfold passageEndDue
    rw [hb]
    dsimp only
    rw [hheld]
    simp [hrun, hfree, hend]
  have hstep : passageEndStep s.part = passageEndCourse b s.part := by
    unfold passageEndStep
    rw [hb]
  show s.onPart (fun p => whenDue (passageEndDue p) passageEndStep p) = _
  rw [onPart_eq, whenDue_of hdue, hstep]

/-- The end of a passage up to its course: its lists closed, its cues and a PENDING fermata gone. -/
def Part.endReached (p : Part) (b : Buffer) : Part :=
  rewatch (discardPending (dropCues b.planIndex
    { p with reader := { p.reader with current := some b.closed } }))

theorem discardPending_part (p : Part) : discardPending p = { p with player := { p.player with
    fermata := if p.player.fermata.phase = .pending then Fermata.init else p.player.fermata } } := by
  unfold discardPending
  split <;> rfl

theorem endReached_part (p : Part) (b : Buffer) : ∃ watched, p.endReached b = { p with
    reader := { p.reader with current := some b.closed }
    player := { p.player with
      fermata := if p.player.fermata.phase = .pending then Fermata.init else p.player.fermata }
    sched := { p.sched with cues := p.sched.cues.filter fun c => c.planIndex != b.planIndex }
    follower := { p.follower with watched := watched } } := by
  unfold Part.endReached
  rw [discardPending_part]
  exact ⟨_, rfl⟩

theorem endReached_watches (p : Part) (b : Buffer) : WatchesHead (p.endReached b) :=
  rewatch_watches _

theorem endReached_reader (p : Part) (b : Buffer) :
    (p.endReached b).reader = { p.reader with current := some b.closed } := by
  obtain ⟨watched, hpart⟩ := endReached_part p b
  rw [hpart]

theorem passageEndCourse_following {p : Part} {b f : Buffer} (hnext : p.reader.next = .following f) :
    passageEndCourse b p = endFollowing b f (p.endReached b) := by
  unfold passageEndCourse
  dsimp only
  rw [← Part.endReached, endReached_reader]
  dsimp only
  rw [hnext]

theorem passageEndCourse_alone {p : Part} {b : Buffer} (hnext : p.reader.next.isFollowing = false) :
    passageEndCourse b p =
      if p.reader.phase = .endFound then enterDraining .complete (p.endReached b)
      else if p.reader.stopAtEnd then enterDraining .stopped (p.endReached b)
      else starve b (p.endReached b) := by
  unfold passageEndCourse
  dsimp only
  rw [← Part.endReached, endReached_reader]
  dsimp only
  split
  case h_1 f hf => rw [hf] at hnext; exact nomatch hnext
  case h_2 => rfl

/-- The time of the entry anchor at the end of a passage (R98). -/
def endAnchor (cur f : Buffer) (p : Part) : Int :=
  p.follower.predict cur.passage.endPos + gapTime p.follower.period f.passage.entryGap

theorem endFollowing_eq (cur f : Buffer) (p : Part) : endFollowing cur f p =
    afterEntry f.passage (completion (triggerIf
      ((enterFollowing f (endAnchor cur f p) p).follower.state != p.follower.state)
      (enterFollowing f (endAnchor cur f p) p))) := rfl

/-! ## The completion test by case (R103) -/

/-- Outside DRAINING the finishing passage alone can complete. -/
theorem completion_undrained {p : Part} (h : p.player.state ≠ .draining) :
    completion p = completeFinishing p := by
  obtain ⟨next, line, hfin⟩ := completeFinishing_part p
  have hstate : (completeFinishing p).player.state ≠ .draining := by rw [hfin]; exact h
  have hcur : completeCurrent (completeFinishing p) = completeFinishing p := by
    unfold completeCurrent
    split
    case h_1 hdrain _ => exact absurd hdrain hstate
    case h_2 => rfl
  have hover : planOver (completeCurrent (completeFinishing p)) = false := by
    rw [hcur]
    simp [planOver, hstate]
  rw [completion_stands hover, hcur]

/-- In DRAINING with a note of the current passage left the finishing passage alone can complete. -/
theorem completion_left {p : Part} {b : Buffer} (hb : p.reader.current = some b)
    (hleft : p.noteLeft b.planIndex = true) : completion p = completeFinishing p := by
  obtain ⟨next, line, hfin⟩ := completeFinishing_part p
  have hcurrent : (completeFinishing p).reader.current = some b := by rw [hfin]; exact hb
  have hcur : completeCurrent (completeFinishing p) = completeFinishing p :=
    completeCurrent_left hcurrent (by rw [hfin]; exact hleft)
  rw [completion_stands (by rw [hcur]; exact planOver_current hcurrent), hcur]

/-- In DRAINING with no note of the current passage left and the next buffer empty the plan ends. -/
theorem completion_done {p : Part} {b : Buffer} (hdrain : p.player.state = .draining)
    (hb : p.reader.current = some b) (hleft : p.noteLeft b.planIndex = false)
    (hnext : p.reader.next = .empty) (hsoft : p.softReset = false) :
    completion p = endPlan (askReader (.spent b.passage.ptr false)
      { p with reader := { p.reader with current := none, streamTimer := none } }) := by
  have hfin : completeFinishing p = p := completeFinishing_none (by rw [hnext]; rfl)
  have hcur := completeCurrent_done hdrain hb hleft hnext
  have hover : planOver (completeCurrent (completeFinishing p)) = true := by
    rw [hfin, hcur]
    simp [planOver, askReader, hdrain, hnext, hsoft, NextBuffer.awaited]
  rw [completion_ends hover, hfin, hcur]

/-- What the completion test made at an entry leaves in the next buffer and the line (R103, R182). -/
structure LeftSettled (ptr idx : Nat) (p : Part) (next : NextBuffer) (line : List ReaderAccess) :
    Prop where
  left : (∃ x ∈ p.sched.window, x.planIndex = idx) →
    next = .finishing ptr idx false ∧ line = p.reader.line
  done : ¬(∃ x ∈ p.sched.window, x.planIndex = idx) → p.reader.currentPtr ≠ some ptr →
    next = .finishing ptr idx true ∧ line = p.reader.line ++ [.spent ptr true]
  doubled : ¬(∃ x ∈ p.sched.window, x.planIndex = idx) → p.reader.currentPtr = some ptr →
    next = .empty ∧ line = p.reader.line

theorem completion_settles {p : Part} {ptr idx : Nat} (hstate : p.player.state ≠ .draining)
    (hnext : p.reader.next = .finishing ptr idx false) : ∃ next line,
    completion p = { p with reader := { p.reader with next := next, line := line } }
      ∧ LeftSettled ptr idx p next line := by
  have hsat : p.drainsSaturated = false := by simp [Part.drainsSaturated, hstate]
  have hiff := noteLeft_iff hsat idx
  rw [completion_playing hstate hnext]
  by_cases hleft : p.noteLeft idx = true
  · rw [if_pos hleft]
    exact ⟨_, _, rfl, fun _ => ⟨hnext, rfl⟩, fun h => absurd (hiff.1 hleft) h,
      fun h => absurd (hiff.1 hleft) h⟩
  · have hnone := mt hiff.2 hleft
    rw [if_neg hleft]
    by_cases hptr : p.reader.currentPtr = some ptr
    · rw [if_pos hptr]
      exact ⟨_, _, rfl, fun h => absurd h hnone, fun _ h => absurd hptr h, fun _ _ => ⟨rfl, rfl⟩⟩
    · rw [if_neg hptr]
      exact ⟨_, _, rfl, fun h => absurd h hnone, fun _ _ => ⟨rfl, rfl⟩, fun _ h => absurd h hptr⟩

/-! ## The entry of a following passage (R26, R93, R98) -/

/-- Everything the entry of a following passage does. -/
theorem enterFollowing_part {p : Part} {b : Buffer} (f : Buffer) (tau : Int)
    (hb : p.reader.current = some b) : enterFollowing f tau p = { p with
      reader := { p.reader with
        current := some f, delta := 0, next := .finishing b.passage.ptr b.planIndex false
        pass := p.reader.pass.map fun x => x.enter p.reader.delta }
      sched := p.sched.enter p.reader.delta f.planIndex
      follower := p.follower.enter f.passage false tau
      listen := { p.listen with queue := if f.passage.follow then p.listen.queue else [] }
      report := { p.report with
        boundary := some (beatAtOrAbove f.passage.startPos), beatPending := false } } := by
  have hleft : passageLeft p = .finishing b.passage.ptr b.planIndex false := by
    unfold passageLeft
    rw [hb]
  unfold enterFollowing
  rw [enterPassage_eq, hleft]

/-- The Follower at an entry other than the head's, with no freeze set (R93). -/
theorem Follower.enter_following {f : Follower} (q : Passage) (tau : Int) (hfree : f.freeze = none) :
    f.enter q false tau = { f with
      period := if q.follow then clampNat q.tlo q.thi f.period else q.tn
      tlo := q.tlo, thi := q.thi, aPos := q.startPos, aTime := tau
      state := if q.follow then .track else .lead
      missCount := 0, pLast := none
      atLimit := q.follow && (if q.follow then clampNat q.tlo q.thi f.period else q.tn) != f.period
      freeze := none } := by
  cases f
  dsimp only at hfree
  subst hfree
  unfold Follower.enter entryPeriod
  cases q.follow <;> rfl

/-- A trigger made right after an entry leaves the boundary the entry has placed (R56, log 50). -/
theorem triggerIf_entered (c : Bool) {p : Part} (hbeat : p.report.beatPending = false) : ∃ report,
    triggerIf c p = { p with report := report } ∧ report.boundary = p.report.boundary
      ∧ report.beatPending = false :=
  ⟨_, triggerIf_report c p, (triggerIf_boundary c hbeat).1, (triggerIf_boundary c hbeat).2⟩

/-- The gap at an entry is a count of microseconds (R97). -/
theorem gapTime_eq (period ticks : Nat) : gapTime period ticks = (ticks * period / 96 : Nat) := by
  simp [gapTime]

/-- A restated window holds notes of the same plan indexes. -/
theorem restated_planIndex (d : Int) (idx : Nat) (l : List Note) :
    (∃ x ∈ l.map (Note.restate d), x.planIndex = idx) ↔ ∃ x ∈ l, x.planIndex = idx := by
  simp [Note.restate]

end Sys2Proof.Machine

open Sys2Proof Sys2Proof.Machine

/-- Settles O40: the end, the entry, its trigger and the completion test of the passage left make the part
from which the entry goes on. -/
theorem passageEndEntersTheFollowing : Obligations.PassageEndEntersTheFollowing := by
  intro s b f hb hrun hfree hend hpending hnext p n d period left same
  have hexec := exec_passageEnd hb hrun hfree hend hpending
  rw [passageEndCourse_following hnext, endFollowing_eq] at hexec
  obtain ⟨watched, hreached⟩ := endReached_part p b
  have htime : endAnchor b f (p.endReached b) = p.follower.predict b.passage.endPos
      + (n.entryGap * p.follower.period / 96 : Nat) := by
    rw [endAnchor, gapTime_eq, hreached]
    rfl
  have hentered := enterFollowing_part f (endAnchor b f (p.endReached b))
    (show (p.endReached b).reader.current = some b.closed by rw [endReached_reader])
  generalize enterFollowing f _ (p.endReached b) = e at hexec hentered
  generalize endAnchor b f (p.endReached b) = tau at hentered htime
  obtain ⟨report, hmade, hboundary, hbeat⟩ :=
    triggerIf_entered (e.follower.state != (p.endReached b).follower.state) (p := e)
      (by rw [hentered])
  generalize triggerIf _ e = m at hexec hmade
  rw [hentered] at hmade hboundary
  rw [hreached] at hmade
  dsimp only at hmade
  have hplays : p.player.state ≠ .draining := hrun ▸ by decide
  rw [Follower.enter_following (f := { p.follower with watched := watched }) n tau hfree] at hmade
  obtain ⟨next, line, hmid, hsettled⟩ := completion_settles (p := m) (ptr := b.passage.ptr)
    (idx := b.planIndex) (by rw [hmade]; exact hplays) (by rw [hmade]; rfl)
  rw [hmid] at hexec
  subst hmade
  have hleft := restated_planIndex d b.planIndex p.sched.window
  refine completes_of_exec hexec ⟨_, afterEntry_goesOn n _, ?same, hboundary, hbeat,
    fun hl => hsettled.left (hleft.2 hl),
    fun hl hptr => hsettled.done (mt hleft.1 hl) fun h => hptr (Option.some.inj h),
    fun hl hptr => hsettled.doubled (mt hleft.1 hl) (congrArg some hptr)⟩
  case same =>
    rw [← hrun, ← htime]
    rfl
end

section
/-! SUPPORT. The end of a passage with none following: DRAINING, the end of the plan, and STARVED (R37,
R104, R112). -/

open Sys2Proof

namespace Sys2Proof.Machine

/-- What changes the plan, the Listening Unit, the report and the latches alone leaves the outputs, the
console's side, the slot and the time base. -/
theorem same_beside_plan {p q : Part} (h : q = { p with
      attention := q.attention, reader := q.reader, report := q.report, listen := q.listen
      follower := q.follower, player := q.player, sched := q.sched }) :
    SameMagnets p q ∧ SameConsole p q ∧ SameService p q ∧ SameTime p q := by
  rw [h]
  exact ⟨⟨rfl, rfl, rfl, rfl, rfl⟩, ⟨rfl, rfl, rfl, rfl, rfl, rfl⟩, ⟨rfl, rfl, rfl, rfl⟩,
    ⟨rfl, rfl, rfl, rfl, rfl, rfl⟩⟩

/-- The completion of a finishing passage, where none is awaited, leaves the next buffer and the line. -/
theorem completeFinishing_settles (p : Part) : ∃ next line,
    completeFinishing p = { p with reader := { p.reader with next := next, line := line } }
      ∧ (p.reader.next = .empty → next = .empty ∧ line = p.reader.line) := by
  obtain ⟨next, line, hfin⟩ := completeFinishing_part p
  refine ⟨next, line, hfin, fun hnext => ?_⟩
  have hnone : completeFinishing p = p := completeFinishing_none (by rw [hnext]; rfl)
  rw [hnone] at hfin
  exact ⟨(congrArg (fun q : Part => q.reader.next) hfin).symm.trans hnext,
    (congrArg (fun q : Part => q.reader.line) hfin).symm⟩

/-- The watched cue is read off the current passage, the Cue List and the line; the freeze has no part in
it. -/
theorem WatchesHead.of_same {p q : Part} (hcurrent : q.reader.current = p.reader.current)
    (hcues : q.sched.cues = p.sched.cues)
    (hfollower : q.follower = { p.follower with freeze := q.follower.freeze })
    (h : WatchesHead p) : WatchesHead q := by
  unfold WatchesHead at h ⊢
  rw [hcurrent, hcues]
  cases hb : p.reader.current <;> cases hc : p.sched.cues <;> rw [hb, hc] at h <;>
    rw [hfollower] <;> exact h

/-! ## DRAINING at the end of a passage (R37, R104) -/

/-- The reason with which a plan drains at the end of a passage (R126). -/
def Part.drainReason (p : Part) : EndReason :=
  if p.reader.phase = .endFound then .complete else .stopped

/-- END found, or stop-at-end set: the plan drains. -/
theorem passageEndCourse_drains {p : Part} {b : Buffer} (hnext : p.reader.next.isFollowing = false)
    (h : p.reader.phase = .endFound ∨ p.reader.stopAtEnd = true) :
    passageEndCourse b p = completion (drainBegun p.drainReason (p.endReached b)) := by
  rw [passageEndCourse_alone hnext, ← enterDraining_eq]
  unfold Part.drainReason
  by_cases hphase : p.reader.phase = .endFound
  · rw [if_pos hphase, if_pos hphase]
  · rw [if_neg hphase, if_neg hphase, if_pos (h.resolve_left hphase)]

/-- Everything the end of a passage does up to the completion test of a DRAINING. -/
theorem drainBegun_endReached (p : Part) (b : Buffer) : ∃ watched report,
    drainBegun p.drainReason (p.endReached b) = { p with
      reader := { p.reader with
        current := some b.closed
        phase := if p.reader.phase = .endFound then .endFound else .off
        lookTimer := none, take := none
        line := p.reader.line.filter fun a => !a.looks }
      player := { p.player with
        state := .draining, endReason := p.drainReason, starveTimer := none
        fermata := if p.player.fermata.phase = .pending then Fermata.init else p.player.fermata }
      sched := { p.sched with cues := p.sched.cues.filter fun c => c.planIndex != b.planIndex }
      follower := { p.follower with watched := watched }
      listen := { p.listen with queue := [] }
      report := report }
    ∧ WatchesHead (drainBegun p.drainReason (p.endReached b)) := by
  obtain ⟨watched, hreached⟩ := endReached_part p b
  have hwatches := endReached_watches p b
  rw [drainBegun_part]
  generalize (drainBegun p.drainReason (p.endReached b)).report = report
  refine ⟨watched, report, ?_, hwatches.of_same rfl rfl rfl⟩
  rw [hreached]

/-- A note left is one of the window while the clock has not saturated (R103). -/
theorem noteLeft_unsaturated {p : Part} (h : p.satTaken = false) (idx : Nat) :
    p.noteLeft idx = true ↔ ∃ x ∈ p.sched.window, x.planIndex = idx :=
  noteLeft_iff (by simp [Part.drainsSaturated, h]) idx

/-! ## STARVED at the end of a passage (R112) -/

/-- The Player has starved, before the completion test and the look for a passage (R112). -/
def starveBegun (cur : Buffer) (p : Part) : Part :=
  moveTo .starved (latch .starved { p with
    follower := { p.follower with freeze := some (cur.passage.endPos : Int) }
    player := { p.player with starveTimer := some (p.time + 1000000 * p.setup.starveLimit) } })

theorem starve_eq (cur : Buffer) (p : Part) : starve cur p =
    if (completion (starveBegun cur p)).reader.phase = .waitingForNeed then
      beginSeeking (completion (starveBegun cur p))
    else completion (starveBegun cur p) := rfl

/-- Everything starving does but the completion test and the look. -/
theorem starveBegun_part (cur : Buffer) (p : Part) : starveBegun cur p = { p with
    follower := { p.follower with freeze := some (cur.passage.endPos : Int) }
    player := { p.player with
      state := .starved, starveTimer := some (p.time + 1000000 * p.setup.starveLimit) }
    attention := p.attention ||| 8
    listen := { p.listen with queue := [] }
    report := (starveBegun cur p).report } :=
  moveTo_leaves (by decide) _

/-- SEEKING begins with the look timer, and with a look where none is under way and the next buffer is
empty (R21). -/
theorem beginSeeking_part {p : Part} {b : Buffer} (hb : p.reader.current = some b) : ∃ line,
    beginSeeking p = { p with reader := { p.reader with
      phase := .seeking, lookTimer := some (p.time + 20000), line := line } }
    ∧ (p.reader.next = .empty →
      line = if p.reader.looking = false then p.reader.line ++ [.lookNext] else p.reader.line) := by
  have hmay (hnext : p.reader.next = .empty) :
      (startLookTimer { p with reader := { p.reader with phase := .seeking } }).mayLook
        = !p.reader.looking :=
    mayLook_of (p := startLookTimer { p with reader := { p.reader with phase := .seeking } }) hb hnext
  unfold beginSeeking askLook
  split
  case isTrue h =>
    refine ⟨_, rfl, fun hnext => ?_⟩
    rw [hmay hnext] at h
    rw [if_pos (by simpa using h)]
    rfl
  case isFalse h =>
    refine ⟨_, rfl, fun hnext => ?_⟩
    rw [hmay hnext] at h
    rw [if_neg (by simpa using h)]

end Sys2Proof.Machine

open Sys2Proof Sys2Proof.Machine

/-- Settles O39: with END found or stop-at-end set the plan drains, and ends at once where no note of the
passage is left; in any other case the Player starves. -/
theorem passageEndWithNoneFollowing : Obligations.PassageEndWithNoneFollowing := by
  intro s b hb hrun hfree hend hpending hnext hsat p why unlooked left fermata cues keeps stands
  have hexec := exec_passageEnd hb hrun hfree hend hpending
  refine ⟨fun hends => ⟨fun hleft => ?drains, fun hleft hempty hsoft => ?ended⟩,
    fun hphase hstop => ?starves⟩
  case drains =>
    obtain ⟨watched, report, hbegun, hwatches⟩ := drainBegun_endReached p b
    rw [passageEndCourse_drains hnext hends] at hexec
    generalize drainBegun p.drainReason (p.endReached b) = d at hexec hbegun hwatches
    have hnote : d.noteLeft b.closed.planIndex = true := by
      rw [noteLeft_unsaturated (by rw [hbegun]; exact hsat), hbegun]
      exact hleft
    obtain ⟨next, line, hfin, hquiet⟩ := completeFinishing_settles d
    rw [completion_left (by rw [hbegun]) hnote, hfin] at hexec
    subst hbegun
    exact completes_of_exec hexec ⟨⟨rfl, rfl, rfl, hwatches.of_same rfl rfl rfl⟩,
      same_beside_plan rfl, rfl, rfl, rfl, rfl, hquiet⟩
  case ended =>
    obtain ⟨watched, report, hbegun, -⟩ := drainBegun_endReached p b
    rw [passageEndCourse_drains hnext hends] at hexec
    generalize drainBegun p.drainReason (p.endReached b) = d at hexec hbegun
    have hnote : d.noteLeft b.closed.planIndex = false := by
      rw [← Bool.not_eq_true, noteLeft_unsaturated (by rw [hbegun]; exact hsat), hbegun]
      exact hleft
    rw [completion_done (by rw [hbegun]) (by rw [hbegun]) hnote (by rw [hbegun]; exact hempty)
      (by rw [hbegun]; exact hsoft), endPlan_part] at hexec
    generalize (endPlan _).report = report' at hexec
    subst hbegun
    have hline : (unlooked ++ [ReaderAccess.spent b.passage.ptr false]).map ReaderAccess.unheld
        = unlooked.map ReaderAccess.unheld ++ [.spent b.passage.ptr false] := List.map_append
    refine completes_of_exec hexec ⟨⟨rfl, ?_, ⟨rfl, rfl, rfl⟩, rfl, ⟨rfl, rfl⟩,
      latched_latch .ended _⟩, rfl, same_beside_plan rfl, rfl⟩
    rw [← hline]
    rfl
  case starves =>
    obtain ⟨watched, hreached⟩ := endReached_part p b
    have hwatches := endReached_watches p b
    have hcourse : passageEndCourse b p = starve b (p.endReached b) := by
      rw [passageEndCourse_alone hnext, if_neg hphase, if_neg (by rw [hstop]; decide)]
    have hbegun := starveBegun_part b (p.endReached b)
    rw [hcourse, starve_eq] at hexec
    generalize (starveBegun b (p.endReached b)).report = report at hbegun
    generalize starveBegun b (p.endReached b) = d at hexec hbegun
    obtain ⟨next, line, hfin, hquiet⟩ := completeFinishing_settles d
    rw [completion_undrained (by rw [hbegun]; simp), hfin] at hexec
    generalize p.endReached b = r at hreached hwatches hbegun
    generalize he : ({ d with reader := { d.reader with next := next, line := line } } : Part) = e
      at hexec
    obtain ⟨sought, hseek, hlook⟩ := beginSeeking_part (p := e) (b := b.closed)
      (by rw [← he, hbegun, hreached])
    rw [hseek] at hexec
    subst hreached hbegun he
    by_cases hwaits : p.reader.phase = .waitingForNeed
    · rw [if_pos hwaits] at hexec
      refine completes_of_exec hexec ⟨⟨rfl, rfl, rfl, hwatches.of_same rfl rfl rfl⟩,
        same_beside_plan rfl, rfl, rfl, rfl, fun h => absurd hwaits h,
        fun _ => ⟨rfl, rfl⟩, fun hempty => ⟨(hquiet hempty).1, ?_⟩⟩
      obtain ⟨rfl, rfl⟩ := hquiet hempty
      rw [hlook rfl]
      exact if_congr ⟨fun h => ⟨hwaits, h⟩, fun h => h.2⟩ rfl rfl
    · rw [if_neg hwaits] at hexec
      exact completes_of_exec hexec ⟨⟨rfl, rfl, rfl, hwatches.of_same rfl rfl rfl⟩,
        same_beside_plan rfl, rfl, rfl, rfl, fun _ => ⟨rfl, rfl⟩,
        fun h => absurd h hwaits, fun hempty => ⟨(hquiet hempty).1,
        (hquiet hempty).2.trans (if_neg fun h => hwaits h.1).symm⟩⟩
end

section
/-! SUPPORT. The stamp exchange: the structural tests and clamps of a copy (R24, R25), and what a take ends
in (R23, R27, R97, R113, R118). -/

open Sys2Proof

namespace Sys2Proof.Machine

/-! ## The copy of a record (R24, R25) -/

theorem listFits_iff (count size ptr : Nat) : listFits count size ptr = true
    ↔ (0 < count → 0x240 ≤ ptr ∧ ptr ≤ 0x7FFF ∧ ptr + size * count ≤ 0x8000) := by
  unfold listFits
  rw [Bool.or_eq_true, Bool.and_eq_true, beq_iff_eq, inConsoleSpace_iff, decide_eq_true_iff]
  generalize size * count = words
  omega

/-- The structural tests of R24, one by one. -/
theorem Take.structural_iff (t : Take) : t.structural = true ↔
    t.ptr + 20 + t.baseCount ≤ 0x8000
    ∧ 0x240 ≤ (t.word 4).toNat ∧ (t.word 4).toNat + 7 ≤ 0x7FFF
    ∧ 1 ≤ pair (t.word 100) (t.word 101) ∧ pair (t.word 100) (t.word 101) ≤ 16777215
    ∧ (t.word 102).toNat ≤ 2048 ∧ (t.word 103).toNat ≤ 512 ∧ (t.word 104).toNat ≤ 64
    ∧ listFits (t.word 102).toNat 3 (t.word 105).toNat = true
    ∧ listFits (t.word 103).toNat 2 (t.word 106).toNat = true
    ∧ listFits (t.word 104).toNat 2 (t.word 107).toNat = true
    ∧ pair (t.word 5) (t.word 6) < pair (t.word 7) (t.word 8)
    ∧ pair (t.word 7) (t.word 8) ≤ pair (t.word 100) (t.word 101)
    ∧ (t.word 3).toNat % 256 ≤ 3 ∧ (t.word 3).toNat / 256 ≤ 1 := by
  have hrecord : t.ptr + 20 + t.baseCount - 1 ≤ 0x7FFF ↔ t.ptr + 20 + t.baseCount ≤ 0x8000 := by
    omega
  have hblock : ((0x240 ≤ t.block ∧ t.block ≤ 0x7FFF) ∧ t.block + 7 ≤ 0x7FFF)
      ↔ (0x240 ≤ t.block ∧ t.block + 7 ≤ 0x7FFF) := by
    omega
  unfold Take.structural
  simp only [Bool.and_eq_true, decide_eq_true_eq, inConsoleSpace_iff, hrecord]
  constructor
  · rintro ⟨⟨⟨⟨⟨⟨⟨⟨⟨⟨⟨h1, h2⟩, h3⟩, h4, h5⟩, ⟨h6, h7⟩, h8⟩, h9⟩, h10⟩, h11⟩, h12⟩, h13⟩, h14⟩, h15⟩
    exact ⟨h1, h2.1, h3, h4, h5, h6, h7, h8, h9, h10, h11, h12, h13, h14, h15⟩
  · rintro ⟨h1, h2, h3, h4, h5, h6, h7, h8, h9, h10, h11, h12, h13, h14, h15⟩
    exact ⟨⟨⟨⟨⟨⟨⟨⟨⟨⟨⟨h1, (hblock.2 ⟨h2, h3⟩).1⟩, h3⟩, h4, h5⟩, ⟨h6, h7⟩, h8⟩, h9⟩, h10⟩, h11⟩, h12⟩,
      h13⟩, h14⟩, h15⟩

/-- A stop entry is skipped for its stop number or its high byte (R7, R11). -/
theorem stopEntry_none_iff (w : Word) :
    (stopEntry w).isNone = true ↔ 64 ≤ w.toNat % 256 ∨ 2 ≤ w.toNat / 256 := by
  unfold stopEntry
  split
  case isTrue h =>
    simp only [Option.isNone_some, Bool.false_eq_true, false_iff]
    omega
  case isFalse h =>
    simp only [Option.isNone_none, true_iff]
    omega

theorem Take.skipsBase_iff (t : Take) : t.skipsBase = true
    ↔ ∃ x ∈ t.baseWords, 64 ≤ x.toNat % 256 ∨ 2 ≤ x.toNat / 256 := by
  unfold Take.skipsBase
  rw [List.any_eq_true]
  exact exists_congr fun w => and_congr_right fun _ => stopEntry_none_iff w

/-! ## The exchange as an access (R23) -/

/-- STAMP_EXCHANGE with the exchange next serves it. -/
theorem exec_stampExchange {s : State} {rest : List ReaderAccess}
    (h : s.part.readerNext .exchange rest) : exec .stampExchange s = exec .arbiterServe s := by
  have hnext : nextIsExchange s.part = true := by
    obtain ⟨hrequester, hline⟩ := h
    unfold nextIsExchange
    rw [hrequester, hline]
    rfl
  rw [exec_arbiterServe, ← arbiterStepIf_of hnext]
  rfl

/-- The part at the exchange that ends a take: the take over, MAPPING latched for a base registration entry
skipped (R25). -/
def Part.takeEnded (p : Part) (rest : List ReaderAccess) (t : Take) : Part :=
  { p with
    arb := .planReader
    reader := { p.reader with line := rest, take := none }
    attention := if t.structural && t.skipsBase then p.attention ||| 0x800 else p.attention }

theorem takeOver_latchIf (p : Part) (rest : List ReaderAccess) (t : Take) :
    takeOver (latchIf (t.structural && t.skipsBase) .mapping (p.readerServed rest))
      = p.takeEnded rest t := by
  unfold Part.takeEnded
  cases t.structural && t.skipsBase <;> rfl

theorem exec_exchange {s : State} {rest : List ReaderAccess} {t : Take} {c : Instr}
    (h : s.part.readerNext .exchange rest) (ht : s.part.reader.take = some t)
    (hc : c ∈ [Instr.stampExchange, .arbiterServe]) :
    exec c s = .next (s.withResult (exchange t s.store (s.part.readerServed rest))) := by
  have hserve : exec c s = exec .arbiterServe s := by
    rcases List.mem_pair.1 hc with rfl | rfl
    · exact exec_stampExchange h
    · rfl
  have htake : (s.part.readerServed rest).reader.take = some t := ht
  rw [hserve, exec_arbiterServe_reader h]
  unfold serveReader
  dsimp only
  rw [htake]

section
variable {mem : Memory} {p : Part} {rest : List ReaderAccess} {t : Take}

/-- A stamp other than READY stands, and the take ends with nothing taken. -/
theorem exchange_withdrawn (h : mem.read t.ptr ≠ 1) : exchange t mem (p.readerServed rest)
    = (mem, if t.head then headNotReady (p.takeEnded rest t) else p.takeEnded rest t) := by
  unfold exchange
  rw [takeOver_latchIf]
  exact if_neg h

/-- READY is replaced by REFUSED after a structural fault. -/
theorem exchange_refused (h : mem.read t.ptr = 1) (hbad : t.structural = false) :
    exchange t mem (p.readerServed rest)
      = (mem.write t.ptr 5, refusedCourse t (p.takeEnded rest t)) := by
  unfold exchange
  rw [takeOver_latchIf, h, hbad]
  rfl

/-- READY is replaced by TAKEN where the copy has passed the tests. -/
theorem exchange_taken (h : mem.read t.ptr = 1) (hgood : t.structural = true) :
    exchange t mem (p.readerServed rest)
      = (mem.write t.ptr 2, takenCourse t (p.takeEnded rest t)) := by
  unfold exchange
  rw [takeOver_latchIf, h, hgood]
  rfl

end

/-! ## A lock and the latches, the slot and the marks (R52, R123) -/

theorem lockPlayer_attention (why : LockReason) (addr : Nat) (p : Part) :
    (lockPlayer why addr p).attention = p.attention ||| Condition.mask .locked := by
  simp [lockPlayer, generalRelease]

theorem lockPlayer_starting (why : LockReason) (addr : Nat) (p : Part) :
    (lockPlayer why addr p).player.starting = p.player.starting := by
  simp [lockPlayer, generalRelease]

/-- A condition latched before a lock is latched after it. -/
theorem lockPlayer_latched {c : Condition} {p : Part} (why : LockReason) (addr : Nat)
    (h : p.latched c = true) : (lockPlayer why addr p).latched c = true := by
  unfold Part.latched at h ⊢
  rw [lockPlayer_attention]
  exact latched_or c _ _ h

/-- The end of a command leaves a part locked. -/
theorem Locked.closeSlot {why : LockReason} {addr : Nat} {p q : Part} (o : SlotOutcome)
    (d : SlotDetail) (h : Locked why addr p q) : Locked why addr p (closeSlot o d q) := by
  obtain ⟨⟨hcur, hnext, htake, hphase, hline, hlists, hfol, hlisten, hfermata⟩, hstate, hreason,
    hlatched⟩ := h
  exact ⟨⟨hcur, hnext, htake, hphase, hline, hlists, hfol, hlisten, hfermata⟩, hstate, hreason,
    hlatched⟩

/-- A command ends with an outcome and a detail on a slot and a line not touched since. -/
theorem endsWith_closeSlot {p q : Part} (o : SlotOutcome) (d : SlotDetail) (hslot : q.slot = p.slot)
    (hline : q.svcLine = p.svcLine) : EndsWith o.code d.code p (closeSlot o d q) := by
  refine ⟨?_, ?_⟩
  · rw [closeSlot_slot, hslot]
  · rw [closeSlot_svcLine, hline]

/-- The pointer of the current buffer is one of those held (R36). -/
theorem mem_heldPtrs {r : Reader} {c : Nat} (h : r.currentPtr = some c) : c ∈ r.heldPtrs := by
  unfold Reader.heldPtrs
  rw [h]
  cases r.next.ptr with
  | none => exact List.mem_singleton.2 rfl
  | some n =>
    dsimp only
    split
    · exact List.mem_singleton.2 rfl
    · exact List.mem_pair.2 (.inl rfl)

/-! ## A passage refused (R23, R24, R118) -/

theorem refusedCourse_head {t : Take} (p : Part) (h : t.head = true) : refusedCourse t p
    = closeSlot .ok .none (lockPlayer .badPassage t.ptr (startTaken (latch .passage p))) := by
  unfold refusedCourse
  exact if_pos h

theorem refusedCourse_following {t : Take} (p : Part) (h : t.head = false) :
    refusedCourse t p = lockRequest .badPassage t.ptr (latch .passage p) := by
  unfold refusedCourse
  exact if_neg (by rw [h]; decide)

/-- PASSAGE is latched at a refusal, whether or not the Player locks. -/
theorem refusedCourse_latched (t : Take) (p : Part) : (refusedCourse t p).latched .passage = true := by
  have hlatched : (latch .passage p).latched .passage = true := latched_latch .passage p
  cases h : t.head
  · rw [refusedCourse_following p h]
    unfold lockRequest
    split
    · exact lockPlayer_latched _ _ hlatched
    · exact hlatched
  · rw [refusedCourse_head p h]
    exact lockPlayer_latched (p := startTaken (latch .passage p)) _ _ hlatched

/-- A head refused locks the Player, and START ends with OK (R118). -/
theorem refusedCourse_head_locked {t : Take} (p : Part) (h : t.head = true) :
    Locked .badPassage t.ptr p (refusedCourse t p) ∧ EndsWith 1 0 p (refusedCourse t p)
      ∧ (refusedCourse t p).player.starting = false := by
  rw [refusedCourse_head p h]
  have hlocked := lockPlayer_locked .badPassage t.ptr (startTaken (latch .passage p))
  have hfound : Locked .badPassage t.ptr p _ :=
    Locked.of_held (r := startTaken (latch .passage p)) rfl rfl rfl rfl hlocked
  exact ⟨hfound.closeSlot _ _,
    endsWith_closeSlot .ok .none (lockPlayer_slot _ _ _) (lockPlayer_svcLine _ _ _),
    lockPlayer_starting _ _ _⟩

/-- A following passage refused locks a playing Player. -/
theorem refusedCourse_locked {t : Take} {p : Part} (h : t.head = false) (hplay : p.playing = true) :
    Locked .badPassage t.ptr p (refusedCourse t p) := by
  have htaken : lockTaken .badPassage (latch .passage p).player.state = true :=
    (lockTaken_badPassage p).trans hplay
  rw [refusedCourse_following p h, lockRequest_taken _ htaken]
  exact Locked.of_held (r := latch .passage p) rfl rfl rfl rfl (lockPlayer_locked _ _ _)

/-- A following passage refused when the Player no longer plays. -/
theorem refusedCourse_idle {t : Take} {p : Part} (h : t.head = false) (hplay : p.playing = false) :
    refusedCourse t p = latch .passage p := by
  have hignored : lockTaken .badPassage (latch .passage p).player.state = false :=
    (lockTaken_badPassage p).trans hplay
  rw [refusedCourse_following p h, lockRequest_ignored _ hignored]

theorem takenCourse_head {t : Take} (p : Part) (h : t.head = true) :
    takenCourse t p = headTaken t.passage p := if_pos h

theorem takenCourse_following {t : Take} (p : Part) (h : t.head = false) :
    takenCourse t p = followingTaken t.passage p := if_neg (by rw [h]; decide)

/-! ## The head entered (R97, R118) -/

/-- A list restated by no offset stands. -/
theorem Scheduler.enter_zero (s : Scheduler) (idx : Nat) :
    s.enter 0 idx = { s with curIndex := idx } := by
  have hnotes : s.window.map (Note.restate 0) = s.window :=
    (List.map_congr_left fun x _ => by simp [Note.restate]).trans (List.map_id s.window)
  have hcues : (s.cues.map fun c => { c with position := c.position - 0 }) = s.cues :=
    (List.map_congr_left fun x _ => by simp).trans (List.map_id s.cues)
  have hsteps : (s.steps.map fun x => { x with position := x.position - 0 }) = s.steps :=
    (List.map_congr_left fun x _ => by simp).trans (List.map_id s.steps)
  unfold Scheduler.enter
  rw [hnotes, hcues, hsteps]

/-- The Follower at the entry of a head (R93). -/
theorem Follower.enter_start (f : Follower) (q : Passage) (tau : Int) :
    f.enter q true tau = { f with
      period := q.tn, tlo := q.tlo, thi := q.thi, aPos := q.startPos, aTime := tau
      state := if q.follow then .track else .lead
      missCount := 0, pLast := none, atLimit := false } := by
  unfold Follower.enter entryPeriod
  cases q.follow <;> rfl

/-- The head taken and entered, in RUNNING, before what follows the entry. -/
def headEntered (q : Passage) (p : Part) : Part :=
  trigger (enterPassage (q.buffer 0) true (headAnchor p.setup q) (startTaken { p with
    reader := { p.reader with
      planIndex := 0, delta := 0, phase := .waitingForNeed
      streamTimer := some (p.time + Config.streamInterval) }
    player := { p.player with state := .running } }))

theorem headTaken_on {p : Part} (q : Passage) (h : p.power.on = true) :
    headTaken q p = closeSlot .ok .none (afterEntry q (headEntered q p)) := by
  unfold headTaken
  dsimp only
  rw [h]
  rfl

theorem headTaken_off {p : Part} (q : Passage) (h : p.power.on = false) :
    headTaken q p = closeSlot .ok .none (lockRequest .power 0 (headEntered q p)) := by
  unfold headTaken
  dsimp only
  rw [h]
  rfl

/-- Everything the entry of a head does. -/
theorem headEntered_part (q : Passage) (p : Part) : ∃ report,
    headEntered q p = { p with
      reader := { p.reader with
        current := some (q.buffer 0), planIndex := 0, delta := 0
        phase := .waitingForNeed, streamTimer := some (p.time + 1000)
        pass := p.reader.pass.map fun x => x.enter 0 }
      player := { p.player with starting := false, endReason := .none, state := .running }
      follower := { p.follower with
        period := q.tn, tlo := q.tlo, thi := q.thi, aPos := q.startPos
        aTime := p.setup.startLead * 1000 + (q.entryGap * q.tn / 96 : Nat)
        state := if q.follow then .track else .lead
        missCount := 0, pLast := none, atLimit := false }
      sched := { p.sched with curIndex := 0 }
      listen := { p.listen with queue := if q.follow then p.listen.queue else [] }
      report := report }
    ∧ report.boundary = some (beatAtOrAbove q.startPos) ∧ report.beatPending = false := by
  unfold headEntered
  rw [enterPassage_eq]
  dsimp only [startTaken]
  rw [Scheduler.enter_zero, Follower.enter_start, headAnchor, gapTime_eq]
  exact triggerIf_entered true (by rfl)

/-- A head entered while magnet power has gone OFF: the Player locks, the passage entered is abandoned, and
START ends with OK (log 54). -/
theorem headTaken_off_locked {p : Part} (q : Passage) (h : p.power.on = false) :
    (headTaken q p).player.starting = false ∧ EndsWith 1 0 p (headTaken q p)
      ∧ (headTaken q p).player.state = .locked ∧ (headTaken q p).player.lockReason = .power
      ∧ (headTaken q p).player.lockAddr = 0 ∧ (headTaken q p).reader.current = none
      ∧ .abandon q.ptr ∈ (headTaken q p).reader.line := by
  obtain ⟨report, hentered, -, -⟩ := headEntered_part q p
  rw [headTaken_off q h]
  generalize headEntered q p = e at hentered
  have hstate : e.player.state = .running := by rw [hentered]
  have hstarting : e.player.starting = false := by rw [hentered]
  have hslot : e.slot = p.slot := by rw [hentered]
  have hline : e.svcLine = p.svcLine := by rw [hentered]
  have hptr : e.reader.currentPtr = some q.ptr := by rw [hentered]; rfl
  obtain ⟨hletGo, hlocked, ⟨hreason, haddr, -⟩, -⟩ := lockPlayer_locked .power 0 e
  rw [lockRequest_taken 0 (by rw [hstate]; rfl)]
  refine ⟨(lockPlayer_starting _ _ _).trans hstarting,
    endsWith_closeSlot .ok .none ((lockPlayer_slot _ _ _).trans hslot)
      ((lockPlayer_svcLine _ _ _).trans hline), hlocked, hreason, haddr, hletGo.current, ?_⟩
  show .abandon q.ptr ∈ (lockPlayer .power 0 e).reader.line
  rw [hletGo.line]
  exact List.mem_append_right _ (List.mem_map_of_mem (mem_heldPtrs hptr))

/-! ## A following passage taken (R27, R113) -/

theorem followingTaken_of {p : Part} {cur : Buffer} (q : Passage)
    (hcur : p.reader.current = some cur) (hstate : p.player.state ≠ .starved) :
    followingTaken q p = requestPass (holdFollowing cur q p) := by
  unfold followingTaken
  rw [hcur]
  exact if_neg hstate

theorem followingTaken_late {p : Part} {cur : Buffer} (q : Passage)
    (hcur : p.reader.current = some cur) (hstate : p.player.state = .starved) :
    followingTaken q p
      = lateTake (q.buffer ((cur.planIndex + 1) % 65536)) (holdFollowing cur q p) := by
  unfold followingTaken
  rw [hcur]
  exact if_pos hstate

/-- The end notes' key-offs in STARVED with a following passage held reach the window, the outputs and the
latches. -/
theorem keyOffEndNotes_starved {p : Part} (hstate : p.player.state = .starved)
    (hnext : p.reader.next.awaited = false) : ∃ window keys guard listen attention fresh,
    keyOffEndNotes p = { p with
      sched := { p.sched with window := window }
      keys := keys, guard := guard, listen := listen, attention := attention, fresh := fresh } := by
  obtain ⟨q, hq, hpart, hreader⟩ := keyOffs_part (endNote p) (p := p) (by rw [hstate]; decide)
    (by simp [Part.playing, hstate])
  rw [hreader hnext] at hpart
  exact ⟨_, _, _, _, _, _, hq.symm.trans hpart⟩

/-- A late take up to the completion test: the end notes off, the following passage entered at the clock
plus its gap, RUNNING (R113). -/
def lateEntered (f : Buffer) (p : Part) : Part :=
  let k := keyOffEndNotes p
  trigger (enterFollowing f (k.now + gapTime k.follower.period f.passage.entryGap) { k with
    follower := { k.follower with freeze := none }
    player := { k.player with starveTimer := none, state := .running } })

theorem lateTake_eq (f : Buffer) (p : Part) :
    lateTake f p = afterEntry f.passage (completion (lateEntered f p)) := rfl

/-- Everything a late take does up to the completion test. -/
theorem lateEntered_part {p : Part} {cur : Buffer} (f : Buffer)
    (hcur : p.reader.current = some cur) (hstate : p.player.state = .starved)
    (hnext : p.reader.next.awaited = false) :
    ∃ sched keys guard listen attention fresh report,
    lateEntered f p = { p with
      reader := { p.reader with
        current := some f, delta := 0, next := .finishing cur.passage.ptr cur.planIndex false
        pass := p.reader.pass.map fun x => x.enter p.reader.delta }
      player := { p.player with state := .running, starveTimer := none }
      follower := Follower.enter { p.follower with freeze := none } f.passage false
        (p.clock + (f.passage.entryGap * p.follower.period / 96 : Nat))
      sched := sched, keys := keys, guard := guard, listen := listen, attention := attention
      fresh := fresh, report := report }
    ∧ sched.curIndex = f.planIndex
    ∧ report.boundary = some (beatAtOrAbove f.passage.startPos) ∧ report.beatPending = false := by
  obtain ⟨window, keys, guard, listen, attention, fresh, hoff⟩ := keyOffEndNotes_starved hstate hnext
  unfold lateEntered
  dsimp only
  rw [hoff, gapTime_eq, enterFollowing_part (b := cur) f _ ?_]
  · exact ⟨_, _, _, _, _, _, _, trigger_report _, rfl, (trigger_boundary (by rfl)).1,
      (trigger_boundary (by rfl)).2⟩
  · exact hcur

/-- What a late take comes to (R113): the passage entered, the one left finishing or, where it holds the same
pointer, let go, and the entry going on from there. -/
theorem followingTaken_enters {p : Part} {b : Buffer} (q : Passage) (hb : p.reader.current = some b)
    (hstate : p.player.state = .starved) : ∃ mid, EntryGoesOn q mid (followingTaken q p)
      ∧ mid.reader.current = some (q.buffer ((b.planIndex + 1) % 65536))
      ∧ (mid.reader.next = .empty ∧ q.ptr = b.passage.ptr
        ∨ ∃ ready, mid.reader.next = .finishing b.passage.ptr b.planIndex ready)
      ∧ mid.reader.phase = .waitingForNeed ∧ mid.reader.delta = 0
      ∧ mid.player = { p.player with state := .running, starveTimer := none }
      ∧ mid.follower = Follower.enter { p.follower with freeze := none } q false
        (p.clock + (q.entryGap * p.follower.period / 96 : Nat))
      ∧ mid.report.boundary = some (beatAtOrAbove q.startPos)
      ∧ mid.report.beatPending = false
      ∧ mid.sched.curIndex = (b.planIndex + 1) % 65536 := by
  rw [followingTaken_late q hb hstate, lateTake_eq]
  obtain ⟨sched, keys, guard, listen, attention, fresh, report, hentered, hindex, hboundary, hbeat⟩ :=
    lateEntered_part (p := holdFollowing b q p) (q.buffer ((b.planIndex + 1) % 65536)) hb hstate rfl
  generalize lateEntered _ (holdFollowing b q p) = e at hentered
  obtain ⟨next, line, hmid, hsettled⟩ := completion_settles (p := e) (ptr := b.passage.ptr)
    (idx := b.planIndex) (by rw [hentered]; simp) (by rw [hentered])
  rw [hmid]
  subst hentered
  refine ⟨_, afterEntry_goesOn q _, rfl, ?_, rfl, rfl, rfl, rfl, hboundary, hbeat, hindex⟩
  by_cases hleft : ∃ x ∈ sched.window, x.planIndex = b.planIndex
  · exact .inr ⟨_, (hsettled.left hleft).1⟩
  · by_cases hptr : q.ptr = b.passage.ptr
    · exact .inl ⟨(hsettled.doubled hleft (congrArg some hptr)).1, hptr⟩
    · exact .inr ⟨_, (hsettled.done hleft fun h => hptr (Option.some.inj h)).1⟩

end Sys2Proof.Machine

open Sys2Proof Sys2Proof.Machine

/-- Settles O36: the tests and clamps of a copy are those of R24 and R25; the exchange is refused, withdrawn
or taken, and what is taken is entered as the head, held as the following passage, or entered late. -/
theorem stampExchangeReplacesReadyAlone : Obligations.StampExchangeReplacesReadyAlone := by
  refine ⟨fun t => ?copy, fun s rest t hnext ht c hc => ?exchange⟩
  case copy =>
    intro w n low fits base
    refine ⟨?tests, t.skipsBase_iff, ?clamps⟩
    case tests =>
      rw [t.structural_iff, listFits_iff, listFits_iff, listFits_iff]
      rfl
    case clamps =>
      unfold Take.passage
      dsimp only
      rw [clampNat_eq (lo := Config.periodMin) (hi := Config.periodMax) (by decide),
        clampNat_eq (lo := 1) (hi := 128) (by decide), clampNat_eq (lo := 1) (hi := 15) (by decide),
        clampInt_eq (lo := -200) (hi := 200) (by decide)]
      rfl
  case exchange =>
    intro p base q stamp fresh
    have hexec := exec_exchange hnext ht hc
    refine ⟨fun hstamp => ⟨fun hhead => ?withdrawn, fun hhead => ?headWithdrawn⟩,
      fun hstamp hbad hs ha => ?refused, fun hstamp hgood hs ha => ?taken⟩
    case withdrawn =>
      rw [hexec, exchange_withdrawn hstamp, hhead]
      rfl
    case headWithdrawn =>
      rw [hexec, exchange_withdrawn hstamp, hhead]
      rfl
    case refused =>
      rw [exchange_refused hstamp hbad] at hexec
      exact completesStoring_of_exec hexec ⟨wordWritten_write 5 hs ha, refusedCourse_latched t _,
        fun hhead => refusedCourse_head_locked base hhead,
        fun hhead hplay => refusedCourse_locked (p := base) hhead hplay,
        fun hhead hplay => refusedCourse_idle (p := base) hhead hplay⟩
    case taken =>
      rw [exchange_taken hstamp hgood] at hexec
      refine completesStoring_of_exec hexec ⟨wordWritten_write 2 hs ha, fun hhead hoff => ?off,
        fun hhead hon => ?on, fun b hhead hb hstate => ?following, fun b hhead hb hstate => ?late⟩
      case off =>
        have hcourse : takenCourse t (p.takeEnded rest t) = headTaken q (p.takeEnded rest t) :=
          takenCourse_head _ hhead
        exact hcourse ▸ headTaken_off_locked (p := p.takeEnded rest t) q hoff
      case on =>
        obtain ⟨report, hentered, hboundary, hbeat⟩ := headEntered_part q (p.takeEnded rest t)
        have hcourse := (takenCourse_head (p.takeEnded rest t) hhead).trans (headTaken_on q hon)
        rw [hentered] at hcourse
        exact ⟨_, _, hcourse, afterEntry_goesOn q _, rfl, hboundary, hbeat⟩
      case following =>
        have hcourse := (takenCourse_following (p.takeEnded rest t) hhead).trans
          (followingTaken_of q hb hstate)
        exact hcourse ▸ requestPass_asked _
      case late =>
        obtain ⟨mid, hgoes, hcurrent, hnext, hphase, hdelta, hplayer, hfollower, hreport⟩ :=
          followingTaken_enters (p := p.takeEnded rest t) q hb hstate
        rw [Follower.enter_following q _ rfl] at hfollower
        have hcourse : takenCourse t (p.takeEnded rest t) = followingTaken q (p.takeEnded rest t) :=
          takenCourse_following _ hhead
        exact ⟨mid, hcourse ▸ hgoes, hcurrent, hnext, hphase, hdelta, hplayer,
          congrArg Follower.period hfollower, congrArg Follower.aPos hfollower,
          congrArg Follower.aTime hfollower, congrArg Follower.freeze hfollower, hreport⟩
end

section
/-! SUPPORT. A stream pass from its timer on, and what the words of an entry come to (R28-R31, R34,
R131). -/

open Sys2Proof

namespace Sys2Proof.Machine

/-! ## The stream timer (R28) -/

/-- STREAM_PASS with the timer at its end restarts it and asks for a pass. -/
theorem exec_streamPass {s : State} {b : Buffer} {e : Nat} (hb : s.part.reader.current = some b)
    (htimer : s.part.reader.streamTimer = some e) (he : e ≤ s.part.time)
    (hplay : s.part.playing = true) :
    exec .streamPass s = .next { s with part := streamTick s.part } := by
  have hdue : streamDue s.part = true := by simp [streamDue, hb, htimer, expired, he, hplay]
  show s.onPart (fun p => whenDue (streamDue p) streamTick p) = _
  rw [onPart_eq, whenDue_of hdue]

/-! ## The course of an entry (R28-R31, R34) -/

/-- An entry lies beyond the span of its passage that is handed: [S, N), and [S, N] of the steps. -/
abbrev Buffer.pastSpan (b : Buffer) (kind : ListKind) (pos : Nat) : Prop :=
  b.passage.endPos < pos ∨ b.passage.endPos = pos ∧ kind ≠ .steps

/-- The position of an entry is lower than that of the one before it in its list (R34). -/
abbrev Buffer.disordered (b : Buffer) (kind : ListKind) (pos : Nat) : Prop :=
  ∃ m, (b.cursor kind).prev = some m ∧ pos < m

/-- What the words read of an entry make of the part, by where the entry lies: `beforeWords` and
`handedWords` are how many words its course needs before the span and in it. -/
structure CourseOf (b : Buffer) (st : Stage) (rest : List Stage) (x : Pass) (bad : Prop) (pos : Nat)
    (beforeWords handedWords : Nat) (past : Cursor) (hand : Part → Part) (p q : Part) : Prop where
  locks : bad → Locked .badBlock (b.cursor st.list).addr p q
  beyond : ¬bad → b.passage.startPos ≤ pos → b.pastSpan st.list pos →
    PassGoesOn x.bound rest
      (putBuffer st.ahead (b.withCursor st.list ((b.cursor st.list).finish pos)) p) q
  later : ¬bad → b.passage.startPos ≤ pos → ¬b.pastSpan st.list pos →
    x.bound < (pos : Int) + p.reader.offset st.ahead → PassGoesOn x.bound rest p q
  beforeWaits : ¬bad → pos < b.passage.startPos → x.got.length < beforeWords →
    q = putPass (some x) p
  before : ¬bad → pos < b.passage.startPos → beforeWords ≤ x.got.length →
    PassGoesOn x.bound (st :: rest) (putBuffer st.ahead (b.withCursor st.list past) p) q
  handedWaits : ¬bad → b.passage.startPos ≤ pos → ¬b.pastSpan st.list pos →
    (pos : Int) + p.reader.offset st.ahead ≤ x.bound → x.got.length < handedWords →
    q = putPass (some x) p
  handed : ¬bad → b.passage.startPos ≤ pos → ¬b.pastSpan st.list pos →
    (pos : Int) + p.reader.offset st.ahead ≤ x.bound → handedWords ≤ x.got.length →
    PassGoesOn x.bound (st :: rest) (hand (putBuffer st.ahead (b.withCursor st.list past) p)) q

/-- The service of an entry's word, by where the entry lies: what ARBITER_SERVE answers. -/
structure EntryServed (s : State) (b : Buffer) (st : Stage) (rest : List Stage) (x : Pass) (bad : Prop)
    (pos beforeWords handedWords : Nat) (past : Cursor) (hand : Part → Part) (p : Part) : Prop where
  locks : bad → Completes .arbiterServe s fun q =>
    Locked .badBlock (b.cursor st.list).addr s.part q
  beyond : ¬bad → b.passage.startPos ≤ pos → b.pastSpan st.list pos →
    Completes .arbiterServe s fun q => PassGoesOn x.bound rest
      (putBuffer st.ahead (b.withCursor st.list ((b.cursor st.list).finish pos)) p) q
  later : ¬bad → b.passage.startPos ≤ pos → ¬b.pastSpan st.list pos →
    x.bound < (pos : Int) + p.reader.offset st.ahead →
    Completes .arbiterServe s fun q => PassGoesOn x.bound rest p q
  beforeWaits : ¬bad → pos < b.passage.startPos → x.got.length < beforeWords →
    exec .arbiterServe s = .next { s with part := putPass (some x) p }
  before : ¬bad → pos < b.passage.startPos → beforeWords ≤ x.got.length →
    Completes .arbiterServe s fun q => PassGoesOn x.bound (st :: rest)
      (putBuffer st.ahead (b.withCursor st.list past) p) q
  handedWaits : ¬bad → b.passage.startPos ≤ pos → ¬b.pastSpan st.list pos →
    (pos : Int) + p.reader.offset st.ahead ≤ x.bound → x.got.length < handedWords →
    exec .arbiterServe s = .next { s with part := putPass (some x) p }
  handed : ¬bad → b.passage.startPos ≤ pos → ¬b.pastSpan st.list pos →
    (pos : Int) + p.reader.offset st.ahead ≤ x.bound → handedWords ≤ x.got.length →
    Completes .arbiterServe s fun q => PassGoesOn x.bound (st :: rest)
      (hand (putBuffer st.ahead (b.withCursor st.list past) p)) q

/-- The lock an entry out of order brings a playing Player (R34). -/
theorem badEntry_locked (addr : Nat) {p : Part} (hplay : p.playing = true) :
    Locked .badBlock addr p (badEntry addr p) := by
  rw [badEntry_locks addr hplay]
  exact Locked.of_held (r := putPass none p) rfl rfl rfl rfl (lockPlayer_locked _ _ _)

/-- The course of an entry is the one its fate gives. -/
theorem entryCourse_courseOf {b : Buffer} {st : Stage} {x : Pass} {wrong : Bool} {bad : Prop}
    {pos words beforeWords handedWords : Nat} {fate : EntryFate} {p : Part} (rest : List Stage)
    (past : Cursor) (hand : Part → Part) (hplay : p.playing = true)
    (hfate : fate = entryFate b st.list wrong pos (p.reader.offset st.ahead) x.bound)
    (hbad : bad ↔ b.disordered st.list pos ∨ wrong = true)
    (hbefore : fate = .before → words = beforeWords)
    (hhanded : fate = .handed → words = handedWords) :
    CourseOf b st rest x bad pos beforeWords handedWords past hand p
      (entryCourse b st rest x fate pos words past hand p) := by
  have hspec := entryFate_spec b st.list wrong pos (p.reader.offset st.ahead) x.bound
  rw [← hfate] at hspec
  constructor
  case locks =>
    intro h
    rw [hspec.bad (hbad.1 h)]
    exact badEntry_locked _ hplay
  case beyond =>
    intro h hS hN
    rw [hspec.beyond (mt hbad.2 h) hS hN]
    exact goOn_goes _ _ _
  case later =>
    intro h hS hN hbound
    rw [hspec.later (mt hbad.2 h) hS hN hbound]
    exact goOn_goes _ _ _
  case beforeWaits =>
    intro h hS hwords
    have hf := hspec.before (mt hbad.2 h) hS
    rw [hf]
    exact if_pos (hbefore hf ▸ hwords)
  case before =>
    intro h hS hwords
    have hf := hspec.before (mt hbad.2 h) hS
    rw [hf]
    unfold entryCourse
    dsimp only
    rw [if_neg (Nat.not_lt.2 (hbefore hf ▸ hwords))]
    exact goOn_goes _ _ _
  case handedWaits =>
    intro h hS hN hbound hwords
    have hf := hspec.handed (mt hbad.2 h) hS hN hbound
    rw [hf]
    exact if_pos (hhanded hf ▸ hwords)
  case handed =>
    intro h hS hN hbound hwords
    have hf := hspec.handed (mt hbad.2 h) hS hN hbound
    rw [hf]
    unfold entryCourse
    dsimp only
    rw [if_neg (Nat.not_lt.2 (hhanded hf ▸ hwords))]
    exact goOn_goes _ _ _

/-- The course of an entry is what the service of its word answers. -/
theorem CourseOf.served {s : State} {b : Buffer} {st : Stage} {rest : List Stage} {x : Pass}
    {bad : Prop} {pos beforeWords handedWords : Nat} {past : Cursor} {hand : Part → Part} {q : Part}
    (h : CourseOf b st rest x bad pos beforeWords handedWords past hand
      { s.part with arb := .planReader } q)
    (hexec : exec .arbiterServe s = .next { s with part := q }) :
    EntryServed s b st rest x bad pos beforeWords handedWords past hand
      { s.part with arb := .planReader } where
  locks h1 := completes_of_exec hexec
    (Locked.of_held (r := { s.part with arb := .planReader }) rfl rfl rfl rfl (h.locks h1))
  beyond h1 h2 h3 := completes_of_exec hexec (h.beyond h1 h2 h3)
  later h1 h2 h3 h4 := completes_of_exec hexec (h.later h1 h2 h3 h4)
  beforeWaits h1 h2 hw := h.beforeWaits h1 h2 hw ▸ hexec
  before h1 h2 hw := completes_of_exec hexec (h.before h1 h2 hw)
  handedWaits h1 h2 h3 h4 hw := h.handedWaits h1 h2 h3 h4 hw ▸ hexec
  handed h1 h2 h3 h4 hw := completes_of_exec hexec (h.handed h1 h2 h3 h4 hw)

theorem cueKind_hold (w : Word) : (cueKind w == .hold) = decide (w.toNat / 256 % 2 = 1) := by
  unfold cueKind
  split <;> simp_all

section
variable {b : Buffer} {ahead : Bool} {bad : Prop} {p : Part} (rest : List Stage) (x : Pass)
  (w0 w1 : Word) (more : List Word)

/-- The course of a note (R29). -/
theorem noteRead_courseOf (hplay : p.playing = true)
    (hbad : bad ↔ b.disordered .notes (entryPosition w0 w1)) :
    CourseOf b ⟨ahead, .notes⟩ rest { x with got := w0 :: w1 :: more } bad (entryPosition w0 w1) 2 3
      (b.notes.past 3 1 (entryPosition w0 w1) b.passage.noteCount)
      (handNote (makeNote p.setup b (p.reader.offset ahead) (entryPosition w0 w1) w1
        (more.getD 0 0))) p
      (entryRead b ⟨ahead, .notes⟩ rest { x with got := w0 :: w1 :: more } p) := by
  refine entryCourse_courseOf (wrong := false) rest _ _ hplay rfl (by simp [hbad]) (fun h => ?_)
    fun h => if_pos h
  exact if_neg (by rw [h]; decide)

/-- The course of a cue (R30): a HOLD cue takes four words and two places of its list. -/
theorem cueRead_courseOf (hplay : p.playing = true)
    (hbad : bad ↔ b.disordered .cues (entryPosition w0 w1) ∨ holdUnextended b w1 = true) :
    CourseOf b ⟨ahead, .cues⟩ rest { x with got := w0 :: w1 :: more } bad (entryPosition w0 w1)
      (if w1.toNat / 256 % 2 = 1 then 4 else 2) (if w1.toNat / 256 % 2 = 1 then 4 else 2)
      (b.cues.past (if w1.toNat / 256 % 2 = 1 then 4 else 2)
        (if w1.toNat / 256 % 2 = 1 then 2 else 1) (entryPosition w0 w1) b.passage.cueCount)
      (handCue (makeCue b (p.reader.offset ahead) (entryPosition w0 w1) w1 (more.getD 0 0)
        (more.getD 1 0))) p
      (entryRead b ⟨ahead, .cues⟩ rest { x with got := w0 :: w1 :: more } p) := by
  have hcourse := entryCourse_courseOf (st := ⟨ahead, .cues⟩)
    (x := { x with got := w0 :: w1 :: more }) rest
    (if cueKind w1 == .hold then b.cues.past 4 2 (entryPosition w0 w1) b.passage.cueCount
      else b.cues.past 2 1 (entryPosition w0 w1) b.passage.cueCount)
    (handCue (makeCue b (p.reader.offset ahead) (entryPosition w0 w1) w1 (more.getD 0 0)
      (more.getD 1 0))) hplay rfl hbad (words := if cueKind w1 == .hold then 4 else 2)
    (fun _ => rfl) fun _ => rfl
  have hread : entryRead b ⟨ahead, .cues⟩ rest { x with got := w0 :: w1 :: more } p
      = entryCourse b ⟨ahead, .cues⟩ rest { x with got := w0 :: w1 :: more } _ _ _ _ _ p := rfl
  rw [hread]
  by_cases hlong : w1.toNat / 256 % 2 = 1
  · have hhold : (cueKind w1 == .hold) = true := by rw [cueKind_hold, decide_eq_true hlong]
    rw [if_pos hlong, if_pos hlong]
    rw [hhold] at hcourse ⊢
    exact hcourse
  · have hhold : (cueKind w1 == .hold) = false := by rw [cueKind_hold, decide_eq_false hlong]
    rw [if_neg hlong, if_neg hlong]
    rw [hhold] at hcourse ⊢
    exact hcourse

/-- The course of a step (R31). -/
theorem stepRead_courseOf (hplay : p.playing = true)
    (hbad : bad ↔ b.disordered .steps (entryPosition w0 w1)
      ∨ stepOverruns b.steps.addr (stepStored w1) = true) :
    CourseOf b ⟨ahead, .steps⟩ rest { x with got := w0 :: w1 :: more } bad (entryPosition w0 w1) 2
      (2 + min (stepStored w1) 16)
      (b.steps.past (2 + stepStored w1) 1 (entryPosition w0 w1) b.passage.stepCount)
      (handRead b (p.reader.offset ahead) (entryPosition w0 w1) (stepStored w1) more) p
      (entryRead b ⟨ahead, .steps⟩ rest { x with got := w0 :: w1 :: more } p) := by
  refine entryCourse_courseOf rest _ _ hplay rfl hbad (fun h => ?_) fun h => if_pos h
  exact if_neg (by rw [h]; decide)

end

/-! ## What is handed (R29-R31, R131) -/

/-- A note is handed, or skipped with MAPPING. -/
theorem handNote_eq (x : Note) {p : Part} {window : List Note} (hwindow : p.sched.window = window) :
    handNote x p =
      if (if x.division = 3 then 31 else 60) < x.key ∨ x.outputs = [] then
        { p with attention := p.attention ||| 0x800 }
      else { p with sched := { p.sched with window := window ++ [x] } } := by
  have hmaps : noteUnmapped x = true
      ↔ (if x.division = 3 then 31 else 60) < x.key ∨ x.outputs = [] := by
    unfold noteUnmapped maxKey
    rw [Bool.or_eq_true, decide_eq_true_iff, List.isEmpty_iff]
  rw [← hwindow]
  unfold handNote
  by_cases h : noteUnmapped x = true
  · rw [if_pos h, if_pos (hmaps.1 h)]
    rfl
  · rw [if_neg h, if_neg (mt hmaps.2 h)]

theorem cueClass_eq (w : Word) : cueClass w =
    if w.toNat / 512 % 4 = 0 then .strong else if w.toNat / 512 % 4 = 1 then .normal else .weak := by
  unfold cueClass
  split
  case h_1 h => rw [if_pos h]
  case h_2 h => rw [if_neg (by omega), if_pos h]
  case h_3 h0 h1 => rw [if_neg h0, if_neg h1]

/-- A HOLD cue is bad where its list has no entry left for its extension (log 22). -/
theorem holdUnextended_iff (b : Buffer) (w : Word) : holdUnextended b w = true
    ↔ w.toNat / 256 % 2 = 1 ∧ b.passage.cueCount ≤ b.cues.index + 1 := by
  unfold holdUnextended
  rw [Bool.and_eq_true, cueKind_hold, decide_eq_true_iff, decide_eq_true_iff]

/-- The Cue List entry of a cue, field by field (R10, R30). -/
theorem makeCue_eq (b : Buffer) (d : Int) (pos : Nat) (w x0 x1 : Word) : makeCue b d pos w x0 x1 =
    { position := pos + d
      kind := if w.toNat / 256 % 2 = 1 then .hold else .attack
      cls := if w.toNat / 512 % 4 = 0 then .strong
        else if w.toNat / 512 % 4 = 1 then .normal else .weak
      hf := if w.toNat / 256 % 2 = 1 then x0.toNat % 1024 else 0
      maxHold := if w.toNat / 256 % 2 = 1 then max (x0.toNat / 1024 % 16) 1 else 0
      breath := if w.toNat / 256 % 2 = 1 then x1.toNat % 256 else 0
      planIndex := b.planIndex } := by
  unfold makeCue
  rw [← cueClass_eq, cueKind_hold]
  simp only [decide_eq_true_iff]
  rfl

/-- A cue is handed to the tail of the Cue List, the head is watched, and the closes past are taken (R80). -/
theorem handCue_taken (x : Cue) {p : Part} {cues : List Cue} {f : Follower}
    (hcues : p.sched.cues = cues) (hfollower : p.follower = f) : ∃ mid,
    mid = { p with
      sched := { p.sched with cues := cues ++ [x] }
      follower := { f with watched := mid.follower.watched } }
    ∧ WatchesHead mid ∧ ClosesTaken mid (handCue x p) := by
  subst hcues hfollower
  exact ⟨rewatch _, rfl, rewatch_watches _, takeCloses_taken _⟩

/-- A stop entry is kept for its stop number and its high byte, and then names its stop (R7, R11). -/
def stopKept (w : Word) : Bool := decide (w.toNat % 256 < 64) && decide (w.toNat / 256 < 2)

theorem stopEntry_eq (w : Word) : stopEntry w = if stopKept w then
    some { stop := Fin.ofNat 64 (w.toNat % 256), draw := w.toNat / 256 == 1 } else none := by
  unfold stopEntry stopKept
  exact if_congr (by rw [Bool.and_eq_true, decide_eq_true_iff, decide_eq_true_iff]) rfl rfl

/-- The kept stop entries of a step, in the order in which they are stored (R31). -/
theorem filterMap_stopEntry (l : List Word) :
    l.filterMap stopEntry = (l.filter stopKept).map fun w =>
      ({ stop := Fin.ofNat 64 (w.toNat % 256), draw := w.toNat / 256 == 1 } : StopEntry) := by
  induction l with
  | nil => rfl
  | cons w rest ih =>
    cases h : stopKept w
    · rw [List.filterMap_cons, stopEntry_eq, List.filter_cons_of_neg (by simp [h]), h]
      exact ih
    · rw [List.filterMap_cons, stopEntry_eq, List.filter_cons_of_pos h, h, List.map_cons, ← ih]
      rfl

/-- MAPPING is latched for a step of more than 16 stop entries, or with one that is dropped (R31). -/
theorem stepMaps_iff (stored : Nat) (l : List Word) :
    stepMaps stored l = true ↔ 16 < stored ∨ ∃ w ∈ l, stopKept w = false := by
  have hnone (w : Word) : (stopEntry w).isNone = true ↔ stopKept w = false := by
    rw [stopEntry_eq]
    cases stopKept w <;> simp
  unfold stepMaps
  rw [Bool.or_eq_true, decide_eq_true_iff, List.any_eq_true]
  exact or_congr_right (exists_congr fun w => and_congr_right fun _ => hnone w)

/-- A step read is handed with its kept stop entries, MAPPING latched for the rest; one with none is passed
over. -/
theorem handRead_eq (b : Buffer) (d : Int) (pos stored : Nat) (l : List Word) {p : Part}
    {steps : List Step} (hsteps : p.sched.steps = steps) : handRead b d pos stored l p =
      let kept := (l.filter stopKept).map fun w =>
        ({ stop := Fin.ofNat 64 (w.toNat % 256), draw := w.toNat / 256 == 1 } : StopEntry)
      let latched : Part := if 16 < stored ∨ ∃ w ∈ l, stopKept w = false then
        { p with attention := p.attention ||| 0x800 } else p
      if kept = [] then latched
      else { latched with sched := { latched.sched with steps := steps ++
        [{ position := pos + d, entries := kept, planIndex := b.planIndex
           holdAtEntry := b.passage.holdAtEntry }] } } := by
  have hlatch : latchIf (stepMaps stored l) .mapping p
      = if 16 < stored ∨ ∃ w ∈ l, stopKept w = false then
        { p with attention := p.attention ||| 0x800 } else p := by
    by_cases h : stepMaps stored l = true
    · rw [if_pos ((stepMaps_iff stored l).1 h), h]
      rfl
    · rw [if_neg (mt (stepMaps_iff stored l).2 h), Bool.eq_false_iff.2 h]
      rfl
  subst hsteps
  unfold handRead
  dsimp only
  rw [hlatch, filterMap_stopEntry]
  split
  case isTrue h => rw [if_pos (List.isEmpty_iff.1 h)]
  case isFalse h =>
    rw [if_neg (mt List.isEmpty_iff.2 h)]
    split <;> rfl

end Sys2Proof.Machine

open Sys2Proof Sys2Proof.Machine

/-- Settles O38: the timer asks for a pass; a word read joins those in hand, and with the position words in
hand the entry takes the course of its list. -/
theorem streamPassHandsWithinTheBound : Obligations.StreamPassHandsWithinTheBound := by
  refine ⟨fun s b e hb htimer he hplay => ?timer, fun s x st rest b hnext hline hpass hleft hstreams
    hplay => ?word⟩
  case timer => exact completes_of_exec (exec_streamPass hb htimer he hplay) (requestPass_asked _)
  case word =>
    have hexec := exec_arbiterServe_entry hnext hline hpass hleft hstreams
    have hnotes : ListKind.notes ≠ .cues ∧ ListKind.notes ≠ .steps := ⟨nofun, nofun⟩
    have hcues : ListKind.cues ≠ .notes ∧ ListKind.cues ≠ .steps := ⟨nofun, nofun⟩
    have hsteps : ListKind.steps ≠ .notes ∧ ListKind.steps ≠ .cues := ⟨nofun, nofun⟩
    have htwo (w0 w1 : Word) (more : List Word) : 2 ≤ (w0 :: w1 :: more).length := by simp
    obtain ⟨ahead, list⟩ := st
    cases list
    case notes =>
      intro p cur got served
      change exec .arbiterServe s
        = .next { s with part := entryRead b _ rest { x with got := got } served } at hexec
      clear_value got
      rcases got with _ | ⟨w0, _ | ⟨w1, more⟩⟩
      · exact ⟨fun _ => hexec, fun h => absurd h (by simp)⟩
      · exact ⟨fun _ => hexec, fun h => absurd h (by simp)⟩
      intro waits at_ pos hold stored d S N count bad beyond handed moved past
      have hbad : bad ↔ b.disordered .notes (entryPosition w0 w1) :=
        ⟨fun h => h.elim id fun h => h.elim (fun h => absurd h.1.1 hnotes.1)
          fun h => absurd h.1 hnotes.2, .inl⟩
      have hserved :=
        (noteRead_courseOf (ahead := ahead) (p := served) rest x w0 w1 more hplay hbad).served hexec
      refine ⟨fun h => absurd h (by simp), fun _ => ⟨hserved.locks, hserved.beyond, hserved.later,
        fun h1 h2 => ⟨fun h => absurd h.1 hnotes.1, fun _ => hserved.before h1 h2 (htwo w0 w1 more)⟩,
        fun ⟨h1, h2, h3, h4⟩ _ => ⟨hserved.handedWaits h1 h2 h3 h4, fun hw => ?_⟩,
        fun _ h => absurd h hnotes.1, fun _ h => absurd h hnotes.2⟩⟩
      have hgoes := hserved.handed h1 h2 h3 h4 hw
      rw [handNote_eq _ (congrArg Scheduler.window (putBuffer_sched _ _ served))] at hgoes
      exact hgoes
    case cues =>
      intro p cur got served
      change exec .arbiterServe s
        = .next { s with part := entryRead b _ rest { x with got := got } served } at hexec
      clear_value got
      rcases got with _ | ⟨w0, _ | ⟨w1, more⟩⟩
      · exact ⟨fun _ => hexec, fun h => absurd h (by simp)⟩
      · exact ⟨fun _ => hexec, fun h => absurd h (by simp)⟩
      intro waits at_ pos hold stored d S N count bad beyond handed moved past
      have hbad : bad ↔ b.disordered .cues (entryPosition w0 w1) ∨ holdUnextended b w1 = true := by
        rw [holdUnextended_iff]
        exact or_congr_right ⟨fun h => h.elim (fun h => ⟨h.1.2, h.2⟩) fun h => absurd h.1 hcues.2,
          fun h => .inl ⟨⟨rfl, h.1⟩, h.2⟩⟩
      have hserved :=
        (cueRead_courseOf (ahead := ahead) (p := served) rest x w0 w1 more hplay hbad).served hexec
      have hshort (h : hold) (hlen : (w0 :: w1 :: more).length < 4) :
          (w0 :: w1 :: more).length < if w1.toNat / 256 % 2 = 1 then 4 else 2 := by
        have hlong : w1.toNat / 256 % 2 = 1 := h.2
        rwa [if_pos hlong]
      have hwhole (h : ¬hold ∨ 4 ≤ (w0 :: w1 :: more).length) :
          (if w1.toNat / 256 % 2 = 1 then 4 else 2) ≤ (w0 :: w1 :: more).length := by
        split
        case isTrue hlong => exact h.resolve_left fun hn => hn ⟨rfl, hlong⟩
        case isFalse => exact htwo w0 w1 more
      refine ⟨fun h => absurd h (by simp), fun _ => ⟨hserved.locks, hserved.beyond, hserved.later,
        fun h1 h2 => ⟨fun h hw => hserved.beforeWaits h1 h2 (hshort h hw), fun hw => ?before⟩,
        fun _ h => absurd h hcues.1, fun ⟨h1, h2, h3, h4⟩ _ =>
          ⟨fun h hw => hserved.handedWaits h1 h2 h3 h4 (hshort h hw), fun hw => ?handed⟩,
        fun _ h => absurd h hcues.2⟩⟩
      case before =>
        have hplaces : (if ListKind.cues = .cues ∧ w1.toNat / 256 % 2 = 1 then 2 else 1)
            = if w1.toNat / 256 % 2 = 1 then 2 else 1 :=
          if_congr (and_iff_right rfl) rfl rfl
        have hgoes := hserved.before h1 h2 (hwhole hw)
        rw [← hplaces] at hgoes
        exact hgoes
      case handed =>
        obtain ⟨t, ht, hpending, hstore, hgoes⟩ := hserved.handed h1 h2 h3 h4 (hwhole hw)
        rw [makeCue_eq] at hgoes
        obtain ⟨mid, hmid, hwatches, hcloses⟩ := handCue_taken _
          (congrArg Scheduler.cues (putBuffer_sched _ _ served)) (show _ = served.follower by simp)
        exact ⟨t, ht, hpending, hstore, mid, _, hmid, hwatches, hcloses, hgoes⟩
    case steps =>
      intro p cur got served
      change exec .arbiterServe s
        = .next { s with part := entryRead b _ rest { x with got := got } served } at hexec
      clear_value got
      rcases got with _ | ⟨w0, _ | ⟨w1, more⟩⟩
      · exact ⟨fun _ => hexec, fun h => absurd h (by simp)⟩
      · exact ⟨fun _ => hexec, fun h => absurd h (by simp)⟩
      intro waits at_ pos hold stored d S N count bad beyond handed moved past
      have hbad : bad ↔ b.disordered .steps (entryPosition w0 w1)
          ∨ stepOverruns b.steps.addr (stepStored w1) = true := by
        unfold stepOverruns
        rw [decide_eq_true_iff]
        exact or_congr_right ⟨fun h => h.elim (fun h => absurd h.1.1 hsteps.2) fun h => h.2,
          fun h => .inr ⟨rfl, h⟩⟩
      have hserved :=
        (stepRead_courseOf (ahead := ahead) (p := served) rest x w0 w1 more hplay hbad).served hexec
      refine ⟨fun h => absurd h (by simp), fun _ => ⟨hserved.locks, hserved.beyond, hserved.later,
        fun h1 h2 => ⟨fun h => absurd h.1 hsteps.2, fun _ => hserved.before h1 h2 (htwo w0 w1 more)⟩,
        fun _ h => absurd h hsteps.1, fun _ h => absurd h hsteps.2,
        fun ⟨h1, h2, h3, h4⟩ _ => ⟨hserved.handedWaits h1 h2 h3 h4, fun hw => ?_⟩⟩⟩
      have hgoes := hserved.handed h1 h2 h3 h4 hw
      rw [handRead_eq _ _ _ _ _ (congrArg Scheduler.steps (putBuffer_sched _ _ served))] at hgoes
      exact hgoes
end

section
/-! SUPPORT. What leaves the Console Port and the arbiter's pointer alone: every judgement of a Transfer
write (R40), and every access but the console's as it is served (R39). -/

open Sys2Proof

namespace Sys2Proof.Machine

/-- The Console Port and the arbiter's pointer stand as they were. -/
def SamePort (p q : Part) : Prop := q.port = p.port ∧ q.arb = p.arb

theorem SamePort.refl (p : Part) : SamePort p p := ⟨rfl, rfl⟩

theorem SamePort.trans {p q r : Part} (h : SamePort p q) (k : SamePort q r) : SamePort p r :=
  ⟨k.1.trans h.1, k.2.trans h.2⟩

/-- A conditional step leaves the port where each course does. -/
theorem SamePort.cond {p a b : Part} (c : Prop) [Decidable c] (ha : SamePort p a)
    (hb : SamePort p b) : SamePort p (if c then a else b) := by
  split
  · exact ha
  · exact hb

/-! ## Releases, HALT and locks (R120, R121, R123) -/

theorem samePort_trigger (p : Part) : SamePort p (trigger p) := by simp [SamePort]

theorem samePort_moveTo (st : PlayerState) (p : Part) : SamePort p (moveTo st p) := by
  simp [SamePort]

theorem samePort_haltPlayer (p : Part) : SamePort p (haltPlayer p) := by
  unfold haltPlayer
  refine SamePort.cond _ ?_ (SamePort.refl p)
  simp [SamePort, generalRelease, keyGeneralRelease]

theorem samePort_lockPlayer (why : LockReason) (addr : Nat) (p : Part) :
    SamePort p (lockPlayer why addr p) := by
  simp [SamePort, lockPlayer, generalRelease, keyGeneralRelease]

theorem samePort_lockRequest (why : LockReason) (addr : Nat) (p : Part) :
    SamePort p (lockRequest why addr p) :=
  SamePort.cond _ (samePort_lockPlayer why addr p) (SamePort.refl p)

/-! ## TEST and magnet power (R178, R180) -/

theorem samePort_haltTest (p : Part) : SamePort p (haltTest p) := by
  unfold haltTest SamePort
  split
  · exact ⟨rfl, rfl⟩
  · simp only [finishTest_keeps]
    repeat' split
    all_goals simp

theorem samePort_powerLostTest (p : Part) : SamePort p (powerLostTest p) := by
  unfold powerLostTest SamePort
  split
  · exact ⟨rfl, rfl⟩
  · simp only [finishTest_keeps]
    split <;> simp

theorem samePort_powerOff (cause : PowerCause) (p : Part) : SamePort p (powerOff cause p) := by
  unfold powerOff
  refine SamePort.cond _ (SamePort.refl p) ?_
  have hoff : SamePort p (keyPowerOff { p with power := { on := false, cause := cause } }) :=
    ⟨rfl, rfl⟩
  have hrest := SamePort.cond (cause = .softReset) hoff
    ((hoff.trans (samePort_powerLostTest _)).trans (samePort_lockRequest .power 0 _))
  exact hrest.trans (by simp [SamePort])

/-! ## Transfer (R40) -/

theorem samePort_takeAction (p : Part) : SamePort p (takeAction p) :=
  SamePort.cond _ ⟨rfl, rfl⟩ ⟨rfl, rfl⟩

theorem samePort_haltSlot (p : Part) : SamePort p (haltSlot p) := by
  unfold haltSlot
  split
  · exact ⟨rfl, rfl⟩
  · exact samePort_haltTest p
  · exact SamePort.refl p

theorem samePort_haltAction (p : Part) : SamePort p (haltAction p) :=
  SamePort.trans (q := recordTransfer .accepted p) ⟨rfl, rfl⟩
    ((samePort_haltSlot _).trans (samePort_haltPlayer _))

theorem samePort_softResetSlot (p : Part) : SamePort p (softResetSlot p) := by
  unfold softResetSlot
  split <;> exact ⟨rfl, rfl⟩

theorem samePort_limitAfterTest (ended : Bool) (p : Part) : SamePort p (limitAfterTest ended p) :=
  SamePort.cond _ (by simp [SamePort]) (SamePort.refl p)

theorem samePort_softResetAction (p : Part) : SamePort p (softResetAction p) := by
  refine SamePort.trans (SamePort.trans (SamePort.trans ?_ (samePort_softResetSlot _))
    (samePort_powerOff .softReset _)) (samePort_limitAfterTest _ _)
  exact ⟨rfl, rfl⟩

/-- A Transfer write leaves the port and the pointer, however it is judged. -/
theorem samePort_transferWrite (w : Word) (p : Part) : SamePort p (transferWrite w p) := by
  unfold transferWrite
  split
  · exact samePort_takeAction p
  · exact samePort_haltAction p
  · exact samePort_softResetAction p
  · exact ⟨rfl, rfl⟩

/-! ## The completion test and the end of STARVED (R103, R104, R114) -/

theorem samePort_completion (p : Part) : SamePort p (completion p) := by
  unfold completion
  obtain ⟨next, line, hfin⟩ := completeFinishing_part p
  obtain ⟨current, timer, line', hcur⟩ := completeCurrent_part (completeFinishing p)
  have hdone : SamePort p (completeCurrent (completeFinishing p)) := by
    rw [hcur, hfin]
    exact ⟨rfl, rfl⟩
  refine SamePort.cond _ (hdone.trans ?_) hdone
  rw [endPlan_eq]
  exact SamePort.trans (q := planEnding _) ⟨rfl, rfl⟩ (samePort_moveTo _ _)

theorem samePort_keyOffLoop (sel : Note → Bool) (l : List Note) :
    ∀ (kept : List Note) (p : Part), SamePort p (keyOffLoop sel kept l p) := by
  induction l with
  | nil => exact fun _ p => SamePort.refl p
  | cons x rest ih =>
    intro kept p
    unfold keyOffLoop
    refine SamePort.cond _ ?_ (ih _ p)
    have hoff : SamePort p (putWindow (kept ++ rest) (keyOff x p)) := by simp [SamePort]
    exact (hoff.trans (samePort_completion _)).trans
      (SamePort.cond _ (ih kept _) (SamePort.refl _))

theorem samePort_keyOffs (sel : Note → Bool) (p : Part) : SamePort p (keyOffs sel p) :=
  samePort_keyOffLoop sel _ [] p

theorem samePort_enterDraining (why : EndReason) (p : Part) : SamePort p (enterDraining why p) := by
  rw [enterDraining_eq]
  have hbegun : SamePort p (drainBegun why p) := by simp [SamePort, drainBegun]
  exact hbegun.trans (samePort_completion _)

theorem samePort_endFound (p : Part) : SamePort p (endFound p) :=
  SamePort.cond _
    (SamePort.trans
      (q := { p with reader := { p.reader with phase := .endFound, lookTimer := none } })
      ⟨rfl, rfl⟩ ((samePort_keyOffs _ _).trans (samePort_enterDraining _ _)))
    ⟨rfl, rfl⟩

/-! ## Entries into passages and takes (R23, R98, R118) -/

theorem samePort_requestPass (p : Part) : SamePort p (requestPass p) := by simp [SamePort]

theorem samePort_goOn (bound : Int) (left : List Stage) (p : Part) :
    SamePort p (goOn bound left p) := by simp [SamePort]

theorem samePort_putBuffer (ahead : Bool) (b : Buffer) (p : Part) :
    SamePort p (putBuffer ahead b p) := by simp [SamePort]

theorem samePort_enterPassage (b : Buffer) (atStart : Bool) (tau : Int) (p : Part) :
    SamePort p (enterPassage b atStart tau p) := by
  unfold enterPassage
  dsimp only
  split <;> exact ⟨rfl, rfl⟩

theorem samePort_enterFollowing (b : Buffer) (tau : Int) (p : Part) :
    SamePort p (enterFollowing b tau p) :=
  SamePort.trans (q := { p with reader := { p.reader with next := passageLeft p } }) ⟨rfl, rfl⟩
    (samePort_enterPassage _ _ _ _)

theorem samePort_entryHold (n : Passage) (p : Part) : SamePort p (entryHold n p) := by
  unfold entryHold
  refine SamePort.cond _ ?_ (SamePort.refl p)
  simp [SamePort]

theorem samePort_afterEntry (n : Passage) (p : Part) : SamePort p (afterEntry n p) := by
  unfold afterEntry
  have htested : SamePort p (needTest p) := by simp [SamePort]
  refine (htested.trans (samePort_entryHold n _)).trans ?_
  simp [SamePort]

theorem samePort_headTaken (n : Passage) (p : Part) : SamePort p (headTaken n p) := by
  obtain ⟨report, hpart, -, -⟩ := headEntered_part n p
  have hentered : SamePort p (headEntered n p) := by
    rw [hpart]
    exact ⟨rfl, rfl⟩
  cases hpower : p.power.on with
  | true =>
    rw [headTaken_on n hpower]
    exact (hentered.trans (samePort_afterEntry n _)).trans ⟨rfl, rfl⟩
  | false =>
    rw [headTaken_off n hpower]
    exact (hentered.trans (samePort_lockRequest .power 0 _)).trans ⟨rfl, rfl⟩

theorem samePort_lateEntered (f : Buffer) (p : Part) : SamePort p (lateEntered f p) := by
  have hoff : SamePort p (keyOffEndNotes p) := samePort_keyOffs _ p
  unfold lateEntered
  generalize keyOffEndNotes p = k at hoff
  have hfree : SamePort p { k with
      follower := { k.follower with freeze := none }
      player := { k.player with starveTimer := none, state := .running } } := hoff
  exact (hfree.trans (samePort_enterFollowing f _ _)).trans (samePort_trigger _)

theorem samePort_lateTake (f : Buffer) (p : Part) : SamePort p (lateTake f p) := by
  rw [lateTake_eq]
  exact ((samePort_lateEntered f p).trans (samePort_completion _)).trans
    (samePort_afterEntry f.passage _)

theorem samePort_followingTaken (n : Passage) (p : Part) : SamePort p (followingTaken n p) := by
  unfold followingTaken
  split
  · exact SamePort.refl p
  · rename_i cur _
    have hheld : SamePort p (holdFollowing cur n p) := ⟨rfl, rfl⟩
    exact SamePort.cond _ (hheld.trans (samePort_lateTake _ _))
      (hheld.trans (samePort_requestPass _))

theorem samePort_takenCourse (t : Take) (p : Part) : SamePort p (takenCourse t p) :=
  SamePort.cond _ (samePort_headTaken _ p) (samePort_followingTaken _ p)

theorem samePort_refusedCourse (t : Take) (p : Part) : SamePort p (refusedCourse t p) := by
  have hlatched : SamePort p (latch .passage p) := ⟨rfl, rfl⟩
  have hstarted : SamePort p (startTaken (latch .passage p)) := ⟨rfl, rfl⟩
  exact SamePort.cond _
    ((hstarted.trans (samePort_lockPlayer .badPassage t.ptr _)).trans ⟨rfl, rfl⟩)
    (hlatched.trans (samePort_lockRequest .badPassage t.ptr _))

theorem samePort_exchange (t : Take) (mem : Memory) (p : Part) : SamePort p (exchange t mem p).2 := by
  have hover : SamePort p (takeOver (latchIf (t.structural && t.skipsBase) .mapping p)) := by
    simp [SamePort]
  unfold exchange
  dsimp only
  split
  · split
    · exact hover.trans (samePort_takenCourse t _)
    · exact hover.trans (samePort_refusedCourse t _)
  · exact hover.trans (SamePort.cond _ ⟨rfl, rfl⟩ (SamePort.refl _))

/-! ## The accesses of each requester (R39) -/

theorem samePort_lookNextRead (w : Word) {stamp : Nat → Part → Part} (p : Part)
    (hstamp : ∀ x, SamePort p (stamp x p)) : SamePort p (lookNextRead w stamp p) := by
  unfold lookNextRead
  split
  · exact SamePort.refl p
  · exact samePort_endFound p
  · exact samePort_lockRequest _ _ p
  · exact hstamp _

theorem samePort_copyWordServed (mem : Memory) (t : Take) (p : Part) :
    SamePort p (copyWordServed mem t p) := by
  unfold copyWordServed
  split <;> exact ⟨rfl, rfl⟩

theorem samePort_spentFinishing (p : Part) : SamePort p (spentFinishing p) := by
  unfold spentFinishing
  refine SamePort.cond _ ?_ ?_ <;> simp [SamePort]

theorem samePort_serveReader (a : ReaderAccess) (mem : Memory) (p : Part) :
    SamePort p (serveReader a mem p).2 := by
  cases a with
  | lookNext => exact samePort_lookNextRead _ p fun _ => ⟨rfl, rfl⟩
  | lookStamp x => exact SamePort.cond _ ⟨rfl, rfl⟩ (SamePort.refl p)
  | headStamp x => exact SamePort.cond _ ⟨rfl, rfl⟩ ⟨rfl, rfl⟩
  | copy =>
    unfold serveReader
    dsimp only
    split
    · exact samePort_copyWordServed mem _ p
    · exact SamePort.refl p
  | exchange =>
    unfold serveReader
    dsimp only
    split
    · exact samePort_exchange _ mem p
    · exact SamePort.refl p
  | spent x held =>
    have hlatched : SamePort p (latch .passage p) := ⟨rfl, rfl⟩
    exact SamePort.cond _ (hlatched.trans (samePort_spentFinishing _)) hlatched
  | abandon x => exact ⟨rfl, rfl⟩

theorem samePort_entryCourse (b : Buffer) (st : Stage) (rest : List Stage) (x : Pass)
    (fate : EntryFate) (pos words : Nat) (past : Cursor) {hand : Part → Part}
    (hhand : ∀ q, SamePort q (hand q)) (p : Part) :
    SamePort p (entryCourse b st rest x fate pos words past hand p) := by
  cases fate with
  | bad =>
    exact SamePort.trans (q := putPass none p) ⟨rfl, rfl⟩ (samePort_lockRequest _ _ _)
  | beyond => exact (samePort_putBuffer _ _ p).trans (samePort_goOn _ _ _)
  | later => exact samePort_goOn _ _ p
  | before =>
    exact SamePort.cond _ ⟨rfl, rfl⟩ ((samePort_putBuffer _ _ p).trans (samePort_goOn _ _ _))
  | handed =>
    exact SamePort.cond _ ⟨rfl, rfl⟩
      (((samePort_putBuffer _ _ p).trans (hhand _)).trans (samePort_goOn _ _ _))

theorem samePort_entryRead (b : Buffer) (st : Stage) (rest : List Stage) (x : Pass) (p : Part) :
    SamePort p (entryRead b st rest x p) := by
  unfold entryRead
  split
  · exact samePort_entryCourse _ _ _ _ _ _ _ _ (fun q => by simp [SamePort]) p
  · exact samePort_entryCourse _ _ _ _ _ _ _ _ (fun q => by simp [SamePort]) p
  · exact samePort_entryCourse _ _ _ _ _ _ _ _ (fun q => by simp [SamePort]) p
  · exact ⟨rfl, rfl⟩

theorem samePort_entryServed (mem : Memory) (p : Part) : SamePort p (entryServed mem p) := by
  unfold entryServed
  split
  · exact SamePort.refl p
  · split
    · exact samePort_goOn _ _ p
    · split
      · exact samePort_goOn _ _ p
      · exact samePort_entryRead _ _ _ _ p

theorem samePort_serveReport (a : Nat) (w : Word) (rest : List (Nat × Word)) (mem : Memory)
    (p : Part) : SamePort p (serveReport a w rest mem p).2 := by
  unfold serveReport
  dsimp only
  refine SamePort.cond _ ?_ ⟨rfl, rfl⟩
  simp [SamePort]

theorem samePort_setupInForce (p : Part) : SamePort p (setupInForce p) := by
  simp [SamePort, setupInForce]

theorem samePort_serveService (a : SvcAccess) (mem : Memory) (p : Part) :
    SamePort p (serveService a mem p).2 := by
  cases a with
  | readCode => exact SamePort.cond _ ⟨rfl, rfl⟩ (SamePort.cond _ ⟨rfl, rfl⟩ ⟨rfl, rfl⟩)
  | readArg i => exact SamePort.cond _ ⟨rfl, rfl⟩ ⟨rfl, rfl⟩
  | readBoards => exact SamePort.cond _ ⟨rfl, rfl⟩ ⟨rfl, rfl⟩
  | copyWord k =>
    unfold serveService setupWordRead
    dsimp only
    have hloaded (u : Setup) (b : Bool) : SamePort p (latchIf b .mapping { p with setup := u }) := by
      simp [SamePort]
    exact SamePort.cond _ ((hloaded _ _).trans ⟨rfl, rfl⟩)
      ((hloaded _ _).trans (samePort_setupInForce _))
  | faultWord1 r =>
    have hlatched : SamePort p (latchIf (!r.passed) .fault p) := by simp [SamePort]
    exact hlatched
  | _ => exact ⟨rfl, rfl⟩

end Sys2Proof.Machine
end

section
/-! SUPPORT. An access as the console presents it (R38), a Transfer write as it is judged (R40), and the
arbiter's turn (R39). -/

open Sys2Proof

namespace Sys2Proof.Machine

/-! ## Accesses presented (R38) -/

/-- An access that does not begin stands behind those that stand already. -/
theorem present_waits {a : PortAccess} {p : Part} (h : beginAccess a p = none) :
    present a p = { p with port := { p.port with waiting := p.port.waiting ++ [a] } } := by
  unfold present
  split
  case isTrue hopen =>
    rw [List.isEmpty_iff.1 hopen, drainPort, h]
    exact putPort_none [a] p
  case isFalse => exact putPort_none _ p

/-- An access presented behind one held on WAIT stands, whatever it is. -/
theorem present_behind (a : PortAccess) {p : Part} (h : p.port.waiting ≠ []) :
    present a p = { p with port := { p.port with waiting := p.port.waiting ++ [a] } } := by
  unfold present
  rw [if_neg (by simpa using h), putPort_none]

/-- An access that begins on a port on which none stands answers its words. -/
theorem present_begins {a : PortAccess} {p q : Part} (hopen : p.port.waiting = [])
    (hbegin : beginAccess a p = some q) : present a p = putPort (a.answer p) [] q := by
  rw [present_open hopen, drainPort, hbegin]
  rfl

/-- Clearing and a soft reset hold Transfer writes (R2, R46). -/
theorem holdsTransfer_iff (p : Part) :
    p.holdsTransfer = true ↔ p.clearing = true ∨ p.softReset = true := Bool.or_eq_true_iff

theorem present_transfer_held (w : Word) {p : Part} (hopen : p.port.waiting = [])
    (hheld : p.clearing = true ∨ p.softReset = true) :
    present (.transfer w) p = { p with port := { p.port with waiting := [.transfer w] } } := by
  have hwaits : beginAccess (.transfer w) p = none := if_pos ((holdsTransfer_iff p).2 hheld)
  rw [present_waits hwaits, hopen]
  rfl

/-- A Transfer write on an open port is judged at once, and none stands behind it (R40). -/
theorem present_transfer (w : Word) {p : Part} (hopen : p.portOpen) :
    present (.transfer w) p = transferWrite w p := by
  obtain ⟨hwaiting, hclearing, hsoft⟩ := hopen
  have hbegin : beginAccess (.transfer w) p = some (transferWrite w p) :=
    if_neg (by simp [holdsTransfer_iff, hclearing, hsoft])
  rw [present_begins hwaiting hbegin]
  exact putPort_same (by rw [(samePort_transferWrite w p).1, hwaiting])

/-! ## Transfer writes judged (R40) -/

/-- A TAKE that finds the slot busy (R40). -/
theorem transferWrite_busy {p : Part} (h : p.slot.phase ≠ .free) :
    transferWrite 0xB401 p
      = { p with lastTransfer := .busy, attention := p.attention ||| 2 } := by
  have hkind : transferKind 0xB401 = .take := rfl
  have hbusy : p.slotBusy = true := bne_iff_ne.2 h
  unfold transferWrite takeAction
  rw [hkind]
  dsimp only
  rw [hbusy]
  rfl

theorem transferWrite_halt (p : Part) : transferWrite 0xB402 p = haltAction p := rfl

theorem transferWrite_reset (p : Part) : transferWrite 0xB403 p = softResetAction p := rfl

/-- A word that R40 ignores is none of those with a meaning. -/
theorem ne_of_isBadTransfer {w v : Word} (h : isBadTransfer w = true)
    (hv : isBadTransfer v = false) : w ≠ v := by
  rintro rfl
  rw [hv] at h
  exact nomatch h

theorem transferKind_bad {w : Word} (h : isBadTransfer w = true) : transferKind w = .bad := by
  unfold transferKind
  rw [if_neg (ne_of_isBadTransfer h (v := 0xB401) rfl),
    if_neg (ne_of_isBadTransfer h (v := 0xB402) rfl),
    if_neg (ne_of_isBadTransfer h (v := 0xB403) rfl)]

theorem transferWrite_bad {w : Word} (h : isBadTransfer w = true) (p : Part) :
    transferWrite w p
      = { p with lastTransfer := .badKey, attention := p.attention ||| 2 } := by
  unfold transferWrite
  rw [transferKind_bad h]
  rfl

/-! ## The arbiter's turn (R39) -/

/-- The console waits with a store access at the head of its port, but not during clearing (R2). -/
theorem consoleWaits_iff (p : Part) : p.consoleWaits = true ↔ p.clearing = false
    ∧ ∃ rest, (∃ x, p.port.waiting = .read x :: rest)
      ∨ ∃ x v, p.port.waiting = .write x v :: rest := by
  unfold Part.consoleWaits
  rw [Bool.and_eq_true, Bool.not_eq_true']
  refine and_congr_right fun _ => ?_
  split
  case h_1 x rest hw => exact iff_of_true rfl ⟨rest, .inl ⟨x, hw⟩⟩
  case h_2 x v rest hw => exact iff_of_true rfl ⟨rest, .inr ⟨x, v, hw⟩⟩
  case h_3 hread hwrite =>
    refine iff_of_false (by decide) ?_
    rintro ⟨rest, ⟨x, hw⟩ | ⟨x, v, hw⟩⟩
    · exact hread x rest hw
    · exact hwrite x v rest hw

/-- The arbiter's next requester is the first that waits, in the cyclic order behind its pointer. -/
theorem nextRequester_of {p : Part} {r : Requester} {before after : List Requester}
    (horder : p.arb.following = before ++ r :: after) (hr : p.waits r = true)
    (hbefore : ∀ x ∈ before, p.waits x = false) : nextRequester p = some r :=
  List.find?_eq_some_iff_append.2
    ⟨hr, before, after, horder, fun x hx => by rw [hbefore x hx]; rfl⟩

/-- With no requester waiting there is no next one. -/
theorem nextRequester_none {p : Part} (h : ∀ r, p.waits r = false) : nextRequester p = none :=
  List.find?_eq_none.2 fun r _ => by simp [h r]

/-- An access of the console begins without moving the pointer. -/
theorem beginAccess_arb {a : PortAccess} {p q : Part} (h : beginAccess a p = some q) :
    q.arb = p.arb := by
  cases a with
  | read x => exact nomatch h
  | write x v => exact nomatch h
  | transfer w =>
    unfold beginAccess at h
    dsimp only at h
    split at h
    · exact nomatch h
    · obtain rfl := Option.some.inj h
      exact (samePort_transferWrite w p).2
  | transferRead | attention | partState b | ignored reg v =>
    obtain rfl := Option.some.inj h
    rfl

/-- The accesses behind a served one begin without moving the pointer. -/
theorem drainPort_arb (l : List PortAccess) : ∀ (answered : List Word) (p : Part),
    (drainPort answered l p).arb = p.arb := by
  induction l with
  | nil => exact fun _ _ => rfl
  | cons a rest ih =>
    intro answered p
    unfold drainPort
    split
    case h_1 hbegin => rw [ih, beginAccess_arb hbegin]
    case h_2 => rfl

/-- A service leaves the pointer at the requester served (R39). -/
theorem serveRequester_arb (r : Requester) (mem : Memory) (p : Part) :
    (serveRequester r mem p).2.arb = r := by
  unfold serveRequester
  cases r with
  | console =>
    dsimp only
    split
    case h_1 a rest _ =>
      cases a with
      | read x => exact drainPort_arb _ _ _
      | write x v => exact drainPort_arb _ _ _
      | _ => rfl
    case h_2 => rfl
  | planReader =>
    dsimp only
    split
    · exact (samePort_serveReader _ mem _).2
    · exact (samePort_entryServed mem _).2
  | reportWriter =>
    dsimp only
    split
    · exact (samePort_serveReport _ _ _ mem _).2
    · rfl
  | serviceUnit =>
    dsimp only
    split
    · exact (samePort_serveService _ mem _).2
    · rfl

end Sys2Proof.Machine

open Sys2Proof Sys2Proof.Machine

/-- Settles O9: neither access begins, so each stands behind what stands already. -/
theorem storeAccessWaitsForTheArbiter : Obligations.StoreAccessWaitsForTheArbiter := by
  intro s x v
  have hread : exec (.storeRead x) s = .next { s with part := present (.read x) s.part } := rfl
  have hwrite : exec (.storeWrite x v) s = .next { s with part := present (.write x v) s.part } := rfl
  rw [present_waits (by rfl)] at hread hwrite
  exact ⟨hread, hwrite, completes_of_exec hread (by simp [Part.wait])⟩

/-- Settles O12: the port judges an open TAKE by the slot's phase, and holds it otherwise. -/
theorem takeIsJudgedBySlotBusy : Obligations.TakeIsJudgedBySlotBusy := by
  intro s
  have htake : exec .take s = .next { s with part := present (.transfer 0xB401) s.part } := rfl
  refine ⟨fun hopen hfree => ?_, fun hopen hbusy => ?_, fun hwaiting hheld => ?_⟩
  · rw [htake, present_transfer _ hopen, transferWrite_take hfree]
  · rw [htake, present_transfer _ hopen, transferWrite_busy hbusy]
  · rw [htake, present_transfer_held _ hwaiting hheld]

/-- Settles O13: a bad word is no action, whether it is judged at once or held. -/
theorem badTransferIsIgnoredWithReject : Obligations.BadTransferIsIgnoredWithReject := by
  intro s w hbad
  have hwrite : exec (.badKey w) s = .next { s with part := present (.transfer w) s.part } := rfl
  refine ⟨fun hopen => ?_, fun hwaiting hheld => ?_⟩
  · rw [hwrite, present_transfer _ hopen, transferWrite_bad hbad]
  · rw [hwrite, present_transfer_held _ hwaiting hheld]

/-- Settles O14: both accesses begin whatever the part does, unless one stands before them. -/
theorem registerAccessesAreAnsweredAtOnce : Obligations.RegisterAccessesAreAnsweredAtOnce := by
  intro s reg v
  have hread : exec .attentionRead s = .next { s with part := present .attention s.part } := rfl
  have hwrite : exec (.registerWriteIgnored reg v) s
      = .next { s with part := present (.ignored reg v) s.part } := rfl
  refine ⟨fun hopen => ⟨?_, ?_⟩, fun hstands => ⟨?_, ?_⟩⟩
  · rw [hread, present_begins hopen rfl]
    rfl
  · rw [hwrite, present_begins hopen rfl]
    exact congrArg (fun q => Host.Outcome.next { s with part := q }) (putPort_same hopen)
  · rw [hread, present_behind _ hstands]
  · rw [hwrite, present_behind _ hstands]

/-- Settles O11: the next requester is the first of the cyclic order that waits, and its service leaves
the pointer at it. -/
theorem arbiterServesInCyclicOrder : Obligations.ArbiterServesInCyclicOrder := by
  intro s p order
  have horder : p.arb.following = order := by
    unfold order Requester.following
    cases p.arb <;> rfl
  refine ⟨consoleWaits_iff p, ?reader, ?report, ?service, ?serves, ?none⟩
  case reader => simp [Part.waits, Option.ne_none_iff_isSome]
  case report => simp [Part.waits]
  case service => simp [Part.waits]
  case serves =>
    intro before r after hsplit hr hbefore
    have hnext := nextRequester_of (horder.trans hsplit) hr hbefore
    refine ⟨hnext, completesStoring_of_exec (exec_arbiterServe s) ?_⟩
    rw [arbiterStep_of hnext]
    exact serveRequester_arb r s.store p
  case none =>
    intro hnone
    have hnext := nextRequester_none hnone
    refine ⟨hnext, ?_⟩
    rw [exec_arbiterServe]
    unfold arbiterStep
    rw [hnext]
    rfl
end

section
/-! SUPPORT. The end of a command in flight (R42, R43), the checks of each command at its owner (R42), and
the beginning and the end of a SETUP (R47, R50). -/

open Sys2Proof

namespace Sys2Proof.Machine

/-! ## The end of CLOSING (R43) -/

/-- CLOSING_COMPLETE with the write of the outcome code next serves that write. -/
theorem exec_closingComplete {s : State} {v : Word} {rest : List SvcAccess}
    (h : s.part.serviceNext (.writeCode v) rest) :
    exec .closingComplete s = exec .arbiterServe s := by
  have hnext : nextIsService s.part SvcAccess.outcomeCode = true := nextIsService_of h _
  rw [exec_arbiterServe, ← arbiterStepIf_of hnext]
  rfl

/-! ## The slot limit (R153) -/

/-- Putting an entry leaves the value the slot limit is lowered to. -/
theorem grantOne_slotTarget (n : OutputId) (p : Part) :
    (grantOne n p).keys.slotTarget = p.keys.slotTarget := by
  unfold grantOne
  dsimp only
  split
  · rfl
  · split
    · simp [maskGrant, setEntry]
    · rfl

theorem grantLoop_slotTarget (l : List OutputId) : ∀ p : Part,
    (grantLoop l p).keys.slotTarget = p.keys.slotTarget := by
  induction l with
  | nil => exact fun _ => rfl
  | cons n rest ih =>
    intro p
    unfold grantLoop
    split
    · rw [ih, grantOne_slotTarget]
    · rfl

/-- A new slot limit is the one aimed at, whatever its grants do. -/
theorem setSlotLimit_slotTarget (target : Nat) (p : Part) :
    (setSlotLimit target p).keys.slotTarget = target := grantLoop_slotTarget _ _

/-- A new slot limit and its grants reach the Key Table, the detectors and the Listening Unit. -/
theorem setSlotLimit_part (target : Nat) (p : Part) : setSlotLimit target p = { p with
    keys := (setSlotLimit target p).keys
    guard := (setSlotLimit target p).guard
    listen := (setSlotLimit target p).listen } := grants_part _

/-- With an empty Pull-in Queue a new slot limit grants nothing. -/
theorem setSlotLimit_empty (target : Nat) {p : Part} (h : p.keys.queue = []) :
    setSlotLimit target p = { p with keys := { p.keys with
      slotTarget := target
      slotLimit := max target (slotsInUse p.keys.entries) } } := grants_empty h

/-! ## The last word of the setup record (R50) -/

/-- Word 329 holds the ATTN enables, and with it the setup is in force. -/
theorem setupWordRead_last (w : Word) (p : Part) : setupWordRead 329 w p
    = setupInForce { p with setup := { p.setup with attnEnables := w &&& 0x0FFF } } := rfl

/-- SETUP_COPY_COMPLETE with the read of word 329 next serves that read. -/
theorem exec_setupCopyComplete {s : State} {rest : List SvcAccess}
    (h : s.part.serviceNext (.copyWord 329) rest) :
    exec .setupCopyComplete s = exec .arbiterServe s := by
  have hnext : nextIsService s.part SvcAccess.lastCopy = true := nextIsService_of h _
  rw [exec_arbiterServe, ← arbiterStepIf_of hnext]
  rfl

/-- The part as a setup comes into force, before its Pmax becomes the slot limit (R50, R54, R168). -/
def setupApplied (p : Part) : Part :=
  { p with
    setupLoaded := true
    attnEnables := p.setup.attnEnables
    supply := { p.supply with
      vhold := p.setup.vhold, vmin := p.setup.vmin, vcut := p.setup.vcut, vmax := p.setup.vmax } }

theorem setupInForce_eq (p : Part) :
    setupInForce p = (setSlotLimit p.setup.pmax (setupApplied p)).ended 1 0 := rfl

/-! ## The chain length (R161) -/

theorem setLength_same {c : Chain} {len : Nat} (h : c.length = some len) : c.setLength len = c :=
  if_pos h

theorem setLength_other {c : Chain} {len : Nat} (h : c.length ≠ some len) :
    c.setLength len = { c with
      length := some len, bad := 0, good := 0
      lastDrive := tabulate fun n =>
        if newlyPresent c.length len n then .off else entry c.lastDrive n } := if_neg h

theorem newlyPresent_iff (old : Option Nat) (len : Nat) (n : OutputId) :
    newlyPresent old len n = true ↔ 32 * old.getD 0 ≤ n.val ∧ n.val < 32 * len := by
  simp [newlyPresent]

/-! ## A command at its owner (R41, R42) -/

/-- The meaning of a command that stands with its owner. -/
theorem onPart_atOwner {s : State} {code : Nat} (h : s.part.atOwner code) (f : Part → Part) :
    s.onPart (fun p => whenDue (commandDue code p) f p) = .next { s with part := f s.part } := by
  rw [onPart_eq, whenDue_of (commandDue_of h)]

/-- The meaning of a command that stands with its owner and reads the store. -/
theorem onPartMem_atOwner {s : State} {code : Nat} (h : s.part.atOwner code)
    (f : Memory → Part → Part) :
    s.onPartMem (fun mem p => whenDue (commandDue code p) (f mem) p)
      = .next { s with part := f s.store s.part } := by
  rw [onPartMem_eq, whenDue_of (commandDue_of h)]

theorem exec_setup {s : State} (h : s.part.atOwner cmdSetup) :
    exec .setup s = .next { s with part := setupCommand s.store s.part } :=
  onPartMem_atOwner h setupCommand

/-! ## The checks of SETUP (R47) -/

theorem setupPointerOk_iff (a : Nat) : setupPointerOk a = true ↔ 0x240 ≤ a ∧ a ≤ 0x7EB6 := by
  simp [setupPointerOk]

theorem setupCommand_state {p : Part} (mem : Memory) (h : p.player.state ≠ .idle) :
    setupCommand mem p = p.ended 2 2 := if_pos h

theorem setupCommand_pointer {p : Part} (mem : Memory) (hidle : p.player.state = .idle)
    (h : (p.slot.arg 1).toNat < 0x240 ∨ 0x7EB6 < (p.slot.arg 1).toNat) :
    setupCommand mem p = p.ended 3 3 := by
  have hbad : setupPointerOk (p.slot.arg 1).toNat = false := by
    rw [← Bool.not_eq_true, setupPointerOk_iff]
    omega
  unfold setupCommand
  dsimp only
  rw [if_neg (not_not.2 hidle), hbad]
  rfl

/-- SETUP that passes the checks made before its boards word: the word is read at once, or its read asked
for once (log 7). -/
theorem setupCommand_boards {p : Part} (mem : Memory) (hidle : p.player.state = .idle)
    (hlow : 0x240 ≤ (p.slot.arg 1).toNat) (hhigh : (p.slot.arg 1).toNat ≤ 0x7EB6) :
    setupCommand mem p =
      if p.storeFree then
        boardsRead (mem.read (p.slot.arg 1).toNat) { p with arb := .serviceUnit }
      else if p.boardsAsked then p
      else { p with svcLine := p.svcLine ++ [.readBoards] } := by
  have hok := (setupPointerOk_iff (p.slot.arg 1).toNat).2 ⟨hlow, hhigh⟩
  unfold setupCommand
  dsimp only
  rw [if_neg (not_not.2 hidle), hok]
  rfl

theorem boardsAsked_iff (p : Part) : p.boardsAsked = true ↔ .readBoards ∈ p.svcLine := by
  simp [Part.boardsAsked]

/-- A boards word of 0 ends SETUP with BAD_ARG and BOARDS. -/
theorem boardsRead_zero (p : Part) : boardsRead 0 p = p.ended 3 4 := rfl

theorem boardsRead_some {w : Word} (h : w ≠ 0) (p : Part) :
    boardsRead w p = beginCopy (min w.toNat 8) p := by
  have hw : ¬w.toNat = 0 := fun hzero => h (BitVec.eq_of_toNat_eq hzero)
  exact if_neg hw

theorem serveService_readBoards (mem : Memory) (p : Part) :
    serveService .readBoards mem p = (mem, boardsRead (mem.read (p.slot.arg 1).toNat) p) := rfl

/-! ## The checks of START and TEST (R117, R179) -/

theorem testOutput_val (w : Word) : (testOutput w).val = min w.toNat 255 :=
  Nat.mod_eq_of_lt (by omega)

theorem startCommand_noSetup {p : Part} (mem : Memory) (h : p.setupLoaded = false) :
    startCommand mem p = p.ended 4 0 := if_pos (by rw [h]; rfl)

section
variable {p : Part} (hloaded : p.setupLoaded = true)
include hloaded

theorem startCommand_state (mem : Memory) (h : p.player.state ≠ .idle) :
    startCommand mem p = p.ended 2 2 := by
  unfold startCommand
  rw [hloaded]
  exact if_pos h

theorem startCommand_power (mem : Memory) (hidle : p.player.state = .idle)
    (h : p.power.on = false) : startCommand mem p = p.ended 5 10 := by
  unfold startCommand
  rw [hloaded, hidle, h]
  rfl

theorem startCommand_pointer (mem : Memory) (hidle : p.player.state = .idle)
    (hpower : p.power.on = true)
    (h : (p.slot.arg 1).toNat < 0x240 ∨ 0x7FFF < (p.slot.arg 1).toNat) :
    startCommand mem p = p.ended 3 3 := by
  have hbad : inConsoleSpace (p.slot.arg 1).toNat = false := by
    rw [← Bool.not_eq_true, inConsoleSpace_iff]
    omega
  unfold startCommand
  rw [hloaded, hidle, hpower]
  dsimp only
  rw [hbad]
  rfl

theorem testCommand_state (h : p.player.state ≠ .idle) : testCommand p = p.ended 2 2 := by
  unfold testCommand
  rw [hloaded]
  exact if_pos h

theorem testCommand_power (hidle : p.player.state = .idle) (h : p.power.on = false) :
    testCommand p = p.ended 5 10 := by
  unfold testCommand
  rw [hloaded, hidle, h]
  rfl

theorem testCommand_range (hidle : p.player.state = .idle) (hpower : p.power.on = true)
    (h : min (p.slot.arg 2).toNat 255 < min (p.slot.arg 1).toNat 255) :
    testCommand p = p.ended 3 5 := by
  have hrange : testOutput (p.slot.arg 2) < testOutput (p.slot.arg 1) := by
    rw [Fin.lt_def, testOutput_val, testOutput_val]
    exact h
  unfold testCommand
  rw [hloaded, hidle, hpower]
  exact if_pos hrange

end

theorem testCommand_noSetup {p : Part} (h : p.setupLoaded = false) : testCommand p = p.ended 4 0 :=
  if_pos (by rw [h]; rfl)

/-! ## The checks of STOP, HOLD, RESUME and NUDGE (R95, R111, R119) -/

theorem stopCommand_refused {p : Part}
    (h : p.player.state = .idle ∨ p.player.state = .draining ∨ p.player.state = .locked) :
    stopCommand p = p.ended 2 2 := by
  unfold stopCommand
  rcases h with h | h | h <;> rw [h] <;> rfl

theorem holdCommand_refused {p : Part} (hrun : p.player.state ≠ .running)
    (hheld : p.player.state ≠ .held) : holdCommand p = p.ended 2 2 := by
  unfold holdCommand
  split
  case h_1 heq => exact absurd heq hrun
  case h_2 heq => exact absurd heq hheld
  case h_3 => rfl

theorem resumeCommand_refused {p : Part} (h : p.player.state ≠ .held) :
    resumeCommand p = p.ended 2 2 := by
  unfold resumeCommand
  split
  case h_1 heq => exact absurd heq h
  case h_2 => rfl

theorem nudgeCommand_refused {p : Part} (hrun : p.player.state ≠ .running)
    (hheld : p.player.state ≠ .held) : nudgeCommand p = p.ended 2 2 := by
  unfold nudgeCommand
  split
  case h_1 heq => exact absurd heq hrun
  case h_2 heq => exact absurd heq hheld
  case h_3 => rfl

/-! ## The checks of POWER (R178) -/

theorem powerCommand_argument {p : Part} (h : 1 < (p.slot.arg 1).toNat) :
    powerCommand p = p.ended 3 11 := by
  unfold powerCommand
  split
  case h_1 heq => omega
  case h_2 heq => omega
  case h_3 => rfl

theorem powerCommand_on {p : Part} (h : (p.slot.arg 1).toNat = 1) :
    powerCommand p = powerOnCommand p := by
  unfold powerCommand
  split
  case h_1 => rfl
  case h_2 heq => omega
  case h_3 hone _ => exact absurd h hone

theorem powerOnCommand_noSetup {p : Part} (h : p.setupLoaded = false) :
    powerOnCommand p = p.ended 4 0 := if_pos (by rw [h]; rfl)

theorem powerOnCommand_chain {p : Part} (hloaded : p.setupLoaded = true)
    (h : p.chain.fault = true) : powerOnCommand p = p.ended 5 6 := by
  unfold powerOnCommand
  rw [hloaded, h]
  rfl

theorem inRange_iff (m : Supply) : m.inRange = true ↔ m.vcut ≤ m.vs ∧ m.vs ≤ m.vmax := by
  simp [Supply.inRange]

theorem powerOnCommand_supply {p : Part} (hloaded : p.setupLoaded = true)
    (hchain : p.chain.fault = false)
    (h : p.supply.vs < p.supply.vcut ∨ p.supply.vmax < p.supply.vs) :
    powerOnCommand p = p.ended 5 7 := by
  have hout : p.supply.inRange = false := by
    rw [← Bool.not_eq_true, inRange_iff]
    omega
  unfold powerOnCommand
  rw [hloaded, hchain, hout]
  rfl

end Sys2Proof.Machine

open Sys2Proof Sys2Proof.Machine

/-- Settles O21: each of the two writes puts its own word, and the second frees the slot. -/
theorem closingWritesDetailThenCode : Obligations.ClosingWritesDetailThenCode := by
  intro s v rest hs
  refine ⟨fun hnext => ?detail, fun hnext c hc => ?code⟩
  case detail =>
    exact completesStoring_of_exec (exec_arbiterServe_service hnext)
      ⟨wordWritten_write (a := 6) v hs (by decide), rfl⟩
  case code =>
    have hserve : exec c s = exec .arbiterServe s := by
      rcases List.mem_pair.1 hc with rfl | rfl
      · exact exec_closingComplete hnext
      · rfl
    exact completesStoring_of_exec (hserve.trans (exec_arbiterServe_service hnext))
      ⟨wordWritten_write (a := 5) v hs (by decide), rfl⟩

/-- Settles O22: each check is the first branch of its command's course that is taken. -/
theorem failedChecksEndTheCommandAlone : Obligations.FailedChecksEndTheCommandAlone := by
  intro s p ends a1
  refine ⟨fun h => ?setup, fun h => ?start, fun h hstate => ?stop, fun h hrun hheld => ?hold,
    fun h hheld => ?resume, fun h hrun hheld => ?nudge, fun h => ?power, fun h => ?test⟩
  case setup =>
    have hexec := exec_setup h
    refine ⟨fun hstate => ?_, fun hidle hptr => ?_, fun hidle hlow hhigh hzero hfree => ?_⟩
    · rwa [setupCommand_state _ hstate] at hexec
    · rwa [setupCommand_pointer _ hidle hptr] at hexec
    · rwa [setupCommand_boards _ hidle hlow hhigh, if_pos hfree, hzero, boardsRead_zero] at hexec
  case start =>
    have hexec : exec .start s = _ := onPartMem_atOwner h startCommand
    refine ⟨fun hload => ?_, fun hload hstate => ?_, fun hload hidle hoff => ?_,
      fun hload hidle hon hptr => ?_⟩
    · rwa [startCommand_noSetup _ hload] at hexec
    · rwa [startCommand_state hload _ hstate] at hexec
    · rwa [startCommand_power hload _ hidle hoff] at hexec
    · rwa [startCommand_pointer hload _ hidle hon hptr] at hexec
  case stop =>
    have hexec := exec_stop h
    rwa [stopCommand_refused hstate] at hexec
  case hold =>
    have hexec : exec .hold s = _ := onPart_atOwner h holdCommand
    rwa [holdCommand_refused hrun hheld] at hexec
  case resume =>
    have hexec : exec .resume s = _ := onPart_atOwner h resumeCommand
    rwa [resumeCommand_refused hheld] at hexec
  case nudge =>
    have hexec : exec .nudge s = _ := onPart_atOwner h nudgeCommand
    rwa [nudgeCommand_refused hrun hheld] at hexec
  case power =>
    have hexec : exec .power s = _ := onPart_atOwner h powerCommand
    refine ⟨fun harg => ?_, fun hon hload => ?_, fun hon hload hfault => ?_,
      fun hon hload hfault hrange => ?_⟩
    · rwa [powerCommand_argument harg] at hexec
    · rwa [powerCommand_on hon, powerOnCommand_noSetup hload] at hexec
    · rwa [powerCommand_on hon, powerOnCommand_chain hload hfault] at hexec
    · rwa [powerCommand_on hon, powerOnCommand_supply hload hfault hrange] at hexec
  case test =>
    have hexec : exec .test s = _ := onPart_atOwner h testCommand
    refine ⟨fun hload => ?_, fun hload hstate => ?_, fun hload hidle hoff => ?_,
      fun hload hidle hon hrange => ?_⟩
    · rwa [testCommand_noSetup hload] at hexec
    · rwa [testCommand_state hload hstate] at hexec
    · rwa [testCommand_power hload hidle hoff] at hexec
    · rwa [testCommand_range hload hidle hon hrange] at hexec

/-- Settles O23: the boards word, read at once or served, begins the copy. -/
theorem setupBeginsTheCopy : Obligations.SetupBeginsTheCopy := by
  intro s p a1 w len begins
  have hbegins (c : Instr) (line : List SvcAccess) (hw : w ≠ 0) (hexec : exec c s = .next { s with
      part := boardsRead w { p with arb := .serviceUnit, svcLine := line } }) : begins c line := by
    rw [boardsRead_some hw] at hexec
    refine completes_of_exec hexec ⟨rfl, fun n => entry_replicate MapEntry.unused n, ?same, ?other⟩
    case same => exact setLength_same
    case other =>
      intro hlen
      have hchain : (beginCopy len { p with arb := .serviceUnit, svcLine := line }).chain
          = p.chain.setLength len := rfl
      rw [hchain, setLength_other hlen]
      refine ⟨rfl, fun n => ?_⟩
      rw [entry_tabulate]
      exact if_congr (newlyPresent_iff _ _ _) rfl rfl
  refine ⟨fun howner hidle hlow hhigh => ?owner, fun rest hnext => ?served⟩
  case owner =>
    have hexec := exec_setup howner
    rw [setupCommand_boards _ hidle hlow hhigh] at hexec
    refine ⟨fun hfree hw => ?_, fun hbusy hasked => ?_, fun hbusy hasked => ?_⟩
    · rw [if_pos hfree] at hexec
      exact hbegins .setup p.svcLine hw hexec
    · rwa [if_neg (by simp [hbusy]), if_neg (by rwa [boardsAsked_iff])] at hexec
    · rwa [if_neg (by simp [hbusy]), if_pos ((boardsAsked_iff p).2 hasked)] at hexec
  case served =>
    have hexec := exec_arbiterServe_service hnext
    rw [serveService_readBoards] at hexec
    refine ⟨fun hw => hbegins .arbiterServe rest hw hexec, fun hw => ?_⟩
    have hzero : s.store.read (s.part.slot.arg 1).toNat = 0 := hw
    rw [hexec, hzero, boardsRead_zero]
    rfl

/-- Settles O25: the last word puts the setup in force, and its Pmax becomes the slot limit. -/
theorem setupCopyCompletes : Obligations.SetupCopyCompletes := by
  intro s rest hnext su enables c hc
  have hserve : exec c s = exec .arbiterServe s := by
    rcases List.mem_pair.1 hc with rfl | rfl
    · exact exec_setupCopyComplete hnext
    · rfl
  have hexec := hserve.trans (exec_arbiterServe_service hnext)
  rw [serveService_copyWord, setupWordRead_last, setupInForce_eq] at hexec
  refine completes_of_exec hexec ⟨?part, setSlotLimit_slotTarget _ _, fun hqueue => ?empty⟩
  case part =>
    rw [setSlotLimit_part]
    rfl
  case empty =>
    rw [setSlotLimit_empty _ (by exact hqueue)]
    exact ⟨rfl, rfl, rfl⟩
end

section
/-! SUPPORT. The general release and HALT while playing (R120, R121), and the two stages of a soft reset
(R46). -/

open Sys2Proof

namespace Sys2Proof.Machine

/-! ## The general release (R120, R159) -/

theorem keyGeneralRelease_queue (p : Part) : (keyGeneralRelease p).keys.queue = [] := by
  simp [keyGeneralRelease]

theorem keyGeneralRelease_entry (p : Part) (n : OutputId) :
    entry (keyGeneralRelease p).keys.entries n
      = releasedEntry (p.time + 1000 * settleTime p) (entry p.keys.entries n) := by
  simp [keyGeneralRelease]

/-- The general release reads the outputs as they stand, whatever becomes of the passages held. -/
theorem generalRelease_keys (p : Part) : (generalRelease p).keys
    = (keyGeneralRelease (emptyLists (abandonHeld p))).keys := by
  simp [generalRelease]

theorem generalRelease_queue (p : Part) : (generalRelease p).keys.queue = [] := by
  rw [generalRelease_keys, keyGeneralRelease_queue]

theorem generalRelease_entry (p : Part) (n : OutputId) :
    entry (generalRelease p).keys.entries n
      = releasedEntry (p.time + 1000 * settleTime p) (entry p.keys.entries n) := by
  rw [generalRelease_keys, keyGeneralRelease_entry]
  rfl

/-- Everything the general release does, but to the outputs. -/
theorem generalRelease_part (p : Part) : generalRelease p = { p with
    reader := (abandonHeld p).reader
    sched := { p.sched with window := [], cues := [], steps := [] }
    follower := { p.follower with state := .lead, watched := none, freeze := none }
    listen := { p.listen with queue := [], hold := HoldListening.inactive }
    player := { p.player with fermata := Fermata.init, starveTimer := none }
    keys := (generalRelease p).keys, guard := (generalRelease p).guard
    fresh := (generalRelease p).fresh } := by
  apply part_ext
  case h18 | h20 | h21 | h22 | h23 =>
    simp [generalRelease, keyGeneralRelease, emptyLists, stopHoldListening, flushOnsets, Follower.leave]
  all_goals simp [generalRelease, keyGeneralRelease]

/-! ## HALT (R45, R121) -/

theorem haltSlot_stands {p : Part} (hcopy : p.slot.phase ≠ .copying)
    (htest : p.slot.phase ≠ .testing) : haltSlot p = p := by
  unfold haltSlot
  split
  case h_1 heq => exact absurd heq hcopy
  case h_2 heq => exact absurd heq htest
  case h_3 => rfl

/-- Everything HALT does at a playing Player. -/
theorem haltPlayer_part {p : Part} (h : p.playing = true) : ∃ report, haltPlayer p = { p with
    reader := (abandonHeld p).reader
    sched := { p.sched with window := [], cues := [], steps := [] }
    follower := { p.follower with state := .lead, watched := none, freeze := none }
    listen := { p.listen with queue := [], hold := HoldListening.inactive }
    player := { p.player with
      state := .idle, endReason := .halted, fermata := Fermata.init, starveTimer := none }
    attention := p.attention ||| 0x400
    keys := (generalRelease p).keys, guard := (generalRelease p).guard
    fresh := (generalRelease p).fresh, report := report } := by
  have hcourse : haltPlayer p = moveTo .idle (latch .ended { generalRelease p with
      player := { (generalRelease p).player with endReason := .halted } }) := if_pos h
  rw [hcourse, moveTo_leaves (by decide), generalRelease_part]
  exact ⟨_, rfl⟩

/-! ## The first stage of a soft reset (R46) -/

/-- A soft reset at the slot reaches the slot, the Service Unit's line and, of a copy, the setup. -/
theorem softResetSlot_part (p : Part) : softResetSlot p = { p with
    slot := (softResetSlot p).slot
    svcLine := (softResetSlot p).svcLine
    setup := (softResetSlot p).setup } := by
  unfold softResetSlot
  split <;> rfl

theorem softResetSlot_stands {p : Part} (h : p.slot.phase = .free ∨ p.slot.phase = .closing) :
    softResetSlot p = p := by
  unfold softResetSlot
  rcases h with h | h <;> rw [h]

/-- The command in flight is stopped: its reads are not made, and it ends with ABORTED and NONE. -/
theorem softResetSlot_stops {p : Part} (hfree : p.slot.phase ≠ .free)
    (hclosing : p.slot.phase ≠ .closing) :
    (softResetSlot p).slot.phase = .closing
      ∧ (softResetSlot p).svcLine = (p.svcLine.filter fun a => !a.ofCommand)
        ++ [.writeDetail 0, .writeCode 6] := by
  unfold softResetSlot
  split
  case h_1 heq => exact absurd heq hfree
  case h_2 heq => exact absurd heq hclosing
  case h_3 => exact ⟨rfl, rfl⟩
  case h_4 => exact ⟨rfl, rfl⟩

/-- A soft reset's OFF (R158, R178): no lock, and no TEST ends by it. -/
theorem powerOff_softReset (p : Part) : ∃ keys guard attention,
    powerOff .softReset p = { p with
      power := if p.power.on then { on := false, cause := .softReset } else p.power
      keys := keys, guard := guard, attention := attention }
    ∧ guard.test = p.guard.test
    ∧ (p.power.on = true → keys.queue = [] ∧ ∀ n, (entry keys.entries n).state.atRest = true) := by
  cases hon : p.power.on with
  | false =>
    exact ⟨p.keys, p.guard, p.attention, powerOff_off .softReset hon, rfl, fun h => nomatch h⟩
  | true =>
    have hoff : powerOff .softReset p = latch .power
        (keyPowerOff { p with power := { on := false, cause := .softReset } }) := by
      unfold powerOff
      rw [hon]
      rfl
    refine ⟨_, _, _, hoff, rfl, fun _ => ⟨rfl, fun n => ?_⟩⟩
    show (entry (setAllEntries offAtPower _).keys.entries n).state.atRest = true
    rw [setAllEntries_entry]
    exact offAtPower_rest _

/-- The slot limit after a TEST that a soft reset has ended (R153, R180). -/
theorem limitAfterTest_part (ended : Bool) (p : Part) : ∃ keys guard listen,
    limitAfterTest ended p = { p with keys := keys, guard := guard, listen := listen }
    ∧ guard.test = p.guard.test
    ∧ (p.keys.queue = [] → keys.queue = [] ∧ keys.entries = p.keys.entries) := by
  cases ended with
  | false => exact ⟨_, _, _, rfl, rfl, fun h => ⟨h, rfl⟩⟩
  | true =>
    refine ⟨_, _, _, setSlotLimit_part p.setup.pmax p, grants_test _, fun h => ?_⟩
    rw [setSlotLimit_empty _ h]
    exact ⟨h, rfl⟩

/-- The part as the first stage of a soft reset begins: the passages held are let go and the command in
flight is stopped. -/
def softResetBegun (p : Part) : Part :=
  softResetSlot (abandonHeld { p with
    softReset := true, lastTransfer := .accepted, guard := { p.guard with test := none } })

theorem softResetBegun_part (p : Part) : softResetBegun p = { p with
    softReset := true, lastTransfer := .accepted, guard := { p.guard with test := none }
    reader := (abandonHeld p).reader
    slot := (softResetBegun p).slot
    svcLine := (softResetBegun p).svcLine
    setup := (softResetBegun p).setup } := softResetSlot_part _

/-- Everything the first stage does beside that: the OFF, and what it leaves of the outputs. -/
theorem softResetAction_part (p : Part) : ∃ keys guard attention listen,
    softResetAction p = { softResetBegun p with
      power := if p.power.on then { on := false, cause := .softReset } else p.power
      keys := keys, guard := guard, attention := attention, listen := listen }
    ∧ guard.test = none
    ∧ (p.power.on = true → keys.queue = [] ∧ ∀ n, (entry keys.entries n).state.atRest = true) := by
  have hpower : (softResetBegun p).power = p.power := by rw [softResetBegun_part]
  have htest : (softResetBegun p).guard.test = none := by rw [softResetBegun_part]
  obtain ⟨keys, guard, attention, hoff, hguard, hrest⟩ := powerOff_softReset (softResetBegun p)
  obtain ⟨keys', guard', listen, hlimit, hguard', hempty⟩ :=
    limitAfterTest_part p.guard.test.isSome (powerOff .softReset (softResetBegun p))
  have haction : softResetAction p
      = limitAfterTest p.guard.test.isSome (powerOff .softReset (softResetBegun p)) := rfl
  rw [hoff, hpower] at hlimit hguard' hempty
  rw [hpower] at hrest
  refine ⟨keys', guard', attention, listen, ?_, hguard'.trans (hguard.trans htest), fun hon => ?_⟩
  · rw [haction, hoff, hpower, hlimit]
  · obtain ⟨hqueue, hatRest⟩ := hrest hon
    obtain ⟨hqueue', hentries⟩ := hempty hqueue
    exact ⟨hqueue', by rw [hentries]; exact hatRest⟩

/-! ## The second stage of a soft reset (R46) -/

theorem exec_softResetSecondStage {s : State} (h : softResetReady s.part = true) :
    exec .softResetSecondStage s = .next { s with
      part := drainPort [] s.part.port.waiting (softResetPart s.part) } := by
  show s.onPart (fun p => whenDue (softResetReady p) softResetCourse p) = _
  rw [onPart_eq, whenDue_of h]
  rfl

/-- A port with nothing at its head but a store access stands as it is. -/
theorem drainPort_stands {l : List PortAccess} (answered : List Word) (p : Part)
    (h : l = [] ∨ (∃ x rest, l = .read x :: rest) ∨ ∃ x v rest, l = .write x v :: rest) :
    drainPort answered l p = putPort answered l p := by
  rcases h with rfl | ⟨x, rest, rfl⟩ | ⟨x, v, rest, rfl⟩ <;> rfl

/-- A Transfer word is one of the three with a meaning, or one that R40 ignores. -/
theorem transferWord_cases (w : Word) :
    w = 0xB401 ∨ w = 0xB402 ∨ w = 0xB403 ∨ isBadTransfer w = true := by
  by_cases hbad : isBadTransfer w = true
  · exact .inr (.inr (.inr hbad))
  · have hword : w.toNat = 0xB401 ∨ w.toNat = 0xB402 ∨ w.toNat = 0xB403 := by
      simp [isBadTransfer, transferKey, transferAction] at hbad
      omega
    rcases hword with h | h | h
    · exact .inl (BitVec.eq_of_toNat_eq h)
    · exact .inr (.inl (BitVec.eq_of_toNat_eq h))
    · exact .inr (.inr (.inl (BitVec.eq_of_toNat_eq h)))

/-- A HALT taken on the reset state finds nothing to stop. -/
theorem haltAction_softReset (p : Part) : haltAction (softResetPart p) = softResetPart p := rfl

/-- A RESET taken on the reset state begins the next soft reset, which finds nothing to stop either. -/
theorem softResetAction_softReset (p : Part) :
    softResetAction (softResetPart p) = { softResetPart p with softReset := true } := rfl

end Sys2Proof.Machine

open Sys2Proof Sys2Proof.Machine

/-- Settles O16: HALT passes the slot by and makes the general release. -/
theorem haltEndsThePlan : Obligations.HaltEndsThePlan := by
  intro s hopen hplay hphase
  have hexec : exec .halt s = .next { s with part := present (.transfer 0xB402) s.part } := rfl
  have hslot : haltSlot (recordTransfer .accepted s.part) = recordTransfer .accepted s.part := by
    have hphase' : s.part.slot.phase ≠ .copying ∧ s.part.slot.phase ≠ .testing := by
      rcases hphase with h | h | h | h <;> rw [h] <;> decide
    exact haltSlot_stands hphase'.1 hphase'.2
  obtain ⟨report, hpart⟩ := haltPlayer_part (p := recordTransfer .accepted s.part) hplay
  have hentry (n : OutputId) : entry (generalRelease _).keys.entries n
      = releasedEntry _ (entry s.part.keys.entries n) :=
    generalRelease_entry (recordTransfer .accepted s.part) n
  rw [present_transfer _ hopen, transferWrite_halt, haltAction, hslot, hpart] at hexec
  refine completes_of_exec hexec ⟨rfl, rfl, rfl, rfl, rfl, rfl, rfl, rfl, rfl, rfl, rfl, rfl, rfl, rfl,
    generalRelease_queue _, fun n => ?_, rfl, rfl, rfl, rfl, rfl, rfl, rfl, rfl, rfl⟩
  dsimp only
  rw [hentry n]
  unfold releasedEntry
  cases (entry s.part.keys.entries n).state with
  | off | disabled | waiting | pulse | settle => rfl
  | pull | hold => exact ⟨rfl, rfl⟩

/-- Settles O18: the passages are let go, the slot stopped, and the OFF made, in this order. -/
theorem softResetFirstStage : Obligations.SoftResetFirstStage := by
  intro s hopen
  have hexec : exec .softReset s = .next { s with part := present (.transfer 0xB403) s.part } := rfl
  obtain ⟨keys, guard, attention, listen, haction, htest, hrest⟩ := softResetAction_part s.part
  rw [present_transfer _ hopen, transferWrite_reset, haction, softResetBegun_part] at hexec
  refine completes_of_exec hexec ⟨rfl, rfl, rfl, rfl, rfl, rfl, rfl, rfl, htest, rfl, hrest,
    fun hphase => ?stands, fun hfree hclosing => ?stops⟩
  case stands =>
    have hbegun : softResetBegun s.part = abandonHeld _ := softResetSlot_stands hphase
    rw [hbegun]
    exact ⟨rfl, rfl⟩
  case stops => exact softResetSlot_stops hfree hclosing

/-- Settles O19: the reset state, and what stands on the port beginning on it. -/
theorem softResetSecondStage : Obligations.SoftResetSecondStage := by
  intro s hready p storeFirst blocks slotFree
  have hexec := exec_softResetSecondStage hready
  have hblocks (port : Port) (slot : Slot) (svcLine : List SvcAccess) (attention : Word)
      (softReset : Bool) (last : TransferResult) : blocks { softResetPart p with
        port := port, slot := slot, svcLine := svcLine, attention := attention
        softReset := softReset, lastTransfer := last } :=
    ⟨rfl, rfl, rfl, rfl, rfl, rfl, rfl, rfl, rfl, rfl, rfl, rfl, rfl, rfl, rfl, rfl, rfl, rfl, rfl,
      fun i => entry_replicate false i, rfl, rfl, rfl, rfl, rfl, rfl, fun c => entry_tabulate _ c, rfl,
      rfl⟩
  refine ⟨fun hfirst => ?alone, fun w rest hw hfirst => ?transfer⟩
  case alone =>
    have hsame : putPort [] p.port.waiting (softResetPart s.part) = softResetPart s.part :=
      putPort_same rfl
    rw [drainPort_stands _ _ hfirst, hsame] at hexec
    exact completes_of_exec hexec
      ⟨hblocks _ _ _ _ _ _, ⟨rfl, rfl⟩, rfl, rfl, rfl, rfl⟩
  case transfer =>
    rw [hw, drainPort_transfer [] w rest (by rfl), drainPort_stands _ _ hfirst, putPort_none] at hexec
    rcases transferWord_cases w with rfl | rfl | rfl | hbad
    · rw [transferWrite_take (by rfl)] at hexec
      exact completes_of_exec hexec ⟨hblocks _ _ _ _ _ _, rfl, fun _ => ⟨rfl, rfl, rfl, rfl, rfl⟩,
        fun h => absurd h (by decide), fun h => absurd h (by decide), fun h => absurd h (by decide)⟩
    · rw [transferWrite_halt, haltAction_softReset] at hexec
      exact completes_of_exec hexec ⟨hblocks _ _ _ _ _ _, rfl, fun h => absurd h (by decide),
        fun _ => ⟨⟨rfl, rfl⟩, rfl, rfl, rfl⟩, fun h => absurd h (by decide),
        fun h => absurd h (by decide)⟩
    · rw [transferWrite_reset, softResetAction_softReset] at hexec
      exact completes_of_exec hexec ⟨hblocks _ _ _ _ _ _, rfl, fun h => absurd h (by decide),
        fun h => absurd h (by decide), fun _ => ⟨⟨rfl, rfl⟩, rfl, rfl, rfl⟩,
        fun h => absurd h (by decide)⟩
    · rw [transferWrite_bad hbad] at hexec
      exact completes_of_exec hexec ⟨hblocks _ _ _ _ _ _, rfl,
        fun h => absurd h (ne_of_isBadTransfer hbad rfl),
        fun h => absurd h (ne_of_isBadTransfer hbad rfl),
        fun h => absurd h (ne_of_isBadTransfer hbad rfl),
        fun _ => ⟨⟨rfl, rfl⟩, BitVec.zero_or, rfl, rfl⟩⟩
end

section
/-! SUPPORT. HOLD (R110, R111), a sample through its channel's filter (R58), and the Mask List's part in a
grant (R66-R69, R152). -/

open Sys2Proof

namespace Sys2Proof.Machine

/-! ## HOLD (R111) -/

/-- Everything HOLD does in RUNNING, but for its outcome. -/
theorem holdPlayer_part (p : Part) : holdPlayer p = { p with
    player := { p.player with
      state := .held
      fermata := { p.player.fermata with
        phase := if p.player.fermata.phase = .holding then .deferred else p.player.fermata.phase } }
    follower := { p.follower with freeze := some p.position }
    listen := { p.listen with queue := [], hold := HoldListening.inactive }
    report := (holdPlayer p).report } := moveTo_leaves (by decide) _

/-- HOLD in HELD ends with OK and does nothing else (R111). -/
theorem exec_hold_held {s : State} (howner : s.part.atOwner cmdHold)
    (hheld : s.part.player.state = .held) :
    exec .hold s = .next { s with part := commandOk s.part } := by
  have hcourse : holdCommand s.part = commandOk s.part := by
    unfold holdCommand
    rw [hheld]
  rw [← hcourse]
  exact onPart_atOwner howner holdCommand

/-! ## I2S words (R58) -/

/-- A word within its width, read as a signed number of that width. -/
theorem toInt_ofNat_of_lt {width word : Nat} (h : word < 2 ^ width) :
    (BitVec.ofNat width word).toInt
      = if 2 * word < 2 ^ width then (word : Int) else (word : Int) - (2 : Int) ^ width := by
  rw [BitVec.toInt_eq_toNat_cond, BitVec.toNat_ofNat, Nat.mod_eq_of_lt h]
  norm_cast

/-- A word of at most 24 bits is aligned at the most significant end. -/
theorem sampleValue_narrow {width word : Nat} (h : width ≤ 24) (hword : word < 2 ^ width) :
    sampleValue width word = (BitVec.ofNat width word).toInt * 2 ^ (24 - width) := by
  obtain ⟨k, hk⟩ := Nat.exists_eq_add_of_le h
  have hshift : 24 - width = k := by omega
  have hwhole : 2 ^ 24 = 2 ^ width * 2 ^ k := by rw [hk, pow_add]
  have hpos : 0 < 2 ^ k := Nat.two_pow_pos k
  have hval : sampleValue width word = (BitVec.ofNat 24 (word * 2 ^ k)).toInt := by
    unfold sampleValue
    split
    next h24 =>
      obtain rfl : k = 0 := by omega
      obtain rfl : width = 24 := by omega
      simp
    next => rw [hshift]
  have hlt : word * 2 ^ k < 2 ^ 24 := hwhole ▸ Nat.mul_lt_mul_of_pos_right hword hpos
  have hsign : 2 * (word * 2 ^ k) < 2 ^ 24 ↔ 2 * word < 2 ^ width := by
    rw [hwhole, ← mul_assoc]
    exact Nat.mul_lt_mul_right hpos
  rw [hval, toInt_ofNat_of_lt hlt, toInt_ofNat_of_lt hword, hshift, if_congr hsign rfl rfl]
  have hwholeInt : (2 : Int) ^ 24 = 2 ^ width * 2 ^ k := by rw [hk, pow_add]
  split
  · push_cast; rfl
  · rw [hwholeInt, sub_mul]; push_cast; rfl

/-- A word of more than 24 bits is cut to its upper 24 bits. -/
theorem sampleValue_wide {width word : Nat} (h : 24 < width) (hword : word < 2 ^ width) :
    sampleValue width word = (BitVec.ofNat width word).toInt / 2 ^ (width - 24) := by
  obtain ⟨k, hk⟩ := Nat.exists_eq_add_of_le h.le
  have hshift : width - 24 = k := by omega
  have hwhole : 2 ^ width = 2 ^ 24 * 2 ^ k := by rw [hk, pow_add]
  have hpos : 0 < 2 ^ k := Nat.two_pow_pos k
  have hval : sampleValue width word = (BitVec.ofNat 24 (word / 2 ^ k)).toInt := by
    unfold sampleValue
    rw [if_pos h.le, hshift]
  have hlt : word / 2 ^ k < 2 ^ 24 := (Nat.div_lt_iff_lt_mul hpos).2 (hwhole ▸ hword)
  have hsign : 2 * (word / 2 ^ k) < 2 ^ 24 ↔ 2 * word < 2 ^ width := by
    have hhalf : word / 2 ^ k < 2 ^ 23 ↔ word < 2 ^ 23 * 2 ^ k := Nat.div_lt_iff_lt_mul hpos
    omega
  have hwholeInt : (2 : Int) ^ width = 2 ^ 24 * 2 ^ k := by rw [hk, pow_add]
  have hne : (2 : Int) ^ k ≠ 0 := by positivity
  rw [hval, toInt_ofNat_of_lt hlt, toInt_ofNat_of_lt hword, hshift, if_congr hsign rfl rfl]
  split
  · push_cast; rfl
  · rw [hwholeInt, Int.sub_mul_ediv_right _ _ hne]; push_cast; rfl

/-- AUDIO_SAMPLE runs the filter from the end of reset onward (R58). -/
theorem exec_audioSample {s : State} (h : s.part.clearing = false) (c : ChannelId)
    (width word : Nat) :
    exec (.audioSample c width word) s = .next { s with part := audioStep c width word s.part } := by
  show s.onPart (fun p => whenDue (!p.clearing) (audioStep c width word) p) = _
  rw [onPart_eq, whenDue_of (by rw [h]; rfl)]

/-- AUDIO_SAMPLE while the store is cleared runs no filter (R58). -/
theorem exec_audioSample_clearing {s : State} (h : s.part.clearing = true) (c : ChannelId)
    (width word : Nat) : exec (.audioSample c width word) s = .next s := by
  show s.onPart (fun p => whenDue (!p.clearing) (audioStep c width word) p) = _
  rw [onPart_eq, whenDue_of_not (by rw [h]; rfl)]

/-! ## The Mask List (R67-R69) -/

/-- The Mask List takes its first window. -/
theorem addWindow_first (w : MaskWindow) : addWindow w [] = ([w], w) := rfl

/-- A window that overlaps or touches the newest one extends it (R68). -/
theorem addWindow_extends {w newest : MaskWindow} (older : List MaskWindow)
    (h : w.start ≤ newest.stop ∧ newest.start ≤ w.stop) :
    addWindow w (older ++ [newest])
      = (older ++ [{ start := min w.start newest.start, stop := max w.stop newest.stop }],
        { start := min w.start newest.start, stop := max w.stop newest.stop }) := by
  have hmeets : w.meets newest = true := by simp [MaskWindow.meets, h]
  simp [addWindow, hmeets]

/-- A window clear of the newest one is added after it, the oldest of 32 removed first (R68). -/
theorem addWindow_apart {w newest : MaskWindow} (older : List MaskWindow)
    (h : ¬(w.start ≤ newest.stop ∧ newest.start ≤ w.stop)) :
    addWindow w (older ++ [newest]) = ((if 32 ≤ (older ++ [newest]).length
      then (older ++ [newest]).drop 1 else older ++ [newest]) ++ [w], w) := by
  have hmeets : w.meets newest = false :=
    Bool.eq_false_iff.2 fun hm => h (by simpa [MaskWindow.meets] using hm)
  unfold addWindow
  dsimp only
  rw [List.getLast?_concat]
  dsimp only
  rw [hmeets]
  rfl

/-- What a KEY grant makes of the Mask List and the Onset Queue, once the list with its window is known. -/
theorem maskGrant_of {d : Division} {key : Nat} {p : Part} {masks : List MaskWindow} {w : MaskWindow}
    (h : addWindow (grantWindow p.setup d key p.now) p.listen.masks = (masks, w)) :
    maskGrant d key p = { p with listen := { p.listen with
      masks := masks
      queue := p.listen.queue.map fun o => { o with masked := o.masked || w.covers o.time } } } := by
  unfold maskGrant
  rw [h]

/-- A KEY grant hears nothing but the setup, the clock and the Listening Unit itself. -/
theorem maskGrant_listen {p q : Part} (d : Division) (key : Nat) (hlisten : q.listen = p.listen)
    (hsetup : q.setup = p.setup) (hclock : q.clock = p.clock) :
    (maskGrant d key q).listen = (maskGrant d key p).listen := by
  unfold maskGrant Part.now
  rw [hlisten, hsetup, hclock]

/-- Where no window has expired there is none to remove. -/
theorem expireMasks_none {p : Part} (h : maskDue p = false) : expireMasks p = p := by
  have hkept : p.listen.masks.filter (fun w => decide (p.now ≤ w.stop)) = p.listen.masks :=
    List.filter_eq_self.2 fun w hw => by simpa using List.any_eq_false.1 h w hw
  unfold expireMasks
  rw [hkept]

/-- MASK_EXPIRY removes the windows whose end the clock has passed (R69). -/
theorem exec_maskExpiry (s : State) :
    exec .maskExpiry s = .next { s with part := expireMasks s.part } := by
  show s.onPart (fun p => whenDue (maskDue p) expireMasks p) = _
  rw [onPart_eq]
  cases hdue : maskDue s.part with
  | true => rw [whenDue_of rfl]
  | false => rw [whenDue_of_not rfl, expireMasks_none hdue]

/-! ## A claim granted at once (R152) -/

/-- The part with a request waiting alone in the Pull-in Queue. -/
theorem joinQueue_alone {p : Part} (h : p.keys.queue = []) (n : OutputId) (kind : OutputKind)
    (count : Nat) :
    let q := setEntry n
      { state := .waiting, count := count, kind := kind, timer := none, coolOff := false } p
    joinQueue n kind count p = { q with keys := { q.keys with queue := [n] } } := by
  unfold joinQueue
  rw [h]
  simp [h, Config.pullQueueSize]

/-- A request alone in the queue is granted where a setup is in force and a slot free (R152). -/
theorem grants_single {p : Part} {n : OutputId} (hqueue : p.keys.queue = [n])
    (hloaded : p.setupLoaded = true) (hslot : slotsInUse p.keys.entries < p.keys.slotLimit) :
    grants p = grantOne n p := by
  unfold grants
  rw [hqueue]
  unfold grantLoop
  rw [hloaded, decide_eq_true hslot]
  rfl

/-- The grant of a request of kind KEY makes the mask window of its key (R67, R152). -/
theorem grantOne_listen {p : Part} {n : OutputId} {d : Division} {key : Nat}
    (hkind : (entry p.keys.entries n).kind ≠ .stop)
    (hmap : entry p.setup.outputMap n = .key d key) :
    (grantOne n p).listen = (maskGrant d key p).listen := by
  unfold grantOne
  dsimp only
  rw [if_neg hkind, hmap]
  rfl

/-- A claim on an OFF output with magnet power ON asks for a grant (R148). -/
theorem claim_off {p : Part} {n : OutputId} (hoff : (entry p.keys.entries n).state = .off)
    (hpower : p.power.on = true) : (claim n p).1 = grants (joinQueue n .key 1 p) := by
  unfold claim
  dsimp only
  rw [hoff, hpower]
  rfl

/-- A claim granted at once makes the mask window of its key (R67, R152). -/
theorem claim_listen {p : Part} {n : OutputId} {d : Division} {key : Nat}
    (hmap : entry p.setup.outputMap n = .key d key) (hloaded : p.setupLoaded = true)
    (hpower : p.power.on = true) (hoff : (entry p.keys.entries n).state = .off)
    (hqueue : p.keys.queue = []) (hslot : slotsInUse p.keys.entries < p.keys.slotLimit) :
    (claim n p).1.listen = (maskGrant d key p).listen := by
  rw [claim_off hoff hpower, joinQueue_alone hqueue]
  have hlimit (e : KeyEntry) : (setEntry n e p).keys.slotLimit = p.keys.slotLimit :=
    setEntry_slotLimit (by rw [hoff]; rfl)
  have hslots (e : KeyEntry) (he : e.state = .waiting) :
      slotsInUse (setEntry n e p).keys.entries = slotsInUse p.keys.entries :=
    slotsInUse_put (by rw [he, hoff]; rfl)
  rw [grants_single rfl (by exact hloaded) (by rw [hslots _ rfl, hlimit]; exact hslot),
    grantOne_listen (by simp) (by exact hmap)]
  exact maskGrant_listen d key rfl rfl rfl

end Sys2Proof.Machine

open Sys2Proof Sys2Proof.Machine

/-- Settles O28: the Player leaves RUNNING with the position frozen where it stood. -/
theorem holdFreezesThePosition : Obligations.HoldFreezesThePosition := by
  intro s howner p
  refine ⟨fun hrun => ?_, fun hheld => exec_hold_held howner hheld⟩
  have hexec := exec_hold howner hrun
  rw [holdPlayer_part] at hexec
  exact completes_of_exec hexec ⟨rfl, rfl⟩

/-- Settles O42: the word is aligned or cut by its width, and one channel's filter takes the sample. -/
theorem samplePassesItsFilter : Obligations.SamplePassesItsFilter := by
  intro s c width word _ hword p f signed x y
  have hx : sampleValue width word = x := by
    by_cases h : width ≤ 24
    · exact (sampleValue_narrow h hword).trans (if_pos h).symm
    · exact (sampleValue_wide (by omega) hword).trans (if_neg h).symm
  have hfilter : f.sample (sampleValue width word)
      = { prevIn := x, prevOut := y, samples := f.samples ++ [y] } := by rw [hx]; rfl
  refine ⟨fun hrun => completes_of_exec (exec_audioSample hrun c width word)
    ⟨rfl, ?_, fun d hd => entry_put_other _ c d _ hd⟩,
    fun hclearing => exec_audioSample_clearing hclearing c width word⟩
  exact (entry_put_same _ c _).trans hfilter

/-- Settles O44: the course of the list decides the window as it then stands, and a grant to a KEY marks
the queue by it. -/
theorem maskWindowsExpire : Obligations.MaskWindowsExpire := by
  refine ⟨exec_maskExpiry, fun p d key => ?_⟩
  intro l m new marked after
  have hafter {masks : List MaskWindow} {w : MaskWindow} (h : addWindow new l.masks = (masks, w)) :
      after masks w := maskGrant_of h
  refine ⟨fun hnone => hafter (by rw [hnone, addWindow_first]), fun older newest hmasks =>
    ⟨fun hmeets => hafter (by rw [hmasks, addWindow_extends older hmeets]), fun happart => ?_⟩,
    fun n hmap hloaded hpower hoff hqueue hslot =>
      claim_listen hmap hloaded hpower hoff hqueue hslot⟩
  have hadd := addWindow_apart older happart
  rw [← hmasks] at hadd
  refine ⟨fun hroom => hafter ?_, fun hfull => hafter ?_⟩
  · rw [hadd, if_neg (by omega)]
  · rw [hadd, if_pos hfull]
end

section
/-! SUPPORT. A frame end (R58-R64, R71): the frame's energies, the floors and onsets channel by channel, the
place of an onset in the queue, and hold listening. -/

open Sys2Proof

namespace Sys2Proof.Machine

/-! ## Energies (R59, R71) -/

/-- Energy of a frame (R59): a square is taken of the magnitude. -/
theorem frameEnergy_eq (samples : List Int) : frameEnergy samples
    = (samples.map fun y : Int => (y / 256).natAbs * (y / 256).natAbs).sum / 256 := by
  have hsquare (y : Int) : (y * y).toNat = y.natAbs * y.natAbs := by
    rw [← Int.natAbs_mul_self (a := y), Int.toNat_natCast]
  unfold frameEnergy
  rw [List.sum_eq_foldl, List.foldl_map]
  simp only [hsquare]

/-- The energy of a channel's frame is that of its first 240 outputs (R58, R59). -/
theorem entry_frameEnergies (l : Listening) (c : ChannelId) : entry (frameEnergies l) c
    = (((entry l.filters c).samples.take 240).map
        fun y : Int => (y / 256).natAbs * (y / 256).natAbs).sum / 256 := by
  unfold frameEnergies
  rw [entry_tabulate, frameEnergy_eq]
  rfl

/-! ## Onsets and floors (R60, R61) -/

theorem onsetTest_iff (su : Setup) (fl : Floor) (e : Nat) (t : Int) : onsetTest su fl e t = true ↔
    fl.resetPending = false ∧ fl.refractoryEnd ≤ t ∧ su.emin ≤ e ∧ fl.level * su.ratio ≤ e * 16 := by
  simp [onsetTest, and_assoc]

/-- A floor whose mark is set takes the energy (R60). -/
theorem floorStep_marked {fl : Floor} (h : fl.resetPending = true) (su : Setup) (e : Nat) (t : Int) :
    floorStep su fl e t = { fl with level := max e 1, resetPending := false } := if_pos h

/-- A floor whose mark is clear moves toward the energy (R60). -/
theorem floorStep_clear {fl : Floor} (h : fl.resetPending = false) (su : Setup) (e : Nat) (t : Int) :
    (floorStep su fl e t).resetPending = false
      ∧ (floorStep su fl e t).level = floorAfter fl.level e := by
  unfold floorStep
  rw [h]
  exact ⟨rfl, rfl⟩

/-- An onset starts the refractory time (R61). -/
theorem floorStep_onset {su : Setup} {fl : Floor} {e : Nat} {t : Int}
    (h : onsetTest su fl e t = true) :
    (floorStep su fl e t).refractoryEnd = t + su.refractory * 1000 := by
  have hclear : fl.resetPending = false := ((onsetTest_iff su fl e t).1 h).1
  unfold floorStep
  rw [hclear, h]
  rfl

/-- With no onset the refractory time stands (R61). -/
theorem floorStep_noOnset {su : Setup} {fl : Floor} {e : Nat} {t : Int}
    (h : onsetTest su fl e t = false) : (floorStep su fl e t).refractoryEnd = fl.refractoryEnd := by
  unfold floorStep
  rw [h]
  split <;> rfl

/-! ## The place of an onset (R62-R64) -/

/-- An entry is placed behind all those at or before its time, and before a later one (R63). -/
theorem placeOnset_placed (o : Onset) (l : List Onset) : ∃ before after,
    l = before ++ after ∧ placeOnset o l = before ++ o :: after
      ∧ (∀ x ∈ before, x.time ≤ o.time) ∧ ∀ x, after.head? = some x → o.time < x.time := by
  induction l with
  | nil => exact ⟨[], [], rfl, rfl, by simp, by simp⟩
  | cons x rest ih =>
    unfold placeOnset
    split
    next hle =>
      obtain ⟨before, after, hrest, hplaced, hbefore, hafter⟩ := ih
      exact ⟨x :: before, after, by rw [hrest]; rfl, by rw [hplaced]; rfl,
        List.forall_mem_cons.2 ⟨hle, hbefore⟩, hafter⟩
    next hlt =>
      refine ⟨[], x :: rest, rfl, rfl, by simp, fun y hy => ?_⟩
      obtain rfl : x = y := by simpa using hy
      exact not_le.1 hlt

theorem joins_iff (su : Setup) (newest : Onset) (c : ChannelId) (t : Int) :
    joins su newest c t = true ↔
      (newest.time - t).natAbs ≤ su.mergeSpan * 1000 ∧ ∀ x ∈ newest.members, x.1 ≠ c := by
  simp [joins]

/-- An onset that joins the newest entry is placed with it again among the older ones (R63). -/
theorem mergeOnset_joins {su : Setup} {newest : Onset} {c : ChannelId} {t : Int}
    (h : joins su newest c t = true) (masks : List MaskWindow) (strength : Nat)
    (older : List Onset) : mergeOnset su masks c strength t (older ++ [newest])
      = placeOnset (joinOnset su masks newest c strength t) older := by
  unfold mergeOnset
  dsimp only
  rw [List.getLast?_concat, List.dropLast_concat]
  exact if_pos h

/-- The entry an onset forms by itself (R62). -/
def onsetAlone (su : Setup) (masks : List MaskWindow) (c : ChannelId) (strength : Nat) (t : Int) :
    Onset :=
  { time := t
    members := [(c, strength)]
    strength := entryStrength su [(c, strength)]
    masked := masksCover masks t }

/-- An onset that joins no entry forms its own, the first of 17 going (R63, R64). -/
theorem mergeOnset_alone {su : Setup} {c : ChannelId} {t : Int} {queue : List Onset}
    (h : ∀ newest, queue.getLast? = some newest → joins su newest c t = false)
    (masks : List MaskWindow) (strength : Nat) :
    mergeOnset su masks c strength t queue
      = if 16 < (placeOnset (onsetAlone su masks c strength t) queue).length
        then (placeOnset (onsetAlone su masks c strength t) queue).drop 1
        else placeOnset (onsetAlone su masks c strength t) queue := by
  unfold mergeOnset
  dsimp only
  cases hlast : queue.getLast? with
  | none => rfl
  | some newest =>
    dsimp only
    rw [h newest hlast]
    rfl

/-- A joined entry: its masked flag is tested afresh where its time changes (R63, R66, log 35). -/
theorem joinOnset_eq (su : Setup) (masks : List MaskWindow) (o : Onset) (c : ChannelId)
    (strength : Nat) (t : Int) : joinOnset su masks o c strength t =
      { time := min o.time t
        members := o.members ++ [(c, strength)]
        strength := entryStrength su (o.members ++ [(c, strength)])
        masked := if o.time ≤ t then o.masked else masksCover masks t } := by
  unfold joinOnset
  dsimp only
  by_cases h : o.time ≤ t
  · rw [if_pos h, min_eq_left h, if_pos rfl]
  · rw [if_neg h, min_eq_right (not_le.1 h).le, if_neg fun he => h he.ge]

/-- Onsets are accepted in RUNNING in a FOLLOW passage alone (R62). -/
theorem acceptsOnsets_iff (p : Part) :
    p.acceptsOnsets = true ↔ p.player.state = .running ∧ p.followMode = true := by
  simp [Part.acceptsOnsets]

/-! ## One channel at a frame end (R59-R63) -/

section
variable (es : Vector Nat 4) (t : Int)

/-- A disabled channel does nothing. -/
theorem channelFrame_disabled {p : Part} {c : ChannelId}
    (h : (entry p.setup.channels c).enabled = false) : channelFrame es t c p = p := by
  unfold channelFrame
  rw [h]
  rfl

/-- A channel reaches the floors and the Onset Queue alone. -/
theorem channelFrame_part (c : ChannelId) (p : Part) : channelFrame es t c p = { p with
    listen := { p.listen with
      floors := (channelFrame es t c p).listen.floors
      queue := (channelFrame es t c p).listen.queue } } := by
  unfold channelFrame
  split <;> rfl

/-- An enabled channel moves its own floor. -/
theorem channelFrame_floors {p : Part} {c : ChannelId}
    (h : (entry p.setup.channels c).enabled = true) : (channelFrame es t c p).listen.floors
      = put p.listen.floors c (floorStep p.setup (entry p.listen.floors c) (entry es c) t) := by
  unfold channelFrame
  rw [h]
  rfl

/-- A channel leaves the floors of the others. -/
theorem channelFrame_floors_other (p : Part) {c d : ChannelId} (h : d ≠ c) :
    entry (channelFrame es t c p).listen.floors d = entry p.listen.floors d := by
  cases henabled : (entry p.setup.channels c).enabled with
  | false => rw [channelFrame_disabled es t henabled]
  | true => rw [channelFrame_floors es t henabled, entry_put_other _ _ _ _ h]

/-- An accepted onset of an enabled channel is merged into the queue (R62). -/
theorem channelFrame_queue_onset {p : Part} {c : ChannelId}
    (henabled : (entry p.setup.channels c).enabled = true)
    (honset : onsetTest p.setup (entry p.listen.floors c) (entry es c) t = true)
    (haccepts : p.acceptsOnsets = true) : (channelFrame es t c p).listen.queue
      = mergeOnset p.setup p.listen.masks c
          (channelStrength (entry p.listen.floors c).level (entry es c))
          (onsetTime t (entry p.setup.channels c).delay) p.listen.queue := by
  unfold channelFrame
  dsimp only
  rw [henabled, honset, haccepts]
  rfl

/-- With no onset, or none accepted, the queue stands (R61, R62). -/
theorem channelFrame_queue_stands {p : Part} {c : ChannelId}
    (h : onsetTest p.setup (entry p.listen.floors c) (entry es c) t = false
      ∨ p.acceptsOnsets = false) : (channelFrame es t c p).listen.queue = p.listen.queue := by
  unfold channelFrame
  split
  · rfl
  · rcases h with h | h <;> simp [h]

/-! ## The channels one after the other -/

/-- The work of some channels at a frame end, in order. -/
def channelFrames (l : List ChannelId) (p : Part) : Part :=
  l.foldl (fun acc c => channelFrame es t c acc) p

theorem channelFrames_cons (c : ChannelId) (rest : List ChannelId) (p : Part) :
    channelFrames es t (c :: rest) p = channelFrames es t rest (channelFrame es t c p) := rfl

/-- Channels reach the floors and the Onset Queue alone. -/
theorem channelFrames_part (l : List ChannelId) (p : Part) : channelFrames es t l p = { p with
    listen := { p.listen with
      floors := (channelFrames es t l p).listen.floors
      queue := (channelFrames es t l p).listen.queue } } := by
  induction l generalizing p with
  | nil => rfl
  | cons c rest ih =>
    rw [channelFrames_cons]
    refine (ih _).trans ?_
    rw [channelFrame_part]

/-- Channels leave the floor of one that is not among them. -/
theorem channelFrames_floors_other (l : List ChannelId) (p : Part) {d : ChannelId} (h : d ∉ l) :
    entry (channelFrames es t l p).listen.floors d = entry p.listen.floors d := by
  induction l generalizing p with
  | nil => rfl
  | cons c rest ih =>
    obtain ⟨hd, hrest⟩ := not_or.1 (mt List.mem_cons.2 h)
    rw [channelFrames_cons, ih _ hrest, channelFrame_floors_other es t p hd]

/-- The floor of a channel after all channels is its floor after its own work. -/
theorem channelFrames_floors {l : List ChannelId} (hl : l.Nodup) {c : ChannelId} (hc : c ∈ l)
    (p : Part) : entry (channelFrames es t l p).listen.floors c
      = if (entry p.setup.channels c).enabled
        then floorStep p.setup (entry p.listen.floors c) (entry es c) t
        else entry p.listen.floors c := by
  induction l generalizing p with
  | nil => exact absurd hc List.not_mem_nil
  | cons d rest ih =>
    obtain ⟨hd, hrest⟩ := List.nodup_cons.1 hl
    rw [channelFrames_cons]
    by_cases hcd : c = d
    · subst hcd
      rw [channelFrames_floors_other es t rest _ hd]
      cases henabled : (entry p.setup.channels c).enabled with
      | false => rw [channelFrame_disabled es t henabled]; rfl
      | true => rw [channelFrame_floors es t henabled, entry_put_same]; rfl
    · rw [ih hrest ((List.mem_cons.1 hc).resolve_left hcd), channelFrame_floors_other es t p hcd,
        channelFrame_part]

/-- Where no onset is accepted the queue stands (R62). -/
theorem channelFrames_queue_stands (l : List ChannelId) {p : Part} (h : p.acceptsOnsets = false) :
    (channelFrames es t l p).listen.queue = p.listen.queue := by
  induction l generalizing p with
  | nil => rfl
  | cons c rest ih =>
    have hkeeps : (channelFrame es t c p).acceptsOnsets = false := by
      rw [channelFrame_part]; exact h
    rw [channelFrames_cons, ih hkeeps, channelFrame_queue_stands es t (.inr h)]

/-- Disabled channels do nothing. -/
theorem channelFrames_disabled (l : List ChannelId) {p : Part}
    (h : ∀ x ∈ l, (entry p.setup.channels x).enabled = false) : channelFrames es t l p = p := by
  induction l with
  | nil => rfl
  | cons c rest ih =>
    obtain ⟨hc, hrest⟩ := List.forall_mem_cons.1 h
    rw [channelFrames_cons, channelFrame_disabled es t hc, ih hrest]

/-- With one channel enabled alone, all channels do what that one does. -/
theorem channelFrames_only {l : List ChannelId} (hl : l.Nodup) {c : ChannelId} (hc : c ∈ l) {p : Part}
    (h : ∀ x, x ≠ c → (entry p.setup.channels x).enabled = false) :
    channelFrames es t l p = channelFrame es t c p := by
  induction l with
  | nil => exact absurd hc List.not_mem_nil
  | cons d rest ih =>
    obtain ⟨hd, hrest⟩ := List.nodup_cons.1 hl
    rw [channelFrames_cons]
    by_cases hcd : c = d
    · subst hcd
      apply channelFrames_disabled
      intro x hx
      rw [channelFrame_part]
      exact h x (ne_of_mem_of_not_mem hx hd)
    · rw [channelFrame_disabled es t (h d (Ne.symm hcd)),
        ih hrest ((List.mem_cons.1 hc).resolve_left hcd)]

end

/-! ## Hold listening (R71) -/

/-- Hold listening that is inactive does nothing at a frame end (R70). -/
theorem holdFrame_inactive {h : HoldListening} (hactive : h.active = false) (su : Setup) (c : Nat)
    (t : Int) : h.frame su c t = h := by
  unfold HoldListening.frame
  rw [hactive]
  rfl

/-- Active hold listening that has reported no cutoff tests the frame (R71). -/
theorem holdFrame_listens {h : HoldListening} (hactive : h.active = true) (hcutoff : h.cutoff = none)
    (su : Setup) (c : Nat) (t : Int) :
    let reference := if h.frames < 20 then max h.reference c else h.reference
    let below := if c < reference * su.cutoffRatio / 256 then h.below + 1 else 0
    h.frame su c t =
      { active := true, frames := min (h.frames + 1) 20, reference := reference, below := below
        cutoff := if su.cutoffPersistence ≤ below then some t else none } := by
  unfold HoldListening.frame
  rw [hactive, hcutoff]
  rfl

/-! ## The frame end -/

/-- The part with its frame cut off and heard by every channel. -/
def Part.frameHeard (p : Part) : Part :=
  channelFrames (frameEnergies p.listen) p.now allChannels { p with listen := cutFrame p.listen }

theorem nodup_allChannels : allChannels.Nodup := List.nodup_finRange 4

theorem mem_allChannels (c : ChannelId) : c ∈ allChannels := List.mem_finRange c

theorem frameHeard_part (p : Part) : p.frameHeard = { p with listen := { p.listen with
    filters := (cutFrame p.listen).filters
    floors := p.frameHeard.listen.floors
    queue := p.frameHeard.listen.queue } } := channelFrames_part _ _ _ _

theorem entry_cutFrame (l : Listening) (c : ChannelId) : entry (cutFrame l).filters c =
    { entry l.filters c with samples := (entry l.filters c).samples.drop 240 } := entry_tabulate _ c

/-- The floor of a channel that has heard the frame (R60). -/
theorem frameHeard_floor (p : Part) (c : ChannelId) : entry p.frameHeard.listen.floors c
    = if (entry p.setup.channels c).enabled
      then floorStep p.setup (entry p.listen.floors c) (entry (frameEnergies p.listen) c) p.now
      else entry p.listen.floors c :=
  channelFrames_floors _ _ nodup_allChannels (mem_allChannels c) _

theorem frameHeard_floor_enabled {p : Part} {c : ChannelId}
    (h : (entry p.setup.channels c).enabled = true) : entry p.frameHeard.listen.floors c
      = floorStep p.setup (entry p.listen.floors c) (entry (frameEnergies p.listen) c) p.now :=
  (frameHeard_floor p c).trans (if_pos h)

theorem frameHeard_floor_disabled {p : Part} {c : ChannelId}
    (h : (entry p.setup.channels c).enabled = false) :
    entry p.frameHeard.listen.floors c = entry p.listen.floors c :=
  (frameHeard_floor p c).trans (if_neg (by rw [h]; decide))

/-- Outside RUNNING, and in a LEAD passage, no onset is queued (R62). -/
theorem frameHeard_queue_stands {p : Part} (h : p.player.state ≠ .running ∨ p.followMode = false) :
    p.frameHeard.listen.queue = p.listen.queue := by
  refine channelFrames_queue_stands _ _ _ (Bool.eq_false_iff.2 fun haccepts => ?_)
  obtain ⟨hrun, hfollow⟩ := (acceptsOnsets_iff p).1 haccepts
  rcases h with h | h
  · exact h hrun
  · rw [hfollow] at h
    exact nomatch h

section
variable {p : Part} {c : ChannelId} (honly : ∀ x, x ≠ c → (entry p.setup.channels x).enabled = false)
include honly

/-- With one channel enabled alone, the queue is what that one makes of it. -/
theorem frameHeard_queue_only : p.frameHeard.listen.queue
    = (channelFrame (frameEnergies p.listen) p.now c
        { p with listen := cutFrame p.listen }).listen.queue :=
  congrArg (fun q : Part => q.listen.queue)
    (channelFrames_only _ _ nodup_allChannels (mem_allChannels c) honly)

/-- A frame without an onset leaves the queue (R61). -/
theorem frameHeard_queue_noOnset (h : onsetTest p.setup (entry p.listen.floors c)
    (entry (frameEnergies p.listen) c) p.now = false) :
    p.frameHeard.listen.queue = p.listen.queue :=
  (frameHeard_queue_only honly).trans (channelFrame_queue_stands _ _ (.inl h))

/-- An accepted onset of the one enabled channel is merged into the queue (R62). -/
theorem frameHeard_queue_onset (henabled : (entry p.setup.channels c).enabled = true)
    (honset : onsetTest p.setup (entry p.listen.floors c) (entry (frameEnergies p.listen) c) p.now
      = true)
    (hrun : p.player.state = .running) (hfollow : p.followMode = true) :
    p.frameHeard.listen.queue = mergeOnset p.setup p.listen.masks c
      (channelStrength (entry p.listen.floors c).level (entry (frameEnergies p.listen) c))
      (onsetTime p.now (entry p.setup.channels c).delay) p.listen.queue :=
  (frameHeard_queue_only honly).trans (channelFrame_queue_onset _ _ henabled honset
    ((acceptsOnsets_iff p).2 ⟨hrun, hfollow⟩))

end

/-- FRAME_END where each channel has a whole frame (R58). -/
theorem exec_frameEnd {s : State}
    (h : ∀ c, 240 ≤ (entry s.part.listen.filters c).samples.length) :
    exec .frameEnd s = .next { s with part := frameEndStep s.part } := by
  have hready : frameReady s.part.listen = true := by
    simp [frameReady, Config.frameSamples, h]
  show s.onPart (fun p => whenDue (frameReady p.listen) frameEndStep p) = _
  rw [onPart_eq, whenDue_of hready]

/-- A frame that ends while no plan plays is discarded (R58). -/
theorem frameEndStep_discards {p : Part} (h : p.playing = false) :
    frameEndStep p = { p with listen := cutFrame p.listen } := by
  have hcut : ({ p with listen := cutFrame p.listen } : Part).playing = false := h
  unfold frameEndStep
  dsimp only
  rw [hcut]
  rfl

/-- A frame that ends while a plan plays is heard by every channel, then by hold listening (R58, R71). -/
theorem frameEndStep_plays {p : Part} (h : p.playing = true) : frameEndStep p = { p with
    listen := { p.listen with
      filters := (cutFrame p.listen).filters
      floors := p.frameHeard.listen.floors
      queue := p.frameHeard.listen.queue
      hold := p.listen.hold.frame p.setup (combinedEnergy p.setup (frameEnergies p.listen)) p.now } } := by
  have hcut : ({ p with listen := cutFrame p.listen } : Part).playing = true := h
  have hcourse : frameEndStep p = { p.frameHeard with listen := { p.frameHeard.listen with
      hold := p.frameHeard.listen.hold.frame p.frameHeard.setup
        (combinedEnergy p.frameHeard.setup (frameEnergies p.listen)) p.now } } := by
    unfold frameEndStep
    dsimp only
    rw [hcut]
    rfl
  rw [hcourse, frameHeard_part]

end Sys2Proof.Machine

open Sys2Proof Sys2Proof.Machine

/-- Settles O43: a discarded frame is cut off and no more; one that is heard goes to each channel's floor,
to the queue by the one enabled channel's onset, and to hold listening. -/
theorem frameEndMovesTheFloors : Obligations.FrameEndMovesTheFloors := by
  intro s hframes p cut energy
  have hexec := exec_frameEnd hframes
  have hcut (c : ChannelId) := entry_cutFrame p.listen c
  have henergy (c : ChannelId) : entry (frameEnergies p.listen) c = energy c :=
    entry_frameEnergies p.listen c
  refine ⟨fun hidle => ?discarded, fun hplays => ?heard⟩
  case discarded =>
    rw [frameEndStep_discards hidle] at hexec
    exact completes_of_exec hexec ⟨rfl, hcut⟩
  rw [frameEndStep_plays hplays] at hexec
  refine completes_of_exec hexec ⟨rfl, hcut, rfl, fun c => ?floors, frameHeard_queue_stands,
    fun hinactive => holdFrame_inactive hinactive _ _ _, fun hactive hcutoff => ?hold,
    fun c henabled honly => ?onsets⟩
  case floors =>
    refine ⟨frameHeard_floor_disabled, fun henabled hmarked => ?_, fun henabled hclear => ?_⟩
    · exact (frameHeard_floor_enabled henabled).trans
        ((floorStep_marked hmarked _ _ _).trans (by rw [henergy]))
    · have hstep := floorStep_clear hclear p.setup (energy c) p.now
      rw [← henergy, ← frameHeard_floor_enabled henabled, henergy] at hstep
      exact hstep
  case hold =>
    have hcombined : combinedEnergy p.setup (frameEnergies p.listen)
        = ((allChannels.filter fun c => (entry p.setup.channels c).enabled).map
            fun c => energy c * (entry p.setup.channels c).weight / 16).sum := by
      unfold combinedEnergy
      simp only [henergy]
    exact (holdFrame_listens hactive hcutoff _ _ _).trans (by rw [hcombined]; rfl)
  case onsets =>
    intro fl e onset strength time weighed covered alone joinsNewest placed
    have hfloor : entry p.frameHeard.listen.floors c = floorStep p.setup fl e p.now :=
      (frameHeard_floor_enabled henabled).trans (by rw [henergy])
    have htest : onsetTest p.setup fl (entry (frameEnergies p.listen) c) p.now = true ↔ onset := by
      rw [henergy]
      exact onsetTest_iff _ _ _ _
    refine ⟨fun hnone => ?none, fun honset => ?refractory, fun honset hrun hfollow => ?queued⟩
    case none =>
      have hno := Bool.eq_false_iff.2 (mt htest.1 hnone)
      refine ⟨frameHeard_queue_noOnset honly hno, ?_⟩
      rw [henergy] at hno
      exact (congrArg Floor.refractoryEnd hfloor).trans (floorStep_noOnset hno)
    case refractory =>
      have hyes := htest.2 honset
      rw [henergy] at hyes
      exact (congrArg Floor.refractoryEnd hfloor).trans (floorStep_onset hyes)
    case queued =>
      have hqueue : p.frameHeard.listen.queue
          = mergeOnset p.setup p.listen.masks c strength time p.listen.queue :=
        (frameHeard_queue_onset honly henabled (htest.2 honset) hrun hfollow).trans
          (by rw [henergy]; rfl)
      refine ⟨fun older newest hlast hjoins => ?joined, fun hnone => ?formed⟩
      case joined =>
        have hmerged := mergeOnset_joins ((joins_iff _ _ _ _).2 hjoins) p.listen.masks strength older
        rw [← hlast, ← hqueue, joinOnset_eq] at hmerged
        exact hmerged ▸ placeOnset_placed _ older
      case formed =>
        have hmerged := mergeOnset_alone (su := p.setup) (c := c) (t := time)
          (fun newest hlast => Bool.eq_false_iff.2 fun h => hnone newest hlast
            ((joins_iff _ _ _ _).1 h)) p.listen.masks strength
        exact ⟨_, placeOnset_placed alone p.listen.queue, hqueue.trans hmerged⟩
end

section
/-! SUPPORT. The line (R76, R78), RESUME and NUDGE (R95, R111), and a cue at its close (R80 to R90) or
passed in a LEAD passage (R91). -/

open Sys2Proof

namespace Sys2Proof.Machine

/-! ## The line (R76, R78) -/

theorem Follower.predict_ahead {f : Follower} {x : Int} (h : f.aPos ≤ x) :
    f.predict x = f.aTime + ((x - f.aPos) * f.period + 48) / 96 := if_pos h

theorem Follower.predict_behind {f : Follower} {x : Int} (h : x < f.aPos) :
    f.predict x = f.aTime - ((f.aPos - x) * f.period + 48) / 96 := if_neg (not_le.2 h)

/-- A re-anchor moves the anchor alone: to the position, or, where it lies ahead of that, to a later
time (R78). -/
theorem Follower.reAnchor_eq (f : Follower) (x tau : Int) : f.reAnchor x tau = { f with
    aPos := max f.aPos x
    aTime := if f.aPos ≤ x then tau else tau + spanTime f.period (f.aPos - x) } := by
  unfold Follower.reAnchor
  split
  case isTrue h => rw [max_eq_right h]
  case isFalse h => rw [max_eq_left (not_le.1 h).le]

/-- Everything a NUDGE does to the context (R95). -/
theorem Follower.nudge_eq (f : Follower) (percent x c : Int) :
    let raw : Int := f.period + ((f.period : Int) * percent).tdiv 100
    let period := clampInt f.tlo f.thi raw
    f.nudge percent x c = { f with
      period := period.toNat
      atLimit := period != raw
      aPos := max f.aPos x
      aTime := if f.aPos ≤ x then c else c + spanTime period.toNat (f.aPos - x) } := by
  intro raw period
  unfold Follower.nudge
  dsimp only
  rw [Follower.reAnchor_eq]

/-! ## The watched close and the closes past (R80, R81) -/

/-- The watched close is all that is recomputed. -/
theorem rewatch_eq (p : Part) : rewatch p = { p with
    follower := { p.follower with watched := (rewatch p).follower.watched } } := rfl

/-- A LEAD passage opens no window (R91). -/
theorem rewatch_lead {p : Part} {b : Buffer} (hb : p.reader.current = some b)
    (hlead : b.passage.follow = false) :
    rewatch p = { p with follower := { p.follower with watched := none } } := by
  have hnone : (rewatch p).follower.watched = none := by
    unfold rewatch
    dsimp only
    rw [hb]
    cases p.sched.cues with
    | nil => rfl
    | cons c rest => simp [hlead]
  rw [rewatch_eq, hnone]

/-- In HELD no close is taken (R81). -/
theorem takeCloses_held {p : Part} (h : p.player.state = .held) : takeCloses p = p := by
  have hnot : cueCloseDue p = false := by simp [cueCloseDue, Part.takesCues, h]
  unfold takeCloses
  cases p.sched.cues.length with
  | zero => rfl
  | succ k => rw [runCloses, if_neg (by simp [hnot])]

/-! ## RESUME (R111) -/

/-- RESUME's first part: a DEFERRED fermata is finished with the key-offs at its holding point (R111). -/
def finishDeferred (p : Part) : Part :=
  if p.player.fermata.phase = .deferred then
    keyOffAt p.player.fermata.holdingPoint
      { p with player := { p.player with fermata := Fermata.init } }
  else p

theorem finishDeferred_none {p : Part} (h : p.player.fermata.phase ≠ .deferred) :
    finishDeferred p = p := if_neg h

/-- The finish of a DEFERRED fermata in HELD (R111): its record returns to NONE, the SOUNDING notes that
end at its holding point leave the window, and the line, the setup and the clock stand. -/
theorem finishDeferred_held {p : Part} (hheld : p.player.state = .held)
    (hdeferred : p.player.fermata.phase = .deferred) :
    (finishDeferred p).player = { p.player with fermata := Fermata.init }
      ∧ (finishDeferred p).sched = { p.sched with window := p.sched.window.filter fun x =>
        !(x.state == .sounding && x.release == p.player.fermata.holdingPoint) }
      ∧ (finishDeferred p).follower = p.follower ∧ (finishDeferred p).setup = p.setup
      ∧ (finishDeferred p).clock = p.clock := by
  obtain ⟨k, hk, hpart, -⟩ := keyOffs_part
    (p := { p with player := { p.player with fermata := Fermata.init } })
    (fun x => x.release == p.player.fermata.holdingPoint) (by simp [hheld])
    (by simp [Part.playing, hheld])
  have hoffs : finishDeferred p = k := (if_pos hdeferred).trans hk.symm
  rw [hoffs, hpart]
  exact ⟨rfl, rfl, rfl, rfl, rfl⟩

/-- The finish of a fermata leaves what RESUME reads of the line, DEFERRED or not. -/
theorem finishDeferred_line {p : Part} (hheld : p.player.state = .held) :
    (finishDeferred p).follower = p.follower ∧ (finishDeferred p).setup = p.setup
      ∧ (finishDeferred p).clock = p.clock := by
  by_cases hdeferred : p.player.fermata.phase = .deferred
  · obtain ⟨-, -, hline⟩ := finishDeferred_held hheld hdeferred
    exact hline
  · rw [finishDeferred_none hdeferred]
    exact ⟨rfl, rfl, rfl⟩

/-- The part with the present position re-anchored behind the resume gap, the freeze released and the
Player in RUNNING (R77, R78, R111). -/
def resumed (p : Part) : Part :=
  moveTo .running (releaseFreeze p.position (p.now + gapTime p.follower.period p.setup.resumeGap) p)

/-- RESUME finishes a DEFERRED fermata, resumes, and takes the closes then past (R80, R111). -/
theorem resumePlayer_eq (p : Part) : resumePlayer p = takeCloses (resumed (finishDeferred p)) := rfl

/-- What resuming reaches. -/
theorem resumed_part (p : Part) : resumed p = { p with
    player := { p.player with state := .running }
    follower := (resumed p).follower
    report := (resumed p).report } := by
  unfold resumed moveTo
  rw [if_pos rfl]
  apply part_ext <;> simp

theorem resumed_follower (p : Part) :
    let tau : Int := p.clock + (p.setup.resumeGap * p.follower.period / 96 : Nat)
    (resumed p).follower = { p.follower with
      aPos := max p.follower.aPos p.position
      aTime := if p.follower.aPos ≤ p.position then tau
        else tau + spanTime p.follower.period (p.follower.aPos - p.position)
      freeze := none
      watched := (resumed p).follower.watched } := by
  intro tau
  have hmove : (resumed p).follower = (releaseFreeze p.position
      (p.now + gapTime p.follower.period p.setup.resumeGap) p).follower := by simp [resumed]
  rw [hmove, gapTime_eq]
  unfold releaseFreeze
  rw [rewatch_eq, Follower.reAnchor_eq]
  rfl

theorem resumed_watches (p : Part) : WatchesHead (resumed p) :=
  WatchesHead.of_same (p := releaseFreeze p.position
      (p.now + gapTime p.follower.period p.setup.resumeGap) p)
    (by simp [resumed]) (by simp [resumed]) (by simp [resumed]) (rewatch_watches _)

/-- RESUME that stands with its owner in HELD ends with OK (R111). -/
theorem exec_resume {s : State} (howner : s.part.atOwner cmdResume)
    (hheld : s.part.player.state = .held) :
    exec .resume s = .next { s with part := commandOk (resumePlayer s.part) } := by
  have hcourse : resumeCommand s.part = commandOk (resumePlayer s.part) := by
    unfold resumeCommand
    rw [hheld]
  rw [← hcourse]
  exact onPart_atOwner howner resumeCommand

/-! ## NUDGE (R95) -/

/-- The part with the context nudged at the present position and clock, and the watched close
recomputed (R80, R95). -/
def nudged (percent : Int) (p : Part) : Part :=
  rewatch { p with follower := p.follower.nudge percent p.position p.now }

/-- A NUDGE changes the context, then takes the closes then past (R80, R95). -/
theorem nudgePlayer_eq (percent : Int) (p : Part) :
    nudgePlayer percent p = takeCloses (nudged percent p) := rfl

/-- NUDGE that stands with its owner in RUNNING or HELD ends with OK (R95). -/
theorem exec_nudge {s : State} (howner : s.part.atOwner cmdNudge)
    (hstate : s.part.player.state = .running ∨ s.part.player.state = .held) :
    exec .nudge s = .next { s with
      part := commandOk (nudgePlayer (nudgePercent (s.part.slot.arg 1)) s.part) } := by
  have hcourse : nudgeCommand s.part
      = commandOk (nudgePlayer (nudgePercent (s.part.slot.arg 1)) s.part) := by
    unfold nudgeCommand
    rcases hstate with h | h <;> rw [h]
  rw [← hcourse]
  exact onPart_atOwner howner nudgeCommand

/-! ## A cue leaves its list (R84, R106) -/

/-- The fermata record once the Player has been handed a cue (R106): a HOLD cue is stored where no
fermata is on. -/
def Fermata.taking (c : Cue) (x : Fermata) : Fermata :=
  if c.kind = .hold ∧ x.phase = .none then
    { phase := .pending, pf := c.position, hf := c.hf, maxHold := c.maxHold
      breath := c.breath, follow := false }
  else x

theorem takeHold_eq (c : Cue) (p : Part) : takeHold c p = { p with
    player := { p.player with fermata := p.player.fermata.taking c } } := by
  unfold takeHold Fermata.taking
  split <;> rfl

/-- CUE_PASS where the clock has reached the predicted time of the head cue of a LEAD passage (R91). -/
theorem cuePassDue_of {p : Part} {b : Buffer} {c : Cue} {rest : List Cue}
    (hb : p.reader.current = some b) (hlead : b.passage.follow = false)
    (hcues : p.sched.cues = c :: rest) (hrun : p.player.state = .running)
    (hfree : p.player.fermata.phase ≠ .holding) (hclock : p.follower.predict c.position ≤ p.clock) :
    cuePassDue p = true := by
  have hnow : p.follower.predict c.position ≤ p.now := hclock
  unfold cuePassDue
  rw [hb, hcues]
  simp [Part.takesCues, hrun, hfree, hlead, hnow]

theorem exec_cuePass {s : State} (h : cuePassDue s.part = true) :
    exec .cuePass s = .next { s with part := cuePassStep s.part } :=
  (onPart_eq s _).trans (by rw [whenDue_of h])

/-- Everything the passing of a cue does in a LEAD passage (R91). -/
theorem cuePassStep_eq {p : Part} {b : Buffer} {c : Cue} {rest : List Cue}
    (hb : p.reader.current = some b) (hlead : b.passage.follow = false)
    (hcues : p.sched.cues = c :: rest) : cuePassStep p = { p with
      follower := { p.follower with watched := none }
      sched := { p.sched with cues := rest }
      player := { p.player with fermata := p.player.fermata.taking c } } := by
  have hstep : cuePassStep p = rewatch (takeHold c (dropHeadCue p)) := by
    unfold cuePassStep
    rw [hcues]
  rw [hstep, takeHold_eq, dropHeadCue, hcues, List.tail_cons,
    rewatch_lead (b := b) (by exact hb) hlead]

/-! ## The outcome of a cue (R82, R83) -/

/-- No entry in the window: MISS (R82). -/
theorem judgeCue_miss {tp : Int} {w : Nat} {l : List Onset}
    (h : ∀ o ∈ l, inWindow tp w o = false) : judgeCue tp w l = (.miss, none) := by
  have hnone : l.filter (inWindow tp w) = [] :=
    List.filter_eq_nil_iff.2 fun o ho => by simp [h o ho]
  unfold judgeCue
  rw [hnone]
  rfl

/-- Masked entries alone in the window: MASKED (R82). -/
theorem judgeCue_masked {tp : Int} {w : Nat} {l : List Onset}
    (hsome : ∃ o ∈ l, inWindow tp w o = true)
    (hmasked : ∀ o ∈ l, inWindow tp w o = true → o.masked = true) :
    judgeCue tp w l = (.masked, none) := by
  have hopen : (l.filter (inWindow tp w)).filter (fun o => !o.masked) = [] :=
    List.filter_eq_nil_iff.2 fun o ho => by
      obtain ⟨hmem, hin⟩ := List.mem_filter.1 ho
      simp [hmasked o hmem hin]
  have hinside : (l.filter (inWindow tp w)).isEmpty = false := by
    obtain ⟨o, hmem, hin⟩ := hsome
    exact List.isEmpty_eq_false_iff.2 (List.ne_nil_of_mem (List.mem_filter.2 ⟨hmem, hin⟩))
  unfold judgeCue
  dsimp only
  rw [hopen]
  simp [chooseOnset, hinside]

/-- An unmasked entry in the window: MATCH on one of these than which none is better (R82). -/
theorem judgeCue_matched {tp : Int} {w : Nat} {l : List Onset}
    (hopen : ∃ o ∈ l, inWindow tp w o = true ∧ o.masked = false) :
    ∃ o, judgeCue tp w l = (.matched, some o)
      ∧ (o ∈ l ∧ inWindow tp w o = true ∧ o.masked = false)
      ∧ ∀ x ∈ l, inWindow tp w x = true → x.masked = false → NoneBetter tp o x := by
  have hmem (x : Onset) : x ∈ (l.filter (inWindow tp w)).filter (fun o => !o.masked)
      ↔ x ∈ l ∧ inWindow tp w x = true ∧ x.masked = false := by
    rw [List.mem_filter, List.mem_filter, Bool.not_eq_true', and_assoc]
  cases hchoice : chooseOnset tp ((l.filter (inWindow tp w)).filter fun o => !o.masked) with
  | none =>
    obtain ⟨o, ho⟩ := hopen
    have hin := (hmem o).2 ho
    rw [(chooseOnset_none tp _).1 hchoice] at hin
    exact absurd hin List.not_mem_nil
  | some o =>
    obtain ⟨ho, hbest⟩ := chooseOnset_spec tp _ hchoice
    refine ⟨o, ?_, (hmem o).1 ho, fun x hx hin hclear => hbest x ((hmem x).2 ⟨hx, hin, hclear⟩)⟩
    unfold judgeCue
    dsimp only
    rw [hchoice]

theorem inWindow_iff (tp : Int) (w : Nat) (o : Onset) :
    inWindow tp w o = true ↔ tp - w ≤ o.time ∧ o.time ≤ tp + w := by
  simp [inWindow]

/-- With no onset chosen the queue loses what lies before the window (R83). -/
theorem consumeOnsets_none (tp : Int) (w : Nat) (l : List Onset) :
    consumeOnsets tp w none l = l.filter fun x => decide (tp - w ≤ x.time) := rfl

/-- With an onset chosen the queue loses all up to its time as well (R83). -/
theorem consumeOnsets_some (tp : Int) (w : Nat) (o : Onset) (l : List Onset) :
    consumeOnsets tp w (some o) l
      = l.filter fun x => decide (o.time < x.time) && decide (tp - w ≤ x.time) := by
  unfold consumeOnsets
  rw [List.filter_filter]
  exact List.filter_congr fun x _ => Bool.and_comm _ _

/-! ## The context after an outcome (R85 to R90) -/

/-- Everything a MATCH does to the context (R85 to R88, R90). -/
theorem Follower.matchUpdate_eq (f : Follower) (q : Passage) (c : Cue) (onset : Int) :
    let tp := f.predict c.position
    let e := matchError f.period tp onset
    let raw : Int := f.period + periodStep f q c e
    let period := (clampInt f.tlo f.thi raw).toNat
    let tau := tp + (e * phaseGainOf q f.state c.cls).tdiv 256
    f.matchUpdate q c onset = { f with
      period := period
      atLimit := clampInt f.tlo f.thi raw != raw
      aPos := max f.aPos c.position
      aTime := if f.aPos ≤ c.position then tau else tau + spanTime period (f.aPos - c.position)
      pLast := some c.position, missCount := 0, lastError := e, state := .track } := by
  intro tp e raw period tau
  unfold Follower.matchUpdate
  dsimp only
  rw [Follower.reAnchor_eq]

/-- The distance of a MATCH: 96 in LOST, and with no last matched cue (R87, R90). -/
theorem matchDistance_eq (f : Follower) (pc : Int) :
    matchDistance f pc = if f.state = .lost then 96 else match f.pLast with
      | none => 96
      | some l => clampInt 48 768 (pc - l) := by
  unfold matchDistance
  cases f.state <;> cases f.pLast <;> rfl

/-- Everything a MISS does to the context (R89). -/
theorem Follower.missUpdate_eq (f : Follower) (q : Passage) :
    let m := min 15 (f.missCount + 1)
    f.missUpdate q = { f with
      missCount := m, state := if f.state = .lost ∨ q.missLimit ≤ m then .lost else .coast } := by
  intro m
  unfold Follower.missUpdate
  dsimp only
  by_cases h : f.state = .lost <;> simp [h, m]

/-! ## A cue resolves (R80 to R89) -/

/-- The outcome of a cue at the present context and Onset Queue (R82). -/
def Part.judged (p : Part) (q : Passage) (c : Cue) : CueOutcome × Option Onset :=
  judgeCue (p.follower.predict c.position) (p.follower.halfWidth q) p.listen.queue

/-- The part with a cue resolved and no longer listed, but for the watched close, LOST and the trigger:
the context by the outcome, the Onset Queue consumed, a HOLD cue handed to the Player (R83, R84,
R106). -/
def Part.cueTaken (p : Part) (q : Passage) (c : Cue) : Part :=
  { p with
    follower := p.follower.resolve q c (p.judged q c)
    listen := { p.listen with
      queue := consumeOnsets (p.follower.predict c.position) (p.follower.halfWidth q)
        (p.judged q c).2 p.listen.queue }
    sched := { p.sched with cues := p.sched.cues.tail }
    player := { p.player with fermata := p.player.fermata.taking c } }

theorem resolveCue_eq (q : Passage) (c : Cue) (p : Part) :
    let g := p.follower.resolve q c (p.judged q c)
    resolveCue q c p = triggerIf (g.state != p.follower.state)
      (latchIf (g.state == .lost && p.follower.state != .lost) .lost (rewatch (p.cueTaken q c))) := by
  unfold resolveCue
  dsimp only
  rw [takeHold_eq]
  rfl

/-- What the resolution of a cue reaches. -/
theorem resolveCue_part (q : Passage) (c : Cue) (p : Part) : resolveCue q c p = { p with
    follower := (resolveCue q c p).follower
    listen := { p.listen with queue := (resolveCue q c p).listen.queue }
    sched := { p.sched with cues := p.sched.cues.tail }
    player := { p.player with fermata := p.player.fermata.taking c }
    attention := (resolveCue q c p).attention
    report := (resolveCue q c p).report } := by
  rw [resolveCue_eq]
  apply part_ext <;> simp [Part.cueTaken]

theorem resolveCue_follower (q : Passage) (c : Cue) (p : Part) : (resolveCue q c p).follower
    = { p.follower.resolve q c (p.judged q c) with
      watched := (resolveCue q c p).follower.watched } := by
  have hfollower : (resolveCue q c p).follower = (rewatch (p.cueTaken q c)).follower := by
    simp [resolveCue_eq]
  rw [hfollower]
  rfl

theorem resolveCue_queue (q : Passage) (c : Cue) (p : Part) : (resolveCue q c p).listen.queue
    = consumeOnsets (p.follower.predict c.position) (p.follower.halfWidth q) (p.judged q c).2
      p.listen.queue := by
  simp [resolveCue_eq, Part.cueTaken]

/-- LOST is latched on entering it (R89). -/
theorem resolveCue_attention (q : Passage) (c : Cue) (p : Part) : (resolveCue q c p).attention
    = if (p.follower.resolve q c (p.judged q c)).state = .lost ∧ p.follower.state ≠ .lost
      then p.attention ||| 0x200 else p.attention := by
  rw [resolveCue_eq, triggerIf_report]
  unfold latchIf
  simp only [Bool.and_eq_true, beq_iff_eq, bne_iff_ne]
  split <;> rfl

theorem resolveCue_watches (q : Passage) (c : Cue) (p : Part) : WatchesHead (resolveCue q c p) :=
  WatchesHead.of_same (p := rewatch (p.cueTaken q c)) (by simp [resolveCue_eq])
    (by simp [resolveCue_eq]) (by simp [resolveCue_eq]) (rewatch_watches _)

/-- What the resolution of a cue leaves in the context, the Attention register and the Onset Queue, read
off its outcome. -/
theorem resolveCue_judged {q : Passage} {c : Cue} {p : Part} {r : CueOutcome × Option Onset}
    (h : p.judged q c = r) :
    (resolveCue q c p).follower
        = { p.follower.resolve q c r with watched := (resolveCue q c p).follower.watched }
      ∧ (resolveCue q c p).attention
        = (if (p.follower.resolve q c r).state = .lost ∧ p.follower.state ≠ .lost
          then p.attention ||| 0x200 else p.attention)
      ∧ (resolveCue q c p).listen.queue = consumeOnsets (p.follower.predict c.position)
        (p.follower.halfWidth q) r.2 p.listen.queue :=
  h ▸ ⟨resolveCue_follower q c p, resolveCue_attention q c p, resolveCue_queue q c p⟩

theorem exec_cueClose {s : State} (h : cueCloseDue s.part = true) :
    exec .cueClose s = .next { s with part := takeCloses s.part } :=
  (onPart_eq s _).trans (by rw [whenDue_of h])

/-- The head's close that is past is taken, and from there on the run of closes goes on (R80). -/
theorem takeCloses_head {p : Part} {b : Buffer} {c : Cue} {rest : List Cue}
    (hdue : cueCloseDue p = true) (hb : p.reader.current = some b)
    (hcues : p.sched.cues = c :: rest) :
    takeCloses p = takeCloses (resolveCue b.passage c p) := by
  have hhead : closeHead p = resolveCue b.passage c p := by
    unfold closeHead
    rw [hb, hcues]
  have hleft : (resolveCue b.passage c p).sched.cues = rest := by
    rw [resolveCue_part, hcues, List.tail_cons]
  unfold takeCloses
  rw [hleft, hcues, List.length_cons, runCloses, if_pos hdue, hhead]

end Sys2Proof.Machine

open Sys2Proof Sys2Proof.Machine

/-- Settles O29: the line is re-anchored behind the gap, then the closes past are taken in RUNNING. -/
theorem resumeReanchorsTheFrozenPosition : Obligations.ResumeReanchorsTheFrozenPosition := by
  intro s howner hheld p f x tau
  have hexec := exec_resume howner hheld
  rw [resumePlayer_eq] at hexec
  obtain ⟨hfollower, hsetup, hclock⟩ := finishDeferred_line hheld
  have hpos : (finishDeferred p).position = x := by
    unfold x Part.position Part.now
    rw [hfollower, hclock]
  have hline := resumed_follower (finishDeferred p)
  rw [hfollower, hsetup, hclock, hpos] at hline
  refine completes_of_exec hexec ⟨resumed (finishDeferred p), _, takeCloses_taken _, rfl, ?_, hline,
    resumed_watches _, fun hnone => ?_, fun hdeferred => ?_⟩
  · rw [resumed_part]
  · rw [finishDeferred_none hnone]
    exact resumed_part p
  · obtain ⟨hplayer, hsched, -⟩ := finishDeferred_held hheld hdeferred
    rw [resumed_part]
    exact ⟨by rw [hplayer], hsched⟩

/-- Settles O30: the context is nudged at the present position, then the closes past are taken, none in
HELD. -/
theorem nudgeChangesThePeriod : Obligations.NudgeChangesThePeriod := by
  intro s howner hstate p f percent raw period x
  have hexec := exec_nudge howner hstate
  rw [nudgePlayer_eq] at hexec
  refine completes_of_exec hexec ⟨nudged percent p, _, takeCloses_taken _, rfl, ?_,
    rewatch_watches _, fun hheld => takeCloses_held hheld⟩
  unfold nudged
  rw [rewatch_eq, Follower.nudge_eq]
  rfl

/-- Settles O46: the outcome by what the window holds, and the closes behind it taken from there on. -/
theorem cueResolvesAtItsClose : Obligations.CueResolvesAtItsClose := by
  intro s b c rest close hb hfollow hcues hrun hfree hwatched hclose p f tp w inside open_
  have hdue : cueCloseDue p = true :=
    cueCloseDue_of hb hfollow (by simp [p, hcues]) hrun hfree hwatched hclose
  have hexec := exec_cueClose hdue
  rw [takeCloses_head hdue hb hcues] at hexec
  refine completes_of_exec hexec ⟨resolveCue b.passage c p, takeCloses_taken _, ?part,
    resolveCue_watches _ _ _, fun hnone => ?miss, fun hsome hclosed => ?masked, fun hopen => ?matched⟩
  case part =>
    have hpart := resolveCue_part b.passage c p
    rw [hcues] at hpart
    exact hpart
  case miss =>
    have hmiss : p.judged b.passage c = (.miss, none) := judgeCue_miss fun o ho =>
      Bool.eq_false_iff.2 fun hin => hnone o ho ((inWindow_iff tp w o).1 hin)
    obtain ⟨hfollower, hattention, hqueue⟩ := resolveCue_judged hmiss
    have hcontext : p.follower.resolve b.passage c (.miss, none)
        = { f.missUpdate b.passage with lastOutcome := .miss } := rfl
    rw [hcontext, Follower.missUpdate_eq] at hfollower hattention
    exact ⟨hfollower, hattention, hqueue⟩
  case masked =>
    have hmasked : p.judged b.passage c = (.masked, none) := by
      obtain ⟨o, ho, hin⟩ := hsome
      refine judgeCue_masked ⟨o, ho, (inWindow_iff tp w o).2 hin⟩ fun x hx hinside => ?_
      exact Bool.of_not_eq_false fun hclear =>
        hclosed ⟨x, hx, (inWindow_iff tp w x).1 hinside, hclear⟩
    obtain ⟨hfollower, hattention, hqueue⟩ := resolveCue_judged hmasked
    exact ⟨hfollower, hattention.trans (if_neg fun h => h.2 h.1), hqueue⟩
  case matched =>
    obtain ⟨x, hx, hxin, hxclear⟩ := hopen
    obtain ⟨o, hmatched, ⟨ho, hin, hclear⟩, hbest⟩ :=
      judgeCue_matched ⟨x, hx, (inWindow_iff tp w x).2 hxin, hxclear⟩
    obtain ⟨hfollower, hattention, hqueue⟩ := resolveCue_judged (q := b.passage) hmatched
    have hcontext : p.follower.resolve b.passage c (.matched, some o)
        = { f.matchUpdate b.passage c o.time with lastOutcome := .matched } := rfl
    rw [hcontext, Follower.matchUpdate_eq] at hfollower hattention
    refine ⟨o, ⟨ho, (inWindow_iff tp w o).1 hin, hclear⟩,
      fun y ⟨hy, hyin, hyclear⟩ => hbest y hy ((inWindow_iff tp w y).2 hyin) hyclear, ?_,
      hattention.trans (if_neg fun h => nomatch h.1), hqueue.trans (consumeOnsets_some _ _ _ _)⟩
    rw [periodStep, matchDistance_eq] at hfollower
    exact hfollower

/-- Settles O47: the head leaves the list, and a LEAD passage watches no close. -/
theorem cueIsPassedInLead : Obligations.CueIsPassedInLead := by
  intro s b c rest hb hlead hcues hrun hfree hclock p
  have hexec := exec_cuePass (cuePassDue_of hb hlead hcues hrun hfree hclock)
  rw [cuePassStep_eq hb hlead hcues] at hexec
  exact hexec

/-- Settles O60: the two sides of the anchor. -/
theorem predictionFollowsTheLine : Obligations.PredictionFollowsTheLine :=
  fun _ _ => ⟨Follower.predict_ahead, Follower.predict_behind⟩
end

section
/-! SUPPORT. A fermata as it begins to hold (R70, R106) and as it ends (R77, R78, R108, R109). -/

open Sys2Proof

namespace Sys2Proof.Machine

/-! ## The start of holding (R70, R106) -/

/-- The part with the fermata holding and the position frozen at its holding point, before the trigger. -/
def holdingBegun (p : Part) : Part :=
  { p with
    player := { p.player with fermata :=
      { p.player.fermata with phase := .holding, follow := p.followMode } }
    follower := { p.follower with freeze := some p.player.fermata.holdingPoint }
    listen := { p.listen with hold := if p.followMode
      then { HoldListening.inactive with active := true } else p.listen.hold } }

/-- Hold listening begins in a FOLLOW passage alone (R70). -/
theorem startHolding_eq (p : Part) : startHolding p = trigger (holdingBegun p) := by
  unfold startHolding holdingBegun
  cases p.followMode <;> rfl

/-- FERMATA_HOLDING_START where the position has reached the holding point. -/
theorem exec_fermataHoldingStart {s : State} (h : holdingDue s.part = true) :
    exec .fermataHoldingStart s = .next { s with part := startHolding s.part } :=
  (onPart_eq s _).trans (by rw [whenDue_of h])

/-! ## The events that end a fermata (R108) -/

section
variable {s : State} (hrun : s.part.player.state = .running)
  (hholding : s.part.player.fermata.phase = .holding)
include hrun hholding

theorem fermataHeld_of : s.part.fermataHeld = true := by
  simp [Part.fermataHeld, hrun, hholding]

/-- CUTOFF ends a held fermata at the time of the cutoff reported (R71). -/
theorem exec_cutoff {te : Int} (hcutoff : s.part.listen.hold.cutoff = some te) :
    exec .cutoff s = .next { s with part := endFermata te s.part } := by
  have hdue : cutoffDue s.part = true := by
    simp [cutoffDue, fermataHeld_of hrun hholding, hcutoff]
  have hstep : cutoffStep s.part = endFermata te s.part := by
    unfold cutoffStep
    rw [hcutoff]
  rw [← hstep, ← whenDue_of hdue cutoffStep]
  rfl

/-- MAX_HOLD_EXPIRY ends a held fermata at the present clock. -/
theorem exec_maxHoldExpiry (hclock : s.part.maxHoldTime ≤ s.part.clock) :
    exec .maxHoldExpiry s = .next { s with part := endFermata s.part.clock s.part } := by
  have hdue : maxHoldDue s.part = true := by
    simp [maxHoldDue, fermataHeld_of hrun hholding, Part.now, hclock]
  exact (onPart_eq s _).trans (by rw [whenDue_of hdue]; rfl)

/-- LEAD_EXPIRY ends a fermata whose holding began in a LEAD passage at the present clock. -/
theorem exec_leadExpiry (hlead : s.part.player.fermata.follow = false)
    (hclock : s.part.leadTime ≤ s.part.clock) :
    exec .leadExpiry s = .next { s with part := endFermata s.part.clock s.part } := by
  have hdue : leadDue s.part = true := by
    simp [leadDue, fermataHeld_of hrun hholding, hlead, Part.now, hclock]
  exact (onPart_eq s _).trans (by rw [whenDue_of hdue]; rfl)

end

/-! ## The end of a fermata (R109) -/

/-- The part with the notes held to the holding point keyed off, the record cleared and hold listening
stopped (R71, R109). -/
def fermataCleared (p : Part) : Part :=
  stopHoldListening { keyOffAt p.player.fermata.holdingPoint p with
    player := { (keyOffAt p.player.fermata.holdingPoint p).player with fermata := Fermata.init } }

/-- The part with the line re-anchored at the holding point after the breath and the freeze released (R77,
R78, R109). -/
def fermataReanchored (te : Int) (p : Part) : Part :=
  releaseFreeze p.player.fermata.holdingPoint
    (te + gapTime (keyOffAt p.player.fermata.holdingPoint p).follower.period p.player.fermata.breath)
    (fermataCleared p)

/-- The part at the end of a fermata before the closes then past are taken. -/
def fermataEnded (te : Int) (p : Part) : Part := trigger (fermataReanchored te p)

/-- A fermata's end takes the closes past the line it leaves (R80, R109). -/
theorem endFermata_eq (te : Int) (p : Part) : endFermata te p = takeCloses (fermataEnded te p) := rfl

/-- In RUNNING the end's key-offs take the SOUNDING notes held to the holding point off the window, and
leave the line. -/
theorem fermataCleared_part {p : Part} (hrun : p.player.state = .running) :
    fermataCleared p = { p with
      reader := (fermataCleared p).reader
      player := { p.player with fermata := Fermata.init }
      sched := { p.sched with window := p.sched.window.filter fun x =>
        !(x.state == .sounding && x.release == p.player.fermata.holdingPoint) }
      keys := (fermataCleared p).keys, guard := (fermataCleared p).guard
      listen := { (fermataCleared p).listen with hold := HoldListening.inactive }
      attention := (fermataCleared p).attention, fresh := (fermataCleared p).fresh } := by
  obtain ⟨k, hk, hpart, -⟩ := keyOffs_part (p := p)
    (fun x => x.release == p.player.fermata.holdingPoint) (by simp [hrun])
    (by simp [Part.playing, hrun])
  have hoffs : keyOffAt p.player.fermata.holdingPoint p = k := hk.symm
  unfold fermataCleared
  rw [hoffs, hpart]
  rfl

/-- The end's re-anchor reaches the line alone, and triggers. -/
theorem fermataEnded_part (te : Int) (p : Part) : fermataEnded te p = { fermataCleared p with
    follower := (fermataEnded te p).follower, report := (fermataEnded te p).report } := by
  apply part_ext <;> simp [fermataEnded, fermataReanchored]

/-- The line passes through the holding point after the breath, or, where the anchor lies ahead of that, at
a later time through the anchor (R77, R78, R109). -/
theorem fermataEnded_follower (te : Int) {p : Part} (hrun : p.player.state = .running) :
    let hp := p.player.fermata.holdingPoint
    let tau : Int := te + (p.player.fermata.breath * p.follower.period / 96 : Nat)
    (fermataEnded te p).follower = { p.follower with
      aPos := max p.follower.aPos hp
      aTime := if p.follower.aPos ≤ hp then tau
        else tau + spanTime p.follower.period (p.follower.aPos - hp)
      freeze := none
      watched := (fermataEnded te p).follower.watched } := by
  intro hp tau
  have hline : (fermataCleared p).follower = p.follower := by rw [fermataCleared_part hrun]
  have hkeyed : (keyOffAt hp p).follower = p.follower := hline
  have htrigger : (fermataEnded te p).follower = (fermataReanchored te p).follower := by
    simp [fermataEnded]
  rw [htrigger, fermataReanchored, hkeyed, gapTime_eq]
  unfold releaseFreeze
  rw [rewatch_eq, Follower.reAnchor_eq, hline]

theorem fermataEnded_watches (te : Int) (p : Part) : WatchesHead (fermataEnded te p) :=
  WatchesHead.of_same (p := fermataReanchored te p) (by simp [fermataEnded])
    (by simp [fermataEnded]) (by simp [fermataEnded]) (rewatch_watches _)

end Sys2Proof.Machine

open Sys2Proof Sys2Proof.Machine

/-- Settles O45: holding begins with the freeze and, in a FOLLOW passage, hold listening; the three events
that end a fermata end it alike, each at its own time, and the closes then past are taken from there. -/
theorem fermataHoldsAndEnds : Obligations.FermataHoldsAndEnds := by
  intro s hrun p f fm hp ends
  have hends (c : Instr) (te : Int)
      (hexec : exec c s = .next { s with part := endFermata te s.part }) : ends c te := by
    rw [endFermata_eq] at hexec
    have hpart := fermataEnded_part te p
    rw [fermataCleared_part hrun] at hpart
    refine completes_of_exec hexec ⟨fermataEnded te p, takeCloses_taken _, ?_,
      fermataEnded_follower te hrun, fermataEnded_watches te p, ?_⟩
    · rw [hpart]
    · rw [hpart]
      exact ⟨rfl, rfl, ⟨rfl, rfl, rfl, rfl, rfl, rfl⟩, ⟨rfl, rfl, rfl, rfl⟩, rfl⟩
  refine ⟨fun hpending hpos => ?holds, fun hholding =>
    ⟨fun te hcutoff => hends .cutoff te (exec_cutoff hrun hholding hcutoff),
      fun hclock => hends .maxHoldExpiry p.clock (exec_maxHoldExpiry hrun hholding hclock),
      fun hlead hclock => hends .leadExpiry p.clock (exec_leadExpiry hrun hholding hlead ?lead)⟩⟩
  case holds =>
    have hexec := exec_fermataHoldingStart (holdingDue_of hrun hpending hpos)
    rw [startHolding_eq] at hexec
    refine completes_of_exec hexec ⟨trigger_report _, ?_⟩
    rw [trigger_report]
    exact fermataHeld_of (s := { s with part := holdingBegun p }) hrun rfl
  case lead =>
    unfold Part.leadTime
    rw [gapTime_eq]
    exact hclock
end

section
/-! SUPPORT. Key-offs and the completion tests they make in a DRAINING (R103, R137), the expiry of the
starve timer (R114) and the saturation of the clock (R124, R138). -/

open Sys2Proof

namespace Sys2Proof.Machine

/-- What the plan's operations cannot reach: the console's side, the slot, magnet power and the chain. -/
theorem PlanOnly.stands {p q : Part} (h : PlanOnly p q) :
    SameConsole p q ∧ SameService p q ∧ q.power = p.power ∧ q.chain = p.chain := by
  unfold PlanOnly at h
  rw [h]
  exact ⟨⟨rfl, rfl, rfl, rfl, rfl, rfl⟩, ⟨rfl, rfl, rfl, rfl⟩, rfl, rfl⟩

/-! ## Key-offs that end no plan (R137) -/

/-- Key-offs have left the notes `w` in the window: beside it they have reached the outputs, with what
their grants and releases mark, and nothing of the plan. -/
def KeyedOff (w : List Note) (p q : Part) : Prop :=
  q = { p with
    sched := { p.sched with window := w }
    keys := q.keys, guard := q.guard, listen := q.listen, attention := q.attention
    fresh := q.fresh }

theorem keyedOff_keyOff (w : List Note) (x : Note) (p : Part) :
    KeyedOff w p (putWindow w (keyOff x p)) := by
  apply part_ext <;> simp [putWindow]

namespace KeyedOff

theorem of_window {p : Part} {w : List Note} (h : p.sched.window = w) : KeyedOff w p p := by
  subst h
  rfl

theorem trans {v w : List Note} {p q r : Part} (hpq : KeyedOff v p q) (hqr : KeyedOff w q r) :
    KeyedOff w p r := by
  unfold KeyedOff at *
  conv => lhs; rw [hqr, hpq]

variable {w : List Note} {p q : Part} (h : KeyedOff w p q)
include h

theorem reader : q.reader = p.reader := by rw [h]
theorem player : q.player = p.player := by rw [h]
theorem follower : q.follower = p.follower := by rw [h]
theorem sched : q.sched = { p.sched with window := w } := by rw [h]
theorem softReset : q.softReset = p.softReset := by rw [h]
theorem satTaken : q.satTaken = p.satTaken := by rw [h]

/-- Which notes are never keyed is read off the line, the clock and the Player (log 28). -/
theorem neverKeyed (x : Note) : q.neverKeyed x = p.neverKeyed x := by
  rw [h]
  rfl

end KeyedOff

/-- Outside DRAINING, with the next buffer empty, key-offs take the selected SOUNDING notes off the
window. -/
theorem keyOffs_undrained (sel : Note → Bool) {p : Part} (hdrain : p.player.state ≠ .draining)
    (hplay : p.playing = true) (hnext : p.reader.next = .empty) :
    KeyedOff (keptNotes sel p.sched.window) p (keyOffs sel p) := by
  obtain ⟨q, hq, hpart, hreader⟩ := keyOffs_part sel hdrain hplay
  rw [hreader (by rw [hnext]; rfl)] at hpart
  rw [← hq]
  exact hpart

/-! ## The completion test of a DRAINING with the current passage alone (R103, R104) -/

/-- The Player drains, and of the two buffers the current one alone is occupied. -/
structure DrainsAlone (b : Buffer) (p : Part) : Prop where
  state : p.player.state = .draining
  current : p.reader.current = some b
  next : p.reader.next = .empty
  noReset : p.softReset = false

/-- The end of the plan when the current passage `b` of a DRAINING has completed: its SPENT write stands
(R33, R104, R127). -/
def drainOver (b : Buffer) (p : Part) : Part :=
  endPlan (askReader (.spent b.passage.ptr false)
    { p with reader := { p.reader with current := none, streamTimer := none } })

theorem playing_drainOver (b : Buffer) (p : Part) : (drainOver b p).playing = false := by
  rw [drainOver, endPlan_part]
  rfl

namespace DrainsAlone
variable {b : Buffer} {p : Part} (h : DrainsAlone b p)
include h

theorem playing : p.playing = true := by simp [Part.playing, h.state]

theorem keyedOff {w : List Note} {q : Part} (hq : KeyedOff w p q) : DrainsAlone b q :=
  ⟨by rw [hq.player, h.state], by rw [hq.reader, h.current], by rw [hq.reader, h.next],
    by rw [hq.softReset, h.noReset]⟩

/-- While a note of the passage is left the completion test finds nothing. -/
theorem completion_left (hleft : p.noteLeft b.planIndex = true) : completion p = p := by
  rw [Machine.completion_left h.current hleft]
  exact completeFinishing_none (by rw [h.next]; rfl)

/-- With no note of the passage left the plan is over. -/
theorem completion_done (hleft : p.noteLeft b.planIndex = false) : completion p = drainOver b p :=
  Machine.completion_done h.state h.current hleft h.next h.noReset

end DrainsAlone

/-- A note of a plan index is left where one in the window is not among those never keyed (R103). -/
theorem noteLeft_exists (p : Part) (idx : Nat) : p.noteLeft idx = true
    ↔ ∃ x ∈ p.sched.window, x.planIndex = idx ∧ p.neverKeyed x = false := by
  simp [Part.noteLeft]

theorem noteLeft_none (p : Part) (idx : Nat) : p.noteLeft idx = false
    ↔ ∀ x ∈ p.sched.window, x.planIndex = idx → p.neverKeyed x = true := by
  simp [Part.noteLeft]

/-! ## Key-offs in a DRAINING (R137) -/

/-- Key-offs that leave an awaited note of the passage end nothing: they take the selected SOUNDING notes off
the window. -/
theorem keyOffLoop_left {b : Buffer} (sel : Note → Bool) (l : List Note) :
    ∀ (kept : List Note) (p : Part), DrainsAlone b p → p.sched.window = kept ++ l →
    (∃ y ∈ kept ++ keptNotes sel l, y.planIndex = b.planIndex ∧ p.neverKeyed y = false) →
    KeyedOff (kept ++ keptNotes sel l) p (keyOffLoop sel kept l p) := by
  induction l with
  | nil => exact fun kept p _ hwindow _ => .of_window hwindow
  | cons x rest ih =>
    intro kept p hdrain hwindow hleft
    rw [keyOffLoop]
    split
    case isTrue hx =>
      rw [keptNotes_off rest hx] at hleft ⊢
      have hoff := keyedOff_keyOff (kept ++ rest) x p
      generalize putWindow (kept ++ rest) (keyOff x p) = c at hoff
      have hc := hdrain.keyedOff hoff
      simp only [← hoff.neverKeyed] at hleft
      have hnote : c.noteLeft b.planIndex = true := by
        obtain ⟨y, hy, hawaited⟩ := hleft
        rw [noteLeft_exists, hoff.sched]
        exact ⟨y, (List.filter_sublist.append_left kept).subset hy, hawaited⟩
      rw [hc.completion_left hnote, whilePlaying_of hc.playing]
      exact hoff.trans (ih kept c hc (by rw [hoff.sched]) hleft)
    case isFalse hx =>
      rw [keptNotes_on rest hx, List.append_cons] at hleft ⊢
      exact ih (kept ++ [x]) p hdrain (by rw [hwindow, List.append_cons]) hleft

/-- Key-offs that leave no awaited note of the passage end the plan, at the last of them or, where none is
made, at the completion test behind them (log 17). -/
theorem keyOffLoop_ends {b : Buffer} (sel : Note → Bool) (l : List Note) :
    ∀ (kept : List Note) (p : Part), DrainsAlone b p → p.sched.window = kept ++ l →
    (∀ y ∈ kept ++ keptNotes sel l, y.planIndex = b.planIndex → p.neverKeyed y = true) →
    ∃ w r, KeyedOff w p r
      ∧ whilePlaying completion (keyOffLoop sel kept l p) = drainOver b r := by
  induction l with
  | nil =>
    intro kept p hdrain hwindow hnone
    refine ⟨_, p, .of_window rfl, ?_⟩
    rw [keyOffLoop, whilePlaying_of hdrain.playing]
    exact hdrain.completion_done ((noteLeft_none _ _).2 (hwindow ▸ hnone))
  | cons x rest ih =>
    intro kept p hdrain hwindow hnone
    rw [keyOffLoop]
    split
    case isTrue hx =>
      rw [keptNotes_off rest hx] at hnone
      have hoff := keyedOff_keyOff (kept ++ rest) x p
      generalize putWindow (kept ++ rest) (keyOff x p) = c at hoff
      have hc := hdrain.keyedOff hoff
      cases hleft : c.noteLeft b.planIndex
      case true =>
        rw [hc.completion_left hleft, whilePlaying_of hc.playing]
        obtain ⟨w, r, hr, hends⟩ := ih kept c hc (by rw [hoff.sched]) fun y hy hidx =>
          (hoff.neverKeyed y).trans (hnone y hy hidx)
        exact ⟨w, r, hoff.trans hr, hends⟩
      case false =>
        have hover := playing_drainOver b c
        refine ⟨_, c, hoff, ?_⟩
        rw [hc.completion_done hleft, whilePlaying_of_not hover, whilePlaying_of_not hover]
    case isFalse hx =>
      rw [keptNotes_on rest hx, List.append_cons] at hnone
      exact ih (kept ++ [x]) p hdrain (by rw [hwindow, List.append_cons]) hnone

/-! ## The end of the plan (R127) -/

/-- What the end of a draining plan leaves. -/
theorem drainOver_ended (b : Buffer) (p : Part) : PlanEnded p.player.endReason
    (p.reader.line.map ReaderAccess.unheld ++ [.spent b.passage.ptr false]) p (drainOver b p) := by
  have hline : (p.reader.line ++ [ReaderAccess.spent b.passage.ptr false]).map ReaderAccess.unheld
      = p.reader.line.map ReaderAccess.unheld ++ [.spent b.passage.ptr false] := List.map_append
  rw [drainOver, endPlan_part, ← hline]
  exact ⟨rfl, rfl, ⟨rfl, rfl, rfl⟩, rfl, ⟨rfl, rfl⟩, latched_latch .ended _⟩

theorem drainOver_take (b : Buffer) (p : Part) : (drainOver b p).reader.take = p.reader.take := by
  rw [drainOver, endPlan_part]
  rfl

/-- The end of a plan is seen from any part that differs before it in what the beginning of a DRAINING
changes, and in nothing else of the Player, the reader and the follower. -/
theorem PlanEnded.of_before {why : EndReason} {line : List ReaderAccess} {p r q : Part}
    (hplayer : r.player = { p.player with
      state := r.player.state, endReason := r.player.endReason
      starveTimer := r.player.starveTimer })
    (hreader : r.reader = { p.reader with
      phase := r.reader.phase, lookTimer := r.reader.lookTimer, take := r.reader.take
      line := r.reader.line })
    (hfollower : r.follower = p.follower) (h : PlanEnded why line r q) :
    PlanEnded why line p q where
  player := by rw [h.player, hplayer]
  reader := by rw [h.reader, hreader]
  lists := h.lists
  follower := by rw [h.follower, hfollower]
  listen := h.listen
  latched := h.latched

/-! ## The starve timer (R114) -/

/-- STARVE_TIMER_EXPIRY in STARVED with the timer expired. -/
theorem exec_starveTimerExpiry {s : State} {e : Nat} (hstarved : s.part.player.state = .starved)
    (htimer : s.part.player.starveTimer = some e) (htime : e ≤ s.part.time) :
    exec .starveTimerExpiry s = .next { s with part := drainStarved .starved s.part } := by
  have hdue : starveDue s.part = true := by simp [starveDue, hstarved, htimer, expired, htime]
  exact (onPart_eq s _).trans (by rw [whenDue_of hdue])

/-- The part in DRAINING behind the key-offs of the end notes, before the completion test (R114). -/
def starvedDrain (p : Part) : Part := drainBegun .starved (keyOffEndNotes p)

theorem drainStarved_eq (p : Part) : drainStarved .starved p = completion (starvedDrain p) := rfl

/-- The end notes of the passage `b` (R101). -/
theorem endNote_of {p : Part} {b : Buffer} (hb : p.reader.current = some b) : endNote p
    = fun x => x.planIndex == b.planIndex && x.release == (b.passage.endPos : Int) := by
  funext x
  rw [endNote, hb]

/-- What the starve timer's expiry leaves for the completion test, with the next buffer empty. -/
theorem starvedDrain_part {p : Part} {b : Buffer} (hstarved : p.player.state = .starved)
    (hb : p.reader.current = some b) (hnext : p.reader.next = .empty) :
    (starvedDrain p).player = { p.player with
        state := .draining, endReason := .starved, starveTimer := none }
      ∧ (starvedDrain p).sched = { p.sched with window := p.sched.window.filter fun x =>
          !(x.state == .sounding
            && (x.planIndex == b.planIndex && x.release == (b.passage.endPos : Int))) }
      ∧ (starvedDrain p).reader = { p.reader with
          phase := if p.reader.phase = .endFound then .endFound else .off
          lookTimer := none, take := none, line := p.reader.line.filter fun a => !a.looks }
      ∧ (starvedDrain p).follower = p.follower ∧ (starvedDrain p).listen.queue = []
      ∧ (starvedDrain p).satTaken = p.satTaken ∧ (starvedDrain p).softReset = p.softReset := by
  have hoff := keyOffs_undrained (endNote p) (by simp [hstarved]) (by simp [Part.playing, hstarved])
    hnext
  have hoffs : keyOffEndNotes p = keyOffs (endNote p) p := rfl
  rw [starvedDrain, hoffs, drainBegun_part]
  rw [endNote_of hb] at hoff ⊢
  refine ⟨?_, hoff.sched, ?_, hoff.follower, rfl, hoff.satTaken, hoff.softReset⟩
  · rw [hoff.player]
  · rw [hoff.reader]

/-! ## The clock's saturation (R124, R138) -/

/-- CLOCK_SATURATION where the clock has come to its last value. -/
theorem exec_clockSaturation {s : State} (hclock : 4294967295 ≤ s.part.clock)
    (hsat : s.part.satTaken = false) :
    exec .clockSaturation s = .next { s with part := saturate s.part } := by
  have hdue : saturationDue s.part = true := by
    simp [saturationDue, hsat, Config.clockMax, hclock]
  exact (onPart_eq s _).trans (by rw [whenDue_of hdue])

/-- The part with the clock's saturation noted. -/
def Part.saturated (p : Part) : Part := { p with satTaken := true }

/-- Outside DRAINING the saturation is a lock request. -/
theorem saturate_undrained {p : Part} (h : p.player.state ≠ .draining) :
    saturate p = lockRequest .clock 0 p.saturated := if_neg h

/-- In DRAINING the saturation keys every SOUNDING note off. -/
theorem saturate_drains {p : Part} (h : p.player.state = .draining) : saturate p =
    whilePlaying completion (keyOffLoop (fun _ => true) [] p.sched.window p.saturated) := if_pos h

/-- A playing Player outside DRAINING locks with CLOCK. -/
theorem saturate_locks {p : Part} (h : p.player.state = .running ∨ p.player.state = .held
    ∨ p.player.state = .starved) :
    Locked .clock 0 p (saturate p) ∧ (saturate p).satTaken = true := by
  have hdrain : p.player.state ≠ .draining := by rcases h with h | h | h <;> rw [h] <;> decide
  have htaken : lockTaken .clock p.player.state = true := by
    rcases h with h | h | h <;> rw [h] <;> rfl
  rw [saturate_undrained hdrain, lockRequest_taken (p := p.saturated) 0 htaken]
  exact ⟨Locked.of_held (r := p.saturated) rfl rfl rfl rfl (lockPlayer_locked .clock 0 p.saturated),
    congrArg Part.satTaken (only_lockPlayer .clock 0 p.saturated)⟩

/-- Where no plan plays the saturation is noted and no more. -/
theorem saturate_idles {p : Part} (h : p.player.state = .idle ∨ p.player.state = .locked) :
    saturate p = p.saturated := by
  have hdrain : p.player.state ≠ .draining := by rcases h with h | h <;> rw [h] <;> decide
  have hignored : lockTaken .clock p.player.state = false := by
    rcases h with h | h <;> rw [h] <;> rfl
  rw [saturate_undrained hdrain]
  exact lockRequest_ignored (p := p.saturated) 0 hignored

/-- In a saturated DRAINING the notes never keyed are the PENDING ones whose keying time lies ahead of the
clock (log 28). -/
theorem neverKeyed_saturated {p : Part} (hdrain : p.player.state = .draining)
    (hclock : 4294967295 ≤ p.clock) (x : Note) : p.saturated.neverKeyed x = true ↔
      x.state = .pending ∧ (p.clock : Int) < p.follower.predict x.position - x.keyingLead := by
  have hsaturated : p.saturated.drainsSaturated = true := by
    simp [Part.drainsSaturated, Part.saturated, hdrain, Config.clockMax, hclock]
  simp only [Part.neverKeyed, hsaturated, Bool.true_and, Bool.and_eq_true, beq_iff_eq,
    decide_eq_true_eq]
  rfl

/-- With every SOUNDING note keyed off the others are left. -/
theorem keptNotes_all (l : List Note) :
    keptNotes (fun _ => true) l = l.filter fun x => x.state != .sounding := by
  simp [keptNotes, bne]

/-- A DRAINING in which a note is still awaited goes on at the saturation, without its SOUNDING notes. -/
theorem saturate_left {p : Part} {b : Buffer} (h : DrainsAlone b p.saturated)
    (hleft : ∃ x ∈ p.sched.window, x.planIndex = b.planIndex ∧ x.state ≠ .sounding
      ∧ p.saturated.neverKeyed x = false) :
    KeyedOff (p.sched.window.filter fun x => x.state != .sounding) p.saturated (saturate p) := by
  obtain ⟨x, hx, hidx, hsilent, hawaited⟩ := hleft
  have hmem : x ∈ keptNotes (fun _ => true) p.sched.window := by
    rw [keptNotes_all]
    exact List.mem_filter.2 ⟨hx, by simpa using hsilent⟩
  have hoff := keyOffLoop_left (fun _ => true) p.sched.window [] p.saturated h rfl
    ⟨x, hmem, hidx, hawaited⟩
  rw [List.nil_append, keptNotes_all] at hoff
  rw [saturate_drains (p := p) h.state]
  generalize keyOffLoop _ [] p.sched.window p.saturated = c at hoff
  have hc := h.keyedOff hoff
  have hnote : c.noteLeft b.planIndex = true := by
    rw [noteLeft_exists, hoff.sched]
    exact ⟨x, keptNotes_all p.sched.window ▸ hmem, hidx, (hoff.neverKeyed x).trans hawaited⟩
  rw [whilePlaying_of hc.playing, hc.completion_left hnote]
  exact hoff

/-- A DRAINING in which no note is awaited ends at the saturation. -/
theorem saturate_ends {p : Part} {b : Buffer} (h : DrainsAlone b p.saturated)
    (hnone : ∀ x ∈ p.sched.window, x.state ≠ .sounding → p.saturated.neverKeyed x = true) :
    ∃ w r, KeyedOff w p.saturated r ∧ saturate p = drainOver b r := by
  rw [saturate_drains (p := p) h.state]
  refine keyOffLoop_ends (fun _ => true) p.sched.window [] p.saturated h rfl fun x hx _ => ?_
  rw [List.nil_append, keptNotes_all] at hx
  obtain ⟨hx, hsilent⟩ := List.mem_filter.1 hx
  exact hnone x hx (by simpa using hsilent)

end Sys2Proof.Machine

open Sys2Proof Sys2Proof.Machine

/-- Settles O48: the starve timer's expiry drains behind the key-offs of the end notes; at saturation the
key-offs of a DRAINING leave the notes awaited, or end the plan where none is. -/
theorem starvingAndSaturationEndThePlan : Obligations.StarvingAndSaturationEndThePlan := by
  intro s p ended
  refine ⟨?starve, fun hclock hsat => ⟨fun hplays => ?locks, ?drains, fun hidle => ?idles⟩⟩
  case starve =>
    intro b e hstarved htimer htime hb hnext hsat hreset kept unlooked
    have hexec := exec_starveTimerExpiry hstarved htimer htime
    have hstands := (only_drainStarved .starved p).stands
    rw [drainStarved_eq] at hexec hstands
    obtain ⟨hplayer, hsched, hreader, hfollower, hqueue, hsatd, hresetd⟩ :=
      starvedDrain_part hstarved hb hnext
    generalize starvedDrain p = d at *
    have hdrain : DrainsAlone b d :=
      ⟨by rw [hplayer], by rw [hreader]; exact hb, by rw [hreader]; exact hnext, hresetd.trans hreset⟩
    have hleft : d.noteLeft b.planIndex = true ↔ ∃ x ∈ kept, x.planIndex = b.planIndex := by
      rw [noteLeft_unsaturated (hsatd.trans hsat), hsched]
    refine ⟨fun hnote => ?left, fun hnone => ?done⟩
    case left =>
      rw [hdrain.completion_left (hleft.2 hnote)] at hexec hstands
      exact completes_of_exec hexec ⟨hplayer, hsched, hreader, hfollower, hqueue, hstands⟩
    case done =>
      have hover := hdrain.completion_done (Bool.eq_false_iff.2 fun h => by
        obtain ⟨x, hx, hxidx⟩ := hleft.1 h
        exact hnone x hx hxidx)
      rw [hover] at hexec hstands
      have hends := (drainOver_ended b d).of_before (p := p) (by rw [hplayer]) (by rw [hreader])
        hfollower
      rw [hplayer, hreader] at hends
      exact completes_of_exec hexec ⟨⟨hends, hstands⟩,
        (drainOver_take b d).trans (by rw [hreader])⟩
  case locks => exact completes_of_exec (exec_clockSaturation hclock hsat) (saturate_locks hplays)
  case idles =>
    rw [exec_clockSaturation hclock hsat, saturate_idles hidle]
    rfl
  case drains =>
    intro b hdrain hb hnext hreset hidx awaited
    have hexec := exec_clockSaturation hclock hsat
    have halone : DrainsAlone b p.saturated := ⟨hdrain, hb, hnext, hreset⟩
    have hnever := neverKeyed_saturated hdrain hclock
    have honly : PlanOnly p.saturated (saturate p) := by
      rw [saturate_drains hdrain]
      exact (only_keyOffLoop _ _ _ _).trans (only_whilePlaying completion only_completion _)
    have hsaturated : (saturate p).satTaken = true := congrArg Part.satTaken honly
    have hstands := honly.stands
    refine ⟨fun hawaited => ?left, fun hnone => ?done⟩
    case left =>
      obtain ⟨x, hx, hsilent, hkeyed⟩ := hawaited
      have hoff := saturate_left halone
        ⟨x, hx, hidx x hx, hsilent, Bool.eq_false_iff.2 (mt (hnever x).1 hkeyed)⟩
      obtain ⟨hconsole, hservice, hpower, -⟩ := hstands
      exact completes_of_exec hexec ⟨hsaturated, hoff.player, hoff.reader, hoff.follower, hoff.sched,
        hconsole, hservice, hpower⟩
    case done =>
      obtain ⟨w, r, hoff, hends⟩ := saturate_ends halone fun x hx hsilent =>
        (hnever x).2 (not_not.1 fun hkeyed => hnone x hx ⟨hsilent, hkeyed⟩)
      have hplan := drainOver_ended b r
      rw [← hends, hoff.player, hoff.reader] at hplan
      refine completes_of_exec hexec ⟨hsaturated, hplan.of_before ?_ ?_ hoff.follower, hstands⟩
      · rw [hoff.player]
        rfl
      · rw [hoff.reader]
        rfl
end

section
/-! SUPPORT. The courses of an idle step (logs 3, 4): an event due, one that may come about, or a
microsecond. -/

namespace Sys2Proof.Machine

/-- With events due, an idle step queues one of them, with or without the use of a free value (log 4). -/
theorem idle_due {s : State} (h : dueEvents s.part ≠ []) : ∃ e ∈ dueEvents s.part,
    ∃ q, (q = s.part ∨ q = spend s.part) ∧ idle s = { s with pending := [e], part := q } := by
  unfold idle
  dsimp only
  split
  case h_1 e hdue => exact ⟨e, by simp [hdue], _, .inl rfl, rfl⟩
  case h_2 e more _ hdue =>
    refine ⟨_, ?_, _, .inr rfl, rfl⟩
    have hplace : Config.idleChoice s.part.fresh % (more.length + 1) < (e :: more).length :=
      Nat.mod_lt _ (Nat.succ_pos _)
    rw [hdue, List.getD_eq_getElem _ _ hplace]
    exact List.getElem_mem hplace
  case h_3 hdue => exact absurd hdue h

/-- Clearing can always end (R2), so while it lasts an event may come about. -/
theorem openEvents_clearing {p : Part} (h : p.clearing = true) : openEvents p ≠ [] := by
  simp [openEvents, one, h]

theorem mayTick_iff (p : Part) : mayTick p = true ↔ (p.clearing = true → p.clearFor < 1000) := by
  rw [mayTick, Bool.not_eq_true', Bool.and_eq_false_imp, decide_eq_false_iff_not, Nat.not_le]
  rfl

/-- With none due, an idle step queues an event that may come about, or, where time may pass, lets one
microsecond pass. -/
theorem idle_open {s : State} (h : dueEvents s.part = []) :
    (∃ e ∈ openEvents s.part, idle s = { s with pending := [e], part := spend s.part })
      ∨ mayTick s.part = true
        ∧ ∃ q, (q = tick s.part ∨ q = spend (tick s.part)) ∧ idle s = { s with part := q } := by
  unfold idle
  dsimp only
  rw [h]
  dsimp only
  split
  case h_1 hopen =>
    have htick : mayTick s.part = true :=
      (mayTick_iff _).2 fun hclearing => absurd hopen (openEvents_clearing hclearing)
    exact .inr ⟨htick, _, .inl rfl, rfl⟩
  case h_2 e more hopen =>
    split
    case h_1 i hi =>
      exact .inl ⟨i, by rw [hopen]; exact List.mem_of_getElem? hi, rfl⟩
    case h_2 hnone =>
      refine .inr ⟨?_, _, .inr rfl, rfl⟩
      by_contra htick
      rw [if_neg htick, List.getElem?_eq_none_iff] at hnone
      exact absurd (Nat.mod_lt _ (Nat.succ_pos more.length)) (Nat.not_lt.2 hnone)

end Sys2Proof.Machine

open Sys2Proof Sys2Proof.Machine

/-- Settles O2: by whether an event is due, the courses of the idle step. -/
theorem idleStepMovesTimeAlone : Obligations.IdleStepMovesTimeAlone := by
  intro s hpending p ticked
  have hstep : step s = .next (idle s) := by unfold step; rw [hpending]
  refine ⟨idle s, hstep, idle_store s, ?_⟩
  by_cases hdue : dueEvents p = []
  case neg =>
    obtain ⟨e, he, q, hq, hidle⟩ := idle_due hdue
    rw [hidle]
    rcases hq with rfl | rfl
    · exact ⟨.inl rfl, fun _ => ⟨e, he, rfl, rfl⟩, fun h => absurd h hdue⟩
    · exact ⟨.inr rfl, fun _ => ⟨e, he, rfl, rfl⟩, fun h => absurd h hdue⟩
  case pos =>
    have hticked : tick p = ticked := rfl
    have hfresh : (tick p).fresh = p.fresh := by unfold tick; split <;> rfl
    rcases idle_open hdue with ⟨e, he, hidle⟩ | ⟨hmay, q, hq, hidle⟩
    · rw [hidle]
      exact ⟨.inr rfl, fun h => absurd hdue h, fun _ => .inl ⟨e, he, rfl, rfl⟩⟩
    · rw [hidle]
      have hclear := (mayTick_iff p).1 hmay
      rcases hq with rfl | rfl
      · exact ⟨.inl hfresh, fun h => absurd hdue h, fun _ => .inr ⟨hclear, hpending, rfl⟩⟩
      · exact ⟨.inr (congrArg (· + 1) hfresh), fun h => absurd hdue h,
          fun _ => .inr ⟨hclear, hpending, rfl⟩⟩
end

section
/-! SUPPORT. HALT while no plan plays (R45, R121): a SETUP copy stopped, and a TEST ended (R180), with the
output under test, the slots it frees and the requests that wait. -/

open Sys2Proof

namespace Sys2Proof.Machine

/-! ## HALT with no plan playing (R45, R121) -/

/-- The Player takes no notice of HALT in IDLE or LOCKED (R121). -/
theorem haltAction_unplayed {p : Part} (h : (haltSlot (recordTransfer .accepted p)).playing = false) :
    haltAction p = haltSlot (recordTransfer .accepted p) :=
  if_neg (Bool.eq_false_iff.1 h)

theorem playing_of_rest {p : Part} (h : p.player.state = .idle ∨ p.player.state = .locked) :
    p.playing = false := by
  unfold Part.playing
  rcases h with h | h <;> rw [h] <;> rfl

/-- The slot takes no notice of HALT but in COPYING and TESTING (R45). -/
theorem haltSlot_passed {p : Part} (h : p.slot.phase = .free ∨ p.slot.phase = .reading
    ∨ p.slot.phase = .applying ∨ p.slot.phase = .closing) : haltSlot p = p := by
  have hphase : p.slot.phase ≠ .copying ∧ p.slot.phase ≠ .testing := by
    rcases h with h | h | h | h <;> rw [h] <;> decide
  exact haltSlot_stands hphase.1 hphase.2

theorem haltSlot_copying {p : Part} (h : p.slot.phase = .copying) :
    haltSlot p = closeSlot .aborted .halted (stopCopy p) := by
  unfold haltSlot
  rw [h]

theorem haltSlot_testing {p : Part} (h : p.slot.phase = .testing) : haltSlot p = haltTest p := by
  unfold haltSlot
  rw [h]

/-! ## The output under test (R180) -/

/-- A HALT meets the output under test: it has been test-pulled and has not yet settled. -/
abbrev Test.metByHalt (t : Test) (p : Part) : Prop :=
  t.stage = .pulled ∧ ((entry p.keys.entries t.output).state = .waiting
    ∨ (entry p.keys.entries t.output).state = .pull ∨ (entry p.keys.entries t.output).state = .pulse)

/-- The part with the output under test met by a HALT, the TEST not yet closed. -/
def Test.halted (t : Test) (p : Part) : Part :=
  if t.metByHalt p then
    if t.marked then disableOutput t.output p
    else if (entry p.keys.entries t.output).state = .waiting then setEntry t.output KeyEntry.idle p
    else testRelease t.output p
  else p

/-- HALT meets the output under test and closes the TEST. -/
theorem haltTest_eq {p : Part} {t : Test} (h : p.guard.test = some t) :
    haltTest p = finishTest .aborted .halted (t.halted p) := by
  unfold haltTest Test.halted Test.metByHalt
  rw [h]
  dsimp only
  congr 1
  by_cases hpulled : t.stage = .pulled
  case neg => rw [if_neg hpulled, if_neg fun hmet => hpulled hmet.1]
  case pos =>
    rw [if_pos hpulled]
    cases (entry p.keys.entries t.output).state <;> simp [hpulled]

theorem Test.halted_unmet {t : Test} {p : Part} (h : ¬t.metByHalt p) : t.halted p = p := if_neg h

/-- What HALT makes of the entry of the output it meets: DISABLED again where it was marked, OFF from
WAITING, SETTLE with count 0 from PULL and PULSE. -/
def Test.haltedEntry (t : Test) (p : Part) : KeyEntry :=
  if t.marked then { KeyEntry.idle with state := .disabled }
  else if (entry p.keys.entries t.output).state = .waiting then KeyEntry.idle
  else settled (p.time + 1000 * p.setup.settle) (entry p.keys.entries t.output)

theorem Test.haltedEntry_marked {t : Test} (h : t.marked = true) (p : Part) :
    t.haltedEntry p = { KeyEntry.idle with state := .disabled } := if_pos h

theorem Test.haltedEntry_waiting {t : Test} {p : Part} (h : t.marked = false)
    (hstate : (entry p.keys.entries t.output).state = .waiting) :
    t.haltedEntry p = KeyEntry.idle := by
  rw [Test.haltedEntry, if_neg (Bool.eq_false_iff.1 h), if_pos hstate]

theorem Test.haltedEntry_driven {t : Test} {p : Part} (h : t.marked = false)
    (hstate : (entry p.keys.entries t.output).state ≠ .waiting) : t.haltedEntry p
      = settled (p.time + 1000 * p.setup.settle) (entry p.keys.entries t.output) := by
  rw [Test.haltedEntry, if_neg (Bool.eq_false_iff.1 h), if_neg hstate]

/-- An output met neither waits nor uses a slot any more. -/
theorem Test.haltedEntry_state (t : Test) (p : Part) :
    (t.haltedEntry p).state ≠ .waiting ∧ (t.haltedEntry p).state.usesSlot = false := by
  unfold Test.haltedEntry
  split
  · decide
  · split
    · decide
    · exact ⟨KeyState.noConfusion, rfl⟩

theorem disableOutput_active {p : Part} {n : OutputId}
    (h : (entry p.keys.entries n).state ≠ .disabled) :
    disableOutput n p = grants (setEntry n { KeyEntry.idle with state := .disabled } p) := if_neg h

theorem enterSettle_loaded {p : Part} (h : p.setupLoaded = true) (n : OutputId) : enterSettle n p
    = setEntry n (settled (p.time + 1000 * p.setup.settle) (entry p.keys.entries n)) p := by
  simp [enterSettle, settleTime, spendFresh, h]

theorem testRelease_loaded {p : Part} {n : OutputId} (hloaded : p.setupLoaded = true)
    (h : (entry p.keys.entries n).state = .pull ∨ (entry p.keys.entries n).state = .pulse) :
    testRelease n p = grants (setEntry n
      (settled (p.time + 1000 * p.setup.settle) (entry p.keys.entries n)) p) := by
  rw [← enterSettle_loaded hloaded]
  exact if_pos (h.elim .inl fun hpulse => .inr (.inr hpulse))

/-- The output met takes its new entry, and what it frees is granted on, but where it only waited. -/
theorem Test.halted_met {t : Test} {p : Part} (hloaded : p.setupLoaded = true) (h : t.metByHalt p) :
    t.halted p = setEntry t.output (t.haltedEntry p) p
      ∨ t.halted p = grants (setEntry t.output (t.haltedEntry p) p) := by
  have hactive : (entry p.keys.entries t.output).state ≠ .disabled := by
    rcases h.2 with h | h | h <;> rw [h] <;> decide
  unfold Test.halted
  rw [if_pos h]
  cases hmarked : t.marked with
  | true => exact .inr (by rw [t.haltedEntry_marked hmarked]; exact disableOutput_active hactive)
  | false =>
    rw [if_neg Bool.false_ne_true]
    by_cases hwaits : (entry p.keys.entries t.output).state = .waiting
    · exact .inl (by rw [Test.haltedEntry_waiting hmarked hwaits, if_pos hwaits])
    · rw [Test.haltedEntry_driven hmarked hwaits, if_neg hwaits]
      exact .inr (testRelease_loaded hloaded (h.2.resolve_left hwaits))

/-- HALT at the output under test reaches the Key Table, the detectors and the Listening Unit, and a free
value while no setup is in force (log 18). -/
theorem Test.halted_part (t : Test) (p : Part) : t.halted p = { p with
    keys := (t.halted p).keys, guard := (t.halted p).guard, listen := (t.halted p).listen
    fresh := (t.halted p).fresh } := by
  unfold Test.halted
  split
  · split
    · apply part_ext <;> simp
    · split
      · rfl
      · apply part_ext <;> simp
  · rfl

theorem Test.halted_fresh {t : Test} {p : Part} (hloaded : p.setupLoaded = true) :
    (t.halted p).fresh = p.fresh := by
  by_cases hmet : t.metByHalt p
  · rcases t.halted_met hloaded hmet with h | h <;> rw [h] <;> simp
  · rw [Test.halted_unmet hmet]

/-! ## The slots an entry frees (R152, R153) -/

/-- Slots in use after an entry that uses none has been put. -/
theorem slotsInUse_setEntry {n : OutputId} {e : KeyEntry} (he : e.state.usesSlot = false) (p : Part) :
    slotsInUse (setEntry n e p).keys.entries = slotsInUse p.keys.entries
      - if (entry p.keys.entries n).state.usesSlot then 1 else 0 := by
  show slotsInUse (put p.keys.entries n e) = _
  cases h : (entry p.keys.entries n).state.usesSlot with
  | false => exact slotsInUse_put (by rw [he, h])
  | true => exact Nat.eq_sub_of_add_eq (slotsInUse_put_less h he)

/-- A limit being lowered to 1 that stands at the slots in use goes down with the slot an entry frees. -/
theorem setEntry_lowers {p : Part} {n : OutputId} {e : KeyEntry} (he : e.state.usesSlot = false)
    (htarget : p.keys.slotTarget = 1) (hlimit : p.keys.slotLimit = max 1 (slotsInUse p.keys.entries)) :
    (setEntry n e p).keys.slotLimit = max 1 (slotsInUse (setEntry n e p).keys.entries) := by
  rw [slotsInUse_setEntry he]
  cases h : (entry p.keys.entries n).state.usesSlot with
  | false => rw [setEntry_slotLimit (by rw [h]; rfl), hlimit]; rfl
  | true =>
    have hlower : (setEntry n e p).keys.slotLimit
        = lowerLimit (max 1 (slotsInUse p.keys.entries)) 1 1 := by
      simp [setEntry, h, he, htarget, hlimit]
    rw [hlower, lowerLimit, if_pos rfl]
    split <;> omega

/-! ## The end of a TEST (R153, R180) -/

theorem finishTest_part (o : SlotOutcome) (d : SlotDetail) (p : Part) : finishTest o d p = { p with
    slot := { p.slot with phase := .closing }
    svcLine := p.svcLine ++ [.writeDetail d.code, .writeCode o.code]
    keys := (finishTest o d p).keys, guard := (finishTest o d p).guard
    listen := (finishTest o d p).listen } := setSlotLimit_part _ _

/-- The end of a TEST, with or without grants just before it, leaves the entry and the detector of an
output that does not wait. -/
theorem finishTest_spares {x y : Part} (h : y = x ∨ y = grants x) (o : SlotOutcome) (d : SlotDetail)
    {m : OutputId} (hm : m ∉ x.keys.queue) :
    entry (finishTest o d y).keys.entries m = entry x.keys.entries m
      ∧ entry (finishTest o d y).guard.detectors m = entry x.guard.detectors m := by
  rcases h with rfl | rfl
  · exact finishTest_rest o d hm
  · obtain ⟨hentry, hdetector⟩ := finishTest_rest o d (grants_queue hm)
    exact ⟨hentry.trans (grants_entry hm), hdetector.trans (grants_detector hm)⟩

theorem haltTest_part {p : Part} {t : Test} (h : p.guard.test = some t) : haltTest p = { p with
    slot := { p.slot with phase := .closing }
    svcLine := p.svcLine ++ [.writeDetail 8, .writeCode 6]
    keys := (haltTest p).keys, guard := (haltTest p).guard, listen := (haltTest p).listen
    fresh := (t.halted p).fresh } := by
  have hend := finishTest_part .aborted .halted (t.halted p)
  rw [haltTest_eq h]
  generalize finishTest .aborted .halted (t.halted p) = q at *
  rw [hend, t.halted_part]
  rfl

/-- HALT of a TEST closes the command, and the plan and magnet power stand. -/
theorem haltTest_closes {p : Part} {t : Test} (h : p.guard.test = some t) :
    EndsWith 6 8 p (haltTest p) ∧ SamePlan p (haltTest p) ∧ (haltTest p).power = p.power := by
  rw [haltTest_part h]
  exact ⟨⟨rfl, rfl⟩, ⟨rfl, rfl, rfl, rfl⟩, rfl⟩

theorem haltTest_slotTarget {p : Part} {t : Test} (h : p.guard.test = some t) :
    (haltTest p).keys.slotTarget = p.setup.pmax := by
  rw [haltTest_eq h, finishTest, setSlotLimit_slotTarget, Test.halted_part]

/-- HALT of a TEST gives the output it meets its new entry. -/
theorem haltTest_met_entry {p : Part} {t : Test} (h : p.guard.test = some t)
    (hloaded : p.setupLoaded = true) (hmet : t.metByHalt p) :
    entry (haltTest p).keys.entries t.output = t.haltedEntry p := by
  have hgone : t.output ∉ (setEntry t.output (t.haltedEntry p) p).keys.queue := by
    simp [(t.haltedEntry_state p).1]
  rw [haltTest_eq h, (finishTest_spares (t.halted_met hloaded hmet) _ _ hgone).1, setEntry_entry,
    if_pos rfl]

/-- HALT of a TEST leaves the entry and the detector of every output that does not wait, but of the one it
meets. -/
theorem haltTest_spares {p : Part} {t : Test} (h : p.guard.test = some t)
    (hq : QueueExact p.keys) (hloaded : p.setupLoaded = true) {m : OutputId}
    (hm : m ≠ t.output ∨ ¬t.metByHalt p) (hstate : (entry p.keys.entries m).state ≠ .waiting) :
    entry (haltTest p).keys.entries m = entry p.keys.entries m
      ∧ entry (haltTest p).guard.detectors m = entry p.guard.detectors m := by
  have hout : m ∉ p.keys.queue := fun hin => hstate ((hq.1 m).1 hin)
  rw [haltTest_eq h]
  by_cases hmet : t.metByHalt p
  · have hne : m ≠ t.output := hm.resolve_right (not_not_intro hmet)
    obtain ⟨hentry, hdetector⟩ := finishTest_spares (t.halted_met hloaded hmet) .aborted .halted
      (m := m) (by simp [(t.haltedEntry_state p).1, hout])
    rw [hentry, hdetector, setEntry_entry, if_neg hne]
    exact ⟨rfl, entry_put_other _ _ _ _ hne⟩
  · exact finishTest_spares (.inl (Test.halted_unmet hmet)) _ _ hout

/-- Where HALT does not meet the output under test, Pmax alone decides on the requests that wait. -/
theorem haltTest_unmet_course {p : Part} {t : Test} (h : p.guard.test = some t)
    (hq : QueueExact p.keys) (hloaded : p.setupLoaded = true) (hmet : ¬t.metByHalt p)
    {before behind : List OutputId} {m : OutputId} (hplace : p.keys.queue = before ++ m :: behind) :
    entry (haltTest p).keys.entries m =
      if slotsInUse p.keys.entries + before.length < p.setup.pmax then
        (entry p.keys.entries m).granted p.setup p.time
      else entry p.keys.entries m := by
  rw [haltTest_eq h, Test.halted_unmet hmet]
  exact finishTest_course hq hloaded _ _ hplace

/-- Where HALT meets the output under test, its request leaves the queue or its slot is free, and Pmax
decides on the others that wait. -/
theorem haltTest_met_course {p : Part} {t : Test} (h : p.guard.test = some t)
    (hq : QueueExact p.keys) (hloaded : p.setupLoaded = true) (hmet : t.metByHalt p)
    (htarget : p.keys.slotTarget = 1) (hlimit : p.keys.slotLimit = max 1 (slotsInUse p.keys.entries))
    (hpmax : 1 ≤ p.setup.pmax) {before behind : List OutputId} {m : OutputId}
    (hplace : p.keys.queue.filter (· != t.output) = before ++ m :: behind) :
    entry (haltTest p).keys.entries m =
      if slotsInUse p.keys.entries
          - (if (entry p.keys.entries t.output).state = .waiting then 0 else 1) + before.length
          < p.setup.pmax then
        (entry p.keys.entries m).granted p.setup p.time
      else entry p.keys.entries m := by
  obtain ⟨hawake, hfree⟩ := t.haltedEntry_state p
  obtain ⟨hexact, hqueue⟩ := setEntry_exact hq t.output hawake
  have hcourse : entry (haltTest p).keys.entries m =
      if slotsInUse (setEntry t.output (t.haltedEntry p) p).keys.entries + before.length
          < p.setup.pmax then
        (entry (setEntry t.output (t.haltedEntry p) p).keys.entries m).granted p.setup p.time
      else entry (setEntry t.output (t.haltedEntry p) p).keys.entries m := by
    rw [haltTest_eq h]
    rcases t.halted_met hloaded hmet with hpart | hpart <;> rw [hpart]
    · exact finishTest_course hexact hloaded _ _ (hqueue.trans hplace)
    · exact finishTest_after_grants hexact hloaded _ _ (setEntry_lowers hfree htarget hlimit) hpmax
        (hqueue.trans hplace)
  have hne : m ≠ t.output := by
    have hin : m ∈ p.keys.queue.filter (· != t.output) := by rw [hplace]; simp
    simpa using (List.mem_filter.1 hin).2
  have hslot : (if (entry p.keys.entries t.output).state.usesSlot then 1 else 0)
      = if (entry p.keys.entries t.output).state = .waiting then 0 else 1 := by
    rcases hmet.2 with h | h | h <;> rw [h] <;> rfl
  rw [hcourse, slotsInUse_setEntry hfree, hslot, setEntry_entry, if_neg hne]

end Sys2Proof.Machine

open Sys2Proof Sys2Proof.Machine

/-- Settles O17: HALT passes the Player by; at the slot a copy is closed, and a TEST is ended with its
output met or left, the requests granted behind it. -/
theorem haltOutsideAPlanActsOnTheSlot : Obligations.HaltOutsideAPlanActsOnTheSlot := by
  intro s hopen hrest
  have hexec : exec .halt s = .next { s with part := haltAction s.part } := by
    rw [← transferWrite_halt, ← present_transfer _ hopen]
    rfl
  have hplaying := playing_of_rest hrest
  refine ⟨fun hphase => ?stands, fun hcopy => ?copy, fun t htesting htest => ?test⟩
  case stands =>
    have hslot := haltSlot_passed (p := recordTransfer .accepted s.part) hphase
    rw [hexec, haltAction_unplayed (by rw [hslot]; exact hplaying), hslot]
    rfl
  case copy =>
    have hslot := haltSlot_copying (p := recordTransfer .accepted s.part) hcopy
    rw [hexec, haltAction_unplayed (by rw [hslot]; exact hplaying), hslot]
    rfl
  case test =>
    intro p n e met
    have hslot := haltSlot_testing (p := recordTransfer .accepted s.part) htesting
    have htaken : (recordTransfer .accepted s.part).guard.test = some t := htest
    have hpart := haltTest_part htaken
    rw [haltAction_unplayed (by rw [hslot, hpart]; exact hplaying), hslot] at hexec
    obtain ⟨hends, hplan, hpower⟩ := haltTest_closes htaken
    have ⟨_, _, hplayer, _⟩ := hplan
    refine completes_of_exec hexec ⟨hplayer, ?gone, hends, haltTest_slotTarget htaken, hpower,
      hplan, fun hq hloaded => ⟨?part, fun hmet => ?met, fun hleft => ?left, fun m hm => ?others,
        fun hmet before m behind => ?waiting, fun hmet htarget hlimit hpmax before m behind => ?queued⟩⟩
    case gone => rw [haltTest_eq htaken, finishTest_test]
    case part =>
      obtain ⟨hclosing, hline⟩ := hends
      have hfresh := t.halted_fresh (p := recordTransfer .accepted s.part) hloaded
      rw [hfresh] at hpart
      rw [hclosing, hline]
      exact hpart
    case met =>
      have hentry := haltTest_met_entry htaken hloaded hmet
      refine ⟨fun hmarked => ?_, fun hmarked hwaits => ?_, fun hmarked hdriven => ?_⟩
      · exact hentry.trans (t.haltedEntry_marked hmarked _)
      · exact hentry.trans (t.haltedEntry_waiting hmarked hwaits)
      · exact hentry.trans (t.haltedEntry_driven hmarked hdriven)
    case left =>
      have hunmet : ¬met ∧ e.state ≠ .waiting := by
        rcases hleft with h | h <;> simp [met, h]
      exact (haltTest_spares htaken hq hloaded (.inr hunmet.1) hunmet.2).1
    case others => exact haltTest_spares htaken hq hloaded hm
    case waiting => exact haltTest_unmet_course htaken hq hloaded hmet
    case queued => exact haltTest_met_course htaken hq hloaded hmet htarget hlimit hpmax
end

section
/-! SUPPORT. CLEAR (R125): the outputs at rest put OFF one by one, and the command at its owner. -/

open Sys2Proof

namespace Sys2Proof.Machine

theorem atRest_usesNoSlot {st : KeyState} (h : st.atRest = true) : st.usesSlot = false := by
  cases st <;> simp_all [KeyState.atRest, KeyState.usesSlot]

/-- An output at rest put OFF takes no request from the queue (R150) and frees no slot (R153). -/
theorem setEntry_rest {p : Part} {n : OutputId} (hq : QueueExact p.keys)
    (h : (entry p.keys.entries n).state.atRest = true) : ∃ detectors,
    setEntry n KeyEntry.idle p = { p with
      keys := { p.keys with entries := put p.keys.entries n KeyEntry.idle }
      guard := { p.guard with detectors := detectors } } := by
  have hqueue : (setEntry n KeyEntry.idle p).keys.queue = p.keys.queue := by
    rw [setEntry_queue, if_neg (by decide), queue_without hq (atRest_not_waiting h)]
  have hlimit : (setEntry n KeyEntry.idle p).keys.slotLimit = p.keys.slotLimit :=
    setEntry_slotLimit (by rw [atRest_usesNoSlot h]; rfl)
  refine ⟨(setEntry n KeyEntry.idle p).guard.detectors, ?_⟩
  calc setEntry n KeyEntry.idle p = { p with
        keys := { p.keys with
          entries := put p.keys.entries n KeyEntry.idle
          queue := (setEntry n KeyEntry.idle p).keys.queue
          slotLimit := (setEntry n KeyEntry.idle p).keys.slotLimit }
        guard := (setEntry n KeyEntry.idle p).guard } := rfl
    _ = _ := by rw [hqueue, hlimit]; rfl

/-- A list of outputs at rest put OFF: their entries and detectors alone change. -/
theorem putOff_part (l : List OutputId) : ∀ {p : Part}, QueueExact p.keys →
    (∀ n ∈ l, (entry p.keys.entries n).state.atRest = true) → ∃ entries detectors,
      l.foldl (fun acc n => setEntry n KeyEntry.idle acc) p = { p with
        keys := { p.keys with entries := entries }
        guard := { p.guard with detectors := detectors } }
      ∧ ∀ m, entry entries m = if m ∈ l then KeyEntry.idle else entry p.keys.entries m := by
  induction l with
  | nil => exact fun {p} _ _ => ⟨p.keys.entries, p.guard.detectors, rfl, by simp⟩
  | cons n rest ih =>
    intro p hq hrest
    rw [List.forall_mem_cons] at hrest
    obtain ⟨hn, hrest⟩ := hrest
    obtain ⟨entries, detectors, hpart, hentry⟩ := ih
      (setEntry_exact hq n (e := KeyEntry.idle) (by decide)).1 (fun m hm => by
        rw [setEntry_entry]
        split
        · rfl
        · exact hrest m hm)
    obtain ⟨_, hoff⟩ := setEntry_rest hq hn
    refine ⟨entries, detectors, ?_, fun m => ?_⟩
    · rw [List.foldl_cons, hpart, hoff]
    · rw [hentry, setEntry_entry]
      by_cases hm : m = n <;> simp [hm]

theorem mem_disabledOutputs (p : Part) (n : OutputId) :
    n ∈ disabledOutputs p ↔ (entry p.keys.entries n).state = .disabled := by
  simp [disabledOutputs, mem_allOutputs]

/-- The part with its DISABLED outputs OFF and the rewrites of their flags asked for (R125, log 44). -/
def Part.reenabled (p : Part) : Part :=
  enableAll { p with svcLine := p.svcLine ++ (disabledOutputs p).map .clearRead }

/-- Every DISABLED output becomes OFF, and no other entry changes. -/
theorem reenabled_part {p : Part} (hq : QueueExact p.keys) : ∃ entries detectors,
    p.reenabled = { p with
      keys := { p.keys with entries := entries }
      guard := { p.guard with detectors := detectors }
      svcLine := p.svcLine ++ (disabledOutputs p).map .clearRead }
    ∧ ∀ n, entry entries n = if (entry p.keys.entries n).state = .disabled then KeyEntry.idle
        else entry p.keys.entries n := by
  obtain ⟨entries, detectors, hpart, hentry⟩ := putOff_part (disabledOutputs p)
    (p := { p with svcLine := p.svcLine ++ (disabledOutputs p).map .clearRead }) hq
    (fun n hn => by rw [(mem_disabledOutputs p n).1 hn]; rfl)
  simp only [mem_disabledOutputs] at hentry
  exact ⟨entries, detectors, hpart, hentry⟩

/-- CLEAR re-enables the outputs, and the Player leaves LOCKED behind them. -/
theorem clearCommand_eq (p : Part) : clearCommand p = commandOk
    (if p.reenabled.player.state = .locked then moveTo .idle p.reenabled else p.reenabled) := rfl

theorem exec_clear {s : State} (h : s.part.atOwner cmdClear) :
    exec .clear s = .next { s with part := clearCommand s.part } :=
  onPart_atOwner h clearCommand

theorem commandOk_part (p : Part) : commandOk p = { p with
    slot := { p.slot with phase := .closing }
    svcLine := p.svcLine ++ [.writeDetail 0, .writeCode 1] } := rfl

end Sys2Proof.Machine

open Sys2Proof Sys2Proof.Machine

/-- Settles O33: the outputs go OFF, and a LOCKED Player returns to IDLE behind them. -/
theorem clearReenablesAndUnlocks : Obligations.ClearReenablesAndUnlocks := by
  intro s howner hq p
  obtain ⟨entries, detectors, hpart, hentry⟩ := reenabled_part hq
  have hexec := exec_clear howner
  have hplayer : s.part.reenabled.player = p.player := by rw [hpart]
  by_cases hlocked : p.player.state = .locked
  case pos =>
    rw [clearCommand_eq, hplayer, if_pos hlocked, moveTo_leaves (by decide), commandOk_part, hpart] at hexec
    exact completes_of_exec hexec ⟨rfl, hentry, fun _ => ⟨rfl, rfl⟩, fun h => absurd hlocked h⟩
  case neg =>
    rw [clearCommand_eq, hplayer, if_neg hlocked, commandOk_part, hpart] at hexec
    exact completes_of_exec hexec ⟨rfl, hentry, fun h => absurd h hlocked, fun _ => ⟨rfl, rfl, rfl⟩⟩
end

section
/-! SUPPORT. The slice (R133 to R137, R142, R143): what is due at it, its three walks while the plan goes
on, the slices that end a DRAINING, and the slices of a single note or step. -/

open Sys2Proof

namespace Sys2Proof.Machine

/-! ## What is due at a slice (R134) -/

/-- A position is at or after the fermata bar (R105). -/
def Part.AtBar (p : Part) (pos : Int) : Prop := ∃ b, p.bar = some b ∧ b ≤ pos

/-- A SOUNDING note whose release time has come, not withheld (R134, R137). -/
def Part.KeyOffDue (p : Part) (x : Note) : Prop :=
  x.state = .sounding ∧ releaseTime p.follower x ≤ p.now
    ∧ ¬(p.player.state = .held ∧ x.planIndex ≠ p.sched.finishingIndex)
    ∧ ¬p.AtBar x.release
    ∧ ¬(p.courseSettled = false ∧ ∃ b, p.reader.current = some b
        ∧ x.planIndex = b.planIndex ∧ x.release = b.passage.endPos)

/-- A key-on or a step is free of what withholds it (R134). -/
def Part.FreeOn (p : Part) (pos : Int) (idx : Nat) (hold : Bool) : Prop :=
  p.player.state ≠ .held ∧ ¬p.AtBar pos
    ∧ ¬(p.player.state ≠ .draining ∧ idx ≠ p.sched.curIndex ∧ hold = true)

/-- A PENDING note whose keying time has come, not withheld (R134, R135). -/
def Part.KeyOnDue (p : Part) (x : Note) : Prop :=
  x.state = .pending ∧ keyingTime p.follower x ≤ p.now
    ∧ p.FreeOn x.position x.planIndex x.holdAtEntry

/-- A step whose time has come, not withheld (R134, R142). -/
def Part.StepDue (p : Part) (x : Step) : Prop :=
  stepTime p.setup p.follower x ≤ p.now ∧ p.FreeOn x.position x.planIndex x.holdAtEntry

theorem barred_iff (p : Part) (pos : Int) : barred p.bar pos = true ↔ p.AtBar pos := by
  unfold barred Part.AtBar
  cases p.bar <;> simp

theorem endNote_iff (p : Part) (x : Note) : endNote p x = true ↔ ∃ b, p.reader.current = some b
    ∧ x.planIndex = b.planIndex ∧ x.release = b.passage.endPos := by
  unfold endNote
  cases p.reader.current <;> simp

theorem offWithheld_iff (p : Part) (x : Note) : offWithheld p x = false ↔
    ¬(p.player.state = .held ∧ x.planIndex ≠ p.sched.finishingIndex) ∧ ¬p.AtBar x.release
      ∧ ¬(p.courseSettled = false ∧ ∃ b, p.reader.current = some b
          ∧ x.planIndex = b.planIndex ∧ x.release = b.passage.endPos) := by
  rw [← barred_iff, ← endNote_iff]
  simp [offWithheld, and_assoc]

theorem onWithheld_iff (p : Part) (pos : Int) (idx : Nat) (hold : Bool) :
    onWithheld p pos idx hold = false ↔ p.FreeOn pos idx hold := by
  unfold Part.FreeOn
  rw [← barred_iff]
  simp [onWithheld, and_assoc]

/-- Before the clock has saturated a walk of key-offs takes the notes whose key-off is due. -/
theorem offDue_iff {p : Part} (h : p.drainsSaturated = false) (x : Note) :
    (x.state = .sounding ∧ offDue p x = true) ↔ p.KeyOffDue x := by
  unfold Part.KeyOffDue
  rw [← offWithheld_iff]
  simp [offDue, h]

theorem onDue_iff (p : Part) (x : Note) : onDue p x = true ↔ p.KeyOnDue x := by
  unfold Part.KeyOnDue
  rw [← onWithheld_iff]
  simp [onDue, and_assoc]

theorem stepDue_iff (p : Part) (x : Step) : stepDue p x = true ↔ p.StepDue x := by
  unfold Part.StepDue
  rw [← onWithheld_iff]
  simp [stepDue]

/-- A DRAINING the saturation has not been taken in is not saturated, nor is any other state (R124). -/
theorem drainsSaturated_false {p : Part} (h : p.player.state = .draining → p.satTaken = false) :
    p.drainsSaturated = false := by
  by_cases hdrain : p.player.state = .draining
  · simp [Part.drainsSaturated, h hdrain]
  · simp [Part.drainsSaturated, hdrain]

/-! ## A slice as a command -/

/-- SLICE with the next slice come. -/
theorem exec_slice {s : State} (hclear : s.part.clearing = false)
    (hslice : s.part.sched.nextSlice ≤ s.part.time) :
    exec .slice s = .next { s with part := sliceStep s.part } := by
  have hdue : sliceDue s.part = true := by simp [sliceDue, hclear, hslice]
  exact (onPart_eq s _).trans (by rw [whenDue_of hdue])

theorem sliceStep_idles {p : Part} (h : p.playing = false) : sliceStep p = nextSliceSet p :=
  whilePlaying_of_not (p := nextSliceSet p) h evaluate

theorem sliceStep_plays {p : Part} (h : p.playing = true) :
    sliceStep p = evaluate (nextSliceSet p) := whilePlaying_of (p := nextSliceSet p) h evaluate

/-- Whether a plan plays is read off the Player. -/
theorem playing_of_player {p q : Part} (h : q.player = p.player) : q.playing = p.playing := by
  unfold Part.playing
  rw [h]

/-- A slice whose key-offs end the plan does no more. -/
theorem evaluate_ended {p : Part} (hoff : (keyOffs (offDue p) p).playing = false) :
    evaluate p = keyOffs (offDue p) p := by
  unfold evaluate
  rw [whilePlaying_of_not hoff, whilePlaying_of_not hoff]

theorem issueSteps_playing (due : Step → Bool) (p : Part) :
    (issueSteps due p).playing = p.playing := by
  obtain ⟨q, hq, hpart⟩ := issueSteps_part due p
  rw [← hq, hpart]
  rfl

/-- The walks of a slice whose key-offs leave the plan playing. -/
theorem evaluate_plays {p : Part} (hoff : (keyOffs (offDue p) p).playing = true) :
    evaluate p = keyOns (onDue p) (issueSteps (stepDue p) (keyOffs (offDue p) p)) := by
  unfold evaluate
  rw [whilePlaying_of hoff, whilePlaying_of ((issueSteps_playing _ _).trans hoff)]

/-- The slice of a playing Player whose key-offs leave `q` and the Player as it was. The cadence going on
changes nothing a slice judges by. -/
theorem sliceStep_keyedOff {p q : Part} (hplays : p.playing = true)
    (hoff : keyOffs (offDue p) (nextSliceSet p) = q) (hplayer : q.player = p.player) :
    sliceStep p = keyOns (onDue p) (issueSteps (stepDue p) q) := by
  have hdue : keyOffs (offDue (nextSliceSet p)) (nextSliceSet p) = q := hoff
  have hq : q.playing = true := (playing_of_player hplayer).trans hplays
  rw [sliceStep_plays hplays, evaluate_plays (by rw [hdue]; exact hq), hdue]
  rfl

/-! ## Walks with nothing to do -/

/-- No note SOUNDING, no key-off is made. -/
theorem keyOffs_silent {x : Note} {p : Part} (sel : Note → Bool) (hwindow : p.sched.window = [x])
    (hx : x.state ≠ .sounding) : keyOffs sel p = p := by
  rw [keyOffs, hwindow, keyOffLoop, if_neg (fun h => hx h.1)]
  rfl

theorem keyOffs_none {p : Part} (sel : Note → Bool) (hwindow : p.sched.window = []) :
    keyOffs sel p = p := by
  rw [keyOffs, hwindow]
  rfl

theorem keyOns_none {p : Part} (due : Note → Bool) (hwindow : p.sched.window = []) :
    keyOns due p = p := by
  rw [keyOns, hwindow]
  rfl

theorem issueSteps_none {p : Part} (due : Step → Bool) (hsteps : p.sched.steps = []) :
    issueSteps due p = p := by
  unfold issueSteps
  rw [hsteps, List.filter_nil, List.filter_nil, List.foldl_nil, ← hsteps]

/-! ## Walks that end no plan -/

/-- The plan goes on while the notes `w` stand in the window: it plays, and in a DRAINING one of them is
the current passage's, the clock's saturation not taken (R103). -/
structure PlanGoesOn (w : List Note) (p : Part) : Prop where
  playing : p.playing = true
  draining : p.player.state = .draining → p.satTaken = false
    ∧ ∃ b, p.reader.current = some b ∧ b.planIndex ∈ w.map Note.planIndex

/-- A walk has left the notes `w` in the window: beside it, the outputs and what their requests mark, the
completion of a finishing passage alone has come about. -/
def Walked (w : List Note) (p q : Part) : Prop :=
  q = { p with
    reader := { p.reader with next := q.reader.next, line := q.reader.line }
    sched := { p.sched with window := w }
    keys := q.keys, guard := q.guard, listen := q.listen, attention := q.attention
    fresh := q.fresh }

namespace Walked

theorem of_window {p : Part} {w : List Note} (h : p.sched.window = w) : Walked w p p := by
  subst h
  rfl

theorem of_keyedOff {p q : Part} {w : List Note} (h : KeyedOff w p q) : Walked w p q := by
  unfold KeyedOff at h
  unfold Walked
  rw [h]

theorem trans {v w : List Note} {p q r : Part} (hpq : Walked v p q) (hqr : Walked w q r) :
    Walked w p r := by
  unfold Walked at *
  conv => lhs; rw [hqr, hpq]

theorem completeFinishing {p q : Part} {w : List Note} (h : Walked w p q) :
    Walked w p (completeFinishing q) := by
  obtain ⟨next, line, hfin⟩ := completeFinishing_part q
  unfold Walked at *
  rw [hfin]
  conv => lhs; rw [h]

variable {w : List Note} {p q : Part} (h : Walked w p q)
include h

theorem current : q.reader.current = p.reader.current := by rw [h]
theorem player : q.player = p.player := by rw [h]
theorem follower : q.follower = p.follower := by rw [h]
theorem report : q.report = p.report := by rw [h]
theorem clock : q.clock = p.clock := by rw [h]
theorem satTaken : q.satTaken = p.satTaken := by rw [h]
theorem sched : q.sched = { p.sched with window := w } := by rw [h]

end Walked

namespace PlanGoesOn

/-- What goes on does so with any part of the same Player, current passage and saturation. -/
theorem of_same {w : List Note} {p q : Part} (h : PlanGoesOn w p) (hplayer : q.player = p.player)
    (hsat : q.satTaken = p.satTaken) (hcurrent : q.reader.current = p.reader.current) :
    PlanGoesOn w q where
  playing := (playing_of_player hplayer).trans h.playing
  draining := by
    rw [hplayer, hsat, hcurrent]
    exact h.draining

theorem walked {v w : List Note} {p q : Part} (h : PlanGoesOn w p) (hq : Walked v p q) :
    PlanGoesOn w q := h.of_same hq.player hq.satTaken hq.current

/-- Only the plan indexes of the notes count. -/
theorem of_indexes {v w : List Note} {p : Part} (h : PlanGoesOn w p)
    (hidx : v.map Note.planIndex = w.map Note.planIndex) : PlanGoesOn v p :=
  ⟨h.playing, by rw [hidx]; exact h.draining⟩

/-- While the plan goes on the completion test finds a finishing passage at most. -/
theorem completion_eq {w : List Note} {p : Part} (h : PlanGoesOn w p) (hw : w ⊆ p.sched.window) :
    completion p = completeFinishing p := by
  by_cases hdrain : p.player.state = .draining
  case neg => exact completion_undrained hdrain
  case pos =>
    obtain ⟨hsat, b, hb, hidx⟩ := h.draining hdrain
    obtain ⟨x, hx, hxidx⟩ := List.mem_map.1 hidx
    exact completion_left hb ((noteLeft_unsaturated hsat _).2 ⟨x, hw hx, hxidx⟩)

/-- A completion test behind a walk that leaves the notes the plan goes on with, and what follows it. -/
theorem completes {v w : List Note} {p q : Part} (h : PlanGoesOn w p) (hq : Walked v p q)
    (hw : w ⊆ v) (f : Part → Part) : whilePlaying f (completion q) = f (completeFinishing q) := by
  have hwindow : w ⊆ q.sched.window := by rw [hq.sched]; exact hw
  rw [(h.walked hq).completion_eq hwindow, whilePlaying_of (h.walked hq.completeFinishing).playing]

end PlanGoesOn

/-- Key-offs while the plan goes on take the selected SOUNDING notes off the window. -/
theorem keyOffLoop_walks (sel : Note → Bool) (l : List Note) : ∀ (kept : List Note) (p : Part),
    PlanGoesOn (kept ++ keptNotes sel l) p → p.sched.window = kept ++ l →
    Walked (kept ++ keptNotes sel l) p (keyOffLoop sel kept l p) := by
  induction l with
  | nil => exact fun kept p _ hwindow => .of_window hwindow
  | cons x rest ih =>
    intro kept p hgoes hwindow
    rw [keyOffLoop]
    split
    case isTrue hx =>
      rw [keptNotes_off rest hx] at hgoes ⊢
      have hoff := Walked.of_keyedOff (keyedOff_keyOff (kept ++ rest) x p)
      generalize putWindow (kept ++ rest) (keyOff x p) = c at hoff
      have hc := hoff.completeFinishing
      rw [hgoes.completes hoff (List.filter_sublist.append_left kept).subset]
      exact hc.trans (ih kept _ (hgoes.walked hc) (by rw [hc.sched]))
    case isFalse hx =>
      rw [keptNotes_on rest hx, List.append_cons] at hgoes ⊢
      exact ih (kept ++ [x]) p hgoes (by rw [hwindow, List.append_cons])

/-! ## Key-ons (R135, R136) -/

/-- The part behind the claims of a note keyed on, late or not (R135, R136). -/
def Part.claimedFor (p : Part) (x : Note) : Part :=
  (claimAll x.outputs (latchIf (lateNote p x) .late p)).1

/-- A note keyed on, with those of its outputs marked whose claims were counted (R135). -/
def Note.sounded (x : Note) (p : Part) : Note :=
  { x with
    claimed := (claimAll x.outputs (latchIf (lateNote p x) .late p)).2
    state := .sounding }

section
variable {due : Note → Bool} {kept rest : List Note} {x : Note} {p : Part}

theorem keyOnLoop_waits (hdue : due x = false) :
    keyOnLoop due kept (x :: rest) p = keyOnLoop due (kept ++ [x]) rest p := by
  rw [keyOnLoop, if_neg (by simp [hdue])]

theorem keyOnLoop_drops (hdue : due x = true) (hdrop : dropsNote p x = true) :
    keyOnLoop due kept (x :: rest) p = whilePlaying (keyOnLoop due kept rest)
      (completion (putWindow (kept ++ rest) (latch .late p))) := by
  rw [keyOnLoop, if_pos hdue, if_pos hdrop]

theorem keyOnLoop_sounds (hdue : due x = true) (hdrop : dropsNote p x = false) :
    keyOnLoop due kept (x :: rest) p = keyOnLoop due (kept ++ [x.sounded p]) rest
      (putWindow (kept ++ x.sounded p :: rest) (p.claimedFor x)) := by
  rw [keyOnLoop, if_pos hdue, if_neg (by simp [hdrop])]
  rfl

end

theorem walked_drop (w : List Note) (p : Part) : Walked w p (putWindow w (latch .late p)) := rfl

theorem walked_claims (w : List Note) (x : Note) (p : Part) :
    Walked w p (putWindow w (p.claimedFor x)) := by
  apply part_ext <;> simp [putWindow, Part.claimedFor]

/-- Whether a note is dropped or late is read off the line and the clock. -/
theorem Walked.judges {w : List Note} {p q : Part} (h : Walked w p q) (x : Note) :
    dropsNote q x = dropsNote p x ∧ lateNote q x = lateNote p x := by
  rw [h]
  exact ⟨rfl, rfl⟩

/-- The claims of a note leave LATE latched, and latch it for a late one (R136). -/
theorem claimedFor_late {p : Part} {x : Note} (h : p.latched .late = true ∨ lateNote p x = true) :
    (p.claimedFor x).latched .late = true := by
  apply claimAll_late
  cases hlate : lateNote p x
  case false => simpa [hlate] using h
  case true => exact latched_latch .late p

theorem completeFinishing_latched (c : Condition) (p : Part) :
    (completeFinishing p).latched c = p.latched c := by
  obtain ⟨next, line, hfin⟩ := completeFinishing_part p
  rw [hfin]
  rfl

/-- The notes a walk of key-ons at `p` leaves in the window: all but those dropped. -/
def undropped (due : Note → Bool) (p : Part) (l : List Note) : List Note :=
  l.filter fun x => !(due x && dropsNote p x)

theorem undropped_cons (due : Note → Bool) (p : Part) (x : Note) (l : List Note) :
    undropped due p (x :: l) = undropped due p [x] ++ undropped due p l := List.filter_append [x] l

theorem Walked.undropped {w : List Note} {p q : Part} (h : Walked w p q) (due : Note → Bool)
    (l : List Note) : undropped due q l = undropped due p l := by
  simp only [Machine.undropped, (h.judges _).1]

/-- The walk of key-ons at `p` has left `q`: the notes `kept` have gone before, and of the notes `l` the
dropped ones are gone and the others due sound; a dropped or late one has latched LATE. -/
def KeyedOn (due : Note → Bool) (kept l : List Note) (p q : Part) : Prop :=
  ∃ w, Walked w p q
    ∧ w.map Note.bare = kept.map Note.bare ++ (undropped due p l).map (Note.keyed due)
    ∧ ((p.latched .late = true
        ∨ ∃ x ∈ l, due x = true ∧ (dropsNote p x = true ∨ lateNote p x = true)) →
      q.latched .late = true)

/-- The walk of key-ons over a first note that goes on over the others. -/
theorem KeyedOn.cons {due : Note → Bool} {kept kept' rest : List Note} {v : List Note} {x : Note}
    {p c q : Part} (h : KeyedOn due kept' rest c q) (hc : Walked v p c)
    (hkept : kept'.map Note.bare
      = kept.map Note.bare ++ (undropped due p [x]).map (Note.keyed due))
    (hlate : p.latched .late = true
        ∨ (due x = true ∧ (dropsNote p x = true ∨ lateNote p x = true)) →
      c.latched .late = true) : KeyedOn due kept (x :: rest) p q := by
  obtain ⟨w, hw, hbare, hlatched⟩ := h
  refine ⟨w, hc.trans hw, ?_, fun hcause => hlatched ?_⟩
  · rw [hbare, hkept, hc.undropped, undropped_cons due p x rest, List.map_append, List.append_assoc]
  · simp only [(hc.judges _).1, (hc.judges _).2]
    rw [List.exists_mem_cons_iff, ← or_assoc] at hcause
    exact hcause.imp_left hlate

/-- Key-ons while the plan goes on. -/
theorem keyOnLoop_walks (due : Note → Bool) (l : List Note) : ∀ (kept : List Note) (p : Part),
    PlanGoesOn (kept ++ undropped due p l) p → p.sched.window = kept ++ l →
    KeyedOn due kept l p (keyOnLoop due kept l p) := by
  induction l with
  | nil =>
    exact fun kept p _ hwindow =>
      ⟨kept, .of_window (by simpa using hwindow), by simp [undropped], by simp [keyOnLoop]⟩
  | cons x rest ih =>
    intro kept p hgoes hwindow
    rw [undropped_cons, ← List.append_assoc] at hgoes
    cases hdue : due x
    case false =>
      have hone : undropped due p [x] = [x] := by simp [undropped, hdue]
      rw [hone] at hgoes
      rw [keyOnLoop_waits hdue]
      exact (ih (kept ++ [x]) p hgoes (by simpa using hwindow)).cons (.of_window rfl)
        (by simp [hone, Note.bare, Note.keyed, hdue]) (by simp [hdue])
    case true =>
      cases hdrop : dropsNote p x
      case true =>
        have hone : undropped due p [x] = [] := by simp [undropped, hdue, hdrop]
        rw [hone, List.append_nil] at hgoes
        have hdropped := walked_drop (kept ++ rest) p
        have hc := hdropped.completeFinishing
        rw [keyOnLoop_drops hdue hdrop,
          hgoes.completes hdropped (List.filter_sublist.append_left kept).subset]
        refine (ih kept _ ?_ (by rw [hc.sched])).cons hc (by simp [hone]) fun _ => ?_
        · rw [hc.undropped]
          exact hgoes.walked hc
        · rw [completeFinishing_latched]
          exact latched_latch .late p
      case false =>
        have hone : undropped due p [x] = [x] := by simp [undropped, hdrop]
        rw [hone] at hgoes
        have hc := walked_claims (kept ++ x.sounded p :: rest) x p
        rw [keyOnLoop_sounds hdue hdrop]
        refine (ih (kept ++ [x.sounded p]) _ ?_ (by rw [hc.sched]; simp)).cons hc ?_
          fun hcause => ?_
        · rw [hc.undropped]
          exact (hgoes.walked hc).of_indexes (by simp [Note.sounded])
        · simp [hone, Note.bare, Note.keyed, Note.sounded, hdue]
        · exact claimedFor_late (by simpa [hdue, hdrop] using hcause)

/-! ## A slice while the plan goes on -/

/-- The notes a slice leaves in the window: those neither keyed off nor dropped (R136, R137). -/
def sliceLeaves (p : Part) : List Note := undropped (onDue p) p (keptNotes (offDue p) p.sched.window)

/-- The key-offs and the steps of a slice at `p` have left `c` (R133). -/
structure StepsIssued (p c : Part) : Prop where
  sched : c.sched = { p.sched with
    window := keptNotes (offDue p) p.sched.window
    steps := p.sched.steps.filter fun x => !stepDue p x
    drawn := c.sched.drawn }
  follower : c.follower = p.follower
  player : c.player = p.player
  report : c.report = p.report
  clock : c.clock = p.clock
  satTaken : c.satTaken = p.satTaken
  current : c.reader.current = p.reader.current

theorem stepsIssued_of_walked {p q : Part} (h : Walked (keptNotes (offDue p) p.sched.window) p q) :
    StepsIssued p (issueSteps (stepDue p) q) := by
  obtain ⟨c, hc, hpart⟩ := issueSteps_part (stepDue p) q
  rw [← hc]
  constructor
  case sched => conv => lhs; rw [hpart, h.sched]
  all_goals rw [hpart]
  case follower => exact h.follower
  case player => exact h.player
  case report => exact h.report
  case clock => exact h.clock
  case satTaken => exact h.satTaken
  case current => exact h.current

/-- The key-ons of a slice judge a note as it was at the beginning. -/
theorem StepsIssued.judges {p c : Part} (h : StepsIssued p c) (x : Note) :
    dropsNote c x = dropsNote p x ∧ lateNote c x = lateNote p x := by
  unfold dropsNote lateNote Part.now
  rw [h.follower, h.clock]
  exact ⟨rfl, rfl⟩

/-- Everything a slice does to the plan that goes on (R133): key-offs, steps, key-ons. -/
theorem evaluate_walks {p : Part} (h : PlanGoesOn (sliceLeaves p) p) :
    ∃ w drawn, (evaluate p).sched = { p.sched with
        window := w, steps := p.sched.steps.filter fun x => !stepDue p x, drawn := drawn }
      ∧ w.map Note.bare = (sliceLeaves p).map (Note.keyed (onDue p))
      ∧ (evaluate p).follower = p.follower ∧ (evaluate p).player = p.player
      ∧ (evaluate p).report = p.report
      ∧ ((∃ x ∈ keptNotes (offDue p) p.sched.window,
          onDue p x = true ∧ (dropsNote p x = true ∨ lateNote p x = true)) →
        (evaluate p).latched .late = true) := by
  have hkept : PlanGoesOn (keptNotes (offDue p) p.sched.window) p :=
    ⟨h.playing, fun hdrain => by
      obtain ⟨hsat, b, hb, hidx⟩ := h.draining hdrain
      exact ⟨hsat, b, hb, (List.filter_sublist.map _).subset hidx⟩⟩
  have hoff : Walked (keptNotes (offDue p) p.sched.window) p (keyOffs (offDue p) p) :=
    keyOffLoop_walks (offDue p) p.sched.window [] p hkept rfl
  have hissued := stepsIssued_of_walked hoff
  rw [evaluate_plays (hkept.walked hoff).playing]
  generalize issueSteps (stepDue p) (keyOffs (offDue p) p) = c at hissued
  have hwindow : c.sched.window = keptNotes (offDue p) p.sched.window := by rw [hissued.sched]
  have hleaves : undropped (onDue p) c c.sched.window = sliceLeaves p := by
    rw [hwindow]
    simp only [undropped, sliceLeaves, (hissued.judges _).1]
  have hgoes : PlanGoesOn (undropped (onDue p) c c.sched.window) c := by
    rw [hleaves]
    exact h.of_same hissued.player hissued.satTaken hissued.current
  have hon : KeyedOn (onDue p) [] c.sched.window c (keyOns (onDue p) c) :=
    keyOnLoop_walks (onDue p) c.sched.window [] c hgoes rfl
  obtain ⟨w, hw, hbare, hlate⟩ := hon
  refine ⟨w, c.sched.drawn, ?_, hleaves ▸ hbare, hw.follower.trans hissued.follower,
    hw.player.trans hissued.player, hw.report.trans hissued.report, fun hcause => hlate (.inr ?_)⟩
  · rw [hw.sched, hissued.sched]
  · simp only [(hissued.judges _).1, (hissued.judges _).2, hwindow]
    exact hcause

/-- What a slice leaves in the window, note by note. -/
theorem sliceLeaves_eq (p : Part) : sliceLeaves p = p.sched.window.filter fun x =>
    !(x.state == .sounding && offDue p x) && !(onDue p x && dropsNote p x) := by
  unfold sliceLeaves undropped keptNotes
  rw [List.filter_filter]
  exact List.filter_congr fun x _ => Bool.and_comm _ _

/-- A note neither keyed off nor due to sound is left in the window. -/
theorem mem_sliceLeaves {p : Part} {x : Note} (h : p.drainsSaturated = false)
    (hx : x ∈ p.sched.window) (hoff : ¬p.KeyOffDue x) (hon : ¬p.KeyOnDue x) : x ∈ sliceLeaves p := by
  have hnotOn : onDue p x = false := Bool.eq_false_iff.2 (mt (onDue_iff p x).1 hon)
  have hnotOff : (x.state == .sounding && offDue p x) = false :=
    Bool.eq_false_iff.2 fun hdue => hoff ((offDue_iff h x).1 (by simpa using hdue))
  rw [sliceLeaves_eq]
  exact List.mem_filter.2 ⟨hx, by simp [hnotOn, hnotOff]⟩

/-- A PENDING note is not keyed off. -/
theorem mem_keptNotes_pending {sel : Note → Bool} {l : List Note} {x : Note} (hx : x ∈ l)
    (hpending : x.state = .pending) : x ∈ keptNotes sel l :=
  List.mem_filter.2 ⟨hx, by simp [hpending]⟩

/-- A slice of a playing Player, in DRAINING with a note of the current passage left: what it does to the
plan, and LATE for a note dropped or late. -/
theorem sliceStep_walks {p : Part} (hplays : p.playing = true)
    (hdraining : p.player.state = .draining → p.satTaken = false ∧ ∃ x ∈ p.sched.window,
      ¬p.KeyOffDue x ∧ ¬p.KeyOnDue x ∧ ∃ b, p.reader.current = some b ∧ x.planIndex = b.planIndex) :
    ∃ w drawn, (sliceStep p).sched = { (nextSliceSet p).sched with
        window := w, steps := p.sched.steps.filter fun x => !stepDue p x, drawn := drawn }
      ∧ w.map Note.bare = (sliceLeaves p).map (Note.keyed (onDue p))
      ∧ (sliceStep p).follower = p.follower ∧ (sliceStep p).player = p.player
      ∧ (sliceStep p).report = p.report
      ∧ ((∃ x ∈ p.sched.window,
          p.KeyOnDue x ∧ (dropsNote p x = true ∨ lateNote p x = true)) →
        (sliceStep p).latched .late = true) := by
  have hsaturated := drainsSaturated_false fun h => (hdraining h).1
  have hgoes : PlanGoesOn (sliceLeaves (nextSliceSet p)) (nextSliceSet p) := ⟨hplays, fun hdrain => by
    obtain ⟨hsat, x, hx, hoff, hon, b, hb, hidx⟩ := hdraining hdrain
    exact ⟨hsat, b, hb, List.mem_map.2 ⟨x, mem_sliceLeaves hsaturated hx hoff hon, hidx⟩⟩⟩
  obtain ⟨w, drawn, hsched, hwindow, hfollower, hplayer, hreport, hlate⟩ := evaluate_walks hgoes
  rw [← sliceStep_plays hplays] at *
  refine ⟨w, drawn, hsched, hwindow, hfollower, hplayer, hreport, fun ⟨x, hx, hon, hcause⟩ => ?_⟩
  exact hlate ⟨x, mem_keptNotes_pending hx hon.1, (onDue_iff p x).2 hon, hcause⟩

/-! ## Slices that end a DRAINING (R103, R104, R127) -/

/-- Key-offs of every note, all of the current passage of a DRAINING, end the plan at the last. -/
theorem keyOffLoop_empties {b : Buffer} (sel : Note → Bool) (l : List Note) : ∀ p : Part,
    DrainsAlone b p → p.satTaken = false → p.sched.window = l → l ≠ [] →
    (∀ x ∈ l, (x.state = .sounding ∧ sel x = true) ∧ x.planIndex = b.planIndex) →
    ∃ r, KeyedOff [] p r ∧ keyOffLoop sel [] l p = drainOver b r := by
  induction l with
  | nil => exact fun p _ _ _ hne => absurd rfl hne
  | cons x rest ih =>
    intro p hdrain hsat hwindow _ hall
    rw [List.forall_mem_cons] at hall
    obtain ⟨⟨hx, -⟩, hrest⟩ := hall
    have hoff := keyedOff_keyOff ([] ++ rest) x p
    rw [keyOffLoop, if_pos hx]
    generalize putWindow ([] ++ rest) (keyOff x p) = c at hoff
    have hc := hdrain.keyedOff hoff
    have hcsat := hoff.satTaken.trans hsat
    have hleft := noteLeft_unsaturated hcsat b.planIndex
    rw [hoff.sched] at hleft
    cases rest with
    | nil =>
      rw [hc.completion_done (Bool.eq_false_iff.2 (mt hleft.1 (by simp))),
        whilePlaying_of_not (playing_drainOver b c)]
      exact ⟨c, hoff, rfl⟩
    | cons y more =>
      have hnote := hleft.2 ⟨y, List.mem_cons_self, (hrest y List.mem_cons_self).2⟩
      rw [hc.completion_left hnote, whilePlaying_of hc.playing]
      obtain ⟨r, hr, hends⟩ := ih c hc hcsat (by rw [hoff.sched]; rfl) (by simp) hrest
      exact ⟨r, hoff.trans hr, hends⟩

/-- The last note of a finishing passage gone in a DRAINING with no current one, the plan ends (R103, R104):
its SPENT write stands. -/
theorem completion_lastFinishing {p : Part} {ptr idx : Nat} (hdrain : p.player.state = .draining)
    (hcur : p.reader.current = none) (hnext : p.reader.next = .finishing ptr idx false)
    (hreset : p.softReset = false) (hwindow : p.sched.window = []) :
    completion p = endPlan (askReader (.spent ptr true)
      { p with reader := { p.reader with next := .finishing ptr idx true } }) := by
  have hleft : p.noteLeft idx = false := by simp [Part.noteLeft, hwindow]
  have hfin : completeFinishing p = askReader (.spent ptr true)
      { p with reader := { p.reader with next := .finishing ptr idx true } } := by
    unfold completeFinishing
    rw [hnext]
    simp [hleft, Reader.currentPtr, hcur]
  have hsame : completeCurrent (completeFinishing p) = completeFinishing p := by
    unfold completeCurrent
    rw [hfin]
    simp [askReader, hcur]
  have hover : planOver (completeCurrent (completeFinishing p)) = true := by
    rw [hsame, hfin]
    simp [planOver, askReader, hdrain, hcur, hreset, NextBuffer.awaited]
  rw [completion_ends hover, hsame, hfin]

/-- What that end of the plan leaves. -/
theorem completion_lastFinishing_ended {p : Part} {ptr idx : Nat}
    (hdrain : p.player.state = .draining) (hcur : p.reader.current = none)
    (hnext : p.reader.next = .finishing ptr idx false) (hreset : p.softReset = false)
    (hwindow : p.sched.window = []) :
    PlanEnded p.player.endReason
        (p.reader.line.map ReaderAccess.unheld ++ [.spent ptr false]) p (completion p)
      ∧ (completion p).attention = p.attention ||| Condition.mask .ended := by
  have hline : (p.reader.line ++ [ReaderAccess.spent ptr true]).map ReaderAccess.unheld
      = p.reader.line.map ReaderAccess.unheld ++ [.spent ptr false] := List.map_append
  rw [completion_lastFinishing hdrain hcur hnext hreset hwindow, endPlan_part, ← hline]
  refine ⟨⟨rfl, ?_, ⟨rfl, rfl, rfl⟩, rfl, ⟨rfl, rfl⟩, latched_latch .ended _⟩, rfl⟩
  rw [← hcur]
  rfl

/-- A slice at which every note of a DRAINING is keyed off ends the plan. -/
theorem sliceStep_empties {p : Part} {b : Buffer} (hdrain : DrainsAlone b p) (hsat : p.satTaken = false)
    (hne : p.sched.window ≠ [])
    (hall : ∀ x ∈ p.sched.window, p.KeyOffDue x ∧ x.planIndex = b.planIndex) :
    ∃ r, KeyedOff [] (nextSliceSet p) r ∧ sliceStep p = drainOver b r := by
  have hbase : DrainsAlone b (nextSliceSet p) :=
    ⟨hdrain.state, hdrain.current, hdrain.next, hdrain.noReset⟩
  obtain ⟨r, hr, hends⟩ := keyOffLoop_empties (offDue p) p.sched.window (nextSliceSet p) hbase hsat rfl
    hne fun x hx => (hall x hx).imp_left (offDue_iff (drainsSaturated_false fun _ => hsat) x).2
  have hoff : keyOffs (offDue (nextSliceSet p)) (nextSliceSet p) = drainOver b r := hends
  refine ⟨r, hr, ?_⟩
  rw [sliceStep_plays hdrain.playing,
    evaluate_ended (by rw [hoff]; exact playing_drainOver b r), hoff]

/-- A slice at which the last note of a finishing passage is dropped in a DRAINING ends the plan (R136). -/
theorem sliceStep_dropsLast {p : Part} {x : Note} {ptr : Nat} (hdrain : p.player.state = .draining)
    (hcur : p.reader.current = none) (hnext : p.reader.next = .finishing ptr x.planIndex false)
    (hreset : p.softReset = false) (hwindow : p.sched.window = [x]) (hon : p.KeyOnDue x)
    (hdrop : releaseTime p.follower x ≤ p.now) :
    PlanEnded p.player.endReason
        (p.reader.line.map ReaderAccess.unheld ++ [.spent ptr false]) p (sliceStep p)
      ∧ (sliceStep p).latched .late = true := by
  have hplays : p.playing = true := by simp [Part.playing, hdrain]
  have hsilent := keyOffs_silent (p := nextSliceSet p) (offDue p) hwindow (by rw [hon.1]; decide)
  obtain ⟨c, hc, hpart⟩ := issueSteps_part (stepDue p) (nextSliceSet p)
  have hcwindow : c.sched.window = [x] := by rw [hpart]; exact hwindow
  have hcdrop : dropsNote c x = true := by rw [hpart]; exact decide_eq_true hdrop
  have hslice : sliceStep p = completion (putWindow [] (latch .late c)) := by
    rw [sliceStep_keyedOff hplays hsilent rfl, ← hc, keyOns, hcwindow,
      keyOnLoop_drops ((onDue_iff p x).2 hon) hcdrop]
    exact ite_self _
  have hplayer : (putWindow [] (latch .late c)).player = p.player := by rw [hpart]; rfl
  have hreader : (putWindow [] (latch .late c)).reader = p.reader := by rw [hpart]; rfl
  have hfollower : (putWindow [] (latch .late c)).follower = p.follower := by rw [hpart]; rfl
  have hnoReset : (putWindow [] (latch .late c)).softReset = false := by rw [hpart]; exact hreset
  have hlate : (putWindow [] (latch .late c)).latched .late = true := latched_latch .late c
  obtain ⟨hplan, hattention⟩ := completion_lastFinishing_ended (by rw [hplayer, hdrain])
    (by rw [hreader, hcur]) (by rw [hreader, hnext]) hnoReset rfl
  rw [← hslice] at hplan hattention
  rw [hplayer, hreader] at hplan
  constructor
  · exact hplan.of_before (by rw [hplayer]) (by rw [hreader]) hfollower
  · rw [Part.latched, hattention]
    exact latched_or _ _ _ hlate

/-! ## Slices of one note or step -/

/-- The key-off of the one note selected, outside DRAINING and with no finishing passage awaited. -/
theorem keyOffs_single {x : Note} {p : Part} {sel : Note → Bool} (hdrain : p.player.state ≠ .draining)
    (hawaited : p.reader.next.awaited = false) (hwindow : p.sched.window = [x])
    (hx : x.state = .sounding ∧ sel x = true) : keyOffs sel p = putWindow [] (keyOff x p) := by
  have hoff := keyedOff_keyOff [] x p
  rw [keyOffs, hwindow, keyOffLoop, if_pos hx, List.append_nil]
  generalize putWindow [] (keyOff x p) = c at hoff
  rw [completion_undrained (by rw [hoff.player]; exact hdrain),
    completeFinishing_none (by rw [hoff.reader]; exact hawaited)]
  exact ite_self c

/-- One claim of a note, with the output marked where it is counted (R135, R148). -/
def claimOne (acc : Part × List OutputId) (n : OutputId) : Part × List OutputId :=
  ((claim n acc.1).1, if (claim n acc.1).2 then acc.2 ++ [n] else acc.2)

/-- The claims of a note are made one after the other, in order. -/
theorem foldl_claimOne (l : List OutputId) : ∀ (p : Part) (marked : List OutputId),
    l.foldl claimOne (p, marked) = ((claimAll l p).1, marked ++ (claimAll l p).2) := by
  induction l with
  | nil => simp [claimAll]
  | cons n rest ih =>
    intro p marked
    rw [List.foldl_cons, claimOne, ih]
    cases hcounted : (claim n p).2 <;> simp [claimAll, hcounted]

/-- LATE for a late note (R136), as a number of the attention register. -/
theorem latchIf_late (p : Part) (x : Note) : latchIf (lateNote p x) .late p
    = if 20000 < p.clock - keyingTime p.follower x
      then { p with attention := p.attention ||| 0x20 } else p := by
  by_cases hlate : 20000 < p.clock - keyingTime p.follower x
  · have hnote : lateNote p x = true := decide_eq_true hlate
    rw [if_pos hlate, hnote]
    rfl
  · have hnote : lateNote p x = false := decide_eq_false hlate
    rw [if_neg hlate, hnote]
    rfl

/-- The key-on of the one note in the window, not dropped. -/
theorem keyOns_single {x : Note} {p : Part} {due : Note → Bool} (hwindow : p.sched.window = [x])
    (hdue : due x = true) (hdrop : dropsNote p x = false) :
    keyOns due p = putWindow [x.sounded p] (p.claimedFor x) := by
  rw [keyOns, hwindow, keyOnLoop_sounds hdue hdrop]
  rfl

/-- The key-on of the one note there is. -/
theorem sliceStep_sounds {p : Part} {x : Note} (hplays : p.playing = true)
    (hsteps : p.sched.steps = []) (hwindow : p.sched.window = [x]) (hon : p.KeyOnDue x)
    (hdrop : p.now < releaseTime p.follower x) :
    sliceStep p = putWindow [x.sounded (nextSliceSet p)] ((nextSliceSet p).claimedFor x) := by
  have hsilent := keyOffs_silent (p := nextSliceSet p) (offDue p) hwindow (by rw [hon.1]; decide)
  rw [sliceStep_keyedOff hplays hsilent rfl, issueSteps_none (p := nextSliceSet p) _ hsteps]
  exact keyOns_single hwindow ((onDue_iff p x).2 hon) (decide_eq_false (not_le.2 hdrop))

/-- The key-off of the one note there is, outside DRAINING and with no finishing passage awaited. -/
theorem sliceStep_silences {p : Part} {x : Note} (hplays : p.playing = true)
    (hdrain : p.player.state ≠ .draining) (hawaited : p.reader.next.awaited = false)
    (hwindow : p.sched.window = [x]) (hsteps : p.sched.steps = []) (hoff : p.KeyOffDue x) :
    sliceStep p = putWindow [] (keyOff x (nextSliceSet p)) := by
  have hdue := (offDue_iff (drainsSaturated_false fun h => absurd h hdrain) x).2 hoff
  have hkeyOff := keyOffs_single (p := nextSliceSet p) hdrain hawaited hwindow hdue
  have hstands := keyedOff_keyOff [] x (nextSliceSet p)
  rw [sliceStep_keyedOff hplays hkeyOff hstands.player,
    issueSteps_none _ (by rw [hstands.sched]; exact hsteps)]
  exact keyOns_none _ rfl

/-! ## The stop entries of a step (R143, R155) -/

section
variable {p : Part} {e : StopEntry}

theorem issueStop_drawn (h : entry p.sched.drawn e.stop = e.draw) : issueStop p e = p := if_pos h

theorem issueStop_unmapped (h : entry p.sched.drawn e.stop ≠ e.draw)
    (hcoils : outputsWith p.setup.outputMap (coilEntry e) = []) :
    issueStop p e = latch .mapping p := by
  unfold issueStop
  dsimp only
  rw [if_neg h, hcoils]
  rfl

theorem issueStop_moves (h : entry p.sched.drawn e.stop ≠ e.draw)
    (hcoils : outputsWith p.setup.outputMap (coilEntry e) ≠ []) :
    issueStop p e = (outputsWith p.setup.outputMap (coilEntry e)).foldl
      (fun acc n => stopPulse n acc)
      { p with sched := { p.sched with drawn := put p.sched.drawn e.stop e.draw } } := by
  unfold issueStop
  dsimp only
  rw [if_neg h, if_neg (by simpa using hcoils)]

end

/-- One step of one entry, due, is issued: the entry is, and the Step List is empty. -/
theorem issueSteps_single {p : Part} {due : Step → Bool} {y : Step} {e : StopEntry}
    (hsteps : p.sched.steps = [y]) (hdue : due y = true) (hentries : y.entries = [e]) :
    issueSteps due p = issueStop { p with sched := { p.sched with steps := [] } } e := by
  unfold issueSteps
  rw [hsteps, List.filter_cons_of_pos hdue, List.filter_cons_of_neg (by simp [hdue])]
  simp only [List.filter_nil, List.foldl_cons, List.foldl_nil, issueStep, hentries]

/-- The slice with no note and one step of one entry, due. -/
theorem sliceStep_step {p : Part} {y : Step} {e : StopEntry} (hplays : p.playing = true)
    (hwindow : p.sched.window = []) (hsteps : p.sched.steps = [y]) (hdue : p.StepDue y)
    (hentries : y.entries = [e]) : sliceStep p
      = issueStop { nextSliceSet p with sched := { (nextSliceSet p).sched with steps := [] } } e := by
  have hsilent := keyOffs_none (p := nextSliceSet p) (offDue p) hwindow
  have hissued := issueSteps_single (p := nextSliceSet p) hsteps ((stepDue_iff p y).2 hdue) hentries
  obtain ⟨c, hc, hpart⟩ := issueSteps_part (stepDue p) (nextSliceSet p)
  rw [sliceStep_keyedOff hplays hsilent rfl, ← hissued, ← hc]
  exact keyOns_none _ (by rw [hpart]; exact hwindow)

/-- A stop pulse is refused but for an OFF output with magnet power ON (R155). -/
theorem stopPulse_refused {n : OutputId} {p : Part}
    (h : p.power.on = true → (entry p.keys.entries n).state ≠ .off) : stopPulse n p = p :=
  if_neg fun ⟨hoff, hon⟩ => h hon hoff

/-- The entry of an output that waits for a stop pulse (R155). -/
def stopRequest : KeyEntry :=
  { state := .waiting, count := 0, kind := .stop, timer := none, coolOff := false }

/-- A stop pulse that finds a place in the queue and no slot waits at its tail (R150, R152, R155). -/
theorem stopPulse_waits {n : OutputId} {p : Part} (hon : p.power.on = true)
    (hoff : (entry p.keys.entries n).state = .off) (hroom : p.keys.queue.length < 64)
    (hblocked : p.setupLoaded = false ∨ p.keys.slotLimit ≤ slotsInUse p.keys.entries) :
    entry (stopPulse n p).keys.entries n = stopRequest
      ∧ (stopPulse n p).keys.queue = p.keys.queue ++ [n] := by
  have hjoin : joinQueue n .stop 0 p = { setEntry n stopRequest p with
      keys := { (setEntry n stopRequest p).keys with queue := p.keys.queue ++ [n] } } :=
    if_neg (not_le.2 hroom)
  have hslots : slotsInUse (put p.keys.entries n stopRequest) = slotsInUse p.keys.entries :=
    slotsInUse_put (by rw [hoff]; rfl)
  have hlimit : (setEntry n stopRequest p).keys.slotLimit = p.keys.slotLimit :=
    setEntry_slotLimit (by rw [hoff]; rfl)
  have hpulse : stopPulse n p = joinQueue n .stop 0 p := by
    unfold stopPulse
    rw [if_pos ⟨hoff, hon⟩, hjoin]
    exact grants_blocked (hblocked.imp_right fun h => hlimit.trans_le (h.trans_eq hslots.symm))
  rw [hpulse, hjoin]
  exact ⟨by simp, rfl⟩

end Sys2Proof.Machine

open Sys2Proof Sys2Proof.Machine

/-- Settles O49: the three walks of a slice judge every note and step by what it begins with, and end a
DRAINING at its last note. -/
theorem sliceJudgesEveryNote : Obligations.SliceJudgesEveryNote := by
  intro s hclear hslice p t keyed released atBar off free on stepOn current base
  have hexec := exec_slice hclear hslice
  have hstands := (only_sliceStep p).stands
  refine ⟨?idles, ?goesOn, ?empties, ?dropsLast, ?sounds, ?silences, ?step, ?refused, ?waits⟩
  case idles =>
    intro hidle
    rw [hexec, sliceStep_idles hidle]
    rfl
  case goesOn =>
    intro hplays hdraining
    have hsaturated := drainsSaturated_false fun h => (hdraining h).1
    obtain ⟨w, drawn, hsched, hwindow, hfollower, hplayer, hreport, hlate⟩ :=
      sliceStep_walks hplays hdraining
    obtain ⟨hconsole, hservice, hpower, hchain⟩ := hstands
    refine completes_of_exec hexec ⟨fun x => x.state == .sounding && offDue p x, onDue p, stepDue p,
      fun x => ?_, onDue_iff p, stepDue_iff p, ?_, ?_, ?_, ?_, ?_, hfollower, hplayer, hreport,
      hconsole, hservice, hpower, hchain⟩
    · rw [Bool.and_eq_true, beq_iff_eq]
      exact offDue_iff hsaturated x
    · rw [sliceLeaves_eq] at hwindow
      rw [hsched]
      exact hwindow
    · rw [hsched]
    · rintro ⟨x, hx, hon, hcause⟩
      exact hlate ⟨x, hx, hon, hcause.imp decide_eq_true decide_eq_true⟩
    · rw [hsched]
      rfl
    · rw [hsched]
      rfl
  case empties =>
    intro b hdrain hb hnext hsat hreset hne hall
    obtain ⟨r, hr, hends⟩ := sliceStep_empties ⟨hdrain, hb, hnext, hreset⟩ hsat hne hall
    have hplan := drainOver_ended b r
    rw [← hends, hr.player, hr.reader] at hplan
    refine completes_of_exec hexec ⟨hplan.of_before ?_ ?_ hr.follower, hstands⟩
    · rw [hr.player]
      rfl
    · rw [hr.reader]
      rfl
  case dropsLast =>
    intro x ptr hdrain hcur hnext hreset hwindow hon hdrop
    obtain ⟨hplan, hlate⟩ := sliceStep_dropsLast hdrain hcur hnext hreset hwindow hon hdrop
    obtain ⟨hconsole, hservice, hpower, -⟩ := hstands
    exact completes_of_exec hexec ⟨hplan, hlate, hconsole, hservice, hpower⟩
  case sounds =>
    intro x hplays hwindow hsteps hon hdrop start claims
    have hclaims : claims = ((claimAll x.outputs start).1, (claimAll x.outputs start).2) :=
      foldl_claimOne x.outputs start []
    have hstart : latchIf (lateNote (nextSliceSet p) x) .late (nextSliceSet p) = start :=
      latchIf_late (nextSliceSet p) x
    have hkeeps : (claimAll x.outputs start).1.sched = base.sched := by
      rw [← hstart]
      simp [base, nextSliceSet, Config.slicePeriod]
    rw [hexec, sliceStep_sounds hplays hsteps hwindow hon hdrop, Note.sounded, Part.claimedFor,
      hstart, hclaims, putWindow, hkeeps]
  case silences =>
    intro x hplays hdrain hawaited hwindow hsteps hoff
    have hkeeps : (keyOff x base).sched = base.sched := by simp
    have hslice : sliceStep p = putWindow [] (keyOff x base) :=
      sliceStep_silences hplays hdrain hawaited hwindow hsteps hoff
    rw [hexec, hslice, putWindow, hkeeps]
    rfl
  case step =>
    intro y e hplays hwindow hsteps hdue hentries issued coils
    have hissues : sliceStep p = issueStop issued e :=
      sliceStep_step hplays hwindow hsteps hdue hentries
    rw [hexec, hissues]
    refine ⟨fun hdrawn => ?_, fun hdrawn hcoils => ?_, fun hdrawn hcoils => ?_⟩
    · rw [issueStop_drawn (p := issued) hdrawn]
    · rw [issueStop_unmapped (p := issued) hdrawn hcoils]
      rfl
    · rw [issueStop_moves (p := issued) hdrawn hcoils]
      exact ⟨_, rfl, fun i => entry_put _ _ _ _, rfl⟩
  case refused => exact fun n h => stopPulse_refused h
  case waits =>
    exact fun n _ hon hoff hroom hblocked => stopPulse_waits hon hoff hroom hblocked
end

section
/-! SUPPORT. Every command and every step keeps the invariant of the part: each meaning by the shape it
has, and by what its course does to the invariant. -/

open Sys2Proof

namespace Sys2Proof.Machine

/-! ## Shapes of a meaning and the invariant -/

section
variable {s t : State}

/-- What a next state keeps of the invariant is what its part does. -/
theorem inv_next {q : State} (hq : PartInv q.part) (h : (.next q : Result) = .next t) :
    PartInv t.part := by
  obtain rfl := Host.Outcome.next.inj h
  exact hq

/-- An event keeps the invariant where its course does when it is due (log 6). -/
theorem inv_event {due : Part → Bool} {f : Part → Part}
    (he : (s.onPart fun p => whenDue (due p) f p) = .next t) (h : PartInv s.part)
    (hf : due s.part = true → PartInv (f s.part)) : PartInv t.part :=
  inv_next (inv_whenDue _ _ h hf) he

/-- The same of an event that reads the store. -/
theorem inv_eventMem {due : Part → Bool} {f : Memory → Part → Part}
    (he : (s.onPartMem fun mem p => whenDue (due p) (f mem) p) = .next t) (h : PartInv s.part)
    (hf : due s.part = true → PartInv (f s.store s.part)) : PartInv t.part :=
  inv_next (inv_whenDue _ _ h hf) he

/-- An access presented at the console keeps the invariant (R38). -/
theorem inv_presented (a : PortAccess) (h : PartInv s.part)
    (he : s.onPart (present a) = .next t) : PartInv t.part := inv_next (inv_present a h) he

/-- The row of an awaited completion keeps the invariant (R39, log 9). -/
theorem inv_awaited (awaited : Bool) (h : PartInv s.part)
    (he : s.onStore (arbiterStepIf awaited) = .next t) : PartInv t.part :=
  inv_next (inv_arbiterStepIf awaited s.store h) he

end

/-! ## Courses of single events -/

theorem inv_audioStep {p : Part} (c : ChannelId) (width word : Nat) (h : PartInv p) :
    PartInv (audioStep c width word p) := ⟨h.queue, h.dead, h.lists, h.attention⟩

theorem inv_chainClearStep {p : Part} (h : PartInv p) : PartInv (chainClearStep p) :=
  ⟨h.queue, h.dead, h.lists, h.attention⟩

theorem inv_endFermataNow {p : Part} (h : PartInv p) : PartInv (endFermataNow p) :=
  inv_endFermata p.now h

theorem inv_lookTimerStep {p : Part} (mem : Memory) (h : PartInv p) :
    PartInv (lookTimerStep mem p) := inv_look mem (inv_startLookTimer h)

/-- The reset part keeps the invariant whatever stands on the port. -/
theorem inv_resetPart (p : Part) : PartInv (resetPart p) :=
  inv_reset _ rfl rfl ⟨rfl, rfl, rfl⟩ ⟨rfl, rfl⟩ rfl

/-- A timer that is due stands with an entry in its state. -/
theorem timerDue_state {st : KeyState} {n : OutputId} {p : Part} (h : timerDue st n p = true) :
    (entry p.keys.entries n).state = st := by
  unfold timerDue at h
  rw [Bool.and_eq_true, beq_iff_eq] at h
  exact h.1

/-! ## Commands -/

/-- Every command keeps the invariant of the part. -/
theorem inv_exec {c : Instr} {s t : State} (h : PartInv s.part) (he : exec c s = .next t) :
    PartInv t.part := by
  cases c with
  | reset => exact inv_next (inv_resetPart s.part) he
  | clearingEnd => exact inv_next (inv_clearingEndStep s.store h) he
  | storeRead addr => exact inv_presented (.read addr) h he
  | storeWrite addr value => exact inv_presented (.write addr value) h he
  | take | halt | softReset => exact inv_presented (.transfer _) h he
  | badKey value => exact inv_presented (.transfer value) h he
  | registerWriteIgnored reg value => exact inv_presented (.ignored reg value) h he
  | attentionRead => exact inv_presented .attention h he
  | arbiterServe => exact inv_next (inv_arbiterStep s.store h) he
  | setupCopyComplete | unknown | closingComplete | stampExchange | nowWriteComplete
  | faultRecordWritten => exact inv_awaited _ h he
  | setup => exact inv_eventMem he h fun _ => inv_setupCommand s.store h
  | start => exact inv_eventMem he h fun _ => inv_startCommand s.store h
  | stop => exact inv_event he h fun _ => inv_stopCommand h
  | hold => exact inv_event he h fun _ => inv_holdCommand h
  | resume => exact inv_event he h fun _ => inv_resumeCommand h
  | nudge => exact inv_event he h fun _ => inv_nudgeCommand h
  | power => exact inv_event he h fun _ => inv_powerCommand h
  | test => exact inv_event he h fun _ => inv_testCommand h
  | clear => exact inv_event he h fun _ => inv_clearCommand h
  | softResetSecondStage => exact inv_event he h fun _ => inv_softResetCourse s.part
  | lookTimerExpiry => exact inv_eventMem he h fun _ => inv_lookTimerStep s.store h
  | streamPass => exact inv_event he h fun _ => inv_streamTick h
  | passageEnd => exact inv_event he h fun _ => inv_passageEndStep h
  | beatBoundary => exact inv_event he h fun _ => inv_beatTrigger h
  | audioSample c width word =>
    exact inv_event (due := fun p => !p.clearing) he h fun _ => inv_audioStep c width word h
  | frameEnd =>
    exact inv_event (due := fun p => frameReady p.listen) he h fun _ => inv_frameEndStep h
  | cutoff => exact inv_event he h fun _ => inv_cutoffStep h
  | maskExpiry => exact inv_event he h fun _ => inv_expireMasks h
  | cueClose => exact inv_event he h fun _ => inv_takeCloses h
  | cuePass => exact inv_event he h fun _ => inv_cuePassStep h
  | fermataHoldingStart => exact inv_event he h fun _ => inv_startHolding h
  | maxHoldExpiry => exact inv_event he h fun _ => inv_endFermataNow h
  | leadExpiry => exact inv_event he h fun _ => inv_endFermataNow h
  | starveTimerExpiry => exact inv_event he h fun _ => inv_drainStarved .starved h
  | clockSaturation => exact inv_event he h fun _ => inv_saturate h
  | slice => exact inv_event he h fun _ => inv_sliceStep h
  | pullInEnd n =>
    exact inv_event he h fun hdue => inv_pullInCourse n h (by rw [timerDue_state hdue]; rfl)
  | pulseEnd n => exact inv_event he h fun _ => inv_pulseCourse n h
  | settleEnd n => exact inv_event he h fun hdue => inv_settleCourse n h (timerDue_state hdue)
  | cipherTimerExpiry n => exact inv_event he h fun _ => inv_cipherStep n h
  | cadencePoint sense => exact inv_event he h fun _ => inv_cadenceCourse sense h
  | frameComplete echo senses => exact inv_next (inv_frameCompleteStep echo senses h) he
  | chainFault =>
    exact inv_event (due := fun p => p.chain.faultDue) he h fun _ => inv_chainFaultStep h
  | chainFaultClear =>
    exact inv_event (due := fun p => p.chain.clearDue) he h fun _ => inv_chainClearStep h
  | supplyOutOfRange =>
    exact inv_event (due := fun p => p.supply.outDue) he h fun _ => inv_supplyOutStep h
  | stuck n => exact inv_event he h fun _ => inv_stuckStep n h
  | openInHold n => exact inv_event he h fun _ => inv_openStep n h
  | testNextOutput => exact inv_event he h fun hdue => inv_testNextStep h hdue

end Sys2Proof.Machine

open Sys2Proof Sys2Proof.Machine

/-- Settles O5: a step runs a command, whose course keeps the invariant, or is idle, which passes time. -/
theorem partInvariantKept : Obligations.PartInvariantKept := by
  intro s t h hstep
  unfold step at hstep
  split at hstep
  case h_1 c rest _ =>
    have hrest : PartInv { s with pending := rest }.part := h
    exact inv_exec hrest hstep
  case h_2 => exact inv_next (inv_idle h) hstep
end

section
/-! SUPPORT. TEST accepted (R153, R179): the first mapped output of a range, and the walk that begins
there. -/

open Sys2Proof

namespace Sys2Proof.Machine

/-- An output of a TEST's range that the setup maps (R179). -/
def Setup.mapsWithin (su : Setup) (first : Nat) (last n : OutputId) : Prop :=
  first ≤ n.val ∧ n.val ≤ last.val ∧ entry su.outputMap n ≠ .unused

theorem mapsWithin_iff (su : Setup) (first : Nat) (last n : OutputId) :
    (decide (first ≤ n.val) && decide (n.val ≤ last.val) && entry su.outputMap n != .unused) = true
      ↔ su.mapsWithin first last n := by
  simp [Setup.mapsWithin, and_assoc]

/-- A range with no mapped output has no next one. -/
theorem nextMapped_none {su : Setup} {first : Nat} {last : OutputId}
    (h : ∀ n, ¬su.mapsWithin first last n) : nextMapped su first last = none := by
  unfold nextMapped
  rw [List.find?_eq_none]
  intro n _ hn
  exact h n ((mapsWithin_iff su first last n).1 hn)

/-- The next mapped output of a range is the lowest one (R179). -/
theorem nextMapped_some {su : Setup} {first : Nat} {last n : OutputId}
    (hn : su.mapsWithin first last n) (hleast : ∀ x, x < n → ¬su.mapsWithin first last x) :
    nextMapped su first last = some n := by
  obtain ⟨before, behind, hplace⟩ := List.append_of_mem (mem_allOutputs n)
  have hsorted : (before ++ n :: behind).Pairwise (· < ·) := hplace ▸ List.pairwise_lt_finRange 256
  unfold nextMapped
  rw [List.find?_eq_some_iff_append]
  refine ⟨(mapsWithin_iff su first last n).2 hn, before, behind, hplace, fun x hx => ?_⟩
  rw [Bool.not_eq_true', ← Bool.not_eq_true, mapsWithin_iff]
  exact hleast x ((List.pairwise_append.1 hsorted).2.2 x hx n (List.mem_cons_self ..))

section
variable {p : Part} (hloaded : p.setupLoaded = true) (hidle : p.player.state = .idle)
  (hpower : p.power.on = true)
include hloaded hidle hpower

/-- TEST that passes its checks begins its walk (R179). -/
theorem testCommand_accepted (h : min (p.slot.arg 1).toNat 255 ≤ min (p.slot.arg 2).toNat 255) :
    testCommand p = beginTest (testOutput (p.slot.arg 1)) (testOutput (p.slot.arg 2)) p := by
  have hrange : ¬testOutput (p.slot.arg 2) < testOutput (p.slot.arg 1) := by
    rw [Fin.lt_def, testOutput_val, testOutput_val]
    exact Nat.not_lt.2 h
  unfold testCommand
  rw [hloaded, hidle, hpower]
  exact if_neg hrange

end

/-- The part with a TEST at the output it has taken up, the slot limit not yet lowered. -/
def Part.takesUp (n last : OutputId) (p : Part) : Part :=
  { p with
    slot := { p.slot with phase := .testing }
    guard := { p.guard with
      test := some { last := last, output := n, marked := false, stage := .waiting } } }

theorem beginTest_none {first last : OutputId} {p : Part}
    (h : ∀ n, ¬p.setup.mapsWithin first.val last n) : beginTest first last p = p.ended 1 0 := by
  unfold beginTest
  rw [nextMapped_none h]
  rfl

theorem beginTest_some {first last n : OutputId} {p : Part}
    (hn : p.setup.mapsWithin first.val last n)
    (hleast : ∀ x, x < n → ¬p.setup.mapsWithin first.val last x) :
    beginTest first last p = setSlotLimit 1 (p.takesUp n last) := by
  unfold beginTest
  rw [nextMapped_some hn hleast]
  rfl

theorem setSlotLimit_test (target : Nat) (p : Part) :
    (setSlotLimit target p).guard.test = p.guard.test := grants_test _

/-- The TEST stands at the output it has taken up, whatever is granted beside it. -/
theorem setSlotLimit_takesUp (n last : OutputId) (p : Part) :
    setSlotLimit 1 (p.takesUp n last) = { p with
      slot := { p.slot with phase := .testing }
      guard := { (setSlotLimit 1 (p.takesUp n last)).guard with
        test := some { last := last, output := n, marked := false, stage := .waiting } }
      keys := (setSlotLimit 1 (p.takesUp n last)).keys
      listen := (setSlotLimit 1 (p.takesUp n last)).listen } := by
  have htest := setSlotLimit_test 1 (p.takesUp n last)
  have hpart := setSlotLimit_part 1 (p.takesUp n last)
  generalize setSlotLimit 1 (p.takesUp n last) = q at *
  have hguard : q.guard = { q.guard with test := (p.takesUp n last).guard.test } :=
    congrArg (fun test => { q.guard with test := test }) htest
  exact hpart.trans (congrArg (fun g => { p.takesUp n last with
    keys := q.keys, guard := g, listen := q.listen }) hguard)

theorem exec_test {s : State} (h : s.part.atOwner cmdTest) :
    exec .test s = .next { s with part := testCommand s.part } := onPart_atOwner h testCommand

end Sys2Proof.Machine

open Sys2Proof Sys2Proof.Machine

/-- Settles O32: the range decides whether the walk begins, and the first mapped output where. -/
theorem testTakesUpTheFirstMappedOutput : Obligations.TestTakesUpTheFirstMappedOutput := by
  intro s howner hloaded hidle hpower p first last hrange
  have hexec := exec_test howner
  rw [testCommand_accepted hloaded hidle hpower hrange] at hexec
  have hfirst : (testOutput (p.slot.arg 1)).val = first := testOutput_val _
  have hlast : (testOutput (p.slot.arg 2)).val = last := testOutput_val _
  refine ⟨fun hunused => ?_, fun n l hlow hhigh hl hmapped hleast => ?_⟩
  · rw [beginTest_none] at hexec
    · exact hexec
    · rintro n ⟨hlow, hhigh, hmapped⟩
      exact hmapped (hunused n (hfirst ▸ hlow) (hlast ▸ hhigh))
  · obtain rfl : testOutput (p.slot.arg 2) = l := Fin.ext (hlast.trans hl.symm)
    rw [beginTest_some (n := n) ⟨hfirst ▸ hlow, hlast ▸ hhigh, hmapped⟩] at hexec
    · refine completes_of_exec hexec ⟨setSlotLimit_takesUp _ _ _, setSlotLimit_slotTarget _ _, ?_⟩
      intro hqueue
      rw [setSlotLimit_empty 1 (by exact hqueue)]
      exact ⟨rfl, rfl, rfl⟩
    · rintro x hx ⟨hxlow, -, hxmapped⟩
      exact hxmapped (hleast x (hfirst ▸ hxlow) hx)
end

section
/-! SUPPORT. What becomes of a request for an output (R148-R152, R155, R157): it waits, is refused, or is
granted at once; and what claims, releases and stop pulses reach. -/

open Sys2Proof

namespace Sys2Proof.Machine

/-! ## What a request reaches -/

/-- Only the Key Table, the detectors, the Mask List with the masked flags and the latches have
changed. -/
def RequestsOnly (p q : Part) : Prop :=
  q = { p with
    keys := q.keys, attention := q.attention
    guard := { p.guard with detectors := q.guard.detectors }
    listen := { p.listen with masks := q.listen.masks, queue := q.listen.queue } }

namespace RequestsOnly

theorem trans {p q r : Part} (h1 : RequestsOnly p q) (h2 : RequestsOnly q r) :
    RequestsOnly p r := by
  unfold RequestsOnly at *
  conv => lhs; rw [h2, h1]

theorem grantOne (n : OutputId) (p : Part) : RequestsOnly p (grantOne n p) := by
  unfold Machine.grantOne
  dsimp only
  split
  · rfl
  · split <;> rfl

theorem grantLoop (l : List OutputId) (p : Part) : RequestsOnly p (grantLoop l p) := by
  induction l generalizing p with
  | nil => rfl
  | cons n rest ih =>
    unfold Machine.grantLoop
    split
    · exact (grantOne n p).trans (ih _)
    · rfl

theorem grants (p : Part) : RequestsOnly p (grants p) := grantLoop _ p

theorem latchIf (b : Bool) (c : Condition) (p : Part) : RequestsOnly p (latchIf b c p) := by
  cases b <;> rfl

theorem setEntry (n : OutputId) (e : KeyEntry) (p : Part) : RequestsOnly p (setEntry n e p) := rfl

theorem joinQueue (n : OutputId) (kind : OutputKind) (count : Nat) (p : Part) :
    RequestsOnly p (joinQueue n kind count p) := by
  unfold Machine.joinQueue
  split
  · exact (setEntry n KeyEntry.idle p).trans (latchIf _ _ _)
  · rfl

theorem request (n : OutputId) (kind : OutputKind) (count : Nat) (p : Part) :
    RequestsOnly p (Machine.grants (Machine.joinQueue n kind count p)) :=
  (joinQueue n kind count p).trans (grants _)

end RequestsOnly

/-! ## Joining the queue (R150, R151) -/

/-- The entry of a request that waits (R150). -/
def KeyEntry.waits (kind : OutputKind) (count : Nat) : KeyEntry :=
  { state := .waiting, count := count, kind := kind, timer := none, coolOff := false }

section
variable {p : Part}

theorem joinQueue_room (h : p.keys.queue.length < 64) (n : OutputId) (kind : OutputKind)
    (count : Nat) : joinQueue n kind count p = { setEntry n (.waits kind count) p with
      keys := { (setEntry n (.waits kind count) p).keys with queue := p.keys.queue ++ [n] } } :=
  if_neg (Nat.not_le.2 h)

theorem joinQueue_full (h : 64 ≤ p.keys.queue.length) (n : OutputId) (kind : OutputKind)
    (count : Nat) : joinQueue n kind count p =
      latchIf (kind == .key) .late (setEntry n KeyEntry.idle p) := if_pos h

theorem latchIf_attention (b : Bool) (c : Condition) (p : Part) :
    (latchIf b c p).attention = if b then p.attention ||| c.mask else p.attention := by
  cases b <;> rfl

/-- A request latches LATE where it is one of a KEY and refused (R151), and nothing else. -/
theorem request_attention (n : OutputId) (kind : OutputKind) (count : Nat) (p : Part) :
    (grants (joinQueue n kind count p)).attention =
      if 64 ≤ p.keys.queue.length ∧ kind = .key then p.attention ||| 0x20 else p.attention := by
  have hgrants (q : Part) : (grants q).attention = q.attention := by simp
  rw [hgrants]
  by_cases hfull : 64 ≤ p.keys.queue.length
  · rw [joinQueue_full hfull, latchIf_attention]
    simp [hfull, Condition.mask, Condition.bit]
  · rw [joinQueue_room (Nat.not_le.1 hfull), if_neg fun h => hfull h.1]
    simp

end

/-! ## What a request leaves of the entries -/

/-- One entry has been put and the queue stands as given; every other entry is as it was. -/
def EntryPut (n : OutputId) (x : KeyEntry) (queue : List OutputId) (p q : Part) : Prop :=
  entry q.keys.entries n = x ∧ q.keys.queue = queue
    ∧ ∀ m, m ≠ n → entry q.keys.entries m = entry p.keys.entries m

theorem EntryPut.of_keys {n : OutputId} {x : KeyEntry} {queue : List OutputId} {p q r : Part}
    (h : EntryPut n x queue p q) (hkeys : r.keys = q.keys) : EntryPut n x queue p r := by
  unfold EntryPut
  rw [hkeys]
  exact h

section
variable {p : Part} {n : OutputId}

/-- Putting an entry that waits just as the one before it leaves the queue (R150). -/
theorem entryPut_setEntry (hq : QueueExact p.keys) {e : KeyEntry}
    (h : e.state = .waiting ↔ (entry p.keys.entries n).state = .waiting) :
    EntryPut n e p.keys.queue p (setEntry n e p) := by
  refine ⟨by simp, ?_, fun m hm => by simp [hm]⟩
  rw [setEntry_queue]
  split
  · rfl
  · rename_i hwaits
    exact queue_without hq (mt h.2 hwaits)

/-- A request of an output that uses no slot frees none, so that with none free it is not granted
(R152). -/
theorem grants_joinQueue_blocked (hslot : (entry p.keys.entries n).state.usesSlot = false)
    (h : p.setupLoaded = false ∨ p.keys.slotLimit ≤ slotsInUse p.keys.entries)
    (kind : OutputKind) (count : Nat) :
    grants (joinQueue n kind count p) = joinQueue n kind count p := by
  have hput (e : KeyEntry) (he : e.state.usesSlot = false) :
      slotsInUse (setEntry n e p).keys.entries = slotsInUse p.keys.entries
        ∧ (setEntry n e p).keys.slotLimit = p.keys.slotLimit :=
    ⟨slotsInUse_put (by rw [he, hslot]), setEntry_slotLimit (by rw [hslot]; rfl)⟩
  apply grants_blocked
  by_cases hfull : 64 ≤ p.keys.queue.length
  · obtain ⟨hslots, hlimit⟩ := hput KeyEntry.idle rfl
    rw [joinQueue_full hfull]
    simpa [hslots, hlimit] using h
  · obtain ⟨hslots, hlimit⟩ := hput (.waits kind count) rfl
    rw [joinQueue_room (Nat.not_le.1 hfull)]
    simpa [hslots, hlimit] using h

section
variable (hslot : (entry p.keys.entries n).state.usesSlot = false)
  (hblocked : p.setupLoaded = false ∨ p.keys.slotLimit ≤ slotsInUse p.keys.entries)
include hslot hblocked

/-- A request that finds a place in the queue and no slot waits at its tail (R150, R152). -/
theorem request_waits (hroom : p.keys.queue.length < 64) (kind : OutputKind) (count : Nat) :
    EntryPut n (.waits kind count) (p.keys.queue ++ [n]) p (grants (joinQueue n kind count p)) := by
  rw [grants_joinQueue_blocked hslot hblocked, joinQueue_room hroom]
  exact ⟨by simp, rfl, fun m hm => by simp [hm]⟩

/-- A request that finds a full queue and no slot is refused (R151). -/
theorem request_refused (hq : QueueExact p.keys)
    (hwaits : (entry p.keys.entries n).state ≠ .waiting) (hfull : 64 ≤ p.keys.queue.length)
    (kind : OutputKind) (count : Nat) :
    EntryPut n KeyEntry.idle p.keys.queue p (grants (joinQueue n kind count p)) := by
  rw [grants_joinQueue_blocked hslot hblocked, joinQueue_full hfull]
  exact (entryPut_setEntry hq (iff_of_false KeyState.noConfusion hwaits)).of_keys (by simp)

end

/-- One detector has been put; every other is as it was. -/
def DetectorPut (n : OutputId) (x : Detector) (p q : Part) : Prop :=
  entry q.guard.detectors n = x
    ∧ ∀ m, m ≠ n → entry q.guard.detectors m = entry p.guard.detectors m

theorem setEntry_detector (n : OutputId) (e : KeyEntry) (p : Part) (m : OutputId) :
    entry (setEntry n e p).guard.detectors m =
      if m = n then
        (entry p.guard.detectors n).follows (entry p.keys.entries n).state e.state (cipherEnd p)
      else entry p.guard.detectors m := entry_put _ n m _

theorem grantOne_queue (n : OutputId) (p : Part) :
    (grantOne n p).keys.queue = p.keys.queue.filter (· != n) := by
  unfold grantOne
  dsimp only
  split
  · rfl
  · split <;> rfl

/-- The grant of a request of kind STOP makes no mask window (R152, log 55). -/
theorem grantOne_listen_stop {n : OutputId} {p : Part}
    (hkind : (entry p.keys.entries n).kind = .stop) : (grantOne n p).listen = p.listen := by
  unfold grantOne
  dsimp only
  rw [if_pos hkind]
  rfl

section
variable (hqueue : p.keys.queue = []) (hslot : (entry p.keys.entries n).state.usesSlot = false)
  (hfree : p.setupLoaded = true ∧ slotsInUse p.keys.entries < p.keys.slotLimit)
include hqueue hslot hfree

/-- A request alone before a free slot is granted at once (R152). -/
theorem grants_joinQueue_free (kind : OutputKind) (count : Nat) :
    grants (joinQueue n kind count p) = grantOne n (joinQueue n kind count p) := by
  have hslots : slotsInUse (setEntry n (.waits kind count) p).keys.entries
      = slotsInUse p.keys.entries := slotsInUse_put (by rw [hslot]; rfl)
  have hlimit : (setEntry n (.waits kind count) p).keys.slotLimit = p.keys.slotLimit :=
    setEntry_slotLimit (by rw [hslot]; rfl)
  rw [joinQueue_room (by rw [hqueue]; decide)]
  refine grants_single (by rw [hqueue]; rfl) hfree.1 ?_
  rw [← hslots, ← hlimit] at hfree
  exact hfree.2

/-- A request granted at once pulls in or pulses, its timer running, and leaves the queue empty. -/
theorem request_granted (kind : OutputKind) (count : Nat) :
    EntryPut n ((KeyEntry.waits kind count).granted p.setup p.time) [] p
      (grants (joinQueue n kind count p)) := by
  rw [grants_joinQueue_free hqueue hslot hfree, joinQueue_room (by rw [hqueue]; decide), hqueue]
  refine ⟨?_, ?_, fun m hm => ?_⟩
  · rw [grantOne_self]
    simp
  · rw [grantOne_queue]
    simp
  · rw [grantOne_entry n _ hm]
    simp [hm]

/-- A request of kind STOP granted at once makes no mask window (log 55). -/
theorem request_granted_listen (count : Nat) :
    (grants (joinQueue n .stop count p)).listen = p.listen := by
  rw [grants_joinQueue_free hqueue hslot hfree, joinQueue_room (by rw [hqueue]; decide)]
  exact grantOne_listen_stop (by simp [KeyEntry.waits])

end

/-- The detector of an OFF output granted at once begins with an empty record (R172), and the cipher timer
of a KEY with the cipher limit (R176). -/
theorem request_granted_detector (hqueue : p.keys.queue = [])
    (hoff : (entry p.keys.entries n).state = .off)
    (hfree : p.setupLoaded = true ∧ slotsInUse p.keys.entries < p.keys.slotLimit)
    (kind : OutputKind) (count : Nat) :
    DetectorPut n { entry p.guard.detectors n with
      pullRecord := .empty
      cipher := if kind = .stop then none else some (cipherEnd p) } p
      (grants (joinQueue n kind count p)) := by
  have hjoins := joinQueue_room (p := p) (by rw [hqueue]; decide) n kind count
  refine ⟨?_, fun m hm => ?_⟩
  · rw [grants_joinQueue_free hqueue (by rw [hoff]; rfl) hfree, hjoins,
      grantOne_detector n (by simp [KeyEntry.waits])]
    simp [setEntry_detector, hoff, KeyEntry.waits, Detector.follows, KeyState.usesSlot, cipherEnd]
  · rw [hjoins, grants_detector (by simp [hqueue, hm])]
    simp [setEntry_detector, hm]

end

/-- No request is granted: no setup is in force, or no slot is free (R152). -/
theorem blocked_iff (p : Part) :
    (p.setupLoaded = false ∨ p.keys.slotLimit ≤ slotsInUse p.keys.entries)
      ↔ ¬(p.setupLoaded = true ∧ slotsInUse p.keys.entries < p.keys.slotLimit) := by
  rw [not_and_or, Bool.not_eq_true, Nat.not_lt]

/-! ## Claims (R148) -/

/-- What claims and pulses touch: beside their outputs LATE alone (R151). -/
def Requested (p q : Part) : Prop :=
  RequestsOnly p q ∧ (q.attention = p.attention ∨ q.attention = p.attention ||| 0x20)

theorem requested_request (n : OutputId) (kind : OutputKind) (count : Nat) (p : Part) :
    Requested p (grants (joinQueue n kind count p)) := by
  refine ⟨.request n kind count p, ?_⟩
  rw [request_attention]
  split
  · exact .inr rfl
  · exact .inl rfl

theorem requested_refl (p : Part) : Requested p p := ⟨rfl, .inl rfl⟩

section
variable {n : OutputId} {p : Part}

theorem raiseCount_more (h : (entry p.keys.entries n).count < 7) : raiseCount n p =
    (setEntry n { entry p.keys.entries n with count := (entry p.keys.entries n).count + 1 } p,
      true) := if_neg (Nat.not_le.2 h)

theorem raiseCount_full (h : 7 ≤ (entry p.keys.entries n).count) : raiseCount n p = (p, false) :=
  if_pos h

theorem requested_raiseCount (n : OutputId) (p : Part) : Requested p (raiseCount n p).1 := by
  unfold raiseCount
  dsimp only
  split
  · exact requested_refl p
  · exact ⟨rfl, .inl rfl⟩

theorem claim_unpowered (hoff : (entry p.keys.entries n).state = .off) (h : p.power.on = false) :
    claim n p = (p, true) := by
  unfold claim
  dsimp only
  rw [hoff, h]
  rfl

theorem claim_off_counted (hoff : (entry p.keys.entries n).state = .off) :
    (claim n p).2 = true := by
  unfold claim
  dsimp only
  rw [hoff]
  dsimp only
  split <;> rfl

/-- A claim raises the count of an output driven, and of one that waits or settles as a KEY (R148). -/
theorem claim_raises (h : (entry p.keys.entries n).state = .pull
    ∨ (entry p.keys.entries n).state = .hold
    ∨ ((entry p.keys.entries n).state = .waiting ∨ (entry p.keys.entries n).state = .settle)
      ∧ (entry p.keys.entries n).kind = .key) : claim n p = raiseCount n p := by
  unfold claim
  dsimp only
  rcases h with hstate | hstate | ⟨hstate | hstate, hkind⟩
  · rw [hstate]
  · rw [hstate]
  · rw [hstate, hkind]
  · rw [hstate, hkind]

/-- No claim is counted on a pulse, a DISABLED output, or one that waits or settles as a STOP (R148). -/
theorem claim_uncounted (h : (entry p.keys.entries n).state = .pulse
    ∨ (entry p.keys.entries n).state = .disabled
    ∨ ((entry p.keys.entries n).state = .waiting ∨ (entry p.keys.entries n).state = .settle)
      ∧ (entry p.keys.entries n).kind ≠ .key) : claim n p = (p, false) := by
  unfold claim
  dsimp only
  rcases h with hstate | hstate | ⟨hstate | hstate, hkind⟩
  · rw [hstate]
  · rw [hstate]
  · rw [hstate]
    split <;> simp_all
  · rw [hstate]
    split <;> simp_all

theorem requested_claim (n : OutputId) (p : Part) : Requested p (claim n p).1 := by
  unfold claim
  dsimp only
  split
  · split
    · exact requested_request n .key 1 p
    · exact requested_refl p
  · exact requested_raiseCount n p
  · exact requested_raiseCount n p
  · exact requested_raiseCount n p
  · exact requested_raiseCount n p
  · exact requested_refl p

/-! ## Stop pulses (R155) -/

theorem stopPulse_off (hoff : (entry p.keys.entries n).state = .off) (h : p.power.on = true) :
    stopPulse n p = grants (joinQueue n .stop 0 p) := if_pos ⟨hoff, h⟩

theorem requested_stopPulse (n : OutputId) (p : Part) : Requested p (stopPulse n p) := by
  unfold stopPulse
  split
  · exact requested_request n .stop 0 p
  · exact requested_refl p

/-! ## Releases (R149) -/

theorem release_unclaimed (h : (entry p.keys.entries n).count = 0) : release n p = p := if_pos h

theorem release_several (h : 2 ≤ (entry p.keys.entries n).count) : release n p =
    setEntry n { entry p.keys.entries n with count := (entry p.keys.entries n).count - 1 } p := by
  unfold release
  dsimp only
  rw [if_neg (by omega), if_pos h]

section
variable (hone : (entry p.keys.entries n).count = 1)
include hone

theorem release_waiting (h : (entry p.keys.entries n).state = .waiting) :
    release n p = latch .late (setEntry n KeyEntry.idle p) := by
  unfold release
  dsimp only
  rw [hone, h]
  rfl

theorem release_pull (h : (entry p.keys.entries n).state = .pull) :
    release n p = grants (enterSettle n p) := by
  unfold release
  dsimp only
  rw [hone, h]
  rfl

theorem release_hold (h : (entry p.keys.entries n).state = .hold) :
    release n p = enterSettle n p := by
  unfold release
  dsimp only
  rw [hone, h]
  rfl

theorem release_settle (h : (entry p.keys.entries n).state = .settle) :
    release n p = setEntry n { entry p.keys.entries n with count := 0 } p := by
  unfold release
  dsimp only
  rw [hone, h]
  rfl

end
end

/-! ## The end of SETTLE (R157) -/

section
variable {n : OutputId} {p : Part}

/-- An output at the end of SETTLE asks for a slot again: a KEY with claims, a STOP in cool-off. -/
abbrev KeyEntry.rejoins (e : KeyEntry) : Prop :=
  e.kind = .key ∧ 1 ≤ e.count ∨ e.kind = .stop ∧ e.coolOff = true

theorem settleCourse_rejoins (h : (entry p.keys.entries n).rejoins) : settleCourse n p =
    grants (joinQueue n (entry p.keys.entries n).kind (entry p.keys.entries n).count p) := by
  unfold settleCourse
  dsimp only
  rcases h with ⟨hkind, hcount⟩ | ⟨hkind, hcool⟩
  · rw [hkind]
    exact if_pos (by simpa using Nat.ne_of_gt hcount)
  · rw [hkind]
    exact if_pos hcool

theorem settleCourse_ends (h : ¬(entry p.keys.entries n).rejoins) :
    settleCourse n p = setEntry n KeyEntry.idle p := by
  obtain ⟨hkey, hstop⟩ := not_or.1 h
  unfold settleCourse
  dsimp only
  cases hkind : (entry p.keys.entries n).kind with
  | none => rfl
  | key => exact if_neg (by simpa using fun hcount => hkey ⟨hkind, Nat.pos_of_ne_zero hcount⟩)
  | stop => exact if_neg fun hcool => hstop ⟨hkind, hcool⟩

theorem timerDue_of {st : KeyState} {t : Nat} (hstate : (entry p.keys.entries n).state = st)
    (htimer : (entry p.keys.entries n).timer = some t) (h : t ≤ p.time) :
    timerDue st n p = true := by
  simp [timerDue, expired, hstate, htimer, h]

theorem exec_settleEnd {s : State} (h : timerDue .settle n s.part = true) :
    exec (.settleEnd n) s = .next { s with part := settleCourse n s.part } := by
  show s.onPart (fun p => whenDue (timerDue .settle n p) (settleCourse n) p) = _
  rw [onPart_eq, whenDue_of h]

/-- A part that a request has changed, its attention register known. -/
theorem RequestsOnly.part {p q : Part} (h : RequestsOnly p q) {attention : Word}
    (hattention : q.attention = attention) : q = { p with
      keys := q.keys, guard := q.guard, listen := q.listen, attention := attention } := by
  subst hattention
  unfold RequestsOnly at h
  rw [h]

end

end Sys2Proof.Machine

open Sys2Proof Sys2Proof.Machine

/-- Settles O50: a claim or pulse on an OFF output is a request, which waits, is refused or is granted; every
other claim and release puts the one entry. -/
theorem claimsAndReleasesFollowTheirTables : Obligations.ClaimsAndReleasesFollowTheirTables := by
  intro n p hq e d full sets detects frame others
  refine ⟨requested_claim n p, requested_stopPulse n p, ?ignored, claim_unpowered, ?waits, ?refused,
    ?granted, ?raises, claim_uncounted, release_unclaimed, ?several, ?waiting, ?hold, ?pull, ?settle⟩
  case ignored =>
    intro h
    exact stopPulse_refused fun hon hoff => h.elim (absurd hoff) (by simp [hon])
  case waits =>
    intro hoff hon hroom hfull
    have hslot : e.state.usesSlot = false := by rw [hoff]; rfl
    rw [stopPulse_off hoff hon]
    refine ⟨⟨claim_off_counted hoff, ?_⟩, request_waits hslot hfull hroom .stop 0⟩
    rw [claim_off hoff hon]
    exact request_waits hslot hfull hroom .key 1
  case refused =>
    intro hoff hon hlong hfull
    have hslot : e.state.usesSlot = false := by rw [hoff]; rfl
    have hwaits : e.state ≠ .waiting := by rw [hoff]; decide
    rw [stopPulse_off hoff hon, claim_off hoff hon]
    refine ⟨⟨claim_off_counted hoff, request_refused hslot hfull hq hwaits hlong .key 1, ?_⟩,
      request_refused hslot hfull hq hwaits hlong .stop 0, ?_⟩
    · rw [request_attention, if_pos ⟨hlong, rfl⟩]
    · rw [request_attention, if_neg (by simp)]
  case granted =>
    intro hoff hon hqueue hfree
    have hslot : e.state.usesSlot = false := by rw [hoff]; rfl
    have hfree := not_not.1 (mt (blocked_iff p).2 hfree)
    rw [stopPulse_off hoff hon]
    refine ⟨⟨claim_off_counted hoff, ?_, ?_, fun v k hmap => claim_listen hmap hfree.1 hon hoff
      hqueue hfree.2⟩, request_granted hqueue hslot hfree .stop 0,
      request_granted_detector hqueue hoff hfree .stop 0,
      request_granted_listen hqueue hslot hfree 0⟩
    · rw [claim_off hoff hon]
      exact request_granted hqueue hslot hfree .key 1
    · rw [claim_off hoff hon]
      exact request_granted_detector hqueue hoff hfree .key 1
  case raises =>
    intro h
    rw [claim_raises h]
    refine ⟨fun hcount => ?_, raiseCount_full⟩
    rw [raiseCount_more hcount]
    exact ⟨rfl, entryPut_setEntry hq Iff.rfl⟩
  case several =>
    intro h
    rw [release_several h]
    exact entryPut_setEntry hq Iff.rfl
  case waiting =>
    intro hone hwaits
    rw [release_waiting hone hwaits]
    refine ⟨⟨by simp, rfl, fun m hm => by simp [hm]⟩, ?_⟩
    simp [Part.latched, Condition.mask, Condition.bit]
  case hold =>
    intro hone hhold hloaded
    rw [release_hold hone hhold, enterSettle_loaded hloaded]
    exact entryPut_setEntry hq (iff_of_false KeyState.noConfusion (by rw [hhold]; decide))
  case pull =>
    intro hone hpull hloaded
    rw [release_pull hone hpull, enterSettle_loaded hloaded, grants_entry (by simp [settled])]
    simp [settled, e]
  case settle =>
    intro hone hsettle
    rw [release_settle hone hsettle]
    exact entryPut_setEntry hq Iff.rfl

/-- Settles O51: an output that ends its SETTLE goes OFF, or asks again for a slot. -/
theorem settleEndsByCountAndKind : Obligations.SettleEndsByCountAndKind := by
  intro s n t hsettle htimer htime hq p e rejoins free ends
  have hexec := exec_settleEnd (timerDue_of hsettle htimer htime)
  have hslot : e.state.usesSlot = false := by rw [hsettle]; rfl
  have hwaits : e.state ≠ .waiting := by rw [hsettle]; decide
  refine ⟨fun hends => ?_, fun hjoins hroom hfull => ?_, fun hjoins hlong hfull => ?_,
    fun hjoins hqueue hfree => ?_⟩
  · rw [settleCourse_ends hends] at hexec
    obtain ⟨hentry, hqueue, hothers⟩ := entryPut_setEntry (n := n) (e := KeyEntry.idle) hq
      (iff_of_false KeyState.noConfusion hwaits)
    exact completes_of_exec hexec ⟨hentry, hqueue, hothers, rfl⟩
  all_goals rw [settleCourse_rejoins hjoins] at hexec
  · obtain ⟨hentry, hqueue, hothers⟩ := request_waits hslot ((blocked_iff p).2 hfull) hroom e.kind
      e.count
    refine completes_of_exec hexec ⟨hentry, hqueue, hothers, (RequestsOnly.request ..).part ?_⟩
    rw [request_attention, if_neg fun h => Nat.not_le.2 hroom h.1]
  · obtain ⟨hentry, hqueue, hothers⟩ := request_refused hslot ((blocked_iff p).2 hfull) hq hwaits
      hlong.ge e.kind e.count
    refine completes_of_exec hexec ⟨hentry, hqueue, hothers, (RequestsOnly.request ..).part ?_⟩
    rw [request_attention]
    simp [hlong, e]
  · obtain ⟨hentry, hempty, hothers⟩ := request_granted hqueue hslot hfree e.kind e.count
    refine completes_of_exec hexec ⟨hentry, hempty, hothers, (RequestsOnly.request ..).part ?_⟩
    rw [request_attention, hqueue, if_neg (by simp)]
end

section
/-! SUPPORT. A fault met in service (R173-R177): what the policy makes of the entry and its detector, the
record asked for beside it, the ends of a pull-in and of a pulse, the cipher guard, and OPEN in hold. -/

open Sys2Proof

namespace Sys2Proof.Machine

/-! ## An entry put and what it frees (R152, R172) -/

section
variable {n : OutputId} {e : KeyEntry} (h : e.state ≠ .waiting) (p : Part)
include h

theorem not_queued_setEntry : n ∉ (setEntry n e p).keys.queue := by simp [h]

/-- An entry put that does not wait stands through the grants of what it frees. -/
theorem grants_setEntry_self : entry (grants (setEntry n e p)).keys.entries n = e := by
  rw [grants_entry (not_queued_setEntry h p)]
  simp

/-- Its detector follows it, and stands through the grants too. -/
theorem grants_setEntry_detector : entry (grants (setEntry n e p)).guard.detectors n =
    (entry p.guard.detectors n).follows (entry p.keys.entries n).state e.state (cipherEnd p) := by
  rw [grants_detector (not_queued_setEntry h p), setEntry_detector, if_pos rfl]

end

/-! ## Policy (R175) -/

/-- The coil of an output is driven (R147). -/
abbrev Part.driven (p : Part) (n : OutputId) : Prop :=
  (entry p.keys.entries n).state = .pull ∨ (entry p.keys.entries n).state = .hold
    ∨ (entry p.keys.entries n).state = .pulse

/-- The policy of an output's board is RETRY and it has retries left (R172, R175). -/
abbrev Part.mayRetry (p : Part) (n : OutputId) : Prop :=
  p.setupLoaded = true ∧ p.setup.policy.getLsbD (n.val / 32) = true
    ∧ (entry p.guard.detectors n).retryCount < 3

/-- The entry the policy gives a driven output: in SETTLE with the cool-off of 200 ms, or DISABLED. -/
def Part.faultEntry (p : Part) (n : OutputId) : KeyEntry :=
  if p.mayRetry n then { entry p.keys.entries n with
    state := .settle, timer := some (p.time + 200000), coolOff := true }
  else { KeyEntry.idle with state := .disabled }

/-- The detector as the policy leaves it to follow that entry: a retry is counted. -/
def Part.faultDetector (p : Part) (n : OutputId) : Detector :=
  if p.mayRetry n then { entry p.guard.detectors n with
    retryCount := (entry p.guard.detectors n).retryCount + 1 }
  else entry p.guard.detectors n

section
variable {p : Part} {n : OutputId}

theorem faultEntry_state (p : Part) (n : OutputId) :
    (p.faultEntry n).state = .settle ∨ (p.faultEntry n).state = .disabled := by
  unfold Part.faultEntry
  split
  · exact .inl rfl
  · exact .inr rfl

theorem faultEntry_awake (p : Part) (n : OutputId) : (p.faultEntry n).state ≠ .waiting := by
  rcases faultEntry_state p n with h | h <;> rw [h] <;> decide

theorem putDetector_same (n : OutputId) (p : Part) :
    putDetector n (entry p.guard.detectors n) p = p := by
  unfold putDetector
  rw [put_entry]

/-- The policy puts one entry and one detector, and what a slot frees is granted on (R175). -/
theorem policy_eq (h : p.driven n) : policy n p =
    grants (setEntry n (p.faultEntry n) (putDetector n (p.faultDetector n) p)) := by
  have hretries : (policyRetries p n && decide ((entry p.guard.detectors n).retryCount < 3)) = true
      ↔ p.mayRetry n := by simp [policyRetries, retryPolicy, Part.mayRetry, and_assoc]
  unfold policy Part.faultEntry Part.faultDetector
  dsimp only
  by_cases hmay : p.mayRetry n
  · rw [if_pos (hretries.2 hmay), if_pos hmay, if_pos hmay]
    exact if_pos h
  · rw [if_neg (mt hretries.1 hmay), if_neg hmay, if_neg hmay, putDetector_same]
    exact disableOutput_active (by rcases h with h | h | h <;> rw [h] <;> decide)

theorem policy_entry (h : p.driven n) :
    entry (policy n p).keys.entries n = p.faultEntry n := by
  rw [policy_eq h, grants_setEntry_self (faultEntry_awake p n)]

theorem policy_not_queued (h : p.driven n) : n ∉ (policy n p).keys.queue := by
  rw [policy_eq h]
  exact grants_queue (not_queued_setEntry (faultEntry_awake p n) _)

/-- The retry count returns to 0 on becoming OFF or leaving DISABLED alone (R172). -/
theorem follows_retryCount {d : Detector} {old new : KeyState} {cipher : Nat}
    (hold : old ≠ .disabled) (hnew : new ≠ .off) :
    (d.follows old new cipher).retryCount = d.retryCount := by
  unfold Detector.follows
  split
  · rfl
  · exact if_neg (not_or.2 ⟨hnew, hold⟩)

/-- The hold count returns to 0 on entering HOLD alone (R174). -/
theorem follows_holdCount {d : Detector} {old new : KeyState} {cipher : Nat} (hnew : new ≠ .hold) :
    (d.follows old new cipher).holdCount = d.holdCount := by
  unfold Detector.follows
  rw [if_neg hnew]
  split <;> rfl

theorem driven_active (h : p.driven n) : (entry p.keys.entries n).state ≠ .disabled := by
  rcases h with h | h | h <;> rw [h] <;> decide

theorem policy_detector (h : p.driven n) : entry (policy n p).guard.detectors n =
    (p.faultDetector n).follows (entry p.keys.entries n).state (p.faultEntry n).state
      (cipherEnd p) := by
  rw [policy_eq h, grants_setEntry_detector (faultEntry_awake p n)]
  simp [putDetector, cipherEnd]

theorem policy_retryCount (h : p.driven n) :
    (entry (policy n p).guard.detectors n).retryCount = (p.faultDetector n).retryCount := by
  rw [policy_detector h]
  refine follows_retryCount (driven_active h) ?_
  rcases faultEntry_state p n with h | h <;> rw [h] <;> decide

theorem policy_holdCount (h : p.driven n) : (entry (policy n p).guard.detectors n).holdCount
    = (entry p.guard.detectors n).holdCount := by
  rw [policy_detector h, follows_holdCount]
  · unfold Part.faultDetector
    split <;> rfl
  · rcases faultEntry_state p n with h | h <;> rw [h] <;> decide

/-- What a fault in service makes of the output: as the policy has it (R175). -/
def FaultActs (n : OutputId) (p q : Part) : Prop :=
  (p.mayRetry n → entry q.keys.entries n = { entry p.keys.entries n with
      state := .settle, timer := some (p.time + 200000), coolOff := true }
    ∧ (entry q.guard.detectors n).retryCount = (entry p.guard.detectors n).retryCount + 1)
  ∧ (¬p.mayRetry n → entry q.keys.entries n = { KeyEntry.idle with state := .disabled })

theorem faultActs_of {q : Part} (hentry : entry q.keys.entries n = p.faultEntry n)
    (hcount : (entry q.guard.detectors n).retryCount = (p.faultDetector n).retryCount) :
    FaultActs n p q := by
  rw [FaultActs, hentry, hcount]
  refine ⟨fun hmay => ⟨if_pos hmay, ?_⟩, fun hmay => if_neg hmay⟩
  rw [Part.faultDetector, if_pos hmay]

end

/-! ## What a fault reaches -/

/-- Only the Key Table, the Output Guard, the Listening Unit and the Service Unit's line have changed. -/
def FaultsOnly (p q : Part) : Prop :=
  q = { p with keys := q.keys, guard := q.guard, listen := q.listen, svcLine := q.svcLine }

namespace FaultsOnly

theorem trans {p q r : Part} (h1 : FaultsOnly p q) (h2 : FaultsOnly q r) : FaultsOnly p r := by
  unfold FaultsOnly at *
  conv => lhs; rw [h2, h1]

theorem grants (p : Part) : FaultsOnly p (grants p) := by
  unfold FaultsOnly
  conv => lhs; rw [grants_part]
  simp

theorem setEntry (n : OutputId) (e : KeyEntry) (p : Part) : FaultsOnly p (setEntry n e p) := rfl

theorem policy (n : OutputId) (p : Part) : FaultsOnly p (policy n p) := by
  apply part_ext <;> simp

end FaultsOnly

/-! ## Faults met in service (R175, R177) -/

/-- One record of a fault found now joins the Service Unit's line (R177). -/
def FaultAsked (n : OutputId) (kind : FaultKind) (p q : Part) : Prop :=
  ∃ r : FaultRecord, r.output = n ∧ r.kind = kind ∧ r.passed = false
    ∧ r.clock = min (p.clock / 1000) 65535 ∧ q.svcLine = p.svcLine ++ [.faultRead r]

section
variable {n : OutputId} {p : Part}

theorem FaultAsked.of_line {kind : FaultKind} {q r : Part} (h : FaultAsked n kind p q)
    (hline : r.svcLine = q.svcLine) : FaultAsked n kind p r := by
  unfold FaultAsked
  rw [hline]
  exact h

theorem recordFault_asked (kind : FaultKind) {q : Part} (hline : q.svcLine = p.svcLine)
    (hclock : q.clock = p.clock) : FaultAsked n kind p (recordFault n kind q) := by
  refine ⟨_, rfl, rfl, rfl, ?_, (recordFault_svcLine n kind q).trans (by rw [hline])⟩
  rw [← hclock]
  rfl

theorem recordFault_keys (n : OutputId) (kind : FaultKind) (p : Part) :
    (recordFault n kind p).keys = p.keys := rfl

theorem recordFault_guard (n : OutputId) (kind : FaultKind) (p : Part) :
    (recordFault n kind p).guard = p.guard := rfl

/-- A fault of an output not under test meets the policy, and its record is asked for. -/
theorem outputFault_served (h : p.guard.tests n = false) (kind : FaultKind) :
    outputFault n kind p = recordFault n kind (policy n p) := if_neg (by rw [h]; decide)

theorem grants_svcLine (p : Part) : (grants p).svcLine = p.svcLine := by simp

theorem FaultsOnly.outputFault (h : p.guard.tests n = false) (kind : FaultKind) :
    FaultsOnly p (outputFault n kind p) := by
  rw [outputFault_served h]
  exact (FaultsOnly.policy n p).trans rfl

/-- A verdict on an output in service reaches what a fault does, where it reaches anything. -/
theorem FaultsOnly.serviceVerdict (h : p.guard.tests n = false) :
    ∀ v : Verdict, FaultsOnly p (serviceVerdict n v p)
  | .pass => rfl
  | .weak => rfl
  | .open => FaultsOnly.outputFault h .open
  | .noVerdict => rfl

theorem outputFault_asked (h : p.guard.tests n = false) (kind : FaultKind) :
    FaultAsked n kind p (outputFault n kind p) := by
  rw [outputFault_served h]
  exact recordFault_asked kind (by simp) (by simp)

/-- A fault of a driven output not under test acts as the policy has it, and takes the output off the
queue. -/
theorem outputFault_acts (h : p.guard.tests n = false) (hdriven : p.driven n) (kind : FaultKind) :
    FaultActs n p (outputFault n kind p) ∧ n ∉ (outputFault n kind p).keys.queue := by
  rw [outputFault_served h]
  exact ⟨faultActs_of (policy_entry hdriven) (policy_retryCount hdriven),
    policy_not_queued hdriven⟩

theorem FaultActs.grants {q : Part} (h : FaultActs n p q) (hout : n ∉ q.keys.queue) :
    FaultActs n p (grants q) := by
  rw [FaultActs, grants_entry hout, grants_detector hout]
  exact h

/-! ## The end of a pull-in (R154, R173) -/

/-- The part with an output in HOLD at the end of its pull-in, not yet judged. -/
def Part.pulledIn (p : Part) (n : OutputId) : Part :=
  setEntry n { entry p.keys.entries n with state := .hold, timer := none } p

theorem pulledIn_entry (p : Part) (n : OutputId) : entry (p.pulledIn n).keys.entries n =
    { entry p.keys.entries n with state := .hold, timer := none } := by
  simp [Part.pulledIn]

theorem pulledIn_not_queued (p : Part) (n : OutputId) : n ∉ (p.pulledIn n).keys.queue :=
  not_queued_setEntry (by simp) p

theorem pulledIn_driven (p : Part) (n : OutputId) : (p.pulledIn n).driven n :=
  .inr (.inl (by rw [pulledIn_entry]))

theorem pulledIn_retryCount (h : (entry p.keys.entries n).state = .pull) :
    (entry (p.pulledIn n).guard.detectors n).retryCount
      = (entry p.guard.detectors n).retryCount := by
  rw [Part.pulledIn, setEntry_detector, if_pos rfl, h]
  exact follows_retryCount (by decide) (by simp)

/-- What a fault makes of the output in HOLD is what it makes of it at the end of its pull-in. -/
theorem FaultActs.of_pulledIn {q : Part} (hpull : (entry p.keys.entries n).state = .pull)
    (h : FaultActs n (p.pulledIn n) q) : FaultActs n p q := by
  have hmay : (p.pulledIn n).mayRetry n ↔ p.mayRetry n := by
    unfold Part.mayRetry
    rw [pulledIn_retryCount hpull]
    rfl
  unfold FaultActs at h
  rw [hmay, pulledIn_entry, pulledIn_retryCount hpull] at h
  exact h

theorem pullInCourse_served (h : p.guard.tests n = false) : pullInCourse n p =
    grants (serviceVerdict n (keyVerdict (entry p.guard.detectors n).pullRecord) (p.pulledIn n)) := by
  unfold pullInCourse
  rw [h]
  rfl

theorem FaultsOnly.pullInCourse (h : p.guard.tests n = false) :
    FaultsOnly p (pullInCourse n p) := by
  rw [pullInCourse_served h]
  have hhold : FaultsOnly p (p.pulledIn n) := FaultsOnly.setEntry n _ p
  have hserved : (p.pulledIn n).guard.tests n = false := h
  exact (hhold.trans (FaultsOnly.serviceVerdict hserved _)).trans (.grants _)

/-- A record of a current keeps the output in HOLD, and alone of HOLD_OK is a fault recorded (R173). -/
theorem pullInCourse_current (h : p.guard.tests n = false)
    (hrecord : (entry p.guard.detectors n).pullRecord ≠ .none) :
    entry (pullInCourse n p).keys.entries n
        = { entry p.keys.entries n with state := .hold, timer := none }
      ∧ ((entry p.guard.detectors n).pullRecord ≠ .holdOk →
        (pullInCourse n p).svcLine = p.svcLine)
      ∧ ((entry p.guard.detectors n).pullRecord = .holdOk →
        FaultAsked n .weak p (pullInCourse n p)) := by
  have hstands : entry (grants (p.pulledIn n)).keys.entries n
      = { entry p.keys.entries n with state := .hold, timer := none } := by
    rw [grants_entry (pulledIn_not_queued p n), pulledIn_entry]
  rw [pullInCourse_served h]
  cases hcase : (entry p.guard.detectors n).pullRecord with
  | none => exact absurd hcase hrecord
  | pullOk | empty => exact ⟨hstands, fun _ => grants_svcLine _, nofun⟩
  | holdOk =>
    have hweak : serviceVerdict n (keyVerdict .holdOk) (p.pulledIn n)
        = recordFault n .weak (p.pulledIn n) := rfl
    rw [hweak]
    refine ⟨?_, fun hne => absurd rfl hne, fun _ => ?_⟩
    · have hout : n ∉ (recordFault n .weak (p.pulledIn n)).keys.queue := pulledIn_not_queued p n
      rw [grants_entry hout, recordFault_keys, pulledIn_entry]
    · exact (recordFault_asked (q := p.pulledIn n) .weak rfl rfl).of_line (grants_svcLine _)

/-- A pull-in with no current is OPEN, recorded and met by the policy (R173, R175). -/
theorem pullInCourse_open (h : p.guard.tests n = false)
    (hpull : (entry p.keys.entries n).state = .pull)
    (hrecord : (entry p.guard.detectors n).pullRecord = .none) :
    FaultAsked n .open p (pullInCourse n p) ∧ FaultActs n p (pullInCourse n p) := by
  have hserved : (p.pulledIn n).guard.tests n = false := h
  obtain ⟨hacts, hout⟩ := outputFault_acts hserved (pulledIn_driven p n) .open
  rw [pullInCourse_served h, hrecord]
  show FaultAsked n .open p (grants (outputFault n .open (p.pulledIn n)))
    ∧ FaultActs n p (grants (outputFault n .open (p.pulledIn n)))
  have hasked : FaultAsked n .open p (outputFault n .open (p.pulledIn n)) :=
    outputFault_asked hserved .open
  exact ⟨hasked.of_line (grants_svcLine _), (hacts.grants hout).of_pulledIn hpull⟩

/-! ## The end of a pulse (R155, R173) -/

theorem pulseCourse_served (h : p.guard.tests n = false) : pulseCourse n p = grants (endPulse n
    (serviceVerdict n (stopVerdict (entry p.guard.detectors n).pullRecord) p)) := by
  unfold pulseCourse
  rw [h]
  rfl

theorem FaultsOnly.pulseCourse (h : p.guard.tests n = false) :
    FaultsOnly p (pulseCourse n p) := by
  rw [pulseCourse_served h]
  generalize stopVerdict (entry p.guard.detectors n).pullRecord = v
  refine ((FaultsOnly.serviceVerdict h v).trans ?_).trans (.grants _)
  unfold endPulse
  split
  · exact .setEntry n _ _
  · rfl

/-- A pulse with a current, or with no good frame seen, ends in OFF with no record (R155, R173). -/
theorem pulseCourse_current (h : p.guard.tests n = false)
    (hpulse : (entry p.keys.entries n).state = .pulse)
    (hrecord : (entry p.guard.detectors n).pullRecord ≠ .none) :
    entry (pulseCourse n p).keys.entries n = KeyEntry.idle
      ∧ (pulseCourse n p).svcLine = p.svcLine := by
  have hverdict : serviceVerdict n (stopVerdict (entry p.guard.detectors n).pullRecord) p = p := by
    cases hcase : (entry p.guard.detectors n).pullRecord with
    | none => exact absurd hcase hrecord
    | pullOk | holdOk | empty => rfl
  rw [pulseCourse_served h, hverdict, endPulse, if_pos hpulse]
  exact ⟨grants_setEntry_self (by decide) p, by simp⟩

/-- A pulse with no current is OPEN, recorded and met by the policy (R173, R175). -/
theorem pulseCourse_open (h : p.guard.tests n = false)
    (hpulse : (entry p.keys.entries n).state = .pulse)
    (hrecord : (entry p.guard.detectors n).pullRecord = .none) :
    FaultAsked n .open p (pulseCourse n p) ∧ FaultActs n p (pulseCourse n p) := by
  have hdriven : p.driven n := .inr (.inr hpulse)
  obtain ⟨hacts, hout⟩ := outputFault_acts h hdriven .open
  have hleft : (entry (outputFault n .open p).keys.entries n).state ≠ .pulse := by
    rw [outputFault_served h, recordFault_keys, policy_entry hdriven]
    rcases faultEntry_state p n with hstate | hstate <;> rw [hstate] <;> decide
  have hends : endPulse n (outputFault n .open p) = outputFault n .open p := if_neg hleft
  rw [pulseCourse_served h, hrecord]
  show FaultAsked n .open p (grants (endPulse n (outputFault n .open p)))
    ∧ FaultActs n p (grants (endPulse n (outputFault n .open p)))
  rw [hends]
  exact ⟨(outputFault_asked h .open).of_line (grants_svcLine _), hacts.grants hout⟩

/-! ## The cipher guard (R176) and OPEN in hold (R174) -/

/-- The cipher guard puts an output in PULL or HOLD in SETTLE with count 0 (R156). -/
theorem cipherRelease_driven (hloaded : p.setupLoaded = true)
    (h : (entry p.keys.entries n).state = .pull ∨ (entry p.keys.entries n).state = .hold) :
    cipherRelease n p = grants (setEntry n
      (settled (p.time + 1000 * p.setup.settle) (entry p.keys.entries n)) p) := by
  rw [← enterSettle_loaded hloaded]
  exact if_pos h

theorem cipherStep_driven (hloaded : p.setupLoaded = true)
    (h : (entry p.keys.entries n).state = .pull ∨ (entry p.keys.entries n).state = .hold) :
    cipherStep n p = latch .cipher (recordFault n .cipher (grants (setEntry n
      (settled (p.time + 1000 * p.setup.settle) (entry p.keys.entries n)) p))) := by
  rw [cipherStep, cipherRelease_driven hloaded h]

/-- A latch beside a fault (R52). -/
theorem FaultsOnly.latched {q : Part} (h : FaultsOnly p q) (c : Condition) :
    (latch c q).attention = p.attention ||| c.mask
      ∧ latch c q = { p with
        keys := q.keys, guard := q.guard, listen := q.listen, svcLine := q.svcLine
        attention := p.attention ||| c.mask } :=
  have hlatched := congrArg (latch c) h
  ⟨congrArg Part.attention hlatched, hlatched⟩

theorem cipherDue_of {t : Nat} (h : (entry p.guard.detectors n).cipher = some t)
    (htime : t ≤ p.time) : cipherDue n p = true := by
  simp [cipherDue, expired, h, htime]

theorem follows_cipher {d : Detector} {old : KeyState} {cipher : Nat} (h : old ≠ .settle) :
    (d.follows old .settle cipher).cipher = none := by
  unfold Detector.follows
  rw [if_neg (Ne.symm h)]

/-- The part with a hold count of 3 taken back to 0 (R174). -/
def Part.holdTaken (p : Part) (n : OutputId) : Part :=
  putDetector n { entry p.guard.detectors n with holdCount := 0 } p

theorem holdTaken_detector (p : Part) (n : OutputId) :
    entry (p.holdTaken n).guard.detectors n = { entry p.guard.detectors n with holdCount := 0 } :=
  entry_put_same _ _ _

theorem FaultActs.of_holdTaken {q : Part} (h : FaultActs n (p.holdTaken n) q) :
    FaultActs n p q := by
  unfold FaultActs Part.mayRetry at h
  rw [holdTaken_detector] at h
  exact h

end

section
variable {s : State} {n : OutputId}

theorem exec_pullInEnd (h : timerDue .pull n s.part = true) :
    exec (.pullInEnd n) s = .next { s with part := pullInCourse n s.part } := by
  show s.onPart (fun p => whenDue (timerDue .pull n p) (pullInCourse n) p) = _
  rw [onPart_eq, whenDue_of h]

theorem exec_pulseEnd (h : timerDue .pulse n s.part = true) :
    exec (.pulseEnd n) s = .next { s with part := pulseCourse n s.part } := by
  show s.onPart (fun p => whenDue (timerDue .pulse n p) (pulseCourse n) p) = _
  rw [onPart_eq, whenDue_of h]

theorem exec_cipherTimerExpiry (h : cipherDue n s.part = true) :
    exec (.cipherTimerExpiry n) s = .next { s with part := cipherStep n s.part } := by
  show s.onPart (fun p => whenDue (cipherDue n p) (cipherStep n) p) = _
  rw [onPart_eq, whenDue_of h]

theorem exec_openInHold (h : (entry s.part.guard.detectors n).holdCount = 3) :
    exec (.openInHold n) s
      = .next { s with part := outputFault n .open (s.part.holdTaken n) } := by
  show s.onPart (fun p => whenDue (openDue n p) (openStep n) p) = _
  have hdue : openDue n s.part = true := beq_iff_eq.2 h
  rw [onPart_eq, whenDue_of hdue]
  rfl

end

end Sys2Proof.Machine

open Sys2Proof Sys2Proof.Machine

/-- Settles O52: the verdict of the record decides whether the output stands, or is met by the policy. -/
theorem pullInsAndPulsesAreJudged : Obligations.PullInsAndPulsesAreJudged := by
  intro s n t _ htimer htime htests p e d retries frame records acts
  refine ⟨fun hpull => ?_, fun hpulse => ?_⟩
  · have hexec := exec_pullInEnd (timerDue_of hpull htimer htime)
    refine completes_of_exec hexec ⟨FaultsOnly.pullInCourse htests,
      fun hrecord => (pullInCourse_current htests hrecord).1, fun hrecord => ?_, fun hrecord => ?_,
      pullInCourse_open htests hpull⟩
    · obtain ⟨hnone, hweak⟩ : d.pullRecord ≠ .none ∧ d.pullRecord ≠ .holdOk := by
        rcases hrecord with h | h <;> rw [h] <;> decide
      exact (pullInCourse_current htests hnone).2.1 hweak
    · have hnone : d.pullRecord ≠ .none := by rw [hrecord]; decide
      exact (pullInCourse_current htests hnone).2.2 hrecord
  · have hexec := exec_pulseEnd (timerDue_of hpulse htimer htime)
    exact completes_of_exec hexec ⟨FaultsOnly.pulseCourse htests,
      pulseCourse_current htests hpulse, pulseCourse_open htests hpulse⟩

/-- Settles O53: the cipher guard settles the output and records it; a hold count taken is a fault in
service. -/
theorem cipherAndOpenAreMet : Obligations.CipherAndOpenAreMet := by
  intro s n _ p e d records
  refine ⟨fun t hcipher htime hstate hloaded => ?_, fun hcount htests hhold => ?_⟩
  · have hexec := exec_cipherTimerExpiry (cipherDue_of hcipher htime)
    rw [cipherStep_driven hloaded hstate] at hexec
    have hasleep (x : Nat) : (settled x e).state ≠ .waiting := KeyState.noConfusion
    have hsettle : e.state ≠ .settle := by rcases hstate with h | h <;> rw [h] <;> decide
    obtain ⟨r, hout, hkind, hpassed, -, hasked⟩ :=
      recordFault_asked (n := n) .cipher (p := p) (grants_svcLine (setEntry n (settled _ e) p)) (by simp)
    have hreach (x : KeyEntry) : FaultsOnly p (recordFault n .cipher (grants (setEntry n x p))) :=
      ((FaultsOnly.setEntry n x p).trans (.grants _)).trans rfl
    obtain ⟨hattention, hpart⟩ := (hreach _).latched .cipher
    refine completes_of_exec hexec ⟨grants_setEntry_self (hasleep _) p,
      ⟨r, hout, hkind, hpassed, hasked⟩, hattention, ?_, ?_⟩
    · refine (congrArg Detector.cipher (grants_setEntry_detector (hasleep _) p)).trans ?_
      exact follows_cipher hsettle
    · rw [hattention]
      exact hpart
  · have hserved : (p.holdTaken n).guard.tests n = false := htests
    have hdriven : (p.holdTaken n).driven n := .inr (.inl hhold)
    have htaken : FaultsOnly p (p.holdTaken n) := rfl
    obtain ⟨hacts, -⟩ := outputFault_acts hserved hdriven .open
    obtain ⟨r, hout, hkind, hpassed, -, hline⟩ := outputFault_asked hserved .open
    obtain ⟨hretry, hdisable⟩ := hacts.of_holdTaken
    have hzero : (entry (outputFault n .open (p.holdTaken n)).guard.detectors n).holdCount = 0 := by
      rw [outputFault_served hserved, recordFault_guard, policy_holdCount hdriven,
        holdTaken_detector]
    exact completes_of_exec (exec_openInHold hcount) ⟨⟨r, hout, hkind, hpassed, hline⟩, hzero,
      fun hmay => (hretry hmay).1, hdisable, htaken.trans (.outputFault hserved .open)⟩
end

section
/-! SUPPORT. A cadence point (R161, R162, R168-R171): the frame that begins at it, the supply
sample, and the hold duty of the frame after. -/

open Sys2Proof

namespace Sys2Proof.Machine

/-! ## The frame that begins (R161, R162) -/

/-- The frame a cadence point begins on a chain of some boards. -/
def Part.frameSent (p : Part) (len : Nat) : ChainFrame where
  seq := p.chain.seq
  boards := len
  drive := tabulate (driveSent p len)
  duty := p.chain.holdDuty

section
variable {p : Part}

theorem beginFrame_none (h : p.chain.length = none) : beginFrame p = p := by
  unfold beginFrame
  rw [h]

theorem beginFrame_some {len : Nat} (h : p.chain.length = some len) :
    beginFrame p = { p with chain := { p.chain with
      frame := some (p.frameSent len), seq := (p.chain.seq + 1) % 16 } } := by
  unfold beginFrame
  rw [h]
  rfl

/-- A frame begins and the sequence number moves; nothing else of the part does. -/
theorem beginFrame_part (p : Part) : beginFrame p = { p with chain := { p.chain with
    frame := (beginFrame p).chain.frame, seq := (beginFrame p).chain.seq } } := by
  cases h : p.chain.length with
  | none => rw [beginFrame_none h]
  | some len => rw [beginFrame_some h]

/-- The frame begun carries the hold duty as it stands (R169). -/
theorem beginFrame_duty (h : p.chain.frame = none) {f : ChainFrame}
    (hf : (beginFrame p).chain.frame = some f) : f.duty = p.chain.holdDuty := by
  cases hlen : p.chain.length with
  | none =>
    rw [beginFrame_none hlen, h] at hf
    exact nomatch hf
  | some len =>
    rw [beginFrame_some hlen] at hf
    rw [← Option.some.inj hf]
    rfl

/-- An output's drive is its entry's where it has power and a board, and OFF elsewhere (R162). -/
theorem frameSent_drive (p : Part) (len : Nat) (n : OutputId) : entry (p.frameSent len).drive n =
    if p.power.on = true ∧ n.val < 32 * len then (entry p.keys.entries n).state.drive
    else .off := by
  simp [Part.frameSent, driveSent]

/-! ## The hold duty (R169) -/

theorem holdDuty_le (vhold vs : Nat) : holdDuty vhold vs ≤ 1023 := by
  unfold holdDuty
  split
  · split <;> decide
  · exact min_le_right _ _

theorem holdDuty_supplied {vhold vs : Nat} (h : vs ≠ 0) :
    holdDuty vhold vs = min ((vhold * 1023 + vs / 2) / vs) 1023 := if_neg h

theorem holdDuty_unsupplied {vhold : Nat} (h : 0 < vhold) : holdDuty vhold 0 = 1023 :=
  if_neg h.ne'

/-! ## The cadence point -/

/-- A cadence point in fields: the frame begun, the sample taken, the next duty held. -/
theorem cadenceCourse_eq (sense : Nat) (p : Part) : cadenceCourse sense p = { p with
    supply := p.supply.take (supplySample sense)
    chain := { p.chain with
      frame := (beginFrame p).chain.frame
      seq := (beginFrame p).chain.seq
      holdDuty := Vector.replicate 8 (holdDuty p.supply.vhold (supplySample sense))
      nextCadence := p.chain.nextCadence + 1000 } } := by
  unfold cadenceCourse
  rw [beginFrame_part]
  rfl

theorem cadenceDue_of (hclear : p.clearing = false) (hframe : p.chain.frame = none)
    (htime : p.chain.nextCadence ≤ p.time) : cadenceDue p = true := by
  simp [cadenceDue, hclear, hframe, htime]

end

theorem exec_cadencePoint {s : State} (sense : Nat) (hclear : s.part.clearing = false)
    (hframe : s.part.chain.frame = none) (htime : s.part.chain.nextCadence ≤ s.part.time) :
    exec (.cadencePoint sense) s = .next { s with part := cadenceCourse sense s.part } := by
  show s.onPart (fun p => whenDue (cadenceDue p) (cadenceCourse sense) p) = _
  rw [onPart_eq, whenDue_of (cadenceDue_of hclear hframe htime)]

/-! ## The supply out of range (R171) -/

theorem reachesTen_iff (before after : Nat) :
    reachesTen before after = true ↔ after = 10 ∧ before = 9 := by
  simp [reachesTen]

/-- The request stands, or is made where one of the two counts reaches 10. -/
theorem take_outDue (m : Supply) (vs : Nat) : (m.take vs).outDue = true ↔ m.outDue = true
    ∨ (m.take vs).below = 10 ∧ m.below = 9 ∨ (m.take vs).above = 10 ∧ m.above = 9 := by
  have hdue : (m.take vs).outDue = (m.outDue || reachesTen m.below (m.take vs).below
      || reachesTen m.above (m.take vs).above) := rfl
  rw [hdue, Bool.or_eq_true, Bool.or_eq_true, reachesTen_iff, reachesTen_iff, or_assoc]

theorem outCount_eq (outside : Prop) [Decidable outside] (count : Nat) :
    outCount (decide outside) count = if outside then min 10 (count + 1) else 0 := by
  simp [outCount]

/-- The undervolt indication is a bit of Part State word 0 (R17, R170). -/
theorem partState0_undervolt (p : Part) : p.partState0.getLsbD 13 = p.supply.undervolt := by
  have hword := partState0_toNat p
  have hbounds := partState0_bounds p
  exact getLsbD_of_field (by omega)

end Sys2Proof.Machine

open Sys2Proof Sys2Proof.Machine

/-- Settles O56: the frame is begun before the sample is taken, on the duty held till then. -/
theorem holdDutyFollowsTheSupply : Obligations.HoldDutyFollowsTheSupply := by
  intro s sense hclear hframe htime p vs vhold
  have hexec := exec_cadencePoint sense hclear hframe htime
  rw [cadenceCourse_eq] at hexec
  refine completes_of_exec hexec ⟨rfl, fun b => ?_, fun f hf => beginFrame_duty hframe hf⟩
  rw [entry_replicate]
  show (vs = 0 → 0 < vhold → holdDuty vhold vs = 1023)
    ∧ (vs = 0 → vhold = 0 → holdDuty vhold vs = 0)
    ∧ (vs ≠ 0 → holdDuty vhold vs = min ((vhold * 1023 + vs / 2) / vs) 1023)
    ∧ holdDuty vhold vs ≤ 1023
  refine ⟨fun hvs hvhold => ?_, fun hvs hvhold => ?_, holdDuty_supplied, holdDuty_le vhold vs⟩
  · rw [hvs]
    exact holdDuty_unsupplied hvhold
  · rw [hvs, hvhold]
    rfl

/-- Settles O57: the indication is the sample's comparison with Vmin, and the sample reaches the
Supply Monitor and the Chain Engine alone. -/
theorem undervoltFollowsTheSample : Obligations.UndervoltFollowsTheSample := by
  intro s sense hclear hframe htime
  have hexec := exec_cadencePoint sense hclear hframe htime
  rw [cadenceCourse_eq] at hexec
  exact completes_of_exec hexec ⟨decide_eq_true_iff, partState0_undervolt _, rfl⟩
end

section
/-! SUPPORT. A frame's completion (R164, R165, R172, R174): the echo compared, every detector on the
frame's boards judged on the drive of the frame before, and the OVERs met one after the other. -/

open Sys2Proof

namespace Sys2Proof.Machine

/-! ## The echo (R165) -/

theorem exec_frameComplete (echo : Option Nat) (senses : List Sense) (s : State) :
    exec (.frameComplete echo senses) s
      = .next { s with part := frameCompleteStep echo senses s.part } := rfl

section
variable {p : Part} {echo : Option Nat} (senses : List Sense)

theorem frameCompleteStep_none (h : p.chain.frame = none) :
    frameCompleteStep echo senses p = p := by
  unfold frameCompleteStep
  rw [h]

theorem frameCompleteStep_bad {f : ChainFrame} (h : p.chain.frame = some f)
    (hecho : echo ≠ some f.seq) :
    frameCompleteStep echo senses p = { p with chain := (p.chain.completed f).badFrame } := by
  unfold frameCompleteStep
  rw [h]
  exact if_neg hecho

theorem frameCompleteStep_good {f : ChainFrame} (h : p.chain.frame = some f)
    (hecho : echo = some f.seq) :
    frameCompleteStep echo senses p = { judgeFrame f.boards senses p with
      chain := ((judgeFrame f.boards senses p).chain.completed f).goodFrame } := by
  unfold frameCompleteStep
  rw [h]
  exact if_pos hecho

end

/-! ## The detectors judged (R172, R174) -/

/-- The detector of an output as a good frame of some boards leaves it. -/
def Part.sensedDetector (p : Part) (boards : Nat) (senses : List Sense) (n : OutputId) : Detector :=
  if n.val < 32 * boards then
    (entry p.guard.detectors n).judge (entry p.keys.entries n).state (senses.getD n.val .none)
      (entry p.chain.lastDrive n) (entry p.chain.lastDuty (Fin.ofNat 8 (n.val / 32)))
  else entry p.guard.detectors n

/-- The part with every detector judged and no OVER met yet. -/
def Part.sensed (p : Part) (boards : Nat) (senses : List Sense) : Part :=
  { p with guard := { p.guard with detectors := tabulate (p.sensedDetector boards senses) } }

/-- An OVER has been found on an output of the frame's boards. -/
def Part.tripped (p : Part) (boards : Nat) (senses : List Sense) (n : OutputId) : Bool :=
  decide (n.val < 32 * boards) && overFound (entry p.keys.entries n).state (senses.getD n.val .none)
    (entry p.chain.lastDrive n)

/-- A good frame judges the detectors, then meets each OVER in rising output number (log 58). -/
theorem judgeFrame_eq (boards : Nat) (senses : List Sense) (p : Part) : judgeFrame boards senses p =
    (allOutputs.filter (p.tripped boards senses)).foldl (fun q n => outputFault n .over q)
      (p.sensed boards senses) := by
  simp only [judgeFrame, decide_eq_true_eq]
  rfl

section
variable {p : Part} {boards : Nat} {senses : List Sense} {n : OutputId}

theorem sensed_detector (h : n.val < 32 * boards) :
    entry (p.sensed boards senses).guard.detectors n =
    (entry p.guard.detectors n).judge (entry p.keys.entries n).state (senses.getD n.val .none)
      (entry p.chain.lastDrive n) (entry p.chain.lastDuty (Fin.ofNat 8 (n.val / 32))) :=
  (entry_tabulate _ n).trans (if_pos h)

theorem sensed_retryCount : (entry (p.sensed boards senses).guard.detectors n).retryCount
    = (entry p.guard.detectors n).retryCount := by
  have hsensed : entry (p.sensed boards senses).guard.detectors n
      = p.sensedDetector boards senses n := entry_tabulate _ n
  rw [hsensed, Part.sensedDetector]
  split <;> rfl

/-! ## OVER (R174) -/

theorem drive_ne_off_iff (st : KeyState) :
    st.drive ≠ .off ↔ st = .pull ∨ st = .hold ∨ st = .pulse := by
  cases st <;> decide

/-- OVER is an over-current sensed on an output driven in the frame before and driven still. -/
theorem tripped_iff : p.tripped boards senses n = true ↔ n.val < 32 * boards
    ∧ senses.getD n.val .none = .over ∧ entry p.chain.lastDrive n ≠ .off ∧ p.driven n := by
  simp only [Part.tripped, overFound, Bool.and_eq_true, decide_eq_true_eq, beq_iff_eq, bne_iff_ne,
    drive_ne_off_iff, Part.driven, and_assoc]

theorem tripped_false_of_sense (h : senses.getD n.val .none ≠ .over) :
    p.tripped boards senses n = false :=
  Bool.eq_false_iff.2 fun htrip => h (tripped_iff.1 htrip).2.1

/-- With no OVER found, a good frame judges the detectors alone. -/
theorem judgeFrame_untripped (h : ∀ m, p.tripped boards senses m = false) :
    judgeFrame boards senses p = p.sensed boards senses := by
  rw [judgeFrame_eq, List.filter_eq_nil_iff.2 fun m _ => Bool.eq_false_iff.1 (h m)]
  rfl

/-- The one output of which a test holds is what a filter of all outputs keeps. -/
theorem filter_allOutputs_single {test : OutputId → Bool} (h : test n = true)
    (hothers : ∀ m, m ≠ n → test m = false) : allOutputs.filter test = [n] := by
  have htest : ∀ m ∈ allOutputs, test m = (m == n) := by
    intro m _
    by_cases hm : m = n
    · rw [hm, h, beq_self_eq_true]
    · rw [hothers m hm, beq_false_of_ne hm]
  have hcount : allOutputs.count n = 1 :=
    List.count_eq_one_of_mem (List.nodup_finRange 256) (mem_allOutputs n)
  rw [List.filter_congr htest, List.filter_beq, hcount]
  rfl

/-- One OVER found is met as a fault of its output. -/
theorem judgeFrame_single (h : p.tripped boards senses n = true)
    (hothers : ∀ m, m ≠ n → p.tripped boards senses m = false) :
    judgeFrame boards senses p = outputFault n .over (p.sensed boards senses) := by
  rw [judgeFrame_eq, filter_allOutputs_single h hothers]
  rfl

/-- What an OVER makes of its output is as the policy has it, on the retry count of before. -/
theorem FaultActs.of_sensed {q : Part} (h : FaultActs n (p.sensed boards senses) q) :
    FaultActs n p q := by
  unfold FaultActs Part.mayRetry at h
  rw [sensed_retryCount] at h
  exact h

end

/-! ## What a good frame does not reach -/

/-- The console, the chain, magnet power, the Player and the setup stand. -/
def GuardAlone (p q : Part) : Prop :=
  SameConsole p q ∧ q.chain = p.chain ∧ q.power = p.power ∧ q.player = p.player ∧ q.setup = p.setup

theorem guardAlone_outputFault {p q : Part} (h : GuardAlone p q) (n : OutputId) (kind : FaultKind) :
    GuardAlone p (outputFault n kind q) := by
  simpa [GuardAlone, SameConsole] using h

theorem guardAlone_judgeFrame (boards : Nat) (senses : List Sense) (p : Part) :
    GuardAlone p (judgeFrame boards senses p) := by
  have hsensed : GuardAlone p (p.sensed boards senses) :=
    ⟨⟨rfl, rfl, rfl, rfl, rfl, rfl⟩, rfl, rfl, rfl, rfl⟩
  rw [judgeFrame_eq]
  exact List.foldlRecOn _ _ hsensed fun q hq n _ => guardAlone_outputFault hq n .over

/-! ## One detector (R172, R174) -/

section
variable {d : Detector} {st : KeyState} {sn : Sense} {drive : Drive} {duty : Nat}

theorem raise_holdOk (r : PullRecord) :
    r.raise .holdOk = if r = .pullOk then .pullOk else .holdOk := by
  cases r <;> rfl

theorem raise_none (r : PullRecord) : r.raise .none = if r = .empty then .none else r := by
  cases r <;> rfl

/-- A pull-in record is raised while the entry uses a slot and was pulled in the frame before
(R172). -/
theorem judge_pullRecord_pulled (hslot : st.usesSlot = true) (hdrive : drive = .pull) :
    (d.judge st sn drive duty).pullRecord = d.pullRecord.raise sn :=
  if_pos (by simp [hslot, hdrive])

theorem judge_pullRecord_stands (h : st.usesSlot = false ∨ drive ≠ .pull) :
    (d.judge st sn drive duty).pullRecord = d.pullRecord :=
  if_neg (by rcases h with h | h <;> simp [h])

/-- The hold count goes on while the entry holds and was held with some duty in the frame before
(R174). -/
theorem judge_holdCount_held (hst : st = .hold) (hdrive : drive = .hold) (hduty : duty ≠ 0)
    (hcount : d.holdCount < 3) :
    (d.judge st sn drive duty).holdCount = if sn = .none then d.holdCount + 1 else 0 := by
  refine (if_pos hst).trans (if_neg ?_)
  rintro (h | h | h)
  · omega
  · exact h hdrive
  · exact hduty h

theorem judge_holdCount_stands (h : st ≠ .hold ∨ drive ≠ .hold ∨ duty = 0) :
    (d.judge st sn drive duty).holdCount = d.holdCount := by
  by_cases hst : st = .hold
  · exact (if_pos hst).trans (if_pos (.inr (h.resolve_left (not_not_intro hst))))
  · exact if_neg hst

theorem judge_stuckCount_driven (h : drive ≠ .off) : (d.judge st sn drive duty).stuckCount = 0 :=
  if_pos h

theorem judge_stuckCount_noCurrent (hdrive : drive = .off) (hsense : sn = .none) :
    (d.judge st sn drive duty).stuckCount = 0 := by
  rw [hsense]
  exact (if_neg (not_not_intro hdrive)).trans (if_pos rfl)

/-- A current with no drive, before or now, counts toward STUCK (R174). -/
theorem judge_stuckCount_current (hdrive : drive = .off) (hsense : sn ≠ .none) (hover : sn ≠ .over)
    (hst : st.drive = .off) : (d.judge st sn drive duty).stuckCount = min 3 (d.stuckCount + 1) := by
  have hflows : ¬(!senseFlows sn) = true := by
    cases sn with
    | none => exact absurd rfl hsense
    | holdOk | pullOk => decide
    | _ => exact absurd rfl hover
  exact ((if_neg (not_not_intro hdrive)).trans (if_neg hflows)).trans (if_pos hst)

/-- STUCK is found where the count comes to 3 from 2 (R174). -/
theorem judge_stuckDue_current (hdrive : drive = .off) (hsense : sn ≠ .none) (hover : sn ≠ .over)
    (hst : st.drive = .off) : (d.judge st sn drive duty).stuckDue = true
      ↔ d.stuckDue = true ∨ d.stuckCount = 2 := by
  have hdue : (d.judge st sn drive duty).stuckDue
      = (d.stuckDue || ((d.judge st sn drive duty).stuckCount == 3 && d.stuckCount == 2)) := rfl
  rw [hdue, judge_stuckCount_current hdrive hsense hover hst, Bool.or_eq_true, Bool.and_eq_true,
    beq_iff_eq, beq_iff_eq]
  exact or_congr_right ⟨fun h => h.2, fun h => ⟨by rw [h]; decide, h⟩⟩

theorem drive_off_of_quiet (h : st = .off ∨ st = .waiting ∨ st = .settle ∨ st = .disabled) :
    st.drive = .off := by
  rcases h with h | h | h | h <;> rw [h] <;> rfl

end

/-! ## Good frames with no OVER, and with one -/

section
variable {p : Part} {boards : Nat} {senses : List Sense} {n : OutputId}

theorem judgeFrame_quiet (h : ∀ m : OutputId, senses.getD m.val .none ≠ .over) :
    judgeFrame boards senses p = p.sensed boards senses :=
  judgeFrame_untripped fun m => tripped_false_of_sense (h m)

theorem judgeFrame_quiet_detector (h : ∀ m : OutputId, senses.getD m.val .none ≠ .over)
    (hboard : n.val < 32 * boards) : entry (judgeFrame boards senses p).guard.detectors n =
      (entry p.guard.detectors n).judge (entry p.keys.entries n).state (senses.getD n.val .none)
        (entry p.chain.lastDrive n) (entry p.chain.lastDuty (Fin.ofNat 8 (n.val / 32))) := by
  rw [judgeFrame_quiet h, sensed_detector hboard]

/-- The one OVER of a frame, on a driven output in service, is recorded and met by the policy (R174,
R175). -/
theorem judgeFrame_over (hboard : n.val < 32 * boards) (hover : senses.getD n.val .none = .over)
    (hothers : ∀ m : OutputId, m ≠ n → senses.getD m.val .none ≠ .over)
    (htests : p.guard.tests n = false) (hdriven : p.driven n)
    (hlast : entry p.chain.lastDrive n ≠ .off) :
    FaultAsked n .over p (judgeFrame boards senses p)
      ∧ FaultActs n p (judgeFrame boards senses p) := by
  have hserved : (p.sensed boards senses).guard.tests n = false := htests
  obtain ⟨hacts, -⟩ := outputFault_acts hserved hdriven .over
  rw [judgeFrame_single (tripped_iff.2 ⟨hboard, hover, hlast, hdriven⟩)
    fun m hm => tripped_false_of_sense (hothers m hm)]
  exact ⟨outputFault_asked hserved .over, hacts.of_sensed⟩

/-- The one OVER of a frame on an output not driven, now or in the frame before, is no fault
(R174). -/
theorem judgeFrame_over_passed (hothers : ∀ m : OutputId, m ≠ n → senses.getD m.val .none ≠ .over)
    (h : ¬p.driven n ∨ entry p.chain.lastDrive n = .off) :
    judgeFrame boards senses p = p.sensed boards senses := by
  refine judgeFrame_untripped fun m => ?_
  by_cases hm : m = n
  · refine Bool.eq_false_iff.2 fun htrip => ?_
    obtain ⟨-, -, hlast, hdriven⟩ := tripped_iff.1 (hm ▸ htrip)
    exact h.elim (fun h => h hdriven) hlast
  · exact tripped_false_of_sense (hothers m hm)

end

end Sys2Proof.Machine

open Sys2Proof Sys2Proof.Machine

/-- Settles O58: a frame begins at a cadence point; at its completion a good echo has each detector
judged, and the one OVER found is met as a fault in service. -/
theorem framesAreSentAndChecked : Obligations.FramesAreSentAndChecked := by
  intro s echo senses sense p c
  refine ⟨?begun, ?idle, ?completed⟩
  case begun =>
    intro hclear hframe htime
    have hexec := exec_cadencePoint sense hclear hframe htime
    rw [cadenceCourse_eq] at hexec
    refine completes_of_exec hexec ⟨rfl, fun hlength => ?_, fun len hlength => ?_⟩
    · rw [beginFrame_none hlength]
      exact ⟨hframe, rfl⟩
    · rw [beginFrame_some hlength]
      exact ⟨rfl, _, rfl, rfl, rfl, frameSent_drive p len⟩
  case idle =>
    intro hframe
    rw [exec_frameComplete, frameCompleteStep_none senses hframe]
  case completed =>
    intro f hframe sent
    refine ⟨fun hecho => ?bad, fun hecho => ?good⟩
    case bad =>
      rw [exec_frameComplete, frameCompleteStep_bad senses hframe hecho]
      rfl
    case good =>
      have hexec := exec_frameComplete echo senses s
      rw [frameCompleteStep_good senses hframe hecho] at hexec
      obtain ⟨hconsole, hchain, hpower, hplayer, hsetup⟩ := guardAlone_judgeFrame f.boards senses p
      refine completes_of_exec hexec
        ⟨?chain, hconsole, hpower, hplayer, hsetup, ?records, ?counts, ?overs⟩
      case chain =>
        rw [hchain]
        rfl
      case records =>
        intro hsenses
        refine ⟨?_, fun n hboard => ?_⟩
        · rw [judgeFrame_quiet hsenses]
          rfl
        · rw [judgeFrame_quiet_detector hsenses hboard]
          refine ⟨fun hslot hdrive => ?_, judge_pullRecord_stands⟩
          rw [judge_pullRecord_pulled hslot hdrive]
          refine ⟨fun hsn => ?_, fun hsn => ?_, fun hsn => ?_⟩ <;> rw [hsn]
          · rfl
          · exact raise_holdOk _
          · exact raise_none _
      case counts =>
        intro hsenses n hboard
        rw [judgeFrame_quiet_detector hsenses hboard]
        refine ⟨judge_holdCount_held, judge_holdCount_stands, judge_stuckCount_driven,
          judge_stuckCount_noCurrent, fun hdrive hsense hstate => ?_, rfl, rfl⟩
        have hoff := drive_off_of_quiet hstate
        exact ⟨judge_stuckCount_current hdrive hsense (hsenses n) hoff,
          judge_stuckDue_current hdrive hsense (hsenses n) hoff⟩
      case overs =>
        intro n _ hboard hover hothers htests
        refine ⟨judgeFrame_over hboard hover hothers htests, fun hpassed => ?_⟩
        rw [judgeFrame_over_passed hothers hpassed]
        rfl
end

section
/-! SUPPORT. The faults that take magnet power away (R166, R171, R174, R178): what a switch-off
leaves alone beside the entries, and the TEST it ends (R180). -/

open Sys2Proof

namespace Sys2Proof.Machine

/-! ## A switch-off read from another part -/

/-- A lock is the lock of any part with the same reader, lists and follower. -/
theorem Locked.of_plan {why : LockReason} {addr : Nat} {p r q : Part} (h : Locked why addr r q)
    (hreader : r.reader = p.reader) (hsched : r.sched = p.sched)
    (hfollower : r.follower = p.follower) :
    Locked why addr p q :=
  h.of_same .locked false hreader hsched hfollower

/-- A switch-off is the switch-off of any part with the same outputs, TEST, slot and plan. -/
theorem SwitchedOff.of_same {cause : PowerCause} {p r q : Part} (h : SwitchedOff cause r q)
    (hkeys : r.keys = p.keys) (htest : r.guard.test = p.guard.test) (hslot : r.slot = p.slot)
    (hplan : SamePlan p r) (hlisten : r.listen = p.listen) : SwitchedOff cause p q := by
  obtain ⟨hreader, hfollower, hplayer, hsched⟩ := hplan
  have hplaying : r.playing = p.playing := by
    unfold Part.playing
    rw [hplayer]
  obtain ⟨power, queue, entries, test, slot, locks, stands, latched⟩ := h
  rw [hkeys, htest] at entries
  rw [htest, hslot] at slot
  rw [hplaying] at locks stands
  rw [hplayer, hreader, hsched, hfollower, hlisten] at stands
  exact ⟨power, queue, entries, test, slot,
    fun hplays => (locks hplays).of_plan hreader hsched hfollower, stands, latched⟩

/-! ## What a switch-off leaves alone -/

/-- The Chain Engine, the Supply Monitor and the STUCKs found and not yet taken stand. -/
structure FaultsStand (p q : Part) : Prop where
  chain : q.chain = p.chain
  supply : q.supply = p.supply
  stuck : ∀ n, (entry q.guard.detectors n).stuckDue = (entry p.guard.detectors n).stuckDue

theorem FaultsStand.refl (p : Part) : FaultsStand p p := ⟨rfl, rfl, fun _ => rfl⟩

theorem FaultsStand.trans {p q r : Part} (h : FaultsStand p q) (h' : FaultsStand q r) :
    FaultsStand p r :=
  ⟨h'.chain.trans h.chain, h'.supply.trans h.supply, fun n => (h'.stuck n).trans (h.stuck n)⟩

theorem follows_stuckDue (d : Detector) (old new : KeyState) (cipher : Nat) :
    (d.follows old new cipher).stuckDue = d.stuckDue := by
  unfold Detector.follows
  split <;> rfl

theorem faultsStand_setEntry (n : OutputId) (e : KeyEntry) (p : Part) :
    FaultsStand p (setEntry n e p) := by
  refine ⟨rfl, rfl, fun m => ?_⟩
  rw [setEntry_detector]
  split
  · rename_i hm
    rw [follows_stuckDue, hm]
  · rfl

theorem faultsStand_setAllEntries (f : KeyEntry → KeyEntry) (p : Part) :
    FaultsStand p (setAllEntries f p) :=
  ⟨rfl, rfl, fun n => (congrArg Detector.stuckDue (entry_tabulate _ n)).trans
    (follows_stuckDue _ _ _ _)⟩

theorem faultsStand_lockRequest (why : LockReason) (addr : Nat) (p : Part) :
    FaultsStand p (lockRequest why addr p) := by
  unfold lockRequest
  split
  · have hreleased := faultsStand_setAllEntries
      (releasedEntry (p.time + 1000 * settleTime p)) (emptyLists (abandonHeld p))
    have hguard : (lockPlayer why addr p).guard = (setAllEntries
        (releasedEntry (p.time + 1000 * settleTime p)) (emptyLists (abandonHeld p))).guard := by
      simp [lockPlayer, generalRelease, keyGeneralRelease, settleTime]
    refine ⟨?_, ?_, fun n => ?_⟩
    · simp [lockPlayer, generalRelease, keyGeneralRelease]
    · simp [lockPlayer, generalRelease, keyGeneralRelease]
    · rw [hguard, hreleased.stuck]
      simp
  · exact .refl p

theorem lockRequest_slot (why : LockReason) (addr : Nat) (p : Part) :
    (lockRequest why addr p).slot = p.slot := by
  unfold lockRequest
  split
  · exact lockPlayer_slot why addr p
  · rfl

theorem lockRequest_svcLine (why : LockReason) (addr : Nat) (p : Part) :
    (lockRequest why addr p).svcLine = p.svcLine := by
  unfold lockRequest
  split
  · exact lockPlayer_svcLine why addr p
  · rfl

/-- A lock leaves an entry at rest as it is (R159). -/
theorem lockRequest_entry (why : LockReason) (addr : Nat) {p : Part} {n : OutputId}
    (h : (entry p.keys.entries n).state.atRest = true) :
    entry (lockRequest why addr p).keys.entries n = entry p.keys.entries n := by
  unfold lockRequest
  split
  · exact lockPlayer_entry why addr p n h
  · rfl

/-! ## The TEST that ends (R180) -/

section
variable {p : Part} {t : Test}

/-- With no request waiting, a disabling grants nothing. -/
theorem disableOutput_unqueued {n : OutputId} (hqueue : p.keys.queue = [])
    (h : (entry p.keys.entries n).state ≠ .disabled) :
    disableOutput n p = setEntry n { KeyEntry.idle with state := .disabled } p := by
  rw [disableOutput_active h, grants_empty (by simp [hqueue])]

/-- The part with the output under test disabled again where it was found DISABLED. -/
def Test.lost (t : Test) (p : Part) : Part :=
  if t.stage = .pulled && t.marked then disableOutput t.output p else p

theorem powerLostTest_none (h : p.guard.test = none) : powerLostTest p = p := by
  unfold powerLostTest
  rw [h]

theorem powerLostTest_some (h : p.guard.test = some t) :
    powerLostTest p = finishTest .powerFault .powerLost (t.lost p) := by
  unfold powerLostTest
  rw [h]
  rfl

/-- The output under test is put in DISABLED, or nothing comes about. -/
theorem Test.lost_cases (t : Test) (hqueue : p.keys.queue = []) : t.lost p = p
    ∨ t.lost p = setEntry t.output { KeyEntry.idle with state := .disabled } p := by
  unfold Test.lost
  split
  · by_cases h : (entry p.keys.entries t.output).state = .disabled
    · exact .inl (if_pos h)
    · exact .inr (disableOutput_unqueued hqueue h)
  · exact .inl rfl

theorem Test.lost_queue (t : Test) (hqueue : p.keys.queue = []) : (t.lost p).keys.queue = [] := by
  rcases t.lost_cases hqueue with h | h <;> rw [h] <;> simp [hqueue]

/-- The loss of magnet power closes the command in flight (R180). -/
theorem powerLostTest_closes (h : p.guard.test = some t) (hqueue : p.keys.queue = []) :
    EndsWith 5 9 p (powerLostTest p) := by
  rw [powerLostTest_some h, finishTest_part]
  rcases t.lost_cases hqueue with hlost | hlost <;> rw [hlost] <;> exact ⟨rfl, rfl⟩

theorem powerLostTest_marked (h : p.guard.test = some t) (hqueue : p.keys.queue = [])
    (hstage : t.stage = .pulled) (hmarked : t.marked = true)
    (hstate : (entry p.keys.entries t.output).state ≠ .disabled) :
    entry (powerLostTest p).keys.entries t.output
      = { KeyEntry.idle with state := .disabled } := by
  have hlost : t.lost p = disableOutput t.output p := if_pos (by simp [hstage, hmarked])
  have hidle : t.output ∉ (t.lost p).keys.queue := by simp [t.lost_queue hqueue]
  rw [powerLostTest_some h, (finishTest_rest _ _ hidle).1, hlost,
    disableOutput_unqueued hqueue hstate, setEntry_entry, if_pos rfl]

theorem faultsStand_powerLostTest (hqueue : p.keys.queue = []) :
    FaultsStand p (powerLostTest p) := by
  cases h : p.guard.test with
  | none =>
    rw [powerLostTest_none h]
    exact .refl p
  | some t =>
    have hlost : FaultsStand p (t.lost p) := by
      rcases t.lost_cases hqueue with hcase | hcase <;> rw [hcase]
      · exact .refl p
      · exact faultsStand_setEntry _ _ p
    have hidle (n : OutputId) : n ∉ (t.lost p).keys.queue := by simp [t.lost_queue hqueue]
    rw [powerLostTest_some h]
    exact hlost.trans ⟨by simp, by simp,
      fun n => congrArg Detector.stuckDue (finishTest_rest _ _ (hidle n)).2⟩

end

/-! ## The course of a switch-off (R158, R178, R180) -/

/-- The part with MPWR fallen and the Key Table forced OFF. -/
def Part.unpowered (p : Part) (cause : PowerCause) : Part :=
  keyPowerOff { p with power := { on := false, cause := cause } }

section
variable {p : Part} {cause : PowerCause}

theorem unpowered_queue (p : Part) (cause : PowerCause) : (p.unpowered cause).keys.queue = [] := rfl

theorem faultsStand_unpowered (p : Part) (cause : PowerCause) : FaultsStand p (p.unpowered cause) :=
  have h := faultsStand_setAllEntries offAtPower { p with power := { on := false, cause := cause } }
  ⟨h.chain, h.supply, h.stuck⟩

/-- Every entry but a DISABLED one is OFF, so it is not DISABLED either (R158). -/
theorem unpowered_active {n : OutputId} (h : (entry p.keys.entries n).state ≠ .disabled) :
    (entry (p.unpowered cause).keys.entries n).state ≠ .disabled := by
  have hentry : entry (p.unpowered cause).keys.entries n = offAtPower (entry p.keys.entries n) :=
    setAllEntries_entry _ _ n
  rw [hentry, offAtPower, if_neg h]
  decide

/-- A request for OFF that is no soft reset's: the TEST ends, a playing Player locks, POWER is
latched but for the command. -/
theorem powerOff_on (hcause : cause ≠ .softReset) (hon : p.power.on = true) : powerOff cause p =
    latchIf (cause != .command) .power
      (lockRequest .power 0 (powerLostTest (p.unpowered cause))) := by
  unfold powerOff
  rw [hon, if_neg (by decide)]
  dsimp only
  rw [if_neg hcause]
  rfl

theorem faultsStand_powerOff (hcause : cause ≠ .softReset) (hon : p.power.on = true) :
    FaultsStand p (powerOff cause p) := by
  rw [powerOff_on hcause hon]
  exact (((faultsStand_unpowered p cause).trans
    (faultsStand_powerLostTest (unpowered_queue p cause))).trans
    (faultsStand_lockRequest .power 0 _)).trans ⟨by simp, by simp, fun n => by simp⟩

theorem powerOff_service (hcause : cause ≠ .softReset) (hon : p.power.on = true) :
    (powerOff cause p).slot = (powerLostTest (p.unpowered cause)).slot
      ∧ (powerOff cause p).svcLine = (powerLostTest (p.unpowered cause)).svcLine := by
  rw [powerOff_on hcause hon]
  exact ⟨by simp [lockRequest_slot], by simp [lockRequest_svcLine]⟩

/-- What a switch-off asks of the Service Unit joins its line behind what stands there. -/
theorem powerOff_svcLine (hcause : cause ≠ .softReset) (hon : p.power.on = true) :
    ∃ more, (powerOff cause p).svcLine = p.svcLine ++ more := by
  rw [(powerOff_service hcause hon).2]
  cases h : p.guard.test with
  | none =>
    rw [powerLostTest_none (p := p.unpowered cause) h]
    exact ⟨[], (List.append_nil _).symm⟩
  | some t => exact ⟨_, (powerLostTest_closes (p := p.unpowered cause) h rfl).2⟩

theorem powerOff_entry (hcause : cause ≠ .softReset) (hon : p.power.on = true) (n : OutputId) :
    entry (powerOff cause p).keys.entries n
      = entry (powerLostTest (p.unpowered cause)).keys.entries n := by
  have hrest : (entry (powerLostTest (p.unpowered cause)).keys.entries n).state.atRest = true :=
    (powerGone cause p).rest n
  rw [powerOff_on hcause hon, ← lockRequest_entry .power 0 hrest]
  simp

/-- A TEST in progress ends with the switch-off, its marked output DISABLED again (R180). -/
theorem powerOff_endsTest {t : Test} (hcause : cause ≠ .softReset) (hon : p.power.on = true)
    (h : p.guard.test = some t) : EndsWith 5 9 p (powerOff cause p)
      ∧ (t.stage = .pulled → t.marked = true → (entry p.keys.entries t.output).state ≠ .disabled →
        entry (powerOff cause p).keys.entries t.output
          = { KeyEntry.idle with state := .disabled }) := by
  have htest : (p.unpowered cause).guard.test = some t := h
  refine ⟨?_, fun hstage hmarked hstate => ?_⟩
  · unfold EndsWith
    rw [(powerOff_service hcause hon).1, (powerOff_service hcause hon).2]
    exact powerLostTest_closes htest rfl
  · rw [powerOff_entry hcause hon]
    exact powerLostTest_marked htest rfl hstage hmarked (unpowered_active hstate)

end

/-! ## The faults as commands -/

/-- The part with the CHAIN fault's indication set and its events taken (R166). -/
def Part.chainFaulted (p : Part) : Part :=
  { p with chain := { p.chain with fault := true, faultDue := false, clearDue := false } }

/-- The part with the Supply Monitor's request taken (R171). -/
def Part.supplyTaken (p : Part) : Part := { p with supply := { p.supply with outDue := false } }

/-- The part with a STUCK taken and recorded, magnet power as it stands (R174, R177). -/
def Part.stuckRecorded (p : Part) (n : OutputId) : Part :=
  recordFault n .stuck (putDetector n { entry p.guard.detectors n with stuckDue := false } p)

theorem stuckRecorded_detector (p : Part) (n : OutputId) :
    (entry (p.stuckRecorded n).guard.detectors n).stuckDue = false :=
  congrArg Detector.stuckDue (entry_put_same _ n _)

section
variable {s : State}

theorem exec_chainFault (h : s.part.chain.faultDue = true) :
    exec .chainFault s = .next { s with part := powerOff .chain s.part.chainFaulted } := by
  show s.onPart (fun p => whenDue p.chain.faultDue chainFaultStep p) = _
  rw [onPart_eq, whenDue_of h]
  rfl

theorem exec_chainFaultClear (h : s.part.chain.clearDue = true) :
    exec .chainFaultClear s = .next { s with part := chainClearStep s.part } := by
  show s.onPart (fun p => whenDue p.chain.clearDue chainClearStep p) = _
  rw [onPart_eq, whenDue_of h]

theorem exec_supplyOutOfRange (h : s.part.supply.outDue = true) :
    exec .supplyOutOfRange s = .next { s with part := powerOff .supply s.part.supplyTaken } := by
  show s.onPart (fun p => whenDue p.supply.outDue supplyOutStep p) = _
  rw [onPart_eq, whenDue_of h]
  rfl

theorem exec_stuck {n : OutputId} (h : (entry s.part.guard.detectors n).stuckDue = true) :
    exec (.stuck n) s = .next { s with part := powerOff .stuck (s.part.stuckRecorded n) } := by
  have hdue : stuckDue n s.part = true := h
  show s.onPart (fun p => whenDue (stuckDue n p) (stuckStep n) p) = _
  rw [onPart_eq, whenDue_of hdue]
  rfl

end

end Sys2Proof.Machine

open Sys2Proof Sys2Proof.Machine

/-- Settles O59: each fault taken is one switch-off of the part that has taken it; the counts that
bring the supply's request are read off the sample. -/
theorem faultsSwitchMagnetPowerOff : Obligations.FaultsSwitchMagnetPowerOff := by
  intro s p chained supplied testLost
  have hplan : SamePlan p p := ⟨rfl, rfl, rfl, rfl⟩
  refine ⟨?chain, ?clear, ?supply, ?stuck, ?sample⟩
  case chain =>
    intro hdue
    have hexec := exec_chainFault hdue
    refine ⟨fun hon => ?_, fun hoff => ?_⟩
    · have honChained : p.chainFaulted.power.on = true := hon
      exact completes_of_exec hexec
        ⟨(switchedOff (by decide) honChained).of_same rfl rfl rfl hplan rfl,
          (faultsStand_powerOff (by decide) honChained).chain,
          fun t ht => powerOff_endsTest (p := p.chainFaulted) (by decide) honChained ht⟩
    · rwa [powerOff_off .chain (p := s.part.chainFaulted) hoff] at hexec
  case clear => exact exec_chainFaultClear
  case supply =>
    intro hdue
    have hexec := exec_supplyOutOfRange hdue
    refine ⟨fun hon => ?_, fun hoff => ?_⟩
    · have honTaken : p.supplyTaken.power.on = true := hon
      exact completes_of_exec hexec
        ⟨(switchedOff (by decide) honTaken).of_same rfl rfl rfl hplan rfl,
          (faultsStand_powerOff (by decide) honTaken).supply,
          fun t ht => powerOff_endsTest (p := p.supplyTaken) (by decide) honTaken ht⟩
    · rwa [powerOff_off .supply (p := s.part.supplyTaken) hoff] at hexec
  case stuck =>
    intro n hdue
    have hexec := exec_stuck hdue
    obtain ⟨r, hout, hkind, hpassed, -, hline⟩ : FaultAsked n .stuck p (p.stuckRecorded n) :=
      recordFault_asked .stuck rfl rfl
    have htaken := stuckRecorded_detector p n
    refine ⟨r, hout, hkind, hpassed, fun hon => ?_, fun hoff => ?_⟩
    · have honTaken : (p.stuckRecorded n).power.on = true := hon
      obtain ⟨more, hmore⟩ := powerOff_svcLine (cause := .stuck) (by decide) honTaken
      refine completes_of_exec hexec
        ⟨(switchedOff (by decide) honTaken).of_same rfl rfl rfl hplan rfl,
          ((faultsStand_powerOff (by decide) honTaken).stuck n).trans htaken, more, ?_⟩
      rw [hmore, hline, List.append_assoc]
      rfl
    · rw [powerOff_off .stuck (p := s.part.stuckRecorded n) hoff] at hexec
      refine completes_of_exec hexec ⟨?_, htaken⟩
      rw [← hline]
      rfl
  case sample =>
    intro sense hclear hframe htime vs below above
    have hexec := exec_cadencePoint sense hclear hframe htime
    rw [cadenceCourse_eq] at hexec
    have hbelow : (p.supply.take vs).below = below := outCount_eq _ _
    have habove : (p.supply.take vs).above = above := outCount_eq _ _
    have hdue := take_outDue p.supply vs
    rw [hbelow, habove] at hdue
    exact completes_of_exec hexec ⟨hbelow, habove, hdue⟩
end

section
/-! SUPPORT. POWER at its owner (R42, R174, R178): magnet power switched ON, and OFF by the command. -/

open Sys2Proof

namespace Sys2Proof.Machine

theorem powerCommand_off {p : Part} (h : (p.slot.arg 1).toNat = 0) :
    powerCommand p = (powerOff .command p).ended 1 0 := by
  unfold powerCommand
  rw [h]
  rfl

/-- POWER ON that passes its checks ends with OK (log 38). -/
theorem powerOnCommand_passed {p : Part} (hloaded : p.setupLoaded = true)
    (hchain : p.chain.fault = false) (hlow : p.supply.vcut ≤ p.supply.vs)
    (hhigh : p.supply.vs ≤ p.supply.vmax) : powerOnCommand p = (powerOn p).ended 1 0 := by
  have hrange : p.supply.inRange = true := (inRange_iff _).2 ⟨hlow, hhigh⟩
  unfold powerOnCommand
  rw [hloaded, hchain, hrange]
  rfl

theorem powerOn_on {p : Part} (h : p.power.on = true) : powerOn p = p := if_pos h

/-- Every stuck count returns to 0 when magnet power goes ON (R174). -/
theorem powerOn_off {p : Part} (h : p.power.on = false) : powerOn p = { p with
    power := { p.power with on := true }
    guard := { p.guard with detectors := tabulate fun n =>
      { entry p.guard.detectors n with stuckCount := 0 } } } :=
  if_neg (by rw [h]; decide)

theorem exec_power {s : State} (h : s.part.atOwner cmdPower) :
    exec .power s = .next { s with part := powerCommand s.part } := onPart_atOwner h powerCommand

end Sys2Proof.Machine

open Sys2Proof Sys2Proof.Machine

/-- Settles O31: the argument decides between ON and OFF, and the state of magnet power whether anything
is switched. -/
theorem powerCommandSwitches : Obligations.PowerCommandSwitches := by
  intro s howner p
  have hexec := exec_power howner
  refine ⟨fun harg hloaded hchain hlow hhigh => ?on, fun harg => ?off⟩
  case on =>
    rw [powerCommand_on (by rw [harg]; rfl),
      powerOnCommand_passed hloaded hchain hlow hhigh] at hexec
    refine ⟨fun hon => ?_, fun hoff => ?_⟩
    · rwa [powerOn_on hon] at hexec
    · rw [powerOn_off hoff] at hexec
      exact completes_of_exec hexec ⟨rfl, entry_tabulate _⟩
  case off =>
    rw [powerCommand_off (by rw [harg]; rfl)] at hexec
    refine ⟨fun hoff => ?_, fun hon _ => ⟨_, switchedOff (by decide) hon, hexec⟩⟩
    rwa [powerOff_off .command hoff] at hexec
end

section
/-! SUPPORT. The walk of a TEST (R151-R153, R179): the test pull, the output taken up next, and what
a verdict or an OVER makes of the output under test. -/

open Sys2Proof

namespace Sys2Proof.Machine

/-! ## Where a TEST stands -/

/-- The part with a TEST in progress as given. -/
def Part.withTest (p : Part) (t : Test) : Part :=
  { p with guard := { p.guard with test := some t } }

section
variable {p : Part} {t : Test} (htest : p.guard.test = some t)
include htest

theorem setTestStage_of (stage : TestStage) :
    setTestStage stage p = p.withTest { t with stage := stage } := by
  unfold setTestStage
  rw [htest]
  rfl

theorem tests_of (hstage : t.stage ≠ .waiting) : p.guard.tests t.output = true := by
  unfold Guard.tests
  rw [htest]
  simp [hstage]

theorem marks_of : p.guard.marks = t.marked := by
  unfold Guard.marks
  rw [htest]

end

/-- A request leaves the TEST as it stands. -/
theorem RequestsOnly.test {p q : Part} (h : RequestsOnly p q) : q.guard.test = p.guard.test := by
  rw [h]

/-! ## A request granted at once (R152) -/

section
variable {p : Part} {n : OutputId} (hqueue : p.keys.queue = [])
  (hslot : (entry p.keys.entries n).state.usesSlot = false)
  (hfree : p.setupLoaded = true ∧ slotsInUse p.keys.entries < p.keys.slotLimit)
include hqueue hslot hfree

/-- The grant empties the pull-in record (R172) and starts the cipher timer of a KEY (R176). -/
theorem request_granted_record (kind : OutputKind) (count : Nat) :
    (entry (grants (joinQueue n kind count p)).guard.detectors n).pullRecord = .empty
      ∧ (entry (grants (joinQueue n kind count p)).guard.detectors n).cipher
        = if kind = .stop then none else some (cipherEnd p) := by
  rw [grants_joinQueue_free hqueue hslot hfree, joinQueue_room (by rw [hqueue]; decide),
    grantOne_detector n (by simp [KeyEntry.waits])]
  simp [KeyEntry.waits, cipherEnd]

/-- The grant of a request of kind KEY makes the mask window of its key (R67). -/
theorem request_granted_mask {d : Division} {key : Nat}
    (hmap : entry p.setup.outputMap n = .key d key) (count : Nat) :
    (grants (joinQueue n .key count p)).listen = (maskGrant d key p).listen := by
  rw [grants_joinQueue_free hqueue hslot hfree, joinQueue_room (by rw [hqueue]; decide),
    grantOne_listen (by simp [KeyEntry.waits]) (by exact hmap)]
  exact maskGrant_listen d key rfl rfl rfl

end

/-! ## The test pull (R179 step 1) -/

theorem mappedKind_key {su : Setup} {n : OutputId} {d : Division} {key : Nat}
    (h : entry su.outputMap n = .key d key) : mappedKind su n = .key := by
  unfold mappedKind
  rw [h]

theorem mappedKind_stop {su : Setup} {n : OutputId} {i : StopId}
    (h : entry su.outputMap n = .stopOn i ∨ entry su.outputMap n = .stopOff i) :
    mappedKind su n = .stop := by
  unfold mappedKind
  rcases h with h | h <;> rw [h]

/-- The TEST with its output pulled, and marked where it was found DISABLED. -/
def Test.pulled (t : Test) (p : Part) : Test :=
  { t with marked := (entry p.keys.entries t.output).state == .disabled, stage := .pulled }

/-- The claims a test pull makes: one on a KEY. -/
def OutputKind.testCount (kind : OutputKind) : Nat := if kind = .key then 1 else 0

/-- The part with the output under test asking for its pull, nothing granted yet. -/
def Part.testRequest (p : Part) (t : Test) : Part :=
  joinQueue t.output (mappedKind p.setup t.output) (mappedKind p.setup t.output).testCount
    (p.withTest (t.pulled p))

theorem testRequest_test (p : Part) (t : Test) :
    (p.testRequest t).guard.test = some (t.pulled p) := RequestsOnly.test (.joinQueue ..)

section
variable {p : Part} {t : Test} (htest : p.guard.test = some t)
include htest

theorem testPull_eq : testPull t.output p =
    if 64 ≤ p.keys.queue.length then setTestStage .judged (p.testRequest t)
    else grants (p.testRequest t) := by
  unfold testPull
  rw [htest]
  rfl

theorem testPull_room (h : p.keys.queue.length < 64) :
    testPull t.output p = grants (p.testRequest t) := by
  rw [testPull_eq htest, if_neg (Nat.not_le.2 h)]

section
variable (hrest : (entry p.keys.entries t.output).state.atRest = true)
include hrest

/-- A test pull that finds no slot free waits at the tail of the queue (R150). -/
theorem testPull_waits (hroom : p.keys.queue.length < 64)
    (hblocked : p.setupLoaded = false ∨ p.keys.slotLimit ≤ slotsInUse p.keys.entries) :
    let kind := mappedKind p.setup t.output
    let q := testPull t.output p
    q.guard.test = some (t.pulled p)
      ∧ EntryPut t.output (.waits kind kind.testCount) (p.keys.queue ++ [t.output]) p q
      ∧ q = { p with keys := q.keys, guard := q.guard } := by
  have hslot := atRest_usesNoSlot hrest
  have hwaits := grants_joinQueue_blocked (p := p.withTest (t.pulled p)) hslot hblocked
    (mappedKind p.setup t.output) (mappedKind p.setup t.output).testCount
  rw [testPull_room htest hroom]
  refine ⟨RequestsOnly.test (.request ..),
    request_waits (p := p.withTest (t.pulled p)) hslot hblocked hroom _ _, ?_⟩
  rw [Part.testRequest, hwaits, joinQueue_room (p := p.withTest (t.pulled p)) hroom]
  rfl

section
variable (hqueue : p.keys.queue = [])
  (hfree : p.setupLoaded = true ∧ slotsInUse p.keys.entries < p.keys.slotLimit)
include hqueue hfree

/-- A test pull that finds a slot free and the queue empty is granted at once (R152). -/
theorem testPull_granted :
    let kind := mappedKind p.setup t.output
    let q := testPull t.output p
    q.guard.test = some (t.pulled p)
      ∧ EntryPut t.output ((KeyEntry.waits kind kind.testCount).granted p.setup p.time) [] p q
      ∧ (entry q.guard.detectors t.output).pullRecord = .empty
      ∧ (entry q.guard.detectors t.output).cipher
        = (if kind = .stop then none else some (cipherEnd p))
      ∧ q = { p with keys := q.keys, guard := q.guard, listen := q.listen } := by
  have hslot := atRest_usesNoSlot hrest
  have hroom : p.keys.queue.length < 64 := by rw [hqueue]; decide
  have hrequest : RequestsOnly (p.withTest (t.pulled p)) (grants (p.testRequest t)) := .request ..
  have hattention : (grants (p.testRequest t)).attention = p.attention :=
    (request_attention ..).trans (if_neg fun h => Nat.not_le.2 hroom h.1)
  obtain ⟨hrecord, hcipher⟩ := request_granted_record (p := p.withTest (t.pulled p)) hqueue hslot
    hfree (mappedKind p.setup t.output) (mappedKind p.setup t.output).testCount
  rw [testPull_room htest hroom]
  exact ⟨hrequest.test, request_granted (p := p.withTest (t.pulled p)) hqueue hslot hfree _ _,
    hrecord, hcipher, hrequest.part hattention⟩

/-- The test pull of a KEY granted at once makes its mask window (R67). -/
theorem testPull_granted_key {d : Division} {key : Nat}
    (hmap : entry p.setup.outputMap t.output = .key d key) :
    (testPull t.output p).listen = (maskGrant d key p).listen := by
  rw [testPull_room htest (by rw [hqueue]; decide), Part.testRequest, mappedKind_key hmap,
    request_granted_mask (p := p.withTest (t.pulled p)) hqueue (atRest_usesNoSlot hrest) hfree hmap]
  exact maskGrant_listen d key rfl rfl rfl

/-- The test pulse of a STOP makes none. -/
theorem testPull_granted_stop (hkind : mappedKind p.setup t.output = .stop) :
    (testPull t.output p).listen = p.listen := by
  rw [testPull_room htest (by rw [hqueue]; decide), Part.testRequest, hkind]
  exact request_granted_listen (p := p.withTest (t.pulled p)) hqueue (atRest_usesNoSlot hrest)
    hfree _

end

/-- A test pull that finds the queue full is refused (R151), and the output counts as judged
(log 23). -/
theorem testPull_refused (hq : QueueExact p.keys) (hfull : 64 ≤ p.keys.queue.length) :
    let q := testPull t.output p
    q.guard.test = some { t.pulled p with stage := .judged }
      ∧ EntryPut t.output KeyEntry.idle p.keys.queue p q
      ∧ (mappedKind p.setup t.output = .key → q.latched .late = true)
      ∧ q = { p with keys := q.keys, guard := q.guard, attention := q.attention } := by
  have hjoin : p.testRequest t = latchIf (mappedKind p.setup t.output == .key) .late
      (setEntry t.output KeyEntry.idle (p.withTest (t.pulled p))) :=
    joinQueue_full (p := p.withTest (t.pulled p)) hfull _ _ _
  have hpulled := testRequest_test p t
  have hput : EntryPut t.output KeyEntry.idle p.keys.queue p (setEntry t.output KeyEntry.idle p) :=
    entryPut_setEntry hq (iff_of_false KeyState.noConfusion (atRest_not_waiting hrest))
  rw [testPull_eq htest, if_pos hfull, setTestStage_of hpulled, hjoin]
  refine ⟨rfl, hput.of_keys ?_, fun hkind => ?_, ?_⟩
  · cases mappedKind p.setup t.output == .key <;> rfl
  · rw [hkind]
    exact latched_latch .late _
  · cases mappedKind p.setup t.output == .key <;> rfl

end

/-- A test pull leaves the TEST at its output and in its range, and the command in flight. -/
theorem testPull_walks :
    (testPull t.output p).guard.test.map (fun x => (x.output, x.last)) = some (t.output, t.last)
      ∧ (testPull t.output p).slot = p.slot ∧ (testPull t.output p).svcLine = p.svcLine := by
  have hpulled := testRequest_test p t
  have hslot : (p.testRequest t).slot = p.slot := by simp [Part.testRequest, Part.withTest]
  have hline : (p.testRequest t).svcLine = p.svcLine := by simp [Part.testRequest, Part.withTest]
  rw [testPull_eq htest]
  split
  · rw [setTestStage_of hpulled]
    exact ⟨rfl, hslot, hline⟩
  · simp [hpulled, hslot, hline, Test.pulled]

end

/-! ## The output taken up next (R179 step 6) -/

section
variable {p : Part} {t : Test}

theorem testAdvance_pulls (h : t.stage = .waiting) : testAdvance t p = testPull t.output p := by
  unfold testAdvance
  rw [h]

theorem testAdvance_takesUp (h : t.stage ≠ .waiting) {m : OutputId}
    (hnext : nextMapped p.setup (t.output.val + 1) t.last = some m) :
    testAdvance t p = takeUpOutput m t.last p := by
  unfold testAdvance
  split
  · contradiction
  · rw [hnext]

theorem testAdvance_ends (h : t.stage ≠ .waiting)
    (hnext : nextMapped p.setup (t.output.val + 1) t.last = none) :
    testAdvance t p = finishTest .ok .none p := by
  unfold testAdvance
  split
  · contradiction
  · rw [hnext]

/-- The output taken up is the one under test, whether it is pulled at once or waited for. -/
theorem takeUpOutput_walks (m last : OutputId) (p : Part) :
    (takeUpOutput m last p).guard.test.map (fun x => (x.output, x.last)) = some (m, last)
      ∧ (takeUpOutput m last p).slot = p.slot ∧ (takeUpOutput m last p).svcLine = p.svcLine := by
  unfold takeUpOutput
  dsimp only
  split
  · exact testPull_walks (t := { last := last, output := m, marked := false, stage := .waiting }) rfl
  · exact ⟨rfl, rfl, rfl⟩

theorem exec_testNextOutput {s : State} (htest : s.part.guard.test = some t)
    (hrest : (entry s.part.keys.entries t.output).state.atRest = true) :
    exec .testNextOutput s = .next { s with part := testAdvance t s.part } := by
  have hdue : testAdvanceDue s.part = true := by
    unfold testAdvanceDue
    rw [htest]
    exact hrest
  have hstep : testNextStep s.part = testAdvance t s.part := by
    unfold testNextStep
    rw [htest]
  show s.onPart (fun p => whenDue (testAdvanceDue p) testNextStep p) = _
  rw [onPart_eq, whenDue_of hdue, hstep]

end

/-! ## The output under test judged (R179 steps 3 to 5) -/

/-- The entry of an output as a release puts it in SETTLE (R156). -/
def Part.settling (p : Part) (n : OutputId) : KeyEntry :=
  settled (p.time + 1000 * p.setup.settle) (entry p.keys.entries n)

/-- The record of a fault of an output found now (R177). -/
def Part.faultRecord (p : Part) (n : OutputId) (kind : FaultKind) : FaultRecord :=
  { output := n, kind := kind, retries := (entry p.guard.detectors n).retryCount
    clock := faultClock p.clock, passed := false }

/-- The record of an output that passes its TEST now (R179 step 4). -/
def Part.passRecord (p : Part) (n : OutputId) : FaultRecord :=
  { output := n, kind := .none, retries := 0, clock := faultClock p.clock, passed := true }

/-- An output under test that is done with: DISABLED again where it was marked (R179 step 5). -/
def Test.metBy (t : Test) (held : KeyEntry) : KeyEntry :=
  if t.marked then { KeyEntry.idle with state := .disabled } else held

/-- The output under test is judged: its entry is put, what is asked of the Service Unit joins the
line, and the output does not wait. -/
structure TestJudged (t : Test) (e : KeyEntry) (asked : List SvcAccess) (p q : Part) : Prop where
  put : entry q.keys.entries t.output = e
  judged : q.guard.test = some { t with stage := .judged }
  line : q.svcLine = p.svcLine ++ asked
  unqueued : t.output ∉ q.keys.queue

section
variable {t : Test} {e : KeyEntry} {asked : List SvcAccess} {p q : Part}

theorem TestJudged.grants (h : TestJudged t e asked p q) : TestJudged t e asked p (grants q) where
  put := (grants_entry h.unqueued).trans h.put
  judged := (grants_test q).trans h.judged
  line := (grants_svcLine q).trans h.line
  unqueued := grants_queue h.unqueued

theorem TestJudged.of_line {r : Part} (h : TestJudged t e asked r q)
    (hline : r.svcLine = p.svcLine) : TestJudged t e asked p q where
  put := h.put
  judged := h.judged
  line := hline ▸ h.line
  unqueued := h.unqueued

/-- An entry put that does not wait judges its output. -/
theorem TestJudged.of_setEntry (he : e.state ≠ .waiting)
    (hjudged : q.guard.test = some { t with stage := .judged })
    (hline : q.svcLine = p.svcLine ++ asked) : TestJudged t e asked p (setEntry t.output e q) where
  put := by simp
  judged := hjudged
  line := hline
  unqueued := not_queued_setEntry he q

/-- A pass settles the output and asks for the record of a pass (R179 step 4). -/
theorem TestJudged.passes
    (h : TestJudged t (p.settling t.output) [.faultRead (p.passRecord t.output)] p q) :
    entry q.keys.entries t.output = p.settling t.output
      ∧ q.guard.test = some { t with stage := .judged }
      ∧ ∃ r : FaultRecord, r.output = t.output ∧ r.kind = .none ∧ r.retries = 0 ∧ r.passed = true
        ∧ r.clock = min (p.clock / 1000) 65535 ∧ q.svcLine = p.svcLine ++ [.faultRead r] :=
  ⟨h.put, h.judged, _, rfl, rfl, rfl, rfl, rfl, h.line⟩

/-- A failure asks for the record of its fault (R179 step 5). -/
theorem TestJudged.fails {kind : FaultKind} (h : TestJudged t (t.metBy (p.settling t.output))
      [.faultRead (p.faultRecord t.output kind)] p q) :
    entry q.keys.entries t.output = t.metBy (p.settling t.output)
      ∧ q.guard.test = some { t with stage := .judged }
      ∧ ∃ r : FaultRecord, r.output = t.output ∧ r.kind = kind
        ∧ r.retries = (entry p.guard.detectors t.output).retryCount ∧ r.passed = false
        ∧ r.clock = min (p.clock / 1000) 65535 ∧ q.svcLine = p.svcLine ++ [.faultRead r] :=
  ⟨h.put, h.judged, _, rfl, rfl, rfl, rfl, rfl, h.line⟩

/-- A pulse that its verdict leaves in PULSE ends in OFF (R155). -/
theorem TestJudged.endPulse (h : TestJudged t e asked p q) :
    TestJudged t (if e.state = .pulse then KeyEntry.idle else e) asked p (endPulse t.output q) := by
  unfold Machine.endPulse
  rw [h.put]
  split
  · exact .of_setEntry (by decide) h.judged h.line
  · exact h

/-- With a setup in force the release of a driven output under test settles it for the setup's
time. -/
theorem testRelease_driven {n : OutputId} (hloaded : p.setupLoaded = true) (h : p.driven n) :
    testRelease n p = Machine.grants (setEntry n (p.settling n) p) := by
  rw [Part.settling, ← enterSettle_loaded hloaded]
  exact if_pos h

/-- What a verdict makes of the entry of the output under test, from the entry that settles and the
one it holds. -/
def Test.verdictEntry (t : Test) (settling held : KeyEntry) : Verdict → KeyEntry
  | .pass => settling
  | .weak => t.metBy settling
  | .open => t.metBy settling
  | .noVerdict => t.metBy held

/-- The entry a verdict leaves in PULSE is the one held, and it goes OFF (R155). -/
theorem verdictEntry_pulsed (t : Test) {settling held : KeyEntry}
    (hsettling : settling.state ≠ .pulse) (hheld : held.state = .pulse) (v : Verdict) :
    (if (t.verdictEntry settling held v).state = .pulse then KeyEntry.idle
      else t.verdictEntry settling held v) = t.verdictEntry settling KeyEntry.idle v := by
  have hmet : (t.metBy settling).state ≠ .pulse := by
    unfold Test.metBy
    split
    · decide
    · exact hsettling
  match v with
  | .pass => exact if_neg hsettling
  | .weak | .open => exact if_neg hmet
  | .noVerdict =>
    unfold Test.verdictEntry Test.metBy
    by_cases hmarked : t.marked = true
    · simp [hmarked]
    · simp [hmarked, hheld]

/-- What a verdict on the output under test asks of the Service Unit: one record, none without a good
frame. -/
def Part.verdictAsks (p : Part) (n : OutputId) : Verdict → List SvcAccess
  | .pass => [.faultRead (p.passRecord n)]
  | .weak => [.faultRead (p.faultRecord n .weak)]
  | .open => [.faultRead (p.faultRecord n .open)]
  | .noVerdict => []

section
variable (hdriven : p.driven t.output) (hjudged : q.guard.test = some { t with stage := .judged })
  (hline : q.svcLine = p.svcLine ++ asked) (hkeys : q.keys = p.keys)
include hdriven hjudged hline hkeys

/-- A marked output that has been judged is disabled again (R179 step 5). -/
theorem testJudged_disable {held : KeyEntry} (hmarked : t.marked = true) :
    TestJudged t (t.metBy held) asked p (disableOutput t.output q) := by
  have hactive : (entry q.keys.entries t.output).state ≠ .disabled := hkeys ▸ driven_active hdriven
  rw [disableOutput_active hactive, Test.metBy, if_pos hmarked]
  exact (TestJudged.of_setEntry KeyState.noConfusion hjudged hline).grants

/-- One that is not disabled again is released (R179 steps 4, 5). -/
theorem testJudged_release (hloaded : q.setupLoaded = true)
    (hsettling : q.settling t.output = p.settling t.output) :
    TestJudged t (p.settling t.output) asked p (testRelease t.output q) := by
  have hdriven : q.driven t.output := by rwa [Part.driven, hkeys]
  rw [testRelease_driven hloaded hdriven, hsettling]
  exact (TestJudged.of_setEntry KeyState.noConfusion hjudged hline).grants

end

section
variable (htest : p.guard.test = some t) (hdriven : p.driven t.output)
include htest hdriven

theorem testFailure_judged (hloaded : p.setupLoaded = true) (kind : FaultKind) :
    TestJudged t (t.metBy (p.settling t.output)) [.faultRead (p.faultRecord t.output kind)] p
      (testFailure t.output kind p) := by
  have hrecorded : (recordFault t.output kind p).guard.test = some t := htest
  unfold testFailure
  dsimp only
  rw [setTestStage_of hrecorded, marks_of htest]
  by_cases hmarked : t.marked = true
  · rw [if_pos hmarked]
    exact testJudged_disable (q := (recordFault t.output kind p).withTest _) hdriven rfl rfl rfl
      hmarked
  · rw [if_neg hmarked, Test.metBy, if_neg hmarked]
    exact testJudged_release hdriven rfl rfl rfl hloaded rfl

theorem testPass_judged (hloaded : p.setupLoaded = true) : TestJudged t (p.settling t.output)
    [.faultRead (p.passRecord t.output)] p (testPass t.output p) := by
  have hrecorded : (recordPass t.output p).guard.test = some t := htest
  unfold testPass
  rw [setTestStage_of hrecorded]
  exact testJudged_release hdriven rfl rfl rfl hloaded rfl

/-- With no good frame seen an output not marked stays as it is (log 23). -/
theorem testNoVerdict_judged (hout : t.output ∉ p.keys.queue) :
    TestJudged t (t.metBy (entry p.keys.entries t.output)) [] p (testNoVerdict t.output p) := by
  have hline : p.svcLine = p.svcLine ++ [] := (List.append_nil _).symm
  unfold testNoVerdict
  dsimp only
  rw [setTestStage_of htest, marks_of htest]
  by_cases hmarked : t.marked = true
  · rw [if_pos hmarked]
    exact testJudged_disable (q := p.withTest _) hdriven rfl hline rfl hmarked
  · rw [if_neg hmarked, Test.metBy, if_neg hmarked]
    exact ⟨rfl, rfl, hline, hout⟩

theorem testVerdict_judged (hloaded : p.setupLoaded = true) (hout : t.output ∉ p.keys.queue)
    (v : Verdict) :
    TestJudged t (t.verdictEntry (p.settling t.output) (entry p.keys.entries t.output) v)
      (p.verdictAsks t.output v) p (testVerdict t.output v p) := by
  match v with
  | .pass => exact testPass_judged htest hdriven hloaded
  | .weak => exact testFailure_judged htest hdriven hloaded .weak
  | .open => exact testFailure_judged htest hdriven hloaded .open
  | .noVerdict => exact testNoVerdict_judged htest hdriven hout

end
end

/-! ## The ends of its pull-in and its pulse, and OVER (R154, R155, R173, R174) -/

section
variable {p : Part} {n : OutputId}

/-- An output settles from HOLD at the end of its pull-in as it would from PULL (R156). -/
theorem pulledIn_settling (p : Part) (n : OutputId) : (p.pulledIn n).settling n = p.settling n := by
  rw [Part.settling, pulledIn_entry]
  rfl

theorem pulledIn_faultRecord (h : (entry p.keys.entries n).state = .pull) (kind : FaultKind) :
    (p.pulledIn n).faultRecord n kind = p.faultRecord n kind := by
  rw [Part.faultRecord, pulledIn_retryCount h]
  rfl

theorem pulledIn_verdictAsks (h : (entry p.keys.entries n).state = .pull) (v : Verdict) :
    (p.pulledIn n).verdictAsks n v = p.verdictAsks n v := by
  match v with
  | .pass | .noVerdict => rfl
  | .weak | .open => exact congrArg (fun r => [SvcAccess.faultRead r]) (pulledIn_faultRecord h _)

theorem sensed_faultRecord (boards : Nat) (senses : List Sense) (kind : FaultKind) :
    (p.sensed boards senses).faultRecord n kind = p.faultRecord n kind := by
  rw [Part.faultRecord, sensed_retryCount]
  rfl

end

section
variable {p : Part} {t : Test} (htest : p.guard.test = some t) (hstage : t.stage ≠ .waiting)
  (hloaded : p.setupLoaded = true)
include htest hstage hloaded

/-- The verdict of the record meets the output under test in HOLD (R154, R179). -/
theorem pullInCourse_judged (hpull : (entry p.keys.entries t.output).state = .pull) :
    let v := keyVerdict (entry p.guard.detectors t.output).pullRecord
    TestJudged t (t.verdictEntry (p.settling t.output)
        { entry p.keys.entries t.output with state := .hold, timer := none } v)
      (p.verdictAsks t.output v) p (pullInCourse t.output p) := by
  intro v
  have htested : (p.pulledIn t.output).guard.test = some t := htest
  have hcourse : pullInCourse t.output p
      = grants (testVerdict t.output v (p.pulledIn t.output)) := by
    unfold pullInCourse
    rw [tests_of htest hstage]
    rfl
  have hjudged := testVerdict_judged htested (pulledIn_driven p _) hloaded
    (pulledIn_not_queued p _) v
  rw [pulledIn_settling, pulledIn_entry, pulledIn_verdictAsks hpull] at hjudged
  rw [hcourse]
  exact hjudged.grants.of_line rfl

/-- The verdict of the record meets the output under test in PULSE, and one it leaves there goes OFF
(R155, R179). -/
theorem pulseCourse_judged (hq : QueueExact p.keys)
    (hpulse : (entry p.keys.entries t.output).state = .pulse) :
    let v := stopVerdict (entry p.guard.detectors t.output).pullRecord
    TestJudged t (t.verdictEntry (p.settling t.output) KeyEntry.idle v)
      (p.verdictAsks t.output v) p (pulseCourse t.output p) := by
  intro v
  have hcourse : pulseCourse t.output p
      = grants (endPulse t.output (testVerdict t.output v p)) := by
    unfold pulseCourse
    rw [tests_of htest hstage]
    rfl
  have hout : t.output ∉ p.keys.queue := fun hin => by
    have hwaits := (hq.1 _).1 hin
    rw [hpulse] at hwaits
    cases hwaits
  rw [hcourse, ← verdictEntry_pulsed t (settling := p.settling t.output) KeyState.noConfusion
    hpulse]
  exact (testVerdict_judged htest (.inr (.inr hpulse)) hloaded hout v).endPulse.grants

/-- An OVER of the driven output under test, alone in its frame, fails the TEST there (R179 steps 3,
5). -/
theorem judgeFrame_tested {boards : Nat} {senses : List Sense} (hdriven : p.driven t.output)
    (hboard : t.output.val < 32 * boards) (hlast : entry p.chain.lastDrive t.output ≠ .off)
    (hover : senses.getD t.output.val .none = .over)
    (hothers : ∀ m : OutputId, m ≠ t.output → senses.getD m.val .none ≠ .over) :
    TestJudged t (t.metBy (p.settling t.output)) [.faultRead (p.faultRecord t.output .over)] p
      (judgeFrame boards senses p) := by
  have htested : (p.sensed boards senses).guard.test = some t := htest
  have hfails : outputFault t.output .over (p.sensed boards senses)
      = testFailure t.output .over (p.sensed boards senses) :=
    if_pos (tests_of htested hstage)
  have hsensed : (p.sensed boards senses).driven t.output := hdriven
  have hjudged := testFailure_judged htested hsensed hloaded .over
  rw [sensed_faultRecord] at hjudged
  rw [judgeFrame_single (tripped_iff.2 ⟨hboard, hover, hlast, hdriven⟩)
    fun m hm => tripped_false_of_sense (hothers m hm), hfails]
  exact hjudged.of_line rfl

end

end Sys2Proof.Machine

open Sys2Proof Sys2Proof.Machine

/-- Settles O54: the test pull is a request like any other; the next mapped output of the range goes
on with the walk, and where there is none it ends; a verdict or an OVER judges the output under test. -/
theorem testWalksItsRange : Obligations.TestWalksItsRange := by
  intro s t htest hq p n e d settling metBy judged passes fails full nextFree
  refine ⟨?waits, ?granted, ?refused, ?ends, ?next, ?pullIn, ?pulse, ?trips⟩
  case waits =>
    intro hrest hstage hroom hfull
    have hexec := exec_testNextOutput htest hrest
    rw [testAdvance_pulls hstage] at hexec
    obtain ⟨hpulled, ⟨hentry, hqueue, -⟩, hpart⟩ := testPull_waits htest hrest hroom hfull
    refine completes_of_exec hexec ⟨hpulled, hqueue, ?_, fun v k hmap => ?_, hpart⟩
    · rw [hentry]
      rfl
    · rw [hentry, mappedKind_key hmap]
      rfl
  case granted =>
    intro hrest hstage hqueue hfree
    have hexec := exec_testNextOutput htest hrest
    have hfree := not_not.1 (mt (blocked_iff p).2 hfree)
    rw [testAdvance_pulls hstage] at hexec
    obtain ⟨hpulled, ⟨hentry, hempty, -⟩, hrecord, hcipher, hpart⟩ :=
      testPull_granted htest hrest hqueue hfree
    refine completes_of_exec hexec
      ⟨hpulled, hempty, fun v k hmap => ?_, fun ⟨i, hmap⟩ => ?_, hpart⟩
    · rw [mappedKind_key hmap] at hentry hcipher
      exact ⟨hentry, hrecord, hcipher, testPull_granted_key htest hrest hqueue hfree hmap⟩
    · have hkind := mappedKind_stop hmap
      rw [hkind] at hentry hcipher
      exact ⟨hentry, hrecord, hcipher, testPull_granted_stop htest hrest hqueue hfree hkind⟩
  case refused =>
    intro hrest hstage hfull
    have hexec := exec_testNextOutput htest hrest
    rw [testAdvance_pulls hstage] at hexec
    obtain ⟨hjudged, ⟨hentry, hqueue, -⟩, hlate, hpart⟩ := testPull_refused htest hrest hq hfull
    exact completes_of_exec hexec
      ⟨hentry, hqueue, hjudged, fun v k hmap => hlate (mappedKind_key hmap), hpart⟩
  case ends =>
    intro hrest hstage hunused
    have hexec := exec_testNextOutput htest hrest
    have hnone : nextMapped p.setup (n.val + 1) t.last = none :=
      nextMapped_none fun m ⟨hlow, hhigh, hmapped⟩ =>
        hmapped (hunused m hlow (Nat.lt_succ_of_le hhigh))
    rw [testAdvance_ends hstage hnone] at hexec
    refine completes_of_exec hexec ⟨finishTest_test .., ?_, setSlotLimit_slotTarget .., ?_⟩
    · rw [finishTest_part]
      exact ⟨rfl, rfl⟩
    · rw [finishTest_part]
      exact ⟨rfl, rfl⟩
  case next =>
    intro m hrest hstage hlow hhigh hmapped hunused
    have hexec := exec_testNextOutput htest hrest
    have hnext : nextMapped p.setup (n.val + 1) t.last = some m :=
      nextMapped_some ⟨hlow, hhigh, hmapped⟩ fun x hx ⟨hxlow, _, hxmapped⟩ =>
        hxmapped (hunused x hxlow hx)
    rw [testAdvance_takesUp hstage hnext] at hexec
    exact completes_of_exec hexec (takeUpOutput_walks m t.last p)
  case pullIn =>
    intro end_ hpull htimer htime hpulled hloaded
    have hstage : t.stage ≠ .waiting := by rw [hpulled]; decide
    have hjudged := pullInCourse_judged htest hstage hloaded hpull
    refine completes_of_exec (exec_pullInEnd (timerDue_of hpull htimer htime))
      ⟨fun hrecord => ?_, fun hrecord => ?_, fun hrecord => ?_, fun hrecord => ?_⟩
      <;> rw [hrecord] at hjudged
    · exact hjudged.passes
    · exact hjudged.fails
    · exact hjudged.fails
    · exact ⟨hjudged.judged, hjudged.line.trans (List.append_nil _), hjudged.put⟩
  case pulse =>
    intro end_ hpulse htimer htime hpulled hloaded
    have hstage : t.stage ≠ .waiting := by rw [hpulled]; decide
    have hjudged := pulseCourse_judged htest hstage hloaded hq hpulse
    refine completes_of_exec (exec_pulseEnd (timerDue_of hpulse htimer htime))
      ⟨fun hrecord => ?_, fun hrecord => ?_, fun hrecord => ?_⟩
    · rcases hrecord with hrecord | hrecord <;> rw [hrecord] at hjudged <;> exact hjudged.passes
    · rw [hrecord] at hjudged
      exact hjudged.fails
    · rw [hrecord] at hjudged
      exact ⟨hjudged.judged, hjudged.line.trans (List.append_nil _), hjudged.put⟩
  case trips =>
    intro f senses hframe hloaded hpulled hstate hlast hboard hover hothers
    have hstage : t.stage ≠ .waiting := by rw [hpulled]; decide
    have hdriven : p.driven n := hstate.imp_right .inr
    have hjudged := judgeFrame_tested htest hstage hloaded hdriven hboard hlast hover hothers
    have hexec := exec_frameComplete (some f.seq) senses s
    rw [frameCompleteStep_good senses hframe rfl] at hexec
    exact completes_of_exec hexec hjudged.fails
end

section
/-! SUPPORT. What every command answers: one of the shapes of a meaning (a step of the part, a step of the
part that reads the store, a step of both, RESET), each with a next state whose queue stands. -/

open Sys2Proof

namespace Sys2Proof.Machine

/-! ## Shapes of a meaning and the queue -/

section
variable {s : State} {answer : Result}

/-- A step of the part answers with a part of its own and the store it found. -/
theorem withResult_of_onPart {f : Part → Part} (h : answer = s.onPart f) :
    ∃ r, answer = .next (s.withResult r) := ⟨(s.store, f s.part), h⟩

/-- So does a step of the part that reads the store. -/
theorem withResult_of_onPartMem {f : Memory → Part → Part} (h : answer = s.onPartMem f) :
    ∃ r, answer = .next (s.withResult r) := ⟨(s.store, f s.store s.part), h⟩

/-- A step of store and part answers with both of its own. -/
theorem withResult_of_onStore {f : Memory → Part → Memory × Part} (h : answer = s.onStore f) :
    ∃ r, answer = .next (s.withResult r) := ⟨f s.store s.part, h⟩

/-- RESET answers with the store cleared and the part as right after RESETn (R2). -/
theorem execReset_withResult (s : State) :
    execReset s = .next (s.withResult ([], resetPart s.part)) := rfl

end

/-- A store and a part put in place leave the queue of the commands that wait. -/
@[simp] theorem withResult_pending (s : State) (r : Memory × Part) :
    (s.withResult r).pending = s.pending := rfl

/-! ## Commands -/

/-- Every command answers a next state that puts a store and a part in place of those it found. The
commands not named change the part alone. -/
theorem exec_withResult (c : Instr) (s : State) :
    ∃ r : Memory × Part, exec c s = .next (s.withResult r) := by
  cases c with
  | reset => exact ⟨_, execReset_withResult s⟩
  | clearingEnd | arbiterServe | setupCopyComplete | unknown | closingComplete | stampExchange
  | nowWriteComplete | faultRecordWritten => exact withResult_of_onStore rfl
  | setup => exact withResult_of_onPartMem (answer := execSetup s) rfl
  | start => exact withResult_of_onPartMem (answer := execStart s) rfl
  | lookTimerExpiry => exact withResult_of_onPartMem (answer := execLookTimerExpiry s) rfl
  | _ => exact withResult_of_onPart rfl

/-- A step with a command at the front of the queue runs it on the queue's rest. -/
theorem step_of_front {s : State} {c : Instr} {rest : List Instr} (h : s.pending = c :: rest) :
    step s = exec c { s with pending := rest } := by
  unfold step
  rw [h]

end Sys2Proof.Machine

open Sys2Proof Sys2Proof.Machine

/-- Settles O3: a command puts a store and a part in place, and neither holds the queue. -/
theorem everyCommandAnswersNext : Obligations.EveryCommandAnswersNext := by
  intro c s
  obtain ⟨r, hexec⟩ := exec_withResult c s
  exact ⟨s.withResult r, hexec, withResult_pending s r⟩

/-- Settles O1: the queue with `c` put before it has `c` at its front and the queue as its rest. -/
theorem stepRunsTheFrontCommand : Obligations.StepRunsTheFrontCommand := by
  intro c s
  have hfront : { s with pending := c :: s.pending }.pending = c :: s.pending := rfl
  exact step_of_front hfront
end
